-- ==== Sys2Proof/Word.lean ====
section
/-! DEFINITION. The word types of MFX-CORE (rules R8, R9, R90): names for bit vectors, and nothing else.
A sample, a parameter value or a coefficient is a binary32 *pattern*; its arithmetic is in `Machine/Float.lean`. -/

namespace Sys2Proof

/-- A byte of a byte-wide transport (rule R63). -/
abbrev Byte := BitVec 8

/-- A 32-bit word: a response, a sample pattern, a configuration word, a delay-RAM word (rules R62, R67). -/
abbrev Word32 := BitVec 32

/-- A 64-bit command word (rule R90). -/
abbrev Command := BitVec 64

/-- `F32` of rule R9: an IEEE 754 binary32 value, held as its 32-bit pattern.
`f32(b)` and `bits(v)` of rule R9 are therefore both the identity. -/
abbrev F32 := BitVec 32

end Sys2Proof
end

