-- ==== Sys2Proof/Syntax.lean ====
section
/-! DEFINITION. The commands of MFX-CORE: one constructor for each row of `spec/opcode_table.json` (rules R94, R95).
A constructor carries the operand fields its row leaves free, at the width the format `C64` gives them (rule R90). -/

namespace Sys2Proof

/-- The command queue a word is taken from (rules R6, R67): `CQ` of the control writer, `AQ` of the audio side. -/
inductive Queue where
  | control
  | audio
  deriving DecidableEq, Repr

/-- The commands (rule R94). `setp…` are the 34 rows `SETP.<name>` that fix `idx` (rule R95); `setp` is the catch-all row,
whose `pid` is an unrecognised identifier (`Instr.wellFormed`). -/
inductive Instr where
  /-- R320 -/
  | nop
  /-- R321: `idx` configuration index, `data` raw -/
  | cfgw (idx : BitVec 8) (data : Word32)
  /-- R324 -/
  | prepare
  /-- R326 -/
  | reset
  /-- R250: `n` frames -/
  | process (n : BitVec 16)
  /-- R149: channel and sample -/
  | rbwr (ch : BitVec 8) (sample : F32)
  /-- R150: channel and offset as U32 -/
  | rbrd (ch : BitVec 8) (offsetBack : Word32)
  /-- R151 -/
  | rbclr
  /-- R327 -/
  | clrerr
  /-- R276: `SETP` of pid 0x00 `input` -/
  | setpInput (value : F32)
  /-- R277: `SETP` of pid 0x01 `output` -/
  | setpOutput (value : F32)
  /-- R278: `SETP` of pid 0x02 `drive` -/
  | setpDrive (value : F32)
  /-- R279: `SETP` of pid 0x03 `mix` -/
  | setpMix (value : F32)
  /-- R280: `SETP` of pid 0x04 `distOutput` -/
  | setpDistOutput (value : F32)
  /-- R281: `SETP` of pid 0x05 `delayTimeLeft` -/
  | setpDelayTimeLeft (value : F32)
  /-- R282: `SETP` of pid 0x06 `delayTimeRight` -/
  | setpDelayTimeRight (value : F32)
  /-- R283: `SETP` of pid 0x07 `feedback` -/
  | setpFeedback (value : F32)
  /-- R284: `SETP` of pid 0x08 `delayMix` -/
  | setpDelayMix (value : F32)
  /-- R285: `SETP` of pid 0x09 `pan` -/
  | setpPan (value : F32)
  /-- R286: `SETP` of pid 0x0A `leftPan` -/
  | setpLeftPan (value : F32)
  /-- R287: `SETP` of pid 0x0B `rightPan` -/
  | setpRightPan (value : F32)
  /-- R288: `SETP` of pid 0x0C `lfoFreq` -/
  | setpLfoFreq (value : F32)
  /-- R289: `SETP` of pid 0x0D `lfoDepth` -/
  | setpLfoDepth (value : F32)
  /-- R290: `SETP` of pid 0x0E `band0_frequency` -/
  | setpBand0Frequency (value : F32)
  /-- R291: `SETP` of pid 0x0F `band0_gain` -/
  | setpBand0Gain (value : F32)
  /-- R292: `SETP` of pid 0x10 `band0_q` -/
  | setpBand0Q (value : F32)
  /-- R293: `SETP` of pid 0x11 `band1_frequency` -/
  | setpBand1Frequency (value : F32)
  /-- R294: `SETP` of pid 0x12 `band1_gain` -/
  | setpBand1Gain (value : F32)
  /-- R295: `SETP` of pid 0x13 `band1_q` -/
  | setpBand1Q (value : F32)
  /-- R296: `SETP` of pid 0x14 `band2_frequency` -/
  | setpBand2Frequency (value : F32)
  /-- R297: `SETP` of pid 0x15 `band2_gain` -/
  | setpBand2Gain (value : F32)
  /-- R298: `SETP` of pid 0x16 `band2_q` -/
  | setpBand2Q (value : F32)
  /-- R299: `SETP` of pid 0x17 `band3_frequency` -/
  | setpBand3Frequency (value : F32)
  /-- R300: `SETP` of pid 0x18 `band3_gain` -/
  | setpBand3Gain (value : F32)
  /-- R301: `SETP` of pid 0x19 `band3_q` -/
  | setpBand3Q (value : F32)
  /-- R302: `SETP` of pid 0x20 `distortiontype` -/
  | setpDistortiontype (value : F32)
  /-- R303: `SETP` of pid 0x21 `delaytype` -/
  | setpDelaytype (value : F32)
  /-- R304: `SETP` of pid 0x22 `lfoEnabled` -/
  | setpLfoEnabled (value : F32)
  /-- R305: `SETP` of pid 0x23 `panMode` -/
  | setpPanMode (value : F32)
  /-- R306: `SETP` of pid 0x24 `band0_enabled` -/
  | setpBand0Enabled (value : F32)
  /-- R307: `SETP` of pid 0x25 `band1_enabled` -/
  | setpBand1Enabled (value : F32)
  /-- R308: `SETP` of pid 0x26 `band2_enabled` -/
  | setpBand2Enabled (value : F32)
  /-- R309: `SETP` of pid 0x27 `band3_enabled` -/
  | setpBand3Enabled (value : F32)
  /-- R273: `SETP` of an unrecognised pid -/
  | setp (pid : BitVec 8) (value : F32)
  /-- R274 -/
  | getp (pid : BitVec 8)
  /-- R275 -/
  | getc (pid : BitVec 8)
  /-- R328 -/
  | status
  /-- R322 -/
  | cfgr (idx : BitVec 8)
  deriving DecidableEq, Repr

end Sys2Proof
end

