-- ==== Sys2Proof/WellFormed.lean ====
section
/-! DEFINITION. Which terms of `Instr` are commands. Every operand field has the width of its field in the word, so one
check is left: the catch-all `setp` stands for unrecognised identifiers only, since the `SETP.<name>` rows take precedence
(rule R95). -/

namespace Sys2Proof

/-- The identifiers 0x00 to 0x19 and 0x20 to 0x27 (rules R95, R270). -/
def recognisedPid (pid : BitVec 8) : Bool :=
  decide (pid.toNat ≤ 0x19) || (decide (0x20 ≤ pid.toNat) && decide (pid.toNat ≤ 0x27))

/-- The term is a command of the opcode table. -/
def Instr.wellFormed : Instr → Bool
  | .setp pid _ => !recognisedPid pid
  | _ => true

end Sys2Proof
end

