-- ==== Sys2Proof/Decode.lean ====
section
/-! DEFINITION. The command encoding (rules R63, R90 to R98): fields, decoder, encoder, the classes of commands, and the
byte-wide transport. The decoder is total: every word is a command or illegal, with the reason (rules R92, R98). -/

namespace Sys2Proof

/-! ### The format `C64` (rule R90) -/

/-- Bits 63:56. -/
def opField (w : Command) : BitVec 8 := w.extractLsb' 56 8
/-- Bits 55:48. -/
def idxField (w : Command) : BitVec 8 := w.extractLsb' 48 8
/-- Bits 47:32. -/
def auxField (w : Command) : BitVec 16 := w.extractLsb' 32 16
/-- Bits 31:0. -/
def dataField (w : Command) : Word32 := w.extractLsb' 0 32

/-- A word from its four fields, `op` in the most significant place. -/
def packFields (op idx : BitVec 8) (aux : BitVec 16) (data : Word32) : Command := op ++ idx ++ aux ++ data

/-- Why a word is illegal (rule R98). -/
inductive IllegalWord where
  /-- `op` is reserved: 0x09 to 0x0F and 0x15 to 0xFF. -/
  | reservedOpcode (op : BitVec 8)
  /-- A must-be-zero field of a recognised opcode is not zero (rule R96). -/
  | nonzeroField (op : BitVec 8)
  /-- An engine-class command taken from `CQ` (rule R97). -/
  | engineOnControl (op : BitVec 8)
  deriving DecidableEq, Repr

/-! ### The decoder -/

/-- The command of opcode 0x10 (rule R95): the row `SETP.<name>` of a recognised `pid`, else the catch-all. -/
def decodeSetp (pid : BitVec 8) (value : F32) : Instr :=
  match pid.toNat with
  | 0x00 => .setpInput value
  | 0x01 => .setpOutput value
  | 0x02 => .setpDrive value
  | 0x03 => .setpMix value
  | 0x04 => .setpDistOutput value
  | 0x05 => .setpDelayTimeLeft value
  | 0x06 => .setpDelayTimeRight value
  | 0x07 => .setpFeedback value
  | 0x08 => .setpDelayMix value
  | 0x09 => .setpPan value
  | 0x0A => .setpLeftPan value
  | 0x0B => .setpRightPan value
  | 0x0C => .setpLfoFreq value
  | 0x0D => .setpLfoDepth value
  | 0x0E => .setpBand0Frequency value
  | 0x0F => .setpBand0Gain value
  | 0x10 => .setpBand0Q value
  | 0x11 => .setpBand1Frequency value
  | 0x12 => .setpBand1Gain value
  | 0x13 => .setpBand1Q value
  | 0x14 => .setpBand2Frequency value
  | 0x15 => .setpBand2Gain value
  | 0x16 => .setpBand2Q value
  | 0x17 => .setpBand3Frequency value
  | 0x18 => .setpBand3Gain value
  | 0x19 => .setpBand3Q value
  | 0x20 => .setpDistortiontype value
  | 0x21 => .setpDelaytype value
  | 0x22 => .setpLfoEnabled value
  | 0x23 => .setpPanMode value
  | 0x24 => .setpBand0Enabled value
  | 0x25 => .setpBand1Enabled value
  | 0x26 => .setpBand2Enabled value
  | 0x27 => .setpBand3Enabled value
  | _ => .setp pid value

/-- `i` if the must-be-zero fields of its opcode are zero (rule R96). -/
def ifZero (op : BitVec 8) (fieldsZero : Bool) (i : Instr) : Except IllegalWord Instr :=
  if fieldsZero then .ok i else .error (.nonzeroField op)

/-- The command that four fields stand for (rules R94, R96). -/
def decodeFields (op idx : BitVec 8) (aux : BitVec 16) (data : Word32) : Except IllegalWord Instr :=
  match op.toNat with
  | 0x00 => ifZero op (idx == 0 && aux == 0 && data == 0) .nop
  | 0x01 => ifZero op (aux == 0) (.cfgw idx data)
  | 0x02 => ifZero op (idx == 0 && aux == 0 && data == 0) .prepare
  | 0x03 => ifZero op (idx == 0 && aux == 0 && data == 0) .reset
  | 0x04 => ifZero op (idx == 0 && data == 0) (.process aux)
  | 0x05 => ifZero op (aux == 0) (.rbwr idx data)
  | 0x06 => ifZero op (aux == 0) (.rbrd idx data)
  | 0x07 => ifZero op (idx == 0 && aux == 0 && data == 0) .rbclr
  | 0x08 => ifZero op (idx == 0 && aux == 0 && data == 0) .clrerr
  | 0x10 => ifZero op (aux == 0) (decodeSetp idx data)
  | 0x11 => ifZero op (aux == 0 && data == 0) (.getp idx)
  | 0x12 => ifZero op (aux == 0 && data == 0) (.getc idx)
  | 0x13 => ifZero op (idx == 0 && aux == 0 && data == 0) .status
  | 0x14 => ifZero op (aux == 0 && data == 0) (.cfgr idx)
  | _ => .error (.reservedOpcode op)

/-- The command a word stands for, whatever queue it is on (rule R92). -/
def decode (w : Command) : Except IllegalWord Instr := decodeFields (opField w) (idxField w) (auxField w) (dataField w)

/-! ### Classes (rules R94, R97) -/

/-- Engine class: accepted from `AQ` only. Every other command is control class. -/
def Instr.engineClass : Instr → Bool
  | .cfgw _ _ | .prepare | .reset | .process _ | .rbwr _ _ | .rbrd _ _ | .rbclr | .clrerr => true
  | .nop | .getp _ | .getc _ | .status | .cfgr _ => false
  | .setpInput _ | .setpOutput _ | .setpDrive _ | .setpMix _ | .setpDistOutput _ | .setpDelayTimeLeft _
    | .setpDelayTimeRight _ | .setpFeedback _ | .setpDelayMix _ | .setpPan _ | .setpLeftPan _ | .setpRightPan _
    | .setpLfoFreq _ | .setpLfoDepth _ | .setpBand0Frequency _ | .setpBand0Gain _ | .setpBand0Q _
    | .setpBand1Frequency _ | .setpBand1Gain _ | .setpBand1Q _ | .setpBand2Frequency _ | .setpBand2Gain _
    | .setpBand2Q _ | .setpBand3Frequency _ | .setpBand3Gain _ | .setpBand3Q _ | .setpDistortiontype _
    | .setpDelaytype _ | .setpLfoEnabled _ | .setpPanMode _ | .setpBand0Enabled _ | .setpBand1Enabled _
    | .setpBand2Enabled _ | .setpBand3Enabled _ => false
  | .setp _ _ => false

/-- Commands that produce one response word (rules R94, R387). -/
def Instr.responds : Instr → Bool
  | .rbrd _ _ | .getp _ | .getc _ | .status | .cfgr _ => true
  | .nop | .cfgw _ _ | .prepare | .reset | .process _ | .rbwr _ _ | .rbclr | .clrerr => false
  | .setpInput _ | .setpOutput _ | .setpDrive _ | .setpMix _ | .setpDistOutput _ | .setpDelayTimeLeft _
    | .setpDelayTimeRight _ | .setpFeedback _ | .setpDelayMix _ | .setpPan _ | .setpLeftPan _ | .setpRightPan _
    | .setpLfoFreq _ | .setpLfoDepth _ | .setpBand0Frequency _ | .setpBand0Gain _ | .setpBand0Q _
    | .setpBand1Frequency _ | .setpBand1Gain _ | .setpBand1Q _ | .setpBand2Frequency _ | .setpBand2Gain _
    | .setpBand2Q _ | .setpBand3Frequency _ | .setpBand3Gain _ | .setpBand3Q _ | .setpDistortiontype _
    | .setpDelaytype _ | .setpLfoEnabled _ | .setpPanMode _ | .setpBand0Enabled _ | .setpBand1Enabled _
    | .setpBand2Enabled _ | .setpBand3Enabled _ => false
  | .setp _ _ => false

/-- What a word taken from queue `q` is: a command that queue may carry, or illegal (rules R97, R98). -/
def classify (q : Queue) (w : Command) : Except IllegalWord Instr :=
  match decode w with
  | .error e => .error e
  | .ok i => if i.engineClass && decide (q = .control) then .error (.engineOnControl (opField w)) else .ok i

/-! ### The encoder (rules R90, R94) -/

/-- The word of a command. -/
def encode : Instr → Command
  | .nop => packFields 0x00 0 0 0
  | .cfgw idx data => packFields 0x01 idx 0 data
  | .prepare => packFields 0x02 0 0 0
  | .reset => packFields 0x03 0 0 0
  | .process n => packFields 0x04 0 n 0
  | .rbwr ch sample => packFields 0x05 ch 0 sample
  | .rbrd ch offsetBack => packFields 0x06 ch 0 offsetBack
  | .rbclr => packFields 0x07 0 0 0
  | .clrerr => packFields 0x08 0 0 0
  | .setpInput v => packFields 0x10 0x00 0 v
  | .setpOutput v => packFields 0x10 0x01 0 v
  | .setpDrive v => packFields 0x10 0x02 0 v
  | .setpMix v => packFields 0x10 0x03 0 v
  | .setpDistOutput v => packFields 0x10 0x04 0 v
  | .setpDelayTimeLeft v => packFields 0x10 0x05 0 v
  | .setpDelayTimeRight v => packFields 0x10 0x06 0 v
  | .setpFeedback v => packFields 0x10 0x07 0 v
  | .setpDelayMix v => packFields 0x10 0x08 0 v
  | .setpPan v => packFields 0x10 0x09 0 v
  | .setpLeftPan v => packFields 0x10 0x0A 0 v
  | .setpRightPan v => packFields 0x10 0x0B 0 v
  | .setpLfoFreq v => packFields 0x10 0x0C 0 v
  | .setpLfoDepth v => packFields 0x10 0x0D 0 v
  | .setpBand0Frequency v => packFields 0x10 0x0E 0 v
  | .setpBand0Gain v => packFields 0x10 0x0F 0 v
  | .setpBand0Q v => packFields 0x10 0x10 0 v
  | .setpBand1Frequency v => packFields 0x10 0x11 0 v
  | .setpBand1Gain v => packFields 0x10 0x12 0 v
  | .setpBand1Q v => packFields 0x10 0x13 0 v
  | .setpBand2Frequency v => packFields 0x10 0x14 0 v
  | .setpBand2Gain v => packFields 0x10 0x15 0 v
  | .setpBand2Q v => packFields 0x10 0x16 0 v
  | .setpBand3Frequency v => packFields 0x10 0x17 0 v
  | .setpBand3Gain v => packFields 0x10 0x18 0 v
  | .setpBand3Q v => packFields 0x10 0x19 0 v
  | .setpDistortiontype v => packFields 0x10 0x20 0 v
  | .setpDelaytype v => packFields 0x10 0x21 0 v
  | .setpLfoEnabled v => packFields 0x10 0x22 0 v
  | .setpPanMode v => packFields 0x10 0x23 0 v
  | .setpBand0Enabled v => packFields 0x10 0x24 0 v
  | .setpBand1Enabled v => packFields 0x10 0x25 0 v
  | .setpBand2Enabled v => packFields 0x10 0x26 0 v
  | .setpBand3Enabled v => packFields 0x10 0x27 0 v
  | .setp pid v => packFields 0x10 pid 0 v
  | .getp pid => packFields 0x11 pid 0 0
  | .getc pid => packFields 0x12 pid 0 0
  | .status => packFields 0x13 0 0 0
  | .cfgr idx => packFields 0x14 idx 0 0

/-! ### Byte-wide transport (rule R63): least significant byte first -/

/-- The eight bytes of a command word. -/
def commandBytes (w : Command) : List Byte :=
  [w.extractLsb' 0 8, w.extractLsb' 8 8, w.extractLsb' 16 8, w.extractLsb' 24 8,
   w.extractLsb' 32 8, w.extractLsb' 40 8, w.extractLsb' 48 8, w.extractLsb' 56 8]

/-- The next command word of a byte stream and the bytes after it; none if fewer than eight bytes are there. -/
def takeCommandBytes : List Byte → Option (Command × List Byte)
  | b0 :: b1 :: b2 :: b3 :: b4 :: b5 :: b6 :: b7 :: rest =>
    some (b7 ++ b6 ++ b5 ++ b4 ++ b3 ++ b2 ++ b1 ++ b0, rest)
  | _ => none

/-- The four bytes of a response word or a sample word. -/
def wordBytes (w : Word32) : List Byte :=
  [w.extractLsb' 0 8, w.extractLsb' 8 8, w.extractLsb' 16 8, w.extractLsb' 24 8]

/-- The next 32-bit word of a byte stream and the bytes after it. -/
def takeWordBytes : List Byte → Option (Word32 × List Byte)
  | b0 :: b1 :: b2 :: b3 :: rest => some (b3 ++ b2 ++ b1 ++ b0, rest)
  | _ => none

/-- Decode the next command of a byte stream: none if it is cut short, else the decoder's answer and the rest. -/
def decodeBytes (bytes : List Byte) : Option (Except IllegalWord Instr × List Byte) :=
  (takeCommandBytes bytes).map fun p => (decode p.1, p.2)

/-! ### The host's view of the opcode table -/

/-- The instruction the decoder reads from a command whose bits are `w`, as `spec/opcode_table.json` numbers them: bit 0
is the least significant bit of the one 64-bit word, and the bits above `nbits` are 0. -/
def decodeTableWord (nbits w : Nat) : Option Instr :=
  (decodeBytes (commandBytes (BitVec.ofNat 64 (w % 2 ^ nbits)))).bind fun p => p.1.toOption

end Sys2Proof
end

