-- ==== Sys2Proof/Machine/FloatOrder.lean ====
section
/-! DEFINITION. Binary32 patterns: their fields, classes, sign operations and comparisons (rules R9, R11).
No operation of this file rounds. -/

namespace Sys2Proof.Machine

/-- Bit 31: the sign (rule R9). -/
def fsign (v : F32) : Bool := v.getLsbD 31

/-- Bits 30:0: exponent and fraction, the pattern without its sign. -/
def fmagBits (v : F32) : Nat := v.toNat % 2 ^ 31

/-- Bits 30:23: the biased exponent. -/
def fexpo (v : F32) : Nat := fmagBits v / 2 ^ 23

/-- Bits 22:0: the fraction. -/
def ffrac (v : F32) : Nat := v.toNat % 2 ^ 23

/-- The pattern of `+∞` without its sign. -/
def infBits : Nat := 0x7F800000

def isNaN (v : F32) : Bool := decide (infBits < fmagBits v)
def isInf (v : F32) : Bool := decide (fmagBits v = infBits)
def isFinite (v : F32) : Bool := decide (fmagBits v < infBits)
/-- `+0.0` or `−0.0`. -/
def isZero (v : F32) : Bool := decide (fmagBits v = 0)

/-- Unary minus: the sign bit flips (used by rule R126). -/
def fneg (v : F32) : F32 := v ^^^ 0x80000000#32

/-- Absolute value: the sign bit clears (used to state the `NUM` properties of rule R12). -/
def fabs (v : F32) : F32 := v &&& 0x7FFFFFFF#32

/-- The place of a non-NaN pattern in the IEEE order; both zeros have place 0 (`−0.0 == +0.0`, rule R11). -/
def orderKey (v : F32) : Int := if fsign v then -(fmagBits v : Int) else (fmagBits v : Int)

/-- IEEE `<`: false when an operand is NaN (rule R11). -/
def flt (a b : F32) : Bool := !isNaN a && !isNaN b && decide (orderKey a < orderKey b)

/-- IEEE `≤`: false when an operand is NaN (rule R11). -/
def fle (a b : F32) : Bool := !isNaN a && !isNaN b && decide (orderKey a ≤ orderKey b)

/-- IEEE `==`: false when an operand is NaN (rule R11). -/
def feq (a b : F32) : Bool := !isNaN a && !isNaN b && decide (orderKey a = orderKey b)

/-- IEEE `≥`. -/
def fge (a b : F32) : Bool := fle b a

/-- `fmax(v, lo)` of rule R11, with `lo` not NaN; a NaN `v` passes. -/
def fmaxBound (v lo : F32) : F32 := if flt v lo then lo else v

/-- `fmin(v, hi)` of rule R11, with `hi` not NaN; a NaN `v` passes. -/
def fminBound (v hi : F32) : F32 := if flt hi v then hi else v

/-- `fclamp(v, lo, hi) = fmin(fmax(v, lo), hi)` (rule R11); `fclamp(NaN, lo, hi)` is that NaN. -/
def fclamp (v lo hi : F32) : F32 := fminBound (fmaxBound v lo) hi

/-- Equal as far as a model compares results: the same pattern, or both NaN (treatment of U5). -/
def sameResult (a b : F32) : Bool := decide (a = b) || (isNaN a && isNaN b)

/-! ### The small lemmas of these definitions -/

theorem fmagBits_lt (v : F32) : fmagBits v < 2 ^ 31 := Nat.mod_lt _ (by decide)

@[simp] theorem fmagBits_fneg (v : F32) : fmagBits (fneg v) = fmagBits v := by
  unfold fmagBits fneg
  rw [BitVec.toNat_xor, Nat.xor_mod_two_pow]
  simp

@[simp] theorem fsign_fneg (v : F32) : fsign (fneg v) = !fsign v := by
  have h : (0x80000000#32).getLsbD 31 = true := by decide
  simp only [fsign, fneg, BitVec.getLsbD_xor, h, Bool.xor_true]

@[simp] theorem fneg_fneg (v : F32) : fneg (fneg v) = v := by
  simp [fneg]

@[simp] theorem isNaN_fneg (v : F32) : isNaN (fneg v) = isNaN v := by simp [isNaN]
@[simp] theorem isInf_fneg (v : F32) : isInf (fneg v) = isInf v := by simp [isInf]
@[simp] theorem isFinite_fneg (v : F32) : isFinite (fneg v) = isFinite v := by simp [isFinite]
@[simp] theorem isZero_fneg (v : F32) : isZero (fneg v) = isZero v := by simp [isZero]

@[simp] theorem orderKey_fneg (v : F32) : orderKey (fneg v) = -orderKey v := by
  unfold orderKey
  cases h : fsign v <;> simp [h]

/-- A pattern is its sign bit and its magnitude bits. -/
theorem toNat_eq_sign_mag (v : F32) : v.toNat = (if fsign v then 2 ^ 31 else 0) + fmagBits v := by
  have hv : v.toNat < 2 ^ 32 := v.isLt
  have hs : fsign v = decide (2 ^ 31 ≤ v.toNat) := by
    have := BitVec.msb_eq_decide v
    simpa [fsign, BitVec.msb_eq_getLsbD_last] using this
  unfold fmagBits
  rw [hs]
  by_cases h : 2 ^ 31 ≤ v.toNat
  · simp only [h, decide_true, if_true]; omega
  · simp only [h, decide_false, Bool.false_eq_true, if_false]; omega

/-- A zero is one of the two zero patterns. -/
theorem eq_zero_of_isZero {v : F32} (h : isZero v = true) : v = if fsign v then 0x80000000#32 else 0#32 := by
  have hm : fmagBits v = 0 := by simpa [isZero] using h
  have := toNat_eq_sign_mag v
  apply BitVec.eq_of_toNat_eq
  rw [this, hm]
  cases fsign v <;> rfl

theorem isNaN_eq_false_of_isFinite {v : F32} (h : isFinite v = true) : isNaN v = false := by
  simp only [isFinite, isNaN, decide_eq_true_eq, decide_eq_false_iff_not] at *
  omega

theorem not_isNaN_of_fle_left {a b : F32} (h : fle a b = true) : isNaN a = false := by
  simp only [fle, Bool.and_eq_true, Bool.not_eq_true'] at h; exact h.1.1

theorem not_isNaN_of_fle_right {a b : F32} (h : fle a b = true) : isNaN b = false := by
  simp only [fle, Bool.and_eq_true, Bool.not_eq_true'] at h; exact h.1.2

theorem fle_iff {a b : F32} : fle a b = true ↔ isNaN a = false ∧ isNaN b = false ∧ orderKey a ≤ orderKey b := by
  simp [fle, and_assoc]

theorem flt_iff {a b : F32} : flt a b = true ↔ isNaN a = false ∧ isNaN b = false ∧ orderKey a < orderKey b := by
  simp [flt, and_assoc]

theorem feq_iff {a b : F32} : feq a b = true ↔ isNaN a = false ∧ isNaN b = false ∧ orderKey a = orderKey b := by
  simp [feq, and_assoc]

/-- `fclamp` of a non-NaN value between ordered non-NaN bounds lies between them. -/
theorem fclamp_in_range {v lo hi : F32} (hv : isNaN v = false) (h : fle lo hi = true) :
    fle lo (fclamp v lo hi) = true ∧ fle (fclamp v lo hi) hi = true := by
  obtain ⟨hl, hh, hk⟩ := fle_iff.mp h
  have e1 : flt v lo = decide (orderKey v < orderKey lo) := by simp [flt, hv, hl]
  have e2 : flt hi lo = decide (orderKey hi < orderKey lo) := by simp [flt, hh, hl]
  have e3 : flt hi v = decide (orderKey hi < orderKey v) := by simp [flt, hh, hv]
  unfold fclamp fminBound fmaxBound
  by_cases h1 : orderKey v < orderKey lo
  · have h2 : ¬orderKey hi < orderKey lo := by omega
    simp [e1, e2, h1, h2, fle_iff, hl, hh, hk]
  · by_cases h3 : orderKey hi < orderKey v
    · simp [e1, e3, h1, h3, fle_iff, hl, hh, hk]
    · simp [e1, e3, h1, h3, fle_iff, hl, hh, hv]; omega

/-- `fclamp` passes a NaN (rule R11). -/
theorem fclamp_of_isNaN {v : F32} (lo hi : F32) (hv : isNaN v = true) : fclamp v lo hi = v := by
  simp [fclamp, fminBound, fmaxBound, flt, hv]

/-- `fclamp` leaves a value that is inside the bounds as it is, bit for bit. -/
theorem fclamp_of_inside {v lo hi : F32} (h1 : fle lo v = true) (h2 : fle v hi = true) : fclamp v lo hi = v := by
  obtain ⟨_, _, hk1⟩ := fle_iff.mp h1
  obtain ⟨_, _, hk2⟩ := fle_iff.mp h2
  have e1 : flt v lo = false := by simp only [flt, Bool.and_eq_false_imp, decide_eq_false_iff_not]; omega
  have e2 : flt hi v = false := by simp only [flt, Bool.and_eq_false_imp, decide_eq_false_iff_not]; omega
  simp [fclamp, fminBound, fmaxBound, e1, e2]

end Sys2Proof.Machine
end

