-- ==== Sys2Proof/Config.lean ====
section
/-! DEFINITION. The configuration of the model: the parameters of rule R7 and the constants of rule R13 at the values
this hardware takes, and the three things the spec leaves open, each a constant WITHOUT a body: the numerics record
`NUM` (rule R12, U3), the pattern of a NaN that an arithmetic operation produces (U5), and the schedule of control
commands (rules R73, R74, U2). Nothing can be proved of the three beyond the properties their types carry. -/

namespace Sys2Proof.Config

open Sys2Proof.Machine (isNaN isInf isFinite isZero fneg fabs fle flt feq fsign sameResult orderKey fmagBits infBits)

/-! ### Rule R13: constants, and the decimal literals of the rules as their nearest binary32 patterns (rule R11) -/

def zero : F32 := 0x00000000#32
def one : F32 := 0x3F800000#32
def minusOne : F32 := 0xBF800000#32
def half : F32 := 0x3F000000#32
def two : F32 := 0x40000000#32
def minusTwo : F32 := 0xC0000000#32
def thousand : F32 := 0x447A0000#32
/-- `PI` (rule R13). -/
def pi : F32 := 0x40490FDB#32
/-- `TWO_PI` (rule R13). -/
def twoPi : F32 := 0x40C90FDB#32
/-- `HALF_PI` (rule R13). -/
def halfPi : F32 := 0x3FC90FDB#32
/-- `QUARTER_PI` (rule R13). -/
def quarterPi : F32 := 0x3F490FDB#32
/-- `TWO_OVER_PI` (rule R13). -/
def twoOverPi : F32 := 0x3F22F983#32
/-- `+∞` and `−∞`. -/
def inf : F32 := 0x7F800000#32
def minusInf : F32 := 0xFF800000#32

/-! ### Rule R7: the parameters -/

/-- `NCH_MAX`: the largest channel count. -/
def nchMax : Nat := 2
/-- `NBANDS`: equalizer bands. -/
def nBands : Nat := 4
/-- `NSP`: smoothed-parameter registers. -/
def nSp : Nat := 26
/-- `CAP_MAX`: the largest capacity of a channel. -/
def capMax : Nat := 384000
/-- `SR_MIN`, 8000.0 Hz. -/
def srMin : F32 := 0x45FA0000#32
/-- `SR_MAX`, 192000.0 Hz. -/
def srMax : F32 := 0x483B8000#32
/-- `MAX_DELAY_MS_LIMIT`, 2000.0 ms. -/
def maxDelayMsLimit : F32 := 0x44FA0000#32
/-- `MAX_BLOCK_LIMIT`. -/
def maxBlockLimit : Nat := 65535
/-- `RAMP_TIME_DEFAULT`, 0.02 s. -/
def rampTimeDefault : F32 := 0x3CA3D70A#32
/-- `RAMP_TIME_LIMIT`, 1.0 s. -/
def rampTimeLimit : F32 := one
/-- `EXP_K`, 6.9077554. -/
def expK : F32 := 0x40DD0C55#32
/-- `DCB_FC`, 10.0 Hz. -/
def dcbFc : F32 := 0x41200000#32
/-- `CLIP_LEVEL`, 0.99. -/
def clipLevel : F32 := 0x3F7D70A4#32
/-- `SAT_LO_DB`, 0.0 dB. -/
def satLoDb : F32 := zero
/-- `SAT_SCALE = (SAT_HI_DB − SAT_LO_DB)/24 = 0.5` with `SAT_HI_DB = 12.0` (rule R166). -/
def satScale : F32 := half
/-- `SAT_ASYM`, 0.2. -/
def satAsym : F32 := 0x3E4CCCCD#32
/-- `EQ_F_LO`, 20.0 Hz. -/
def eqFLo : F32 := 0x41A00000#32
/-- `EQ_F_HI_RATIO`, 0.49. -/
def eqFHiRatio : F32 := 0x3EFAE148#32
/-- `EQ_Q_LO`, 0.1. -/
def eqQLo : F32 := 0x3DCCCCCD#32
/-- `EQ_Q_HI`, 20.0. -/
def eqQHi : F32 := 0x41A00000#32
/-- `EQ_G_LO`, −24.0 dB. -/
def eqGLo : F32 := 0xC1C00000#32
/-- `EQ_G_HI`, +24.0 dB. -/
def eqGHi : F32 := 0x41C00000#32
/-- The largest LFO rate, 20.0 Hz (rule R204). -/
def lfoRateHi : F32 := 0x41A00000#32

/-! ### Rule R12: the numerics record -/

/-- The eight functions of rule R12. -/
structure NumFns where
  sin : F32 → F32
  cos : F32 → F32
  atan : F32 → F32
  tanh : F32 → F32
  sinh : F32 → F32
  exp : F32 → F32
  db2lin : F32 → F32
  db2a : F32 → F32

/-- `P_MONO` for one function: monotone non-decreasing in the IEEE order. -/
def Monotone (f : F32 → F32) : Prop := ∀ x y, fle x y = true → fle (f x) (f y) = true

/-- `P_ODD` for one function. The result is compared as rule U5 compares results: where `f x` is a NaN, only that both
sides are NaN is asked. -/
def Odd (f : F32 → F32) : Prop := ∀ x, isNaN x = false → sameResult (f (fneg x)) (fneg (f x)) = true

/-- `P_RANGE` for one of the exponentials: positive and finite on finite operands of magnitude at most 88. -/
def PositiveTo88 (f : F32 → F32) : Prop :=
  ∀ x, isFinite x = true → fle (fabs x) 0x42B00000#32 = true → isFinite (f x) = true ∧ flt zero (f x) = true

/-- The named properties of rule R12 that a model assumes of `NUM`; `P_ACC(k)`, which has a parameter,
is `Sys2Proof.Machine.NumAccurate` (Machine/Accuracy.lean), a premise that a claim can take. -/
structure NumFns.Props (n : NumFns) : Prop where
  /-- `P_EXACT0` -/
  exact0_odd : ∀ z, isZero z = true → n.sin z = z ∧ n.atan z = z ∧ n.tanh z = z ∧ n.sinh z = z
  /-- `P_EXACT0` -/
  exact0_one : ∀ z, isZero z = true → n.cos z = one ∧ n.exp z = one ∧ n.db2lin z = one ∧ n.db2a z = one
  /-- `P_ODD` -/
  odd : Odd n.sin ∧ Odd n.atan ∧ Odd n.tanh ∧ Odd n.sinh
  /-- `P_RANGE`: `|sin x| ≤ 1` and `|cos x| ≤ 1` on finite operands -/
  range_circular : ∀ x, isFinite x = true → fle (fabs (n.sin x)) one = true ∧ fle (fabs (n.cos x)) one = true
  /-- `P_RANGE`: `|tanh x| ≤ 1` and `|atan x| ≤ HALF_PI` on non-NaN operands -/
  range_bounded : ∀ x, isNaN x = false → fle (fabs (n.tanh x)) one = true ∧ fle (fabs (n.atan x)) halfPi = true
  /-- `P_RANGE`: the exponentials -/
  range_exp : PositiveTo88 n.exp ∧ PositiveTo88 n.db2lin ∧ PositiveTo88 n.db2a
  /-- `P_INF` -/
  inf_tanh : n.tanh inf = one ∧ n.tanh minusInf = minusOne
  /-- `P_INF` -/
  inf_atan : n.atan inf = halfPi ∧ n.atan minusInf = fneg halfPi
  /-- `P_INF` -/
  inf_sinh : n.sinh inf = inf ∧ n.sinh minusInf = minusInf ∧ ∀ x, isNaN x = false → isNaN (n.sinh x) = false
  /-- `P_INF` -/
  inf_circular : ∀ x, isInf x = true → isNaN (n.sin x) = true ∧ isNaN (n.cos x) = true
  /-- `P_NAN` -/
  nan : ∀ x, isNaN x = true →
    isNaN (n.sin x) = true ∧ isNaN (n.cos x) = true ∧ isNaN (n.atan x) = true ∧ isNaN (n.tanh x) = true ∧
    isNaN (n.sinh x) = true ∧ isNaN (n.exp x) = true ∧ isNaN (n.db2lin x) = true ∧ isNaN (n.db2a x) = true
  /-- `P_MONO` -/
  mono : Monotone n.tanh ∧ Monotone n.atan ∧ Monotone n.sinh ∧ Monotone n.db2lin ∧ Monotone n.db2a ∧ Monotone n.exp

/-! A record with all these properties exists, so that assuming them is assuming something possible. It is only used to
show the type below inhabited: the record the machine uses is the constant `num`, of which it says nothing. -/

/-- Zero, with the sign of the operand. -/
def NumFns.signedZero (x : F32) : F32 := if fsign x then 0x80000000#32 else 0#32
/-- A function that is odd, bounded and monotone: `top` at `+∞`, `−top` at `−∞`, a zero between. -/
def NumFns.step (top x : F32) : F32 :=
  if isNaN x then x else if isInf x then (if fsign x then fneg top else top) else NumFns.signedZero x
/-- A function that is finite on finite operands only. -/
def NumFns.finiteOnly (f : F32 → F32) (x : F32) : F32 :=
  if isNaN x then x else if isInf x then 0x7FC00000#32 else f x
/-- A positive constant, NaN on NaN. -/
def NumFns.constOne (x : F32) : F32 := if isNaN x then x else one
/-- The record of the existence proof. -/
def NumFns.example0 : NumFns where
  sin := NumFns.finiteOnly NumFns.signedZero
  cos := NumFns.finiteOnly fun _ => one
  atan := NumFns.step halfPi
  tanh := NumFns.step one
  sinh := NumFns.step inf
  exp := NumFns.constOne
  db2lin := NumFns.constOne
  db2a := NumFns.constOne

theorem NumFns.signedZero_of_isZero {z : F32} (h : isZero z = true) : NumFns.signedZero z = z :=
  (Machine.eq_zero_of_isZero h).symm

theorem NumFns.not_nan_of_isZero {z : F32} (h : isZero z = true) : isNaN z = false ∧ isInf z = false := by
  have h0 : fmagBits z = 0 := by simpa [isZero] using h
  simp [isNaN, isInf, infBits, h0]

theorem NumFns.orderKey_signedZero (x : F32) : isNaN (signedZero x) = false ∧ orderKey (signedZero x) = 0 := by
  unfold signedZero; cases fsign x <;> decide

theorem NumFns.not_nan_of_finite {x : F32} (h : isFinite x = true) : isNaN x = false ∧ isInf x = false := by
  simp only [isFinite, isNaN, isInf, decide_eq_true_eq, decide_eq_false_iff_not] at *
  omega

theorem NumFns.step_odd (top : F32) : Odd (NumFns.step top) := by
  intro x hx
  unfold step signedZero
  simp only [Machine.isNaN_fneg, hx, Machine.isInf_fneg, Machine.fsign_fneg, Bool.false_eq_true, if_false]
  cases isInf x <;> cases fsign x <;>
    simp only [Bool.false_eq_true, if_false, if_true, Bool.not_true, Bool.not_false, Machine.fneg_fneg, sameResult,
      decide_true, Bool.true_or] <;> decide

theorem NumFns.orderKey_of_isInf {x : F32} (h : isInf x = true) :
    orderKey x = if fsign x then -(infBits : Int) else (infBits : Int) := by
  simp only [isInf, decide_eq_true_eq] at h
  simp only [orderKey, h]

theorem NumFns.orderKey_of_finite {x : F32} (h1 : isNaN x = false) (h2 : isInf x = false) :
    -(infBits : Int) < orderKey x ∧ orderKey x < (infBits : Int) := by
  simp only [isNaN, isInf, decide_eq_false_iff_not] at h1 h2
  unfold orderKey; cases fsign x <;> simp <;> omega

theorem NumFns.step_mono {top : F32} (h : isNaN top = false) (h0 : 0 ≤ orderKey top) : Monotone (NumFns.step top) := by
  intro x y hxy
  obtain ⟨hx, hy, hk⟩ := Machine.fle_iff.mp hxy
  rw [Machine.fle_iff]
  have zx := orderKey_signedZero x
  have zy := orderKey_signedZero y
  unfold step
  simp only [hx, hy]
  cases ix : isInf x <;> cases iy : isInf y
  · simp [zx, zy]
  · have := orderKey_of_isInf iy; have := orderKey_of_finite hx ix
    cases sy : fsign y <;> simp [sy, h, zx, h0] at * ; omega
  · have := orderKey_of_isInf ix; have := orderKey_of_finite hy iy
    cases sx : fsign x <;> simp [sx, h, zy, h0] at * ; omega
  · have := orderKey_of_isInf ix; have := orderKey_of_isInf iy
    have hi : (0 : Int) < infBits := by decide
    cases sx : fsign x <;> cases sy : fsign y <;> simp [sx, sy, h, h0] at * <;> omega

theorem NumFns.constOne_mono : Monotone NumFns.constOne := by
  intro x y hxy
  obtain ⟨hx, hy, _⟩ := Machine.fle_iff.mp hxy
  simp only [constOne, hx, hy, Bool.false_eq_true, if_false]; decide

theorem NumFns.constOne_positive : PositiveTo88 NumFns.constOne := by
  intro x hx _
  simp only [constOne, (not_nan_of_finite hx).1, Bool.false_eq_true, if_false]; decide

theorem NumFns.example0_props : NumFns.Props NumFns.example0 where
  exact0_odd z hz := by
    obtain ⟨h1, h2⟩ := not_nan_of_isZero hz
    simp [example0, step, finiteOnly, h1, h2, signedZero_of_isZero hz]
  exact0_one z hz := by
    obtain ⟨h1, h2⟩ := not_nan_of_isZero hz
    simp [example0, finiteOnly, constOne, h1, h2]
  odd := by
    refine ⟨?_, step_odd _, step_odd _, step_odd _⟩
    intro x hx
    simp only [example0, finiteOnly, Machine.isNaN_fneg, hx, Machine.isInf_fneg, signedZero, Machine.fsign_fneg, Bool.false_eq_true,
      if_false]
    cases isInf x <;> cases fsign x <;> decide
  range_circular x hx := by
    obtain ⟨h1, h2⟩ := not_nan_of_finite hx
    simp only [example0, finiteOnly, h1, h2, signedZero, Bool.false_eq_true, if_false]
    cases fsign x <;> decide
  range_bounded x hx := by
    simp only [example0, step, hx, signedZero, Bool.false_eq_true, if_false]
    cases isInf x <;> cases fsign x <;> decide
  range_exp := ⟨constOne_positive, constOne_positive, constOne_positive⟩
  inf_tanh := by decide
  inf_atan := by decide
  inf_sinh := by
    refine ⟨by decide, by decide, fun x hx => ?_⟩
    simp only [example0, step, hx, signedZero, Bool.false_eq_true, if_false]
    cases isInf x <;> cases fsign x <;> decide
  inf_circular x hx := by
    have h : isNaN x = false := by
      simp only [isInf, isNaN, decide_eq_true_eq, decide_eq_false_iff_not] at *; omega
    simp only [example0, finiteOnly, h, hx, Bool.false_eq_true, if_false, if_true]; decide
  nan x hx := by simp [example0, finiteOnly, step, constOne, hx]
  mono := ⟨step_mono (by decide) (by decide), step_mono (by decide) (by decide), step_mono (by decide) (by decide),
    constOne_mono, constOne_mono, constOne_mono⟩

/-- `NUM`: eight functions with the named properties of rule R12. -/
structure Num where
  fns : NumFns := NumFns.example0
  props : fns.Props := by exact NumFns.example0_props
  deriving Inhabited

/-- The numerics record of this hardware: a FREE VALUE. Rule R12 computes none of the eight functions and lets a model
assume the named properties only, and `num.props` is all that can be proved of them (log entry 5). -/
opaque num : Num

/-! ### U5: the pattern of a produced NaN -/

/-- The operations of rule R11 that can produce a NaN. -/
inductive FloatOp where
  | add | sub | mul | div | sqrt
  deriving DecidableEq, Repr

/-- A choice of NaN pattern for each operation and operands. -/
structure NanChoice where
  pattern : FloatOp → F32 → F32 → F32 := fun _ _ _ => 0x7FC00000#32
  isNaN_pattern : ∀ op a b, isNaN (pattern op a b) = true := by exact fun _ _ _ => rfl
  deriving Inhabited

/-- Which NaN an operation produces: a FREE VALUE (U5: "The payload and sign of a NaN: any value"). It is a function of
the operation and its operands because decision D48 keeps every operation a pure function of its operands (DEDUCED, log entry 6). -/
opaque nan : NanChoice

/-! ### U2: the schedule of control commands -/

/-- At the `n`-th decision between a waiting `CQ` command and the audio side, `serve n` says that the `CQ` command is
performed. `fair` is rule R74: no `CQ` command waits for ever while decisions are taken. -/
structure Schedule where
  serve : Nat → Bool := fun _ => true
  fair : ∀ n, ∃ m, n ≤ m ∧ serve m = true := by exact fun n => ⟨n, Nat.le_refl n, rfl⟩
  deriving Inhabited

/-- The schedule of a run: a FREE VALUE (rule R73: "A model leaves this open in its step relation"; log entry 7). -/
opaque schedule : Schedule

end Sys2Proof.Config
end

