-- ==== Sys2Proof/Machine/Float.lean ====
section
/-! DEFINITION. The F32 operators and conversions of rules R11 and R14: round to nearest, ties to even, one rounding per
operation, subnormals kept. Every finite binary32 value is a whole multiple of `2^-149`, so an operation is the exact
integer (or quotient of integers) counted in that unit, narrowed once by `roundMag`. -/

namespace Sys2Proof.Machine

/-! ### Exact values and the one rounding -/

/-- `|v|` of a finite pattern, counted in units of `2^-149`. -/
def fmag (v : F32) : Nat :=
  if fexpo v = 0 then ffrac v else (2 ^ 23 + ffrac v) * 2 ^ (fexpo v - 1)

/-- The value of a finite pattern, counted in units of `2^-149`. -/
def fvalue (v : F32) : Int := if fsign v then -(fmag v : Int) else (fmag v : Int)

/-- The magnitude bits (30:0) of the binary32 value nearest to `num / den` units of `2^-149`, ties to even; a magnitude
that rounds beyond the largest finite value gives infinity (rule R11). `den` is positive wherever it is used. -/
def roundMag (num den : Nat) : Nat :=
  let q := num / den
  let j := if q < 2 ^ 24 then 0 else Nat.log2 q - 23
  let d := den * 2 ^ j
  let sig := num / d
  let rem := num % d
  let up := decide (d < 2 * rem) || (decide (2 * rem = d) && decide (sig % 2 = 1))
  min infBits (j * 2 ^ 23 + (if up then sig + 1 else sig))

/-- A pattern from its sign and its magnitude bits. -/
def withSign (s : Bool) (m : Nat) : F32 := BitVec.ofNat 32 ((if s then 2 ^ 31 else 0) + m)

/-- The pattern of a NaN produced by an operation on these operands (U5: a free value). -/
def producedNaN (op : Config.FloatOp) (a b : F32) : F32 := Config.nan.pattern op a b

/-! ### `+` and `−` -/

/-- The IEEE sum of two patterns; `nan` is the pattern answered where the sum is a NaN. An exact zero sum of values
that are not both `−0.0` is `+0.0`. -/
def sumWith (nan a b : F32) : F32 :=
  if isNaN a || isNaN b then nan
  else if isInf a then (if isInf b && (fsign a != fsign b) then nan else a)
  else if isInf b then b
  else
    let v := fvalue a + fvalue b
    if v = 0 then withSign (fsign a && fsign b) 0
    else withSign (decide (v < 0)) (roundMag v.natAbs 1)

/-- `a + b` (rule R11). -/
def fadd (a b : F32) : F32 := sumWith (producedNaN .add a b) a b

/-- `a − b` (rule R11). -/
def fsub (a b : F32) : F32 := sumWith (producedNaN .sub a b) a (fneg b)

/-! ### `*`, `/` and `fsqrt` -/

/-- `a * b` (rule R11). -/
def fmul (a b : F32) : F32 :=
  let nan := producedNaN .mul a b
  let s := fsign a != fsign b
  if isNaN a || isNaN b then nan
  else if isInf a || isInf b then (if isZero a || isZero b then nan else withSign s infBits)
  else withSign s (roundMag (fmag a * fmag b) (2 ^ 149))

/-- `a / b` (rule R11). -/
def fdiv (a b : F32) : F32 :=
  let nan := producedNaN .div a b
  let s := fsign a != fsign b
  if isNaN a || isNaN b then nan
  else if isInf a then (if isInf b then nan else withSign s infBits)
  else if isInf b then withSign s 0
  else if isZero b then (if isZero a then nan else withSign s infBits)
  else withSign s (roundMag (fmag a * 2 ^ 149) (fmag b))

/-- The binary digits of the integer square root, from place `k − 1` down. -/
def isqrtFrom (n : Nat) : Nat → Nat → Nat
  | 0, r => r
  | k + 1, r => if (r + 2 ^ k) * (r + 2 ^ k) ≤ n then isqrtFrom n k (r + 2 ^ k) else isqrtFrom n k r

/-- `⌊√n⌋`. -/
def isqrt (n : Nat) : Nat := isqrtFrom n (Nat.log2 n / 2 + 1) 0

/-- `fsqrt`, the correctly rounded square root (rule R11): the integer root with one more bit that says whether the root
is exact. -/
def fsqrt (v : F32) : F32 :=
  if isNaN v then producedNaN .sqrt v v
  else if isZero v then v
  else if fsign v then producedNaN .sqrt v v
  else if isInf v then v
  else
    let n := fmag v * 2 ^ 149
    let r := isqrt n
    withSign false (roundMag (2 * r + (if r * r = n then 0 else 1)) 2)

/-! ### Conversions (rules R11, R14) -/

/-- `u2f(n)`: the nearest F32 of an unsigned integer, ties to even (rule R11). -/
def u2f (n : Nat) : F32 := withSign false (roundMag (n * 2 ^ 149) 1)

/-- A finite value that is not negative: the operands for which rule R14 gives a conversion other than 0. -/
def convertible (v : F32) : Bool := isFinite v && fge v Config.zero

/-- `f2u_round(v) = floor(v + 0.5)` computed exactly, 0 for NaN and negative operands (rule R14). -/
def f2uRound (v : F32) : Nat := if convertible v then (2 * fmag v + 2 ^ 149) / 2 ^ 150 else 0

/-- `f2u_floor(v)` (rule R14). -/
def f2uFloor (v : F32) : Nat := if convertible v then fmag v / 2 ^ 149 else 0

/-- `f2u_ceil(v)` (rule R14). -/
def f2uCeil (v : F32) : Nat := if convertible v then (fmag v + (2 ^ 149 - 1)) / 2 ^ 149 else 0

/-- The F32 nearest to the decimal literal `num / den` (rule R11: "A decimal literal in pseudocode denotes the F32
nearest to it"). -/
def fliteral (negative : Bool) (num den : Nat) : F32 := withSign negative (roundMag (num * 2 ^ 149) den)

end Sys2Proof.Machine
end

