-- ==== Sys2Proof/Machine/Params.lean ====
section
/-! DEFINITION. The parameter table of rule R22 and the names of its registers (rules R22, R270): an identifier 0x00 to 0x19
is the index of its register in `SP`. -/

namespace Sys2Proof.Machine

/-- One row of the table of rule R22: the range `[lo, hi]` SETP clamps to, and the default. -/
structure ParamRange where
  lo : F32
  hi : F32
  default : F32
  deriving DecidableEq, Repr

/-- Index of a smoothed-parameter register. -/
abbrev SpIdx := Fin 26

/-- −24 dB to +24 dB, default 0 dB (rules R276, R277, R280, R291, R294, R297, R300). -/
def gainRange : ParamRange := ⟨0xC1C00000#32, 0x41C00000#32, 0x00000000#32⟩
/-- 0 to 1, default 0 (rules R279, R283, R284, R289). -/
def ratioRange : ParamRange := ⟨0x00000000#32, 0x3F800000#32, 0x00000000#32⟩
/-- 0 ms to 2000 ms, default 0 (rules R281, R282). -/
def delayRange : ParamRange := ⟨0x00000000#32, 0x44FA0000#32, 0x00000000#32⟩
/-- −1 to +1, default 0 (rules R285 to R287). -/
def panRange : ParamRange := ⟨0xBF800000#32, 0x3F800000#32, 0x00000000#32⟩
/-- 0.1 to 20, default 0.707 (rules R292, R295, R298, R301). -/
def qRange : ParamRange := ⟨0x3DCCCCCD#32, 0x41A00000#32, 0x3F34FDF4#32⟩

/-- The table of rule R22, in index order. -/
def paramTable : Vector ParamRange 26 := #v[
  gainRange,                                       -- 0  input (R276)
  gainRange,                                       -- 1  output (R277)
  ⟨0x00000000#32, 0x41C00000#32, 0x00000000#32⟩,   -- 2  drive, 0 to 24 dB (R278)
  ratioRange,                                      -- 3  mix (R279)
  gainRange,                                       -- 4  distOutput (R280)
  delayRange,                                      -- 5  delayTimeLeft (R281)
  delayRange,                                      -- 6  delayTimeRight (R282)
  ratioRange,                                      -- 7  feedback (R283)
  ratioRange,                                      -- 8  delayMix (R284)
  panRange,                                        -- 9  pan (R285)
  panRange,                                        -- 10 leftPan (R286)
  panRange,                                        -- 11 rightPan (R287)
  ⟨0x00000000#32, 0x41A00000#32, 0x00000000#32⟩,   -- 12 lfoFreq, 0 to 20 Hz (R288)
  ratioRange,                                      -- 13 lfoDepth (R289)
  ⟨0x41A00000#32, 0x43FA0000#32, 0x42C80000#32⟩,   -- 14 band0_frequency, 20 to 500 Hz, 100 (R290)
  gainRange,                                       -- 15 band0_gain (R291)
  qRange,                                          -- 16 band0_q (R292)
  ⟨0x42C80000#32, 0x44FA0000#32, 0x43FA0000#32⟩,   -- 17 band1_frequency, 100 to 2000 Hz, 500 (R293)
  gainRange,                                       -- 18 band1_gain (R294)
  qRange,                                          -- 19 band1_q (R295)
  ⟨0x43FA0000#32, 0x45FA0000#32, 0x44FA0000#32⟩,   -- 20 band2_frequency, 500 to 8000 Hz, 2000 (R296)
  gainRange,                                       -- 21 band2_gain (R297)
  qRange,                                          -- 22 band2_q (R298)
  ⟨0x44FA0000#32, 0x469C4000#32, 0x45FA0000#32⟩,   -- 23 band3_frequency, 2000 to 20000 Hz, 8000 (R299)
  gainRange,                                       -- 24 band3_gain (R300)
  qRange]                                          -- 25 band3_q (R301)

/-- The range of register `i`. -/
def paramRange (i : SpIdx) : ParamRange := paramTable[i]

/-! ### The symbols of rule R22 -/

def inGain : SpIdx := 0
def outGain : SpIdx := 1
def drive : SpIdx := 2
def distMix : SpIdx := 3
def distOut : SpIdx := 4
/-- `DLY_TIME[c] = SP[5 + c]` -/
def dlyTime (c : Fin 2) : SpIdx := ⟨5 + c.val, by omega⟩
def feedback : SpIdx := 7
def dlyMix : SpIdx := 8
def pan : SpIdx := 9
def panL : SpIdx := 10
def panR : SpIdx := 11
def lfoRate : SpIdx := 12
def lfoDepth : SpIdx := 13
/-- `BAND_F[b] = SP[14 + 3b]` -/
def bandF (b : Fin 4) : SpIdx := ⟨14 + 3 * b.val, by omega⟩
/-- `BAND_G[b] = SP[15 + 3b]` -/
def bandG (b : Fin 4) : SpIdx := ⟨15 + 3 * b.val, by omega⟩
/-- `BAND_Q[b] = SP[16 + 3b]` -/
def bandQ (b : Fin 4) : SpIdx := ⟨16 + 3 * b.val, by omega⟩

end Sys2Proof.Machine
end

