-- ==== Sys2Proof/Machine/State.lean ====
section
/-! DEFINITION. The state of MFX-CORE (rule R20 element by element), the host interface's queues (rule R67), the model's own
five fields, the reasons a step can stop, and the state after hardware reset (rules R38, R371). -/

namespace Sys2Proof.Machine

/-- The sequencer (rule R21): `busy` from the acceptance of a PROCESS to its last frame, `rem` frames not yet processed. -/
structure Seq where
  busy : Bool
  rem : BitVec 16
  deriving DecidableEq, Repr

/-- A smoothed-parameter register (rule R22): current value, target, linear increment, advances left (`U18`). -/
structure Sp where
  cur : F32
  tgt : F32
  step : F32
  cnt : BitVec 18
  deriving DecidableEq, Repr

/-- The discrete parameter cells (rule R24). -/
structure Cells where
  /-- 0 HardClip, 1 SoftClip, 2 Saturation; 3 is never written by SETP (rule R167) -/
  dtype : BitVec 2
  /-- 0 SingleTap, 1 PingPong -/
  dlytype : BitVec 1
  lfoen : BitVec 1
  /-- 0 Mono, 1 Stereo -/
  panmode : BitVec 1
  banden : Vector (BitVec 1) 4
  deriving DecidableEq, Repr

/-- The active configuration (rule R27). -/
structure Active where
  /-- per-channel ring capacity, `U19` -/
  cap : BitVec 19
  /-- ramp length in frames, `U18` -/
  rampSamples : BitVec 18
  /-- latched sample rate -/
  fs : F32
  /-- latched channel count, `U2` -/
  nch : BitVec 2
  /-- latched maximum block size, `U16` -/
  maxBlk : BitVec 16
  /-- latched ramp mode, `U1`: 0 linear, 1 exponential -/
  rmode : BitVec 1
  /-- exponential-ramp coefficient -/
  expAlpha : F32
  /-- DC-blocker pole -/
  dcbR : F32
  deriving DecidableEq, Repr

/-- The stored bits of `STATUS` (rule R29). `BUSY` is a copy of `Seq.busy` and the reserved bits read 0, so neither is
stored; `statusWord` (Flags.lean) is the whole word. -/
structure Status where
  prepared : Bool
  eIllegal : Bool
  eBadRate : Bool
  eBadCfg : Bool
  eNotPrep : Bool
  eBlkSize : Bool
  eRbOff : Bool
  deriving DecidableEq, Repr

/-- The delay RAM (rules R32, R61): the listed words by word address, addresses strictly rising, no listed word equal to
what an unlisted address reads as. The addressable unit is the 32-bit word (rules R62, R63; DESIGN CHOICE, log entry 4). -/
abbrev Memory := List (Nat × Word32)

/-- The DC-blocker registers of a channel (rule R33): previous input, previous output. -/
structure Dc where
  x1 : F32
  y1 : F32
  deriving DecidableEq, Repr

/-- A band's coefficients (rule R35). -/
structure Coef where
  b0 : F32
  b1 : F32
  b2 : F32
  a1 : F32
  a2 : F32
  deriving DecidableEq, Repr

/-- The delay registers of one band and channel (rule R36). -/
structure Biquad where
  s1 : F32
  s2 : F32
  deriving DecidableEq, Repr

/-- The host interface (rules R67, R370): the six queues, oldest word first, and the level of the reset input `RST`.
They are not state of the core (rule R20): the host feeds and drains the queues and drives the pin between steps. -/
structure Io where
  cq : List Command
  aq : List Command
  rspC : List Word32
  rspA : List Word32
  ain : List Word32
  aout : List Word32
  rst : Bool
  deriving DecidableEq, Repr

/-- The machine. -/
structure State where
  /-- `SEQ` (rule R21) -/
  seq : Seq
  /-- `SP[0..25]` (rule R22) -/
  sp : Vector Sp 26
  /-- `DTYPE`, `DLYTYPE`, `LFOEN`, `PANMODE`, `BANDEN[0..3]` (rule R24) -/
  cells : Cells
  /-- `CFG[0..5]` (rule R26) -/
  cfg : Vector Word32 6
  /-- the active configuration (rule R27) -/
  act : Active
  /-- `STATUS` (rule R29) -/
  status : Status
  /-- `WC[0..1]`, `U19` (rule R31) -/
  wc : Vector (BitVec 19) 2
  /-- `DRAM` (rule R32) -/
  dram : Memory
  /-- `DC[0..1]` (rule R33) -/
  dc : Vector Dc 2
  /-- `PH[0..1]` (rule R34) -/
  ph : Vector F32 2
  /-- `COEF[0..3]` (rule R35) -/
  coef : Vector Coef 4
  /-- `DIRTY[0..3]` (rule R35) -/
  dirty : Vector Bool 4
  /-- `BQ[0..3][0..1]` (rule R36) -/
  bq : Vector (Vector Biquad 2) 4
  /-- the queues and the reset input (rules R67, R370) -/
  io : Io
  /-- MODEL'S OWN: the queue the command being performed was taken from, which is where `respond` answers (rule R10). -/
  issuer : Queue
  /-- MODEL'S OWN: `some k` while the running block is the pass-through of rule R251, `k` words of whose current frame
  have been moved; `none` otherwise. -/
  passing : Option Nat
  /-- MODEL'S OWN: the engine has left the frame boundary and is inside the next frame, where no control command is
  performed (rule R72) and where it may hold for an input word (rule R69, U6). -/
  inFrame : Bool
  /-- MODEL'S OWN: the words of the frame being processed that have left `AIN` while the next one was awaited (rule R69:
the engine holds at a single pop), oldest first. -/
  popped : List Word32
  /-- MODEL'S OWN: how many decisions between a waiting `CQ` command and the audio side have been taken: the argument of
  the free schedule (rule R73). -/
  tick : Nat
  deriving DecidableEq, Repr

/-- Why a step ends in a fault. -/
inductive Fault where
  /-- Raised by a delay-RAM access (`memRead`, `memWrite`) at a word address outside `0 .. NCH_MAX*CAP_MAX − 1` (rules R32,
  R61). The address generator never forms one in a state that a run reaches (rule R66), so this is safe: the model stops
  only in states that no command sequence leads to (DESIGN CHOICE, log entry 13). -/
  | dramOutOfRange (addr : Nat)
  deriving DecidableEq, Repr

/-- Why a step is refused. -/
inductive Refusal where
  /-- Raised by `exec` for an instruction that has no meaning in the model; no arm answers so. Safe. -/
  | notModelled (mnemonic : String)
  deriving DecidableEq, Repr

/-- What a meaning answers. -/
abbrev Result := Host.Outcome State Fault Refusal

/-- What an address of the delay RAM reads as that no write has reached: `+0.0` since the last clear (rules R32, R148). What
it reads as after hardware reset is the model's choice (DESIGN CHOICE, log entry 3). -/
def dramDefault : Word32 := 0x00000000#32

/-- A register at rest at its default (rules R22, R23). -/
def Sp.reset (i : SpIdx) : Sp := ⟨(paramRange i).default, (paramRange i).default, 0x00000000#32, 0#18⟩

/-- The machine right after hardware reset (rules R38, R371). The elements the spec leaves unspecified hold zero
(DESIGN CHOICE, log entry 2). -/
def State.reset : State where
  seq := ⟨false, 0#16⟩
  sp := Vector.ofFn Sp.reset
  cells := ⟨0#2, 0#1, 0#1, 0#1, #v[1#1, 1#1, 1#1, 1#1]⟩
  cfg := #v[0x00000000#32, 0x00000000#32, 0x00000000#32, 0x44FA0000#32, 0x3CA3D70A#32, 0x00000000#32]
  act := ⟨0#19, 0#18, 0#32, 0#2, 0#16, 0#1, 0#32, 0#32⟩
  status := ⟨false, false, false, false, false, false, false⟩
  wc := #v[0#19, 0#19]
  dram := []
  dc := #v[⟨0#32, 0#32⟩, ⟨0#32, 0#32⟩]
  ph := #v[0#32, 0#32]
  coef := #v[⟨0#32, 0#32, 0#32, 0#32, 0#32⟩, ⟨0#32, 0#32, 0#32, 0#32, 0#32⟩, ⟨0#32, 0#32, 0#32, 0#32, 0#32⟩,
    ⟨0#32, 0#32, 0#32, 0#32, 0#32⟩]
  dirty := #v[true, true, true, true]
  bq := #v[#v[⟨0#32, 0#32⟩, ⟨0#32, 0#32⟩], #v[⟨0#32, 0#32⟩, ⟨0#32, 0#32⟩], #v[⟨0#32, 0#32⟩, ⟨0#32, 0#32⟩],
    #v[⟨0#32, 0#32⟩, ⟨0#32, 0#32⟩]]
  io := ⟨[], [], [], [], [], [], false⟩
  issuer := .audio
  passing := none
  inFrame := false
  popped := []
  tick := 0

end Sys2Proof.Machine
end

