-- ==== Sys2Proof/Machine/Ops.lean ====
section
/-! DEFINITION. The named operations on the state: one update per field, the delay RAM's accesses (rules R10, R61, R62),
raising and clearing flags (rules R340, R351), answering on a response queue (rules R10, R91), the audio streams (rule R68)
and the hardware reset (rule R370). -/

namespace Sys2Proof.Machine

/-! ### One update per field of the state -/

def State.setSeq (s : State) (v : Seq) : State := { s with seq := v }
def State.setSp (s : State) (v : Vector Sp 26) : State := { s with sp := v }
def State.setCells (s : State) (v : Cells) : State := { s with cells := v }
def State.setCfg (s : State) (v : Vector Word32 6) : State := { s with cfg := v }
def State.setAct (s : State) (v : Active) : State := { s with act := v }
def State.setStatus (s : State) (v : Status) : State := { s with status := v }
def State.setWc (s : State) (v : Vector (BitVec 19) 2) : State := { s with wc := v }
def State.setDram (s : State) (v : Memory) : State := { s with dram := v }
def State.setDc (s : State) (v : Vector Dc 2) : State := { s with dc := v }
def State.setPh (s : State) (v : Vector F32 2) : State := { s with ph := v }
def State.setCoef (s : State) (v : Vector Coef 4) : State := { s with coef := v }
def State.setDirty (s : State) (v : Vector Bool 4) : State := { s with dirty := v }
def State.setBq (s : State) (v : Vector (Vector Biquad 2) 4) : State := { s with bq := v }
def State.setIo (s : State) (v : Io) : State := { s with io := v }
def State.setIssuer (s : State) (v : Queue) : State := { s with issuer := v }
def State.setPassing (s : State) (v : Option Nat) : State := { s with passing := v }
def State.setInFrame (s : State) (v : Bool) : State := { s with inFrame := v }
def State.setPopped (s : State) (v : List Word32) : State := { s with popped := v }
def State.setTick (s : State) (v : Nat) : State := { s with tick := v }

/-! ### The delay RAM (rules R60 to R62) -/

/-- How many words the delay RAM has: `NCH_MAX * CAP_MAX` (rule R32). -/
def dramWords : Nat := Config.nchMax * Config.capMax

/-- The word at an address. -/
def memLookup : Memory → Nat → Word32
  | [], _ => dramDefault
  | (b, w) :: rest, a => if a = b then w else memLookup rest a

/-- Store a word at an address, keeping the canonical form: a word equal to what an unlisted address reads as is not
listed. -/
def memStore : Memory → Nat → Word32 → Memory
  | [], a, v => if v = dramDefault then [] else [(a, v)]
  | (b, w) :: rest, a, v =>
    if a < b then (if v = dramDefault then (b, w) :: rest else (a, v) :: (b, w) :: rest)
    else if a = b then (if v = dramDefault then rest else (a, v) :: rest)
    else (b, w) :: memStore rest a v

/-- Every word below address `n` becomes `+0.0` (rule R148). -/
def memClearBelow (m : Memory) (n : Nat) : Memory := m.filter fun c => decide (n ≤ c.1)

/-- The canonical form: addresses strictly rising, below `dramWords`, no word equal to the default. -/
def Memory.wf : Memory → Bool
  | [] => true
  | (a, v) :: rest =>
    decide (a < dramWords) && decide (v ≠ dramDefault) && rest.all (fun c => decide (a < c.1)) && Memory.wf rest

/-- `MemRead(addr, 1)` (rule R10): one word; an address the delay RAM does not have faults. -/
def memRead (s : State) (addr : Nat) : Except Fault Word32 :=
  if addr < dramWords then .ok (memLookup s.dram addr) else .error (.dramOutOfRange addr)

/-- `MemWrite(addr, 1, v)` (rule R10): one word changes; an address the delay RAM does not have faults. -/
def memWrite (s : State) (addr : Nat) (v : Word32) : Except Fault State :=
  if addr < dramWords then .ok (s.setDram (memStore s.dram addr v)) else .error (.dramOutOfRange addr)

/-! ### The exception mechanism: `raise`, and its counterpart (rules R340, R351) -/

/-- The six sticky error flags, in the order of their cause codes (rules R341 to R346). -/
inductive ErrorFlag where
  | illegal | badRate | badCfg | notPrep | blkSize | rbOff
  deriving DecidableEq, Repr

/-- `raise <Flag>` (rules R10, R340): one bit of `STATUS[13:8]` becomes 1, and nothing else happens. This is the whole of
taking an exception on MFX-CORE: control goes nowhere and nothing is saved (rule R350). -/
def State.raise (s : State) (f : ErrorFlag) : State :=
  s.setStatus <| match f with
    | .illegal => { s.status with eIllegal := true }
    | .badRate => { s.status with eBadRate := true }
    | .badCfg => { s.status with eBadCfg := true }
    | .notPrep => { s.status with eNotPrep := true }
    | .blkSize => { s.status with eBlkSize := true }
    | .rbOff => { s.status with eRbOff := true }

/-- `STATUS[13:8] <- 0` (rules R327, R351): the counterpart of `raise`. -/
def State.clearErrors (s : State) : State :=
  s.setStatus ⟨s.status.prepared, false, false, false, false, false, false⟩

/-- `STATUS.PREPARED <- b` (rule R29). -/
def State.setPrepared (s : State) (b : Bool) : State := s.setStatus { s.status with prepared := b }

/-! ### Registers -/

/-- `SP[i].cur` (rule R125: `SP_current`). -/
def State.cur (s : State) (i : SpIdx) : F32 := s.sp[i].cur
/-- `SP[i] <- r`. -/
def State.setReg (s : State) (i : SpIdx) (r : Sp) : State := s.setSp (s.sp.set i r)
/-- `WC[c] <- v`. -/
def State.setCursor (s : State) (c : Fin 2) (v : BitVec 19) : State := s.setWc (s.wc.set c v)

/-! ### Queues and streams -/

/-- `respond(q, w)` (rule R10), `q` the queue of the command being performed. -/
def State.respond (s : State) (w : Word32) : State :=
  match s.issuer with
  | .control => s.setIo { s.io with rspC := s.io.rspC ++ [w] }
  | .audio => s.setIo { s.io with rspA := s.io.rspA ++ [w] }

/-- `AOUT.push` of the words in order (rules R15, R68). -/
def State.pushOutput (s : State) (ws : List Word32) : State := s.setIo { s.io with aout := s.io.aout ++ ws }

/-- The channels `0 .. NCH−1` in order (rule R68; for the counts no PREPARE latches see log entry 14). -/
def State.channels (s : State) : List (Fin 2) := [0, 1].take s.act.nch.toNat

/-- The words of one frame in the streams, `NCH` (rule R68). -/
def State.frameWords (s : State) : Nat := s.channels.length

/-- The words step 1 of a frame step finds (rule R252): those already popped, then those still on `AIN`. -/
def State.frameSupply (s : State) : List Word32 := s.popped ++ s.io.ain

/-- The pops of step 1 that `AIN` can serve when it has too few words for the frame (rule R69): it is empty afterwards, and
the engine holds until the host supplies the next word. With `AIN` empty this is the hold: nothing changes. -/
def State.popAvailable (s : State) : State := (s.setIo { s.io with ain := [] }).setPopped s.frameSupply

/-- The pops of step 1 of a frame step, `NCH` in all with those made before a hold (rules R15, R68, R252). -/
def State.popFrame (s : State) : State :=
  (s.setIo { s.io with ain := s.frameSupply.drop s.frameWords }).setPopped []

/-! ### Hardware reset (rule R370) -/

/-- What the assertion of `RST` makes of the machine: the reset values, empty queues, the block abandoned (U14). The pin
itself is the host's, and the free schedule is not restarted (DESIGN CHOICE, log entry 12). -/
def State.hardwareReset (s : State) : State :=
  (State.reset.setIo { State.reset.io with rst := s.io.rst }).setTick s.tick

end Sys2Proof.Machine
end

