-- ==== Sys2Proof/Machine/Frame.lean ====
section
/-! DEFINITION. The frame inside a frame step (rules R17, R252): `x[0..NCH−1]`, a temporary, and the two ways a stage goes
over its channels. An entry at or above `NCH` is never read. -/

namespace Sys2Proof.Machine

/-- The samples of one frame. -/
abbrev Frame := Vector F32 2

def Frame.silent : Frame := #v[Config.zero, Config.zero]

/-- A stage that treats each channel by itself: `for c in 0..NCH−1: x[c] <- f(c, x[c])`, `f` reading and writing the
channel's registers. -/
def eachChannel (f : Fin 2 → F32 → State → F32 × State) (x : Frame) (s : State) : Frame × State :=
  s.channels.foldl (fun p (c : Fin 2) => let q := f c p.1[c] p.2; (p.1.set c q.1, q.2)) (x, s)

/-- Multiply every channel by a gain (rules R253, R254). -/
def applyGain (g : F32) (x : Frame) (s : State) : Frame :=
  s.channels.foldl (fun y (c : Fin 2) => y.set c (fmul x[c] g)) x

/-- Step 1 of a frame step (rule R252): the frame the pops give, channel 0 first. -/
def inputFrame (s : State) : Frame :=
  s.channels.foldl (fun y (c : Fin 2) => y.set c (s.frameSupply.getD c.val Config.zero)) Frame.silent

/-- Step 10 of a frame step (rule R252): the words a frame puts on `AOUT`, channel 0 first. -/
def outputWords (x : Frame) (s : State) : List Word32 := s.channels.map fun (c : Fin 2) => x[c]

end Sys2Proof.Machine
end

