-- ==== Sys2Proof/Machine/RingBuffer.lean ====
section
/-! DEFINITION. The ring-buffer address generator with wrap (rules R140 to R148): addresses, cursor, and the unit's
operations on the delay RAM. -/

namespace Sys2Proof.Machine

/-- `RB_waddr(c) = c*CAP + WC[c]` (rule R142). -/
def rbWaddr (c : Fin 2) (s : State) : Nat := c.val * s.act.cap.toNat + s.wc[c].toNat

/-- `RB_advance(c)` (rule R144): the sum is formed in 20 bits. -/
def rbAdvance (c : Fin 2) (s : State) : State :=
  let n : BitVec 20 := s.wc[c].setWidth 20 + 1#20
  if n = s.act.cap.setWidth 20 then s.setCursor c 0#19 else s.setCursor c (n.extractLsb' 0 19)

/-- `RB_clamp(k) = min(k, CAP − 1)` (rule R147). -/
def rbClamp (k : Nat) (s : State) : Nat := min k (s.act.cap.toNat - 1)

/-- The ring index of an offset (rule R146): the signed difference, corrected once. -/
def rbIndex (c : Fin 2) (k : Nat) (s : State) : Nat :=
  let t : Int := (s.wc[c].toNat : Int) - (k : Int)
  (if t < 0 then t + (s.act.cap.toNat : Int) else t).toNat

/-- `RB_raddr(c, k)` (rule R146), for a clamped offset. -/
def rbRaddr (c : Fin 2) (k : Nat) (s : State) : Nat := c.val * s.act.cap.toNat + rbIndex c k s

/-- `RB_write(c, s)` (rule R143). -/
def rbWrite (c : Fin 2) (v : F32) (s : State) : Except Fault State :=
  match memWrite s (rbWaddr c s) v with
  | .error f => .error f
  | .ok s' => .ok (rbAdvance c s')

/-- `RB_read(c, k)` (rule R145). -/
def rbRead (c : Fin 2) (k : Nat) (s : State) : Except Fault F32 := memRead s (rbRaddr c (rbClamp k s) s)

/-- How many words of the delay RAM are addressed: `NCH*CAP` (rules R32, R61). -/
def rbWords (s : State) : Nat := s.act.nch.toNat * s.act.cap.toNat

/-- `RB_clear()` (rule R148). -/
def rbClear (s : State) : State := (s.setDram (memClearBelow s.dram (rbWords s))).setWc #v[0#19, 0#19]

/-- The `prod` of `RB_prepare`, rounded up (rules R141, R323 V7): `f2u_ceil((MAX_DELAY_MS / 1000.0) * FS)`. -/
def rbLength (maxDelayMs fs : F32) : Nat := f2uCeil (fmul (fdiv maxDelayMs Config.thousand) fs)

end Sys2Proof.Machine
end

