-- ==== Sys2Proof/Machine/Delay.lean ====
section
/-! DEFINITION. The delay stage (rules R180 to R195): read offset, feedback mixer, wet/dry mix. All reads of a frame come
before all its writes (rule R185). -/

namespace Sys2Proof.Machine

/-- `DelaySamples` of a delay time (rule R183): multiply, divide, clamp in F32, round half away from zero. -/
def delayOffset (ms fs : F32) (cap : Nat) : Nat :=
  f2uRound (fclamp (fdiv (fmul ms fs) Config.thousand) Config.zero (u2f (cap - 1)))

/-- `DelaySamples(c)` (rule R183). -/
def delaySamples (c : Fin 2) (s : State) : Nat := delayOffset (s.cur (dlyTime c)) s.act.fs s.act.cap.toNat

/-- Steps 2 and 3 of `DelayFrame` (rules R184, R189): the delayed sample of every channel, before any write. -/
def readDelayed (s : State) : Except Fault Frame :=
  s.channels.foldlM (fun d (c : Fin 2) =>
    match rbRead c (delaySamples c s) s with
    | .error f => .error f
    | .ok v => .ok (d.set c v)) Frame.silent

/-- The delayed sample a channel's feedback comes from (rules R186, R187): the other channel's in PingPong with two
channels, else its own. -/
def feedbackSource (s : State) (delayed : Frame) (c : Fin 2) : F32 :=
  if s.cells.dlytype = 1#1 ∧ s.act.nch = 2#2 then delayed[1 - c] else delayed[c]

/-- Step 4 of `DelayFrame` (rule R189): what channel `c` writes into its ring. -/
def delayWriteValue (s : State) (x delayed : Frame) (c : Fin 2) : F32 :=
  fadd x[c] (fmul (feedbackSource s delayed c) (s.cur feedback))

/-- Step 4 of `DelayFrame` (rule R189): every channel writes and its cursor advances. -/
def writeRings (x delayed : Frame) (s : State) : Except Fault State :=
  s.channels.foldlM (fun t (c : Fin 2) => rbWrite c (delayWriteValue s x delayed c) t) s

/-- The wet/dry mix (rule R188). At the ends of the mix the rule's own sum gives `+0.0` where the sample kept is `-0.0` and the
other term a zero of the other sign (DESIGN CHOICE, log entry 19). -/
def delayMixOf (m dry wet : F32) : F32 := fadd (fmul (fsub Config.one m) dry) (fmul m wet)

/-- `DelayFrame` (rule R189). -/
def delayFrame (x : Frame) (s : State) : Except Fault (Frame × State) :=
  match readDelayed s with
  | .error f => .error f
  | .ok delayed =>
    match writeRings x delayed s with
    | .error f => .error f
    | .ok s' => .ok (s.channels.foldl (fun y (c : Fin 2) => y.set c (delayMixOf (s.cur dlyMix) x[c] delayed[c])) x, s')

end Sys2Proof.Machine
end

