-- ==== Sys2Proof/Machine/Distortion.lean ====
section
/-! DEFINITION. The distortion stage (rules R160 to R172): DC blocker, transfer functions, wet/dry mix and output trim. -/

namespace Sys2Proof.Machine

/-- `DCB_R` of a sample rate (rule R161). -/
def dcbPole (fs : F32) : F32 := fsub Config.one (fdiv (fmul Config.twoPi Config.dcbFc) fs)

/-- `DCB(c, x)` (rule R162). An exact zero sum is `+0.0` (rule R11), where rules R162 and R171 speak of an input kept or
negated bit for bit; the model follows the sum (DESIGN CHOICE, log entry 19). -/
def dcBlock (c : Fin 2) (x : F32) (s : State) : F32 × State :=
  let y := fadd (fsub x s.dc[c].x1) (fmul s.act.dcbR s.dc[c].y1)
  (y, s.setDc (s.dc.set c ⟨x, y⟩))

/-- HardClip (rule R164). -/
def shape0 (g xd : F32) : F32 := fclamp (fmul xd g) (fneg Config.clipLevel) Config.clipLevel

/-- SoftClip (rule R165). -/
def shape1 (g xd : F32) : F32 := fmul Config.twoOverPi (Config.num.fns.atan (fmul xd g))

/-- Saturation (rule R166), `drv` the drive in dB. -/
def shape2 (drv xd : F32) : F32 :=
  let md := fadd Config.satLoDb (fmul drv Config.satScale)
  let gm := Config.num.fns.db2lin md
  let u := fmul xd gm
  if fge xd Config.zero then Config.num.fns.tanh u
  else fsub (Config.num.fns.tanh (Config.num.fns.sinh u))
    (fmul (fmul Config.satAsym u) (Config.num.fns.sin (fmul Config.pi u)))

/-- The transfer function `DTYPE` selects (rules R163 to R167); 3 is the identity. -/
def shape (dtype : BitVec 2) (drv xd : F32) : F32 :=
  let g := Config.num.fns.db2lin drv
  match dtype.toNat with
  | 0 => shape0 g xd
  | 1 => shape1 g xd
  | 2 => shape2 drv xd
  | _ => xd

/-- The mix and trim of rule R168: `((m * wet) + ((1.0 − m) * xd)) * go`. A zero sum has the sign rule R11 gives it (log entry
19). -/
def distOutputOf (m go wet xd : F32) : F32 :=
  fmul (fadd (fmul m wet) (fmul (fsub Config.one m) xd)) go

/-- `Dist(c, x)` (rule R168). -/
def dist (c : Fin 2) (x : F32) (s : State) : F32 × State :=
  let p := dcBlock c x s
  let wet := shape s.cells.dtype (s.cur drive) p.1
  (distOutputOf (s.cur distMix) (Config.num.fns.db2lin (s.cur distOut)) wet p.1, p.2)

end Sys2Proof.Machine
end

