-- ==== Sys2Proof/Machine/Equalizer.lean ====
section
/-! DEFINITION. The 4-band equalizer (rules R220 to R235): coefficient design, refresh at block start, the biquad step and
the cascade. -/

namespace Sys2Proof.Machine

/-- The band types (rule R25). -/
inductive BandType where
  | lowShelf | peaking | highShelf
  deriving DecidableEq, Repr

/-- `BTYPE[b]`, hardwired (rule R25). -/
def bandType (b : Fin 4) : BandType :=
  match b with
  | 0 => .lowShelf
  | 1 => .peaking
  | 2 => .peaking
  | 3 => .highShelf

/-- The six design values before normalisation (rule R226). -/
structure Design where
  b0 : F32
  b1 : F32
  b2 : F32
  a0 : F32
  a1 : F32
  a2 : F32
  deriving DecidableEq, Repr

/-- Peaking (rule R223). -/
def designPeaking (a cw alpha : F32) : Design :=
  let aA := fmul alpha a
  let aoA := fdiv alpha a
  { b0 := fadd Config.one aA
    b1 := fmul Config.minusTwo cw
    b2 := fsub Config.one aA
    a0 := fadd Config.one aoA
    a1 := fmul Config.minusTwo cw
    a2 := fsub Config.one aoA }

/-- LowShelf (rule R224). For a zero `cw` the signs of `b1` and `a1` are those of these sums (log entry 19). -/
def designLowShelf (a cw alpha : F32) : Design :=
  let beta := fmul (fmul Config.two (fsqrt a)) alpha
  let ap := fadd a Config.one
  let am := fsub a Config.one
  { b0 := fmul a (fadd (fsub ap (fmul am cw)) beta)
    b1 := fmul (fmul Config.two a) (fsub am (fmul ap cw))
    b2 := fmul a (fsub (fsub ap (fmul am cw)) beta)
    a0 := fadd (fadd ap (fmul am cw)) beta
    a1 := fmul Config.minusTwo (fadd am (fmul ap cw))
    a2 := fsub (fadd ap (fmul am cw)) beta }

/-- HighShelf (rule R225). For a zero `cw` the signs of `b1` and `a1` are those of these sums (log entry 19). -/
def designHighShelf (a cw alpha : F32) : Design :=
  let beta := fmul (fmul Config.two (fsqrt a)) alpha
  let ap := fadd a Config.one
  let am := fsub a Config.one
  { b0 := fmul a (fadd (fadd ap (fmul am cw)) beta)
    b1 := fmul (fmul Config.minusTwo a) (fadd am (fmul ap cw))
    b2 := fmul a (fsub (fadd ap (fmul am cw)) beta)
    a0 := fadd (fsub ap (fmul am cw)) beta
    a1 := fmul Config.two (fsub am (fmul ap cw))
    a2 := fsub (fsub ap (fmul am cw)) beta }

/-- The five stored coefficients: five divisions by `a0` (rule R227). -/
def normalise (d : Design) : Coef :=
  { b0 := fdiv d.b0 d.a0, b1 := fdiv d.b1 d.a0, b2 := fdiv d.b2 d.a0, a1 := fdiv d.a1 d.a0, a2 := fdiv d.a2 d.a0 }

/-- `EQ_design` of a type, the three register values and the sample rate (rules R222, R226). -/
def eqDesignOf (ty : BandType) (freq gain q fs : F32) : Coef :=
  let f := fclamp freq Config.eqFLo (fmul Config.eqFHiRatio fs)
  let g := fclamp gain Config.eqGLo Config.eqGHi
  let qc := fclamp q Config.eqQLo Config.eqQHi
  let a := Config.num.fns.db2a g
  let w0 := fdiv (fmul Config.twoPi f) fs
  let cw := Config.num.fns.cos w0
  let sw := Config.num.fns.sin w0
  let alpha := fdiv sw (fmul Config.two qc)
  normalise <| match ty with
    | .peaking => designPeaking a cw alpha
    | .lowShelf => designLowShelf a cw alpha
    | .highShelf => designHighShelf a cw alpha

/-- `EQ_design(b)` (rule R226). -/
def eqDesign (b : Fin 4) (s : State) : Coef :=
  eqDesignOf (bandType b) (s.cur (bandF b)) (s.cur (bandG b)) (s.cur (bandQ b)) s.act.fs

/-- `BlockStart()` (rule R228): every band, enabled or not. -/
def blockStart (s : State) : State :=
  (s.setCoef (Vector.ofFn fun b => eqDesign b s)).setDirty #v[false, false, false, false]

/-- One biquad step in transposed direct form II (rule R229): the output and the new registers. Where rule R234 says of a
band at 0 dB that its registers stay `+0.0`, the model follows these sums: a `-0.0`, a non-finite sample, or one so large
that a product overflows leaves other registers behind (DESIGN CHOICE, log entry 19). -/
def biquadStep (k : Coef) (r : Biquad) (x : F32) : F32 × Biquad :=
  let y := fadd (fmul k.b0 x) r.s1
  (y, ⟨fadd (fsub (fmul k.b1 x) (fmul k.a1 y)) r.s2, fsub (fmul k.b2 x) (fmul k.a2 y)⟩)

/-- `EQ_sample(b, c, x)` (rule R229). -/
def eqSample (b : Fin 4) (c : Fin 2) (x : F32) (s : State) : F32 × State :=
  let p := biquadStep s.coef[b] s.bq[b][c] x
  (p.1, s.setBq (s.bq.set b (s.bq[b].set c p.2)))

/-- `EQ_channel(c, x)` (rules R230, R232): the enabled bands in series; a disabled band passes the sample and keeps its
registers. -/
def eqChannel (c : Fin 2) (x : F32) (s : State) : F32 × State :=
  [(0 : Fin 4), 1, 2, 3].foldl (fun p b => if s.cells.banden[b] = 1#1 then eqSample b c p.1 p.2 else p) (x, s)

end Sys2Proof.Machine
end

