-- ==== Sys2Proof/Machine/Panner.lean ====
section
/-! DEFINITION. The panner stage (rules R200 to R212): LFO, effective pan, constant-power gains, the two variants. -/

namespace Sys2Proof.Machine

/-- `inc` of `LFO_advance` (rule R204). -/
def lfoIncrement (rate fs : F32) : F32 :=
  fdiv (fmul Config.twoPi (fclamp rate Config.zero Config.lfoRateHi)) fs

/-- The phase after one frame (rule R204). -/
def lfoNext (rate fs phase : F32) : F32 :=
  let p := fadd phase (lfoIncrement rate fs)
  if fge p Config.twoPi then fsub p Config.twoPi else p

/-- `LFO_advance(0) ; LFO_advance(1)` (rules R204, R210): both lanes, in every frame. -/
def lfoAdvance (s : State) : State :=
  s.setPh (Vector.ofFn fun l => lfoNext (s.cur lfoRate) s.act.fs s.ph[l])

/-- `FinalPan(l, base)` (rules R203, R205), the LFO value taken from the phase before the advance. -/
def finalPan (s : State) (l : Fin 2) (base : F32) : F32 :=
  let p := if s.cells.lfoen = 1#1 then fadd base (fmul (s.cur lfoDepth) (Config.num.fns.sin s.ph[l])) else base
  fclamp p Config.minusOne Config.one

/-- `angle` of `PanGains` (rule R206). -/
def panAngle (p : F32) : F32 := fmul Config.quarterPi (fadd p Config.one)

/-- `PanGains(p)` (rule R206): (leftGain, rightGain). -/
def panGains (p : F32) : F32 × F32 := (Config.num.fns.cos (panAngle p), Config.num.fns.sin (panAngle p))

/-- The samples the panner answers (rules R207 to R210). -/
def panMix (x : Frame) (s : State) : Frame :=
  if s.cells.panmode = 0#1 then
    let g := panGains (finalPan s 0 (s.cur pan))
    #v[fmul x[0] g.1, if s.act.nch = 2#2 then fmul x[1] g.2 else x[1]]
  else if s.act.nch = 2#2 then
    let gL := panGains (finalPan s 0 (s.cur panL))
    let gR := panGains (finalPan s 1 (s.cur panR))
    #v[fadd (fmul x[0] gL.1) (fmul x[1] gR.1), fadd (fmul x[0] gL.2) (fmul x[1] gR.2)]
  else x

/-- `PanFrame` (rule R210). -/
def panFrame (x : Frame) (s : State) : Frame × State := (panMix x s, lfoAdvance s)

end Sys2Proof.Machine
end

