-- ==== Sys2Proof/Machine/Ramp.lean ====
section
/-! DEFINITION. The smoothed-parameter ramp engine (rules R120 to R130): `SP_reset`, `SP_setTarget`, `SP_advance`, `SP_tick`. -/

namespace Sys2Proof.Machine

/-- `SP_setTarget(i, v)` on one register (rule R122). -/
def retarget (prepared : Bool) (rampSamples : BitVec 18) (v : F32) (r : Sp) : Sp :=
  if feq v r.tgt then r
  else if !prepared || decide (rampSamples = 0#18) then ⟨v, v, Config.zero, 0#18⟩
  else ⟨r.cur, v, fdiv (fsub v r.cur) (u2f rampSamples.toNat), rampSamples⟩

/-- `SP_setTarget(i, v)` (rule R122). -/
def spSetTarget (i : SpIdx) (v : F32) (s : State) : State :=
  s.setReg i (retarget s.status.prepared s.act.rampSamples v s.sp[i])

/-- `SP_advance(i)` on one register: linear (rule R123) or exponential (rule R124), by `RMODE`. -/
def advance (rmode : BitVec 1) (expAlpha : F32) (r : Sp) : Sp :=
  if r.cnt = 0#18 then r
  else
    let cnt := r.cnt - 1#18
    if cnt = 0#18 then { r with cur := r.tgt, cnt := cnt }
    else if rmode = 0#1 then { r with cur := fadd r.cur r.step, cnt := cnt }
    else { r with cur := fadd r.cur (fmul expAlpha (fsub r.tgt r.cur)), cnt := cnt }

/-- `SP_tick()` (rule R127): one advance of every register. -/
def spTick (s : State) : State := s.setSp (Vector.ofFn fun i => advance s.act.rmode s.act.expAlpha s.sp[i])

/-- The last line of `SP_reset` on one register (rule R121): the ramp ends at its target. -/
def snap (r : Sp) : Sp := ⟨r.tgt, r.tgt, Config.zero, 0#18⟩

/-- The last line of `SP_reset` (rules R121, R23). -/
def spSnap (s : State) : State := s.setSp (Vector.ofFn fun i => snap s.sp[i])

/-- `RAMP_SAMPLES` of a ramp time and sample rate (rule R121). -/
def rampLength (rampTime fs : F32) : Nat := f2uFloor (fmul rampTime fs)

/-- `EXP_ALPHA` of a ramp length (rule R126). -/
def expCoefficient (rampSamples : Nat) : F32 :=
  if rampSamples = 0 then Config.one
  else fsub Config.one (Config.num.fns.exp (fneg (fdiv Config.expK (u2f rampSamples))))

end Sys2Proof.Machine
end

