-- ==== Sys2Proof/Machine/Chain.lean ====
section
/-! DEFINITION. The effect chain (rules R250 to R261): the frame step, and the meaning of PROCESS. PROCESS accepts a block; its
frames are then run one by one by the sequencer (Sequencer.lean; DEDUCED, log entry 8), because control commands may be performed at every frame
boundary (rules R72, R256) and the engine holds where `AIN` is empty (rule R69). -/

namespace Sys2Proof.Machine

/-- `FrameStep()` (rule R252), for a frame whose words are all there (`State.frameSupply`). -/
def frameStep (s : State) : Except Fault State :=
  let x0 := inputFrame s
  let s0 := spTick s.popFrame
  let x1 := applyGain (Config.num.fns.db2lin (s0.cur inGain)) x0 s0
  let p2 := eachChannel dist x1 s0
  match delayFrame p2.1 p2.2 with
  | .error f => .error f
  | .ok p3 =>
    let p4 := panFrame p3.1 p3.2
    let p5 := eachChannel eqChannel p4.1 p4.2
    let x6 := applyGain (Config.num.fns.db2lin (p5.2.cur outGain)) p5.1 p5.2
    .ok (p5.2.pushOutput (outputWords x6 p5.2))

/-- **PROCESS** `n` (rules R250, R251): the checks, and the acceptance of the block. -/
def execProcess (n : BitVec 16) (s : State) : Result :=
  if n = 0#16 then .next s
  else if !s.status.prepared then .next (s.raise .notPrep)
  else if s.act.maxBlk < n then .next (((s.raise .blkSize).setSeq ⟨true, n⟩).setPassing (some 0))
  else .next (blockStart ((s.setSeq ⟨true, n⟩).setPassing none))

/-- Nothing is left of a block: `busy` is 0, and the engine is at a boundary. -/
def endBlock (s : State) : State := (((s.setSeq ⟨false, 0#16⟩).setPassing none).setInFrame false).setPopped []

/-- The end of a frame: `SEQ.rem <- SEQ.rem − 1`, and `busy` clears with the last frame (rules R21, R250). -/
def endFrame (s : State) : State :=
  let rem := s.seq.rem - 1#16
  if rem = 0#16 then endBlock s else (s.setSeq ⟨true, rem⟩).setInFrame false

/-- One word of `PassThrough(n)` (rule R251): `AOUT.push(AIN.pop())`, and the end of the frame with its last word. The engine
holds while `AIN` is empty (rule R69). -/
def passWord (moved : Nat) (s : State) : State :=
  match s.io.ain with
  | [] => s
  | w :: rest =>
    let s' := (s.setIo { s.io with ain := rest, aout := s.io.aout ++ [w] }).setPassing (some (moved + 1))
    if moved + 1 < s.frameWords then s' else endFrame (s'.setPassing (some 0))

/-- The engine inside a frame: a word of a pass-through, or the frame step, or, while words of the frame are missing, the
pops that `AIN` can serve and then the hold of rule R69 (log entries 9 and 10). -/
def engineStep (s : State) : Result :=
  if s.seq.rem = 0#16 then .next (endBlock s)
  else
    match s.passing with
    | some moved => .next (passWord moved s)
    | none =>
      if s.frameSupply.length < s.frameWords then .next s.popAvailable
      else
        match frameStep s with
        | .error f => .fault f
        | .ok s' => .next (endFrame s')

end Sys2Proof.Machine
end

