-- ==== Sys2Proof/Machine/Operands.lean ====
section
/-! DEFINITION. The operand forms (rules R93, R95, R99): how `idx`, `aux` and `data` select what a command acts on, and what an
out-of-range operand selects. `data` as F32 and as raw word is the word itself; as U32 it is `toNat`. -/

namespace Sys2Proof.Machine

/-- `idx` as a channel number: the channel, if it is below `NCH` (rules R99, R149, R150). -/
def channelOperand (s : State) (ch : BitVec 8) : Option (Fin 2) :=
  if ch.toNat < s.act.nch.toNat then
    if h : ch.toNat < 2 then some ⟨ch.toNat, h⟩ else none
  else none

/-- `idx` as the identifier of a smoothed parameter, 0x00 to 0x19 (rule R270). -/
def smoothedOperand (pid : BitVec 8) : Option SpIdx :=
  if h : pid.toNat < 26 then some ⟨pid.toNat, h⟩ else none

/-- `idx` as the index of a staging register, 0x00 to 0x05 (rules R26, R321, R322). -/
def stagingOperand (idx : BitVec 8) : Option (Fin 6) :=
  if h : idx.toNat < 6 then some ⟨idx.toNat, h⟩ else none

/-- The cell of an identifier 0x20 to 0x27 as an integer (rule R24); none for any other identifier. -/
def cellValue (s : State) (pid : BitVec 8) : Option Nat :=
  match pid.toNat with
  | 0x20 => some s.cells.dtype.toNat
  | 0x21 => some s.cells.dlytype.toNat
  | 0x22 => some s.cells.lfoen.toNat
  | 0x23 => some s.cells.panmode.toNat
  | 0x24 => some s.cells.banden[0].toNat
  | 0x25 => some s.cells.banden[1].toNat
  | 0x26 => some s.cells.banden[2].toNat
  | 0x27 => some s.cells.banden[3].toNat
  | _ => none

/-- `cell(pid) <- n` (rule R24), `n` a legal value of the cell; no effect for any other identifier. -/
def setCell (s : State) (pid : BitVec 8) (n : Nat) : State :=
  match pid.toNat with
  | 0x20 => s.setCells { s.cells with dtype := BitVec.ofNat 2 n }
  | 0x21 => s.setCells { s.cells with dlytype := BitVec.ofNat 1 n }
  | 0x22 => s.setCells { s.cells with lfoen := BitVec.ofNat 1 n }
  | 0x23 => s.setCells { s.cells with panmode := BitVec.ofNat 1 n }
  | 0x24 => s.setCells { s.cells with banden := s.cells.banden.set 0 (BitVec.ofNat 1 n) }
  | 0x25 => s.setCells { s.cells with banden := s.cells.banden.set 1 (BitVec.ofNat 1 n) }
  | 0x26 => s.setCells { s.cells with banden := s.cells.banden.set 2 (BitVec.ofNat 1 n) }
  | 0x27 => s.setCells { s.cells with banden := s.cells.banden.set 3 (BitVec.ofNat 1 n) }
  | _ => s

/-- `ACT(idx)`: the active configuration as CFGR reads it, indices 0x10 to 0x17 (rules R27, R322). -/
def activeWord (s : State) (idx : BitVec 8) : Option Word32 :=
  match idx.toNat with
  | 0x10 => some (s.act.cap.setWidth 32)
  | 0x11 => some (s.act.rampSamples.setWidth 32)
  | 0x12 => some (s.wc[0].setWidth 32)
  | 0x13 => some (s.wc[1].setWidth 32)
  | 0x14 => some s.act.fs
  | 0x15 => some (s.act.nch.setWidth 32)
  | 0x16 => some (s.act.maxBlk.setWidth 32)
  | 0x17 => some (s.act.rmode.setWidth 32)
  | _ => none

end Sys2Proof.Machine
end

