-- ==== Sys2Proof/Machine/ParameterCommands.lean ====
section
/-! DEFINITION. The meanings of SETP (one row per recognised identifier, and the catch-all), GETP and GETC (rules R270 to
R309). -/

namespace Sys2Proof.Machine

/-- `Convert(pid, v)` (rule R272), `v` not NaN. -/
def convert (pid : BitVec 8) (v : F32) : Nat :=
  if pid = 0x20 then f2uRound (fclamp v Config.zero Config.two)
  else if fge v Config.half then 1 else 0

/-- `DIRTY[(pid − 14) div 3] <- 1` for an equalizer parameter (rules R231, R271). -/
def markDirty (i : SpIdx) (s : State) : State :=
  if h : 14 ≤ i.val then s.setDirty (s.dirty.set ((i.val - 14) / 3) true) else s

/-- SETP of a smoothed parameter, value not NaN (rule R271): clamp, retarget, mark. -/
def setSmoothed (i : SpIdx) (v : F32) (s : State) : State :=
  markDirty i (spSetTarget i (fclamp v (paramRange i).lo (paramRange i).hi) s)

/-- `SETP(pid, data)` (rule R271): an unrecognised identifier and a NaN change nothing. -/
def setParameter (pid : BitVec 8) (v : F32) (s : State) : State :=
  if !recognisedPid pid || isNaN v then s
  else
    match smoothedOperand pid with
    | some i => setSmoothed i v s
    | none => setCell s pid (convert pid v)

/-! ### SETP, one meaning per row -/

/-- **SETP** `input` (rule R276). -/
def execSetpInput (v : F32) (s : State) : Result := .next (setParameter 0x00 v s)
/-- **SETP** `output` (rule R277). -/
def execSetpOutput (v : F32) (s : State) : Result := .next (setParameter 0x01 v s)
/-- **SETP** `drive` (rule R278). -/
def execSetpDrive (v : F32) (s : State) : Result := .next (setParameter 0x02 v s)
/-- **SETP** `mix` (rule R279). -/
def execSetpMix (v : F32) (s : State) : Result := .next (setParameter 0x03 v s)
/-- **SETP** `distOutput` (rule R280). -/
def execSetpDistOutput (v : F32) (s : State) : Result := .next (setParameter 0x04 v s)
/-- **SETP** `delayTimeLeft` (rule R281). -/
def execSetpDelayTimeLeft (v : F32) (s : State) : Result := .next (setParameter 0x05 v s)
/-- **SETP** `delayTimeRight` (rule R282). -/
def execSetpDelayTimeRight (v : F32) (s : State) : Result := .next (setParameter 0x06 v s)
/-- **SETP** `feedback` (rule R283). -/
def execSetpFeedback (v : F32) (s : State) : Result := .next (setParameter 0x07 v s)
/-- **SETP** `delayMix` (rule R284). -/
def execSetpDelayMix (v : F32) (s : State) : Result := .next (setParameter 0x08 v s)
/-- **SETP** `pan` (rule R285). -/
def execSetpPan (v : F32) (s : State) : Result := .next (setParameter 0x09 v s)
/-- **SETP** `leftPan` (rule R286). -/
def execSetpLeftPan (v : F32) (s : State) : Result := .next (setParameter 0x0A v s)
/-- **SETP** `rightPan` (rule R287). -/
def execSetpRightPan (v : F32) (s : State) : Result := .next (setParameter 0x0B v s)
/-- **SETP** `lfoFreq` (rule R288). -/
def execSetpLfoFreq (v : F32) (s : State) : Result := .next (setParameter 0x0C v s)
/-- **SETP** `lfoDepth` (rule R289). -/
def execSetpLfoDepth (v : F32) (s : State) : Result := .next (setParameter 0x0D v s)
/-- **SETP** `band0_frequency` (rule R290). -/
def execSetpBand0Frequency (v : F32) (s : State) : Result := .next (setParameter 0x0E v s)
/-- **SETP** `band0_gain` (rule R291). -/
def execSetpBand0Gain (v : F32) (s : State) : Result := .next (setParameter 0x0F v s)
/-- **SETP** `band0_q` (rule R292). -/
def execSetpBand0Q (v : F32) (s : State) : Result := .next (setParameter 0x10 v s)
/-- **SETP** `band1_frequency` (rule R293). -/
def execSetpBand1Frequency (v : F32) (s : State) : Result := .next (setParameter 0x11 v s)
/-- **SETP** `band1_gain` (rule R294). -/
def execSetpBand1Gain (v : F32) (s : State) : Result := .next (setParameter 0x12 v s)
/-- **SETP** `band1_q` (rule R295). -/
def execSetpBand1Q (v : F32) (s : State) : Result := .next (setParameter 0x13 v s)
/-- **SETP** `band2_frequency` (rule R296). -/
def execSetpBand2Frequency (v : F32) (s : State) : Result := .next (setParameter 0x14 v s)
/-- **SETP** `band2_gain` (rule R297). -/
def execSetpBand2Gain (v : F32) (s : State) : Result := .next (setParameter 0x15 v s)
/-- **SETP** `band2_q` (rule R298). -/
def execSetpBand2Q (v : F32) (s : State) : Result := .next (setParameter 0x16 v s)
/-- **SETP** `band3_frequency` (rule R299). -/
def execSetpBand3Frequency (v : F32) (s : State) : Result := .next (setParameter 0x17 v s)
/-- **SETP** `band3_gain` (rule R300). -/
def execSetpBand3Gain (v : F32) (s : State) : Result := .next (setParameter 0x18 v s)
/-- **SETP** `band3_q` (rule R301). -/
def execSetpBand3Q (v : F32) (s : State) : Result := .next (setParameter 0x19 v s)
/-- **SETP** `distortiontype` (rule R302). -/
def execSetpDistortiontype (v : F32) (s : State) : Result := .next (setParameter 0x20 v s)
/-- **SETP** `delaytype` (rule R303). -/
def execSetpDelaytype (v : F32) (s : State) : Result := .next (setParameter 0x21 v s)
/-- **SETP** `lfoEnabled` (rule R304). -/
def execSetpLfoEnabled (v : F32) (s : State) : Result := .next (setParameter 0x22 v s)
/-- **SETP** `panMode` (rule R305). -/
def execSetpPanMode (v : F32) (s : State) : Result := .next (setParameter 0x23 v s)
/-- **SETP** `band0_enabled` (rule R306). -/
def execSetpBand0Enabled (v : F32) (s : State) : Result := .next (setParameter 0x24 v s)
/-- **SETP** `band1_enabled` (rule R307). -/
def execSetpBand1Enabled (v : F32) (s : State) : Result := .next (setParameter 0x25 v s)
/-- **SETP** `band2_enabled` (rule R308). -/
def execSetpBand2Enabled (v : F32) (s : State) : Result := .next (setParameter 0x26 v s)
/-- **SETP** `band3_enabled` (rule R309). -/
def execSetpBand3Enabled (v : F32) (s : State) : Result := .next (setParameter 0x27 v s)
/-- **SETP** of an unrecognised identifier (rule R273). -/
def execSetp (pid : BitVec 8) (v : F32) (s : State) : Result := .next (setParameter pid v s)

/-! ### GETP and GETC -/

/-- What a read of an identifier answers: `reg` of a smoothed register, the cell as F32, or the neutral read (rules R273 to
R275). -/
def parameterWord (reg : Sp → F32) (pid : BitVec 8) (s : State) : Word32 :=
  match smoothedOperand pid with
  | some i => reg s.sp[i]
  | none =>
    match cellValue s pid with
    | some n => u2f n
    | none => 0x00000000#32

/-- **GETP** `pid` (rule R274): the target. -/
def execGetp (pid : BitVec 8) (s : State) : Result := .next (s.respond (parameterWord Sp.tgt pid s))

/-- **GETC** `pid` (rule R275): the current value. -/
def execGetc (pid : BitVec 8) (s : State) : Result := .next (s.respond (parameterWord Sp.cur pid s))

end Sys2Proof.Machine
end

