-- ==== Sys2Proof/Machine/RingCommands.lean ====
section
/-! DEFINITION. The meanings of RBWR, RBRD and RBCLR (rules R149 to R151). -/

namespace Sys2Proof.Machine

/-- The state of a meaning that can meet a delay-RAM fault. -/
def orFault : Except Fault State → Result
  | .error f => .fault f
  | .ok s => .next s

/-- **RBWR** `ch, sample` (rule R149). -/
def execRbwr (ch : BitVec 8) (sample : F32) (s : State) : Result :=
  if !s.status.prepared then .next (s.raise .notPrep)
  else
    match channelOperand s ch with
    | none => .next s
    | some c => orFault (rbWrite c sample s)

/-- **RBRD** `ch, offsetBack` (rule R150): the channel is checked before the offset (rule R349). -/
def execRbrd (ch : BitVec 8) (offsetBack : Word32) (s : State) : Result :=
  if !s.status.prepared then .next ((s.raise .notPrep).respond 0x00000000#32)
  else
    match channelOperand s ch with
    | none => .next (s.respond 0x00000000#32)
    | some c =>
      let k := offsetBack.toNat
      let s' := if s.act.cap.toNat ≤ k then s.raise .rbOff else s
      match rbRead c k s' with
      | .error f => .fault f
      | .ok v => .next (s'.respond v)

/-- **RBCLR** (rule R151). -/
def execRbclr (s : State) : Result :=
  if !s.status.prepared then .next (s.raise .notPrep) else .next (rbClear s)

end Sys2Proof.Machine
end

