-- ==== Sys2Proof/Machine/Flags.lean ====
section
/-! DEFINITION. `STATUS` as the word software reads (rule R29), and the six flags by name and bit (rules R341 to R346). No
command computes a flag from an arithmetic result (rule R30). -/

namespace Sys2Proof.Machine

/-- The bit of `STATUS` a flag occupies (rules R341 to R346). -/
def ErrorFlag.bit : ErrorFlag → Nat
  | .illegal => 8
  | .badRate => 9
  | .badCfg => 10
  | .notPrep => 11
  | .blkSize => 12
  | .rbOff => 13

/-- Whether a flag is set. -/
def Status.flag (t : Status) : ErrorFlag → Bool
  | .illegal => t.eIllegal
  | .badRate => t.eBadRate
  | .badCfg => t.eBadCfg
  | .notPrep => t.eNotPrep
  | .blkSize => t.eBlkSize
  | .rbOff => t.eRbOff

/-- Bit `k` of a word, if `b`. -/
def bitIf (b : Bool) (k : Nat) : Word32 := if b then 1#32 <<< k else 0#32

/-- The `STATUS` word (rules R29, R328): `PREPARED` in bit 0, `SEQ.busy` in bit 1, the flags in bits 13:8, every other bit
0. -/
def statusWord (s : State) : Word32 :=
  bitIf s.status.prepared 0 ||| bitIf s.seq.busy 1 |||
  bitIf s.status.eIllegal 8 ||| bitIf s.status.eBadRate 9 ||| bitIf s.status.eBadCfg 10 |||
  bitIf s.status.eNotPrep 11 ||| bitIf s.status.eBlkSize 12 ||| bitIf s.status.eRbOff 13

/-- Raise each flag of a list (rule R323: "every failed one sets its flag"). -/
def State.raiseAll (s : State) (fs : List ErrorFlag) : State := fs.foldl State.raise s

end Sys2Proof.Machine
end

