-- ==== Sys2Proof/Machine/SystemCommands.lean ====
section
/-! DEFINITION. The meanings of NOP, CFGW, CFGR, PREPARE, RESET, CLRERR and STATUS (rules R320 to R329). -/

namespace Sys2Proof.Machine

/-- **NOP** (rule R320). -/
def execNop (s : State) : Result := .next s

/-- **CFGW** `idx, data` (rule R321): stored raw; an index that is not writable is ignored. -/
def execCfgw (idx : BitVec 8) (data : Word32) (s : State) : Result :=
  match stagingOperand idx with
  | some i => .next (s.setCfg (s.cfg.set i data))
  | none => .next s

/-- The word CFGR answers (rule R322): the raw staged word, the active configuration while prepared, or the neutral
read. -/
def cfgrWord (idx : BitVec 8) (s : State) : Word32 :=
  match stagingOperand idx with
  | some i => s.cfg[i]
  | none => if s.status.prepared then (activeWord s idx).getD 0x00000000#32 else 0x00000000#32

/-- **CFGR** `idx` (rule R322). -/
def execCfgr (idx : BitVec 8) (s : State) : Result := .next (s.respond (cfgrWord idx s))

/-! ### PREPARE -/

/-- The staging registers by name (rule R26). -/
def cfgSampleRate (cfg : Vector Word32 6) : F32 := cfg[0]
def cfgMaxBlock (cfg : Vector Word32 6) : Word32 := cfg[1]
def cfgNumCh (cfg : Vector Word32 6) : Word32 := cfg[2]
def cfgMaxDelayMs (cfg : Vector Word32 6) : F32 := cfg[3]
def cfgRampTime (cfg : Vector Word32 6) : F32 := cfg[4]
def cfgRampMode (cfg : Vector Word32 6) : Word32 := cfg[5]

/-- V1 (rule R323). -/
def validRate (cfg : Vector Word32 6) : Bool :=
  let fs := cfgSampleRate cfg
  isFinite fs && fle Config.srMin fs && fle fs Config.srMax

/-- V2 (rule R323). -/
def validBlock (cfg : Vector Word32 6) : Bool :=
  decide (1 ≤ (cfgMaxBlock cfg).toNat) && decide ((cfgMaxBlock cfg).toNat ≤ Config.maxBlockLimit)

/-- V3 (rule R323). -/
def validChannels (cfg : Vector Word32 6) : Bool :=
  decide (1 ≤ (cfgNumCh cfg).toNat) && decide ((cfgNumCh cfg).toNat ≤ Config.nchMax)

/-- V4 (rule R323). -/
def validMaxDelay (cfg : Vector Word32 6) : Bool :=
  let md := cfgMaxDelayMs cfg
  isFinite md && flt Config.zero md && fle md Config.maxDelayMsLimit

/-- V5 (rule R323). -/
def validRampTime (cfg : Vector Word32 6) : Bool :=
  let rt := cfgRampTime cfg
  isFinite rt && fle Config.zero rt && fle rt Config.rampTimeLimit

/-- V6 (rule R323). -/
def validRampMode (cfg : Vector Word32 6) : Bool := decide ((cfgRampMode cfg).toNat ≤ 1)

/-- V7 (rule R323): evaluated if V1 and V4 hold. -/
def validCapacity (cfg : Vector Word32 6) : Bool :=
  !(validRate cfg && validMaxDelay cfg) ||
    decide (rbLength (cfgMaxDelayMs cfg) (cfgSampleRate cfg) ≤ Config.capMax)

/-- The checks whose flag is `E_BADCFG`, V2 to V7. -/
def validConfig (cfg : Vector Word32 6) : Bool :=
  validBlock cfg && validChannels cfg && validMaxDelay cfg && validRampTime cfg && validRampMode cfg &&
    validCapacity cfg

/-- The flags PREPARE raises: one for V1, one for V2 to V7 (rule R323); none when every check holds. -/
def prepareFailures (cfg : Vector Word32 6) : List ErrorFlag :=
  (if validRate cfg then [] else [.badRate]) ++ (if validConfig cfg then [] else [.badCfg])

/-- The active configuration a valid staging gives (rules R27, R121, R126, R141, R161, R324). -/
def activeOf (cfg : Vector Word32 6) : Active :=
  let fs := cfgSampleRate cfg
  let ramp := rampLength (cfgRampTime cfg) fs
  { cap := BitVec.ofNat 19 (max 1 (rbLength (cfgMaxDelayMs cfg) fs))
    rampSamples := BitVec.ofNat 18 ramp
    fs := fs
    nch := (cfgNumCh cfg).extractLsb' 0 2
    maxBlk := (cfgMaxBlock cfg).extractLsb' 0 16
    rmode := (cfgRampMode cfg).extractLsb' 0 1
    expAlpha := expCoefficient ramp
    dcbR := dcbPole fs }

/-- What PREPARE and RESET clear besides the ring and the ramps (rules R324, R326): DC blockers, phases, biquads; every
band dirty. -/
def clearUnits (s : State) : State :=
  let z := Config.zero
  let noBiquad : Vector Biquad 2 := #v[⟨z, z⟩, ⟨z, z⟩]
  (((s.setDc #v[⟨z, z⟩, ⟨z, z⟩]).setPh #v[z, z]).setBq #v[noBiquad, noBiquad, noBiquad, noBiquad]).setDirty
    #v[true, true, true, true]

/-- The state after a successful PREPARE (rule R324). -/
def prepared (s : State) : State :=
  (clearUnits (spSnap (rbClear (s.setAct (activeOf s.cfg))))).setPrepared true

/-- **PREPARE** (rules R323 to R325). -/
def execPrepare (s : State) : Result :=
  match prepareFailures s.cfg with
  | [] => .next (prepared s)
  | fs => .next ((s.raiseAll fs).setPrepared false)

/-- **RESET** (rule R326). -/
def execReset (s : State) : Result :=
  if !s.status.prepared then .next (s.raise .notPrep) else .next (clearUnits (spSnap (rbClear s)))

/-- **CLRERR** (rule R327). -/
def execClrerr (s : State) : Result := .next s.clearErrors

/-- **STATUS** (rule R328). -/
def execStatus (s : State) : Result := .next (s.respond (statusWord s))

end Sys2Proof.Machine
end

