-- ==== Sys2Proof/Machine/Dispatch.lean ====
section
/-! DEFINITION. One arm per command (rule R94), each a call of the command's own meaning. -/

namespace Sys2Proof.Machine

def exec (i : Instr) (s : State) : Host.Outcome State Fault Refusal :=
  match i with
  | .nop => Sys2Proof.Machine.execNop s
  | .cfgw idx data => Sys2Proof.Machine.execCfgw idx data s
  | .prepare => Sys2Proof.Machine.execPrepare s
  | .reset => Sys2Proof.Machine.execReset s
  | .process n => Sys2Proof.Machine.execProcess n s
  | .rbwr ch sample => Sys2Proof.Machine.execRbwr ch sample s
  | .rbrd ch offsetBack => Sys2Proof.Machine.execRbrd ch offsetBack s
  | .rbclr => Sys2Proof.Machine.execRbclr s
  | .clrerr => Sys2Proof.Machine.execClrerr s
  | .setpInput v => Sys2Proof.Machine.execSetpInput v s
  | .setpOutput v => Sys2Proof.Machine.execSetpOutput v s
  | .setpDrive v => Sys2Proof.Machine.execSetpDrive v s
  | .setpMix v => Sys2Proof.Machine.execSetpMix v s
  | .setpDistOutput v => Sys2Proof.Machine.execSetpDistOutput v s
  | .setpDelayTimeLeft v => Sys2Proof.Machine.execSetpDelayTimeLeft v s
  | .setpDelayTimeRight v => Sys2Proof.Machine.execSetpDelayTimeRight v s
  | .setpFeedback v => Sys2Proof.Machine.execSetpFeedback v s
  | .setpDelayMix v => Sys2Proof.Machine.execSetpDelayMix v s
  | .setpPan v => Sys2Proof.Machine.execSetpPan v s
  | .setpLeftPan v => Sys2Proof.Machine.execSetpLeftPan v s
  | .setpRightPan v => Sys2Proof.Machine.execSetpRightPan v s
  | .setpLfoFreq v => Sys2Proof.Machine.execSetpLfoFreq v s
  | .setpLfoDepth v => Sys2Proof.Machine.execSetpLfoDepth v s
  | .setpBand0Frequency v => Sys2Proof.Machine.execSetpBand0Frequency v s
  | .setpBand0Gain v => Sys2Proof.Machine.execSetpBand0Gain v s
  | .setpBand0Q v => Sys2Proof.Machine.execSetpBand0Q v s
  | .setpBand1Frequency v => Sys2Proof.Machine.execSetpBand1Frequency v s
  | .setpBand1Gain v => Sys2Proof.Machine.execSetpBand1Gain v s
  | .setpBand1Q v => Sys2Proof.Machine.execSetpBand1Q v s
  | .setpBand2Frequency v => Sys2Proof.Machine.execSetpBand2Frequency v s
  | .setpBand2Gain v => Sys2Proof.Machine.execSetpBand2Gain v s
  | .setpBand2Q v => Sys2Proof.Machine.execSetpBand2Q v s
  | .setpBand3Frequency v => Sys2Proof.Machine.execSetpBand3Frequency v s
  | .setpBand3Gain v => Sys2Proof.Machine.execSetpBand3Gain v s
  | .setpBand3Q v => Sys2Proof.Machine.execSetpBand3Q v s
  | .setpDistortiontype v => Sys2Proof.Machine.execSetpDistortiontype v s
  | .setpDelaytype v => Sys2Proof.Machine.execSetpDelaytype v s
  | .setpLfoEnabled v => Sys2Proof.Machine.execSetpLfoEnabled v s
  | .setpPanMode v => Sys2Proof.Machine.execSetpPanMode v s
  | .setpBand0Enabled v => Sys2Proof.Machine.execSetpBand0Enabled v s
  | .setpBand1Enabled v => Sys2Proof.Machine.execSetpBand1Enabled v s
  | .setpBand2Enabled v => Sys2Proof.Machine.execSetpBand2Enabled v s
  | .setpBand3Enabled v => Sys2Proof.Machine.execSetpBand3Enabled v s
  | .setp pid v => Sys2Proof.Machine.execSetp pid v s
  | .getp pid => Sys2Proof.Machine.execGetp pid s
  | .getc pid => Sys2Proof.Machine.execGetc pid s
  | .status => Sys2Proof.Machine.execStatus s
  | .cfgr idx => Sys2Proof.Machine.execCfgr idx s

end Sys2Proof.Machine
end

