-- ==== Sys2Proof/Machine/Sequencer.lean ====
section
/-! DEFINITION. What the machine does next (rules R69 to R76, R92, R250, R256): hardware reset while `RST` is asserted; inside a
block, a control command at a frame boundary or the next piece of the block; outside, the next command of a queue. -/

namespace Sys2Proof.Machine

/-- Perform a word taken from queue `q` (rules R92, R98): an illegal word raises `E_ILLEGAL` and is discarded; a legal one
is executed, and answers on the response queue of `q`. -/
def perform (q : Queue) (w : Command) (s : State) : Result :=
  match classify q w with
  | .error _ => .next (s.raise .illegal)
  | .ok i => exec i (s.setIssuer q)

/-- The state with the first word of `CQ` taken. -/
def takeControl (rest : List Command) (s : State) : State := s.setIo { s.io with cq := rest }

/-- The state with the first word of `AQ` taken. -/
def takeAudio (rest : List Command) (s : State) : State := s.setIo { s.io with aq := rest }

/-- The free schedule's answer at this decision (rule R73): is the waiting `CQ` command performed now? -/
def controlTurn (s : State) : Bool := Config.schedule.serve s.tick

/-- The decision has been taken. -/
def nextTick (s : State) : State := s.setTick (s.tick + 1)

/-- Inside a block (rules R72, R250, R256): at a boundary, the waiting control command or the start of the next frame;
inside a frame, the engine alone. -/
def runBlock (s : State) : Result :=
  if s.inFrame then engineStep s
  else
    match s.io.cq with
    | [] => engineStep (s.setInFrame true)
    | w :: rest =>
      if controlTurn s then perform .control w (nextTick (takeControl rest s))
      else engineStep ((nextTick s).setInFrame true)

/-- Outside a block (rules R70, R72, R75, R358): a decision is taken only if both queues hold a word. -/
def runIdle (s : State) : Result :=
  match s.io.cq, s.io.aq with
  | [], [] => .next s
  | w :: rest, [] => perform .control w (takeControl rest s)
  | [], w :: rest => perform .audio w (takeAudio rest s)
  | w :: rest, v :: rest' =>
    if controlTurn s then perform .control w (nextTick (takeControl rest s))
    else perform .audio v (nextTick (takeAudio rest' s))

/-- The next step. -/
def nextStep (s : State) : Result :=
  if s.io.rst then .next s.hardwareReset
  else if s.seq.busy then runBlock s
  else runIdle s

/-- The state in which the next step runs the word `w`: it is the first word of `AQ`, no block is running, no control
command waits, and `RST` is not asserted. It stands for the host pushing the word (rule R67; log entry 1). -/
def withNextCommand (s : State) (w : Command) : State :=
  endBlock (s.setIo { s.io with cq := [], aq := w :: s.io.aq, rst := false })

end Sys2Proof.Machine
end

