-- ==== Sys2Proof/Machine/Step.lean ====
section
/-! DEFINITION. The step of the machine, and where a host puts an instruction so that the next step runs it. -/

namespace Sys2Proof.Machine

/-- One step (Sequencer.lean). -/
def step (s : State) : Host.Outcome State Fault Refusal := nextStep s

/-- `s` with the instruction whose bits are `w` as the first word of `AQ`, and nothing before it. -/
def State.withFetchWord (s : State) (nbits w : Nat) : State :=
  withNextCommand s (BitVec.ofNat 64 (w % 2 ^ nbits))

end Sys2Proof.Machine
end

