-- ==== Sys2Proof/Machine/Assembler.lean ====
section
/-! DEFINITION. The assembler syntax and the pseudo-commands (rules R100, R101): one line of text to the words it stands for and
the queue they go on. -/

namespace Sys2Proof.Machine.Assembler

/-! ### Characters -/

/-- The line without its comment. -/
def dropComment (cs : List Char) : List Char := cs.takeWhile fun c => c != ';'

/-- Without the spaces at both ends. -/
def trim (cs : List Char) : List Char :=
  ((cs.dropWhile fun c => c == ' ').reverse.dropWhile fun c => c == ' ').reverse

/-- The pieces between the commas, each trimmed. -/
def commaParts : List Char → List Char → List (List Char)
  | acc, [] => [trim acc.reverse]
  | acc, c :: cs => if c = ',' then trim acc.reverse :: commaParts [] cs else commaParts (c :: acc) cs

/-- The operands of a command: none if nothing is written. -/
def operands (cs : List Char) : List (List Char) := if (trim cs).isEmpty then [] else commaParts [] cs

/-! ### Numbers -/

/-- The digits of rule R100's integers in the order of their values; a letter digit may be of either case. -/
def digitChars : List Char := "0123456789abcdef".toList

/-- The value of a digit of a base (10 or 16): its place among the digits. -/
def digitIn (base : Nat) (c : Char) : Option Nat := (digitChars.take base).idxOf? c.toLower

/-- Digits read in a base, most significant first; none if a character is no digit. -/
def digits (base : Nat) (cs : List Char) : Option Nat :=
  cs.foldl (fun n c => n.bind fun m => (digitIn base c).map (base * m + ·)) (some 0)

/-- A decimal or hexadecimal integer. -/
def natural : List Char → Option Nat
  | [] => none
  | '0' :: 'x' :: c :: cs => digits 16 (c :: cs)
  | c :: cs => digits 10 (c :: cs)

/-- An integer of at most `w` bits. -/
def unsigned (w : Nat) (cs : List Char) : Option (BitVec w) :=
  (natural cs).bind fun n => if n < 2 ^ w then some (BitVec.ofNat w n) else none

/-- The digits before and after a decimal point. -/
def splitPoint : List Char → List Char × List Char
  | [] => ([], [])
  | c :: cs => if c = '.' then ([], cs) else ((c :: (splitPoint cs).1), (splitPoint cs).2)

/-- An unsigned decimal literal, as the nearest F32 (rule R11). -/
def decimal (negative : Bool) (cs : List Char) : Option F32 :=
  let p := splitPoint cs
  if p.1.isEmpty then none
  else (digits 10 (p.1 ++ p.2)).map fun n => fliteral negative n (10 ^ p.2.length)

/-- An F32 operand (rule R100): a decimal literal, or `0x` and eight hexadecimal digits. Rule R100 has no decimal literal for
an infinity or a NaN; `95_test_vectors.md` writes them `+inf`, `-inf` and `NaN`, and the model reads these with the patterns
of its encodings (DEDUCED, log entry 20). -/
def float : List Char → Option F32
  | ['+', 'i', 'n', 'f'] => some Config.inf
  | ['-', 'i', 'n', 'f'] => some Config.minusInf
  | ['N', 'a', 'N'] => some 0x7FC00000#32
  | '0' :: 'x' :: cs => if cs.length = 8 then (digits 16 cs).map (BitVec.ofNat 32) else none
  | '-' :: cs => decimal true cs
  | '+' :: cs => decimal false cs
  | cs => decimal false cs

/-! ### Names -/

/-- The parameter names of rules R22 and R24, with their identifiers (rule R270). -/
def parameterNames : List (String × BitVec 8) := [
  ("input", 0x00), ("output", 0x01), ("drive", 0x02), ("mix", 0x03), ("distOutput", 0x04), ("delayTimeLeft", 0x05),
  ("delayTimeRight", 0x06), ("feedback", 0x07), ("delayMix", 0x08), ("pan", 0x09), ("leftPan", 0x0A),
  ("rightPan", 0x0B), ("lfoFreq", 0x0C), ("lfoDepth", 0x0D), ("band0_frequency", 0x0E), ("band0_gain", 0x0F),
  ("band0_q", 0x10), ("band1_frequency", 0x11), ("band1_gain", 0x12), ("band1_q", 0x13), ("band2_frequency", 0x14),
  ("band2_gain", 0x15), ("band2_q", 0x16), ("band3_frequency", 0x17), ("band3_gain", 0x18), ("band3_q", 0x19),
  ("distortiontype", 0x20), ("delaytype", 0x21), ("lfoEnabled", 0x22), ("panMode", 0x23), ("band0_enabled", 0x24),
  ("band1_enabled", 0x25), ("band2_enabled", 0x26), ("band3_enabled", 0x27)]

/-- The configuration names of rules R26 and R27; the test vectors write the cursors' names without brackets. -/
def configNames : List (String × BitVec 8) := [
  ("SAMPLE_RATE", 0x00), ("MAX_BLOCK", 0x01), ("NUM_CH", 0x02), ("MAX_DELAY_MS", 0x03), ("RAMP_TIME", 0x04),
  ("RAMP_MODE", 0x05), ("CAP", 0x10), ("RAMP_SAMPLES", 0x11), ("WC[0]", 0x12), ("WC0", 0x12), ("WC[1]", 0x13),
  ("WC1", 0x13), ("FS", 0x14), ("NCH", 0x15), ("MAXBLK", 0x16), ("RMODE", 0x17)]

/-- An `idx` operand: a name of the table, or a number. -/
def index (names : List (String × BitVec 8)) (cs : List Char) : Option (BitVec 8) :=
  match names.lookup (String.ofList cs) with
  | some i => some i
  | none => unsigned 8 cs

def parameter (cs : List Char) : Option (BitVec 8) := index parameterNames cs

/-- The configuration registers whose value is an F32: three of the staging registers (rule R26), and `FS` (rule R27). -/
def floatConfig (idx : BitVec 8) : Bool := idx = 0x00 || idx = 0x03 || idx = 0x04 || idx = 0x14

/-- The data operand of CFGW: an F32 for an F32-valued register, else a U32. At an index that is no staging register rule
R100 does not say how the operand is written: `FS` takes an F32, by its type in rule R27, and every other index a U32
(DESIGN CHOICE, log entry 18). -/
def configData (idx : BitVec 8) (cs : List Char) : Option Word32 :=
  if floatConfig idx then float cs else unsigned 32 cs

/-! ### Commands and pseudo-commands -/

/-- SETP of an identifier (rule R95 picks the row). -/
def setp (pid : BitVec 8) (v : List Char) : Option (List Instr) := (float v).map fun x => [decodeSetp pid x]

/-- `setdelaytime ch, ms` (rule R101): another channel is an unrecognised identifier. -/
def delayTimePid (ch : Nat) : BitVec 8 := if ch = 0 then 0x05 else if ch = 1 then 0x06 else 0xFF

/-- `setband b, kind, v` (rules R101, R231): another band is an unrecognised identifier. -/
def bandPid (b : Nat) (kind : List Char) : Option (BitVec 8) :=
  match String.ofList kind with
  | "frequency" => some (if b < 4 then BitVec.ofNat 8 (14 + 3 * b) else 0xFF)
  | "gain" => some (if b < 4 then BitVec.ofNat 8 (15 + 3 * b) else 0xFF)
  | "q" => some (if b < 4 then BitVec.ofNat 8 (16 + 3 * b) else 0xFF)
  | "enabled" => some (if b < 4 then BitVec.ofNat 8 (0x24 + b) else 0xFF)
  | _ => none

/-- The commands a mnemonic and its operands stand for (rules R100, R101). -/
def expand (mnemonic : String) (ops : List (List Char)) : Option (List Instr) :=
  match mnemonic, ops with
  | "nop", [] => some [.nop]
  | "cfgw", [i, v] => (index configNames i).bind fun idx => (configData idx v).map fun w => [.cfgw idx w]
  | "prepare", [] => some [.prepare]
  | "reset", [] => some [.reset]
  | "process", [n] => (unsigned 16 n).map fun k => [.process k]
  | "rbwr", [ch, v] => (unsigned 8 ch).bind fun c => (float v).map fun x => [.rbwr c x]
  | "rbrd", [ch, k] => (unsigned 8 ch).bind fun c => (unsigned 32 k).map fun o => [.rbrd c o]
  | "rbclr", [] => some [.rbclr]
  | "clrerr", [] => some [.clrerr]
  | "setp", [p, v] => (parameter p).bind fun pid => setp pid v
  | "getp", [p] => (parameter p).map fun pid => [.getp pid]
  | "getc", [p] => (parameter p).map fun pid => [.getc pid]
  | "status", [] => some [.status]
  | "cfgr", [i] => (index configNames i).map fun idx => [.cfgr idx]
  | "prepare!", [fs, blk, nch] =>
    (float fs).bind fun f => (unsigned 32 blk).bind fun b => (unsigned 32 nch).map fun n =>
      [.cfgw 0x00 f, .cfgw 0x01 b, .cfgw 0x02 n, .prepare]
  | "setdrive", [v] => setp 0x02 v
  | "setmix", [v] => setp 0x03 v
  | "setoutput", [v] => setp 0x04 v
  | "settype", [k] => setp 0x20 k
  | "setfeedback", [v] => setp 0x07 v
  | "setdelaymix", [v] => setp 0x08 v
  | "setdelaytime", [ch, ms] => (natural ch).bind fun c => setp (delayTimePid c) ms
  | "setdelaytype", [k] => setp 0x21 k
  | "setband", [b, kind, v] => (natural b).bind fun n => (bandPid n kind).bind fun pid => setp pid v
  | "settarget", [p, v] => (parameter p).bind fun pid => setp pid v
  | "current", [p] => (parameter p).map fun pid => [.getc pid]
  | _, _ => none

/-- A command without its queue: the mnemonic up to the first space, then the operands. -/
def command (cs : List Char) : Option (List Instr) :=
  let body := trim cs
  let mnemonic := body.takeWhile fun c => c != ' '
  expand (String.ofList mnemonic) (operands (body.drop mnemonic.length))

/-- The words of a line on a queue. -/
def onQueue (q : Queue) (cs : List Char) : Option (List (Queue × Command)) :=
  (command cs).map fun is => is.map fun i => (q, encode i)

/-- One line (rule R100): its words, and the queue each is put on, `AQ` by default; none if the line is not of the
syntax. -/
def assembleLine (line : List Char) : Option (List (Queue × Command)) :=
  match trim (dropComment line) with
  | [] => some []
  | 'a' :: ':' :: cs => onQueue .audio cs
  | 'c' :: ':' :: cs => onQueue .control cs
  | cs => onQueue .audio cs

end Sys2Proof.Machine.Assembler
end

