-- ==== Sys2Proof/Machine/HostPorts.lean ====
section
/-! DEFINITION. What the host does to the machine between steps (rules R6, R67, R69, R370): it pushes words into the queues it
feeds, takes words from the queues it drains, and drives `RST`. The queues are unbounded (rule R386). -/

namespace Sys2Proof.Machine

/-- One action of the host. -/
inductive HostAction where
  | pushControl (w : Command)
  | pushAudio (w : Command)
  | pushSample (w : Word32)
  | takeControlResponse
  | takeAudioResponse
  | takeSample
  | driveReset (level : Bool)
  deriving DecidableEq, Repr

/-- What a host action on the queues makes of them; while `RST` is asserted the core accepts nothing (rule R370). -/
def HostAction.apply (a : HostAction) (io : Io) : Io :=
  match a with
  | .pushControl w => if io.rst then io else { io with cq := io.cq ++ [w] }
  | .pushAudio w => if io.rst then io else { io with aq := io.aq ++ [w] }
  | .pushSample w => if io.rst then io else { io with ain := io.ain ++ [w] }
  | .takeControlResponse => { io with rspC := io.rspC.tail }
  | .takeAudioResponse => { io with rspA := io.rspA.tail }
  | .takeSample => { io with aout := io.aout.tail }
  | .driveReset level => { io with rst := level }

/-- The host acts: on the queues, or on the reset pin, whose assertion is the hardware reset (rule R370). -/
def State.hostAct (s : State) (a : HostAction) : State :=
  let s' := s.setIo (a.apply s.io)
  if a = .driveReset true then s'.hardwareReset else s'

/-- A run with a host: before step `k` the host does the `k`-th list of actions. -/
def runWithHost : List (List HostAction) → State → Result
  | [], s => .next s
  | acts :: rest, s =>
    match step (acts.foldl State.hostAct s) with
    | .next t => runWithHost rest t
    | .fault f => .fault f
    | .refused r => .refused r

end Sys2Proof.Machine
end

