-- ==== Sys2Proof/Safety.lean ====
section
/-! DEFINITION. What a safe state is: the invariants the rules state of every state a run reaches (rules R21, R23, R31, R34,
R66, R129, R144, R310), and what is left open between hardware reset and PREPARE (rule R375, U1). And the words the statements
are made of: commands by register, answers, correct rounding, the samples of a frame. -/

namespace Sys2Proof.Machine

/-- A target lies in its range and is not NaN (rule R310). -/
abbrev InRange (r : ParamRange) (v : F32) : Prop := fle r.lo v = true ∧ fle v r.hi = true

/-- The ring of a prepared machine: the channel count and capacity PREPARE accepts, every cursor below the capacity, and the
cursor of an unused channel at 0 (rules R31, R61, R141, R144). -/
structure RingOk (s : State) : Prop where
  nch_pos : 1 ≤ s.act.nch.toNat
  nch_le : s.act.nch.toNat ≤ Config.nchMax
  cap_pos : 1 ≤ s.act.cap.toNat
  cap_le : s.act.cap.toNat ≤ Config.capMax
  cursor : ∀ c : Fin 2, s.wc[c].toNat < s.act.cap.toNat
  unused : ∀ c : Fin 2, s.act.nch.toNat ≤ c.val → s.wc[c] = 0#19

/-- The sequencer (rules R21, R250, R251): a running block is a prepared machine's, has frames left, and no more than
`MAXBLK` unless it is a pass-through; outside a block nothing is left over. -/
structure SeqOk (s : State) : Prop where
  busy_prepared : s.seq.busy = true → s.status.prepared = true ∧ s.seq.rem ≠ 0#16
  block_le : s.seq.busy = true → s.passing = none → s.seq.rem ≤ s.act.maxBlk
  idle : s.seq.busy = false → s.seq.rem = 0#16 ∧ s.passing = none ∧ s.inFrame = false
  boundary : ∀ k, s.inFrame = false → s.passing = some k → k = 0
  word : ∀ k, s.passing = some k → k < s.act.nch.toNat
  /-- rules R69, R252: only inside a frame being processed have words left `AIN` early, and never all of the frame -/
  popped : s.popped ≠ [] → s.inFrame = true ∧ s.passing = none ∧ s.popped.length < s.act.nch.toNat

/-- What PREPARE latches (rules R121, R126, R323): a sample rate of the valid window, a ramp length that its checks bound, an
exponential coefficient of `[0, 1]`. -/
structure ActiveOk (a : Active) : Prop where
  rate : fle Config.srMin a.fs = true ∧ fle a.fs Config.srMax = true
  ramp : a.rampSamples.toNat ≤ 192000
  alpha : fle Config.zero a.expAlpha = true ∧ fle a.expAlpha Config.one = true

/-- The largest magnitude of a range, in units of `2^-149`. -/
def ParamRange.span (r : ParamRange) : Int := max |fvalue r.lo| |fvalue r.hi|

/-- A register in a glide (rules R122 to R124, R129): its value is a number not far outside its range, and on a linear ramp
the advances that are left lead to the target, up to the roundings made so far. -/
structure Glides (a : Active) (range : ParamRange) (r : Sp) : Prop where
  finite : isFinite r.cur = true ∧ isFinite r.step = true
  near : |fvalue r.cur| ≤ 2 * range.span
  drift : a.rmode = 0#1 → r.cnt ≠ 0#18 →
    2 ^ 21 * |fvalue r.cur + r.cnt.toNat * fvalue r.step - fvalue r.tgt| ≤
      (a.rampSamples.toNat - r.cnt.toNat + 2) * range.span

/-- The phases of a machine at a valid sample rate are in `[0, TWO_PI)` (rules R34, R204). -/
abbrev PhaseOk (s : State) : Prop :=
  ∀ l : Fin 2, fle Config.zero s.ph[l] = true ∧ flt s.ph[l] Config.twoPi = true

/-- The invariant of the machine. -/
structure Inv (s : State) : Prop where
  /-- the delay RAM keeps its canonical form and its addresses -/
  mem : Memory.wf s.dram = true
  /-- rule R310 -/
  targets : ∀ i : SpIdx, InRange (paramRange i) s.sp[i].tgt
  /-- rule R23: `cnt = 0` implies `cur == tgt` bit for bit -/
  settled : ∀ i : SpIdx, s.sp[i].cnt = 0#18 → s.sp[i].cur = s.sp[i].tgt
  /-- no ramp is longer than the latched length (rules R122, R123) -/
  ramps : ∀ i : SpIdx, s.sp[i].cnt ≤ s.act.rampSamples
  /-- rule R129: how far rounding carries a ramp -/
  glides : ∀ i : SpIdx, Glides s.act (paramRange i) s.sp[i]
  /-- rules R24, R310: every cell holds a legal value; the other cells have no illegal one -/
  cells : s.cells.dtype ≠ 3#2
  active : s.status.prepared = true → ActiveOk s.act
  ring : s.status.prepared = true → RingOk s
  /-- rule R34 -/
  phases : s.status.prepared = true → PhaseOk s
  seq : SeqOk s

/-- Two states that differ at most in what the spec leaves unspecified until PREPARE succeeds: the active configuration,
`WC`, `DRAM`, `DC`, `PH`, `COEF`, `BQ` (rules R38, R371, U1). -/
structure AgreeSpecified (s t : State) : Prop where
  seq : s.seq = t.seq
  sp : s.sp = t.sp
  cells : s.cells = t.cells
  cfg : s.cfg = t.cfg
  status : s.status = t.status
  dirty : s.dirty = t.dirty
  io : s.io = t.io
  issuer : s.issuer = t.issuer
  passing : s.passing = t.passing
  inFrame : s.inFrame = t.inFrame
  popped : s.popped = t.popped
  tick : s.tick = t.tick

/-- Two states that agree on all that the rules give a value: everything specified; while prepared also the active
configuration, the unit state and the addressed words of the delay RAM; inside a processed block also `COEF`, which the
block start has written (rules R61, R371, R375). -/
structure Agree (s t : State) : Prop extends AgreeSpecified s t where
  act : s.status.prepared = true → s.act = t.act
  wc : s.status.prepared = true → s.wc = t.wc
  dram : s.status.prepared = true → ∀ a, a < rbWords s → memLookup s.dram a = memLookup t.dram a
  dc : s.status.prepared = true → s.dc = t.dc
  ph : s.status.prepared = true → s.ph = t.ph
  bq : s.status.prepared = true → s.bq = t.bq
  coef : s.seq.busy = true → s.passing = none → s.coef = t.coef

/-- The SETP command of a smoothed parameter, by the index of its register (rules R270, R276 to R301). -/
def smoothedCommand (i : SpIdx) (v : F32) : Instr :=
  (#v[.setpInput v, .setpOutput v, .setpDrive v, .setpMix v, .setpDistOutput v, .setpDelayTimeLeft v,
    .setpDelayTimeRight v, .setpFeedback v, .setpDelayMix v, .setpPan v, .setpLeftPan v,
    .setpRightPan v, .setpLfoFreq v, .setpLfoDepth v, .setpBand0Frequency v, .setpBand0Gain v,
    .setpBand0Q v, .setpBand1Frequency v, .setpBand1Gain v, .setpBand1Q v, .setpBand2Frequency v,
    .setpBand2Gain v, .setpBand2Q v, .setpBand3Frequency v, .setpBand3Gain v, .setpBand3Q v] : Vector Instr 26)[i]

/-- The SETP command of a discrete cell, by its place among the eight (rules R270, R302 to R309). -/
def cellCommand (k : Fin 8) (v : F32) : Instr :=
  (#v[.setpDistortiontype v, .setpDelaytype v, .setpLfoEnabled v, .setpPanMode v, .setpBand0Enabled v,
    .setpBand1Enabled v, .setpBand2Enabled v, .setpBand3Enabled v] : Vector Instr 8)[k]

/-- The eight cells in the order of their identifiers, as integers (rule R24). -/
def cellNat (s : State) (k : Fin 8) : Nat :=
  (#v[s.cells.dtype.toNat, s.cells.dlytype.toNat, s.cells.lfoen.toNat, s.cells.panmode.toNat,
    s.cells.banden[0].toNat, s.cells.banden[1].toNat, s.cells.banden[2].toNat,
    s.cells.banden[3].toNat] : Vector Nat 8)[k]

/-- `k` advances of a register (rule R128). -/
def advanceTimes (rmode : BitVec 1) (expAlpha : F32) : Nat → Sp → Sp
  | 0, r => r
  | k + 1, r => advanceTimes rmode expAlpha k (advance rmode expAlpha r)

/-- `k` frame steps with nothing between them: the loop of rule R250 with empty boundaries (rule R256). -/
def framesOf : Nat → State → Except Fault State
  | 0, s => .ok s
  | k + 1, s =>
    match frameStep s with
    | .error f => .error f
    | .ok t => framesOf k t

/-- `t` is `s` with the word `w` on the response queue of the issuing queue, and nothing else changed (rules R10, R91). -/
def Answers (s : State) (w : Word32) (t : State) : Prop :=
  (s.issuer = .control → t = { s with io := { s.io with rspC := s.io.rspC ++ [w] } }) ∧
  (s.issuer = .audio → t = { s with io := { s.io with rspA := s.io.rspA ++ [w] } })

/-- At `s` the sequencer takes the word `w` from the queue `q`, and `t` is `s` without it (rules R70, R72, R73): an `AQ`
word outside a block; a `CQ` word outside a block or at a frame boundary inside one. Where both the waiting `CQ` word and
the audio side could go, the free schedule decides and the decision is counted. -/
inductive Takes (s : State) : Queue → Command → State → Prop where
  | audio (w : Command) (rest : List Command) : s.io.rst = false → s.seq.busy = false → s.io.aq = w :: rest →
      s.io.cq = [] → Takes s .audio w { s with io := { s.io with aq := rest } }
  | audioFirst (w : Command) (rest : List Command) : s.io.rst = false → s.seq.busy = false → s.io.aq = w :: rest →
      s.io.cq ≠ [] → Config.schedule.serve s.tick = false →
      Takes s .audio w { s with io := { s.io with aq := rest }, tick := s.tick + 1 }
  | control (w : Command) (rest : List Command) : s.io.rst = false → s.seq.busy = false → s.io.cq = w :: rest →
      s.io.aq = [] → Takes s .control w { s with io := { s.io with cq := rest } }
  | controlFirst (w : Command) (rest : List Command) : s.io.rst = false → s.seq.busy = false → s.io.cq = w :: rest →
      s.io.aq ≠ [] → Config.schedule.serve s.tick = true →
      Takes s .control w { s with io := { s.io with cq := rest }, tick := s.tick + 1 }
  | controlAtBoundary (w : Command) (rest : List Command) : s.io.rst = false → s.seq.busy = true → s.inFrame = false →
      s.io.cq = w :: rest → Config.schedule.serve s.tick = true →
      Takes s .control w { s with io := { s.io with cq := rest }, tick := s.tick + 1 }

/-- V1 of rule R323. -/
def ValidRate (cfg : Vector Word32 6) : Prop :=
  isFinite cfg[0] = true ∧ fle Config.srMin cfg[0] = true ∧ fle cfg[0] Config.srMax = true

/-- V2 to V6 of rule R323. -/
structure ValidSetup (cfg : Vector Word32 6) : Prop where
  block : 1 ≤ cfg[1].toNat ∧ cfg[1].toNat ≤ 65535
  channels : 1 ≤ cfg[2].toNat ∧ cfg[2].toNat ≤ 2
  delay : isFinite cfg[3] = true ∧ flt Config.zero cfg[3] = true ∧ fle cfg[3] Config.maxDelayMsLimit = true
  ramp : isFinite cfg[4] = true ∧ fle Config.zero cfg[4] = true ∧ fle cfg[4] Config.one = true
  mode : cfg[5].toNat ≤ 1

/-- Writes to the rings of several channels, in order (rule R152). -/
def writeAll : List (Fin 2 × F32) → State → Except Fault State
  | [], s => .ok s
  | (c, v) :: rest, s =>
    match rbWrite c v s with
    | .error f => .error f
    | .ok t => writeAll rest t

/-- The values written to one channel, oldest first. -/
def writtenTo (c : Fin 2) (ws : List (Fin 2 × F32)) : List F32 := (ws.filter fun p => p.1 = c).map Prod.snd

/-- The word of the ring that an offset below the capacity addresses, by the formula `(cursor − offset) mod capacity`
(rules R142, R146). -/
def ringWord (s : State) (c : Fin 2) (k : Nat) : F32 :=
  memLookup s.dram (c.val * s.act.cap.toNat + (s.wc[c].toNat + s.act.cap.toNat - k) % s.act.cap.toNat)

/-! ### Correct rounding (rule R11); values are counted in units of `2^-149` -/

/-- No finite pattern lies closer to `num / den` than `r`, and of two equally close ones `r` is the one with the even
significand. -/
def IsNearest (r : F32) (num den : Int) : Prop :=
  ∀ w : F32, isFinite w = true →
    |fvalue r * den - num| ≤ |fvalue w * den - num| ∧
    (|fvalue r * den - num| = |fvalue w * den - num| → fvalue w = fvalue r ∨ fmagBits r % 2 = 0)

/-- The least magnitude that rounds to infinity: half a unit in the last place above the largest finite value. -/
def overflowUnits : Int := (2 ^ 25 - 1) * 2 ^ 252

/-- `r` is `num / den` correctly rounded, `den` positive: an infinity of its sign on overflow, else a nearest finite value. -/
def IsRounded (r : F32) (num den : Int) : Prop :=
  if overflowUnits * den ≤ |num| then r = if 0 < num then Config.inf else Config.minusInf
  else isFinite r = true ∧ IsNearest r num den

/-! ### The samples of a frame, stage after stage (rule R252)

`s` is the state before the frame, `p i` what register `i` holds after the tick, `c` a channel in use. -/

/-- Steps 1 and 4: the input word times the input gain (rule R253). -/
def gainedSample (s : State) (p : SpIdx → F32) (c : Fin 2) : F32 :=
  fmul (s.frameSupply.getD c.val Config.zero) (Config.num.fns.db2lin (p 0))

/-- Step 5: behind the DC blocker (rule R162). -/
def blockedSample (s : State) (p : SpIdx → F32) (c : Fin 2) : F32 :=
  fadd (fsub (gainedSample s p c) s.dc[c].x1) (fmul s.act.dcbR s.dc[c].y1)

/-- Step 5: the output of the distortion stage (rules R163 to R168). -/
def distortedSample (s : State) (p : SpIdx → F32) (c : Fin 2) : F32 :=
  let xd := blockedSample s p c
  fmul (fadd (fmul (p 3) (shape s.cells.dtype (p 2) xd)) (fmul (fsub Config.one (p 3)) xd)) (Config.num.fns.db2lin (p 4))

/-- Step 6: the delayed sample, read from the ring before the frame (rules R183, R184). -/
def delayedSample (s : State) (p : SpIdx → F32) (c : Fin 2) : F32 :=
  ringWord s c (delayOffset (p (dlyTime c)) s.act.fs s.act.cap.toNat)

/-- Step 6: the channel whose delayed sample is fed back (rules R186, R187). -/
def feedbackChannel (s : State) (c : Fin 2) : Fin 2 := if s.cells.dlytype = 1#1 ∧ s.act.nch = 2#2 then 1 - c else c

/-- Step 6: the word written into the ring (rule R189). -/
def storedSample (s : State) (p : SpIdx → F32) (c : Fin 2) : F32 :=
  fadd (distortedSample s p c) (fmul (delayedSample s p (feedbackChannel s c)) (p 7))

/-- Step 6: the output of the delay stage (rule R188). -/
def mixedSample (s : State) (p : SpIdx → F32) (c : Fin 2) : F32 :=
  fadd (fmul (fsub Config.one (p 8)) (distortedSample s p c)) (fmul (p 8) (delayedSample s p c))

/-- Step 7: the effective pan of a lane, by the phase before the frame (rules R203, R205). -/
def lanePan (s : State) (p : SpIdx → F32) (l : Fin 2) (base : F32) : F32 :=
  fclamp (if s.cells.lfoen = 1#1 then fadd base (fmul (p 13) (Config.num.fns.sin s.ph[l])) else base)
    Config.minusOne Config.one

/-- The gains of a pan position (rule R206). -/
def leftGain (v : F32) : F32 := Config.num.fns.cos (fmul Config.quarterPi (fadd v Config.one))
def rightGain (v : F32) : F32 := Config.num.fns.sin (fmul Config.quarterPi (fadd v Config.one))

/-- Step 7: the output of the panner for the samples `x` (rules R207 to R209). -/
def panned (s : State) (p : SpIdx → F32) (x : Fin 2 → F32) (c : Fin 2) : F32 :=
  if s.cells.panmode = 0#1 then
    fmul (x c) (if c = 0 then leftGain (lanePan s p 0 (p 9)) else rightGain (lanePan s p 0 (p 9)))
  else if s.act.nch = 2#2 then
    if c = 0 then fadd (fmul (x 0) (leftGain (lanePan s p 0 (p 10)))) (fmul (x 1) (leftGain (lanePan s p 1 (p 11))))
    else fadd (fmul (x 0) (rightGain (lanePan s p 0 (p 10)))) (fmul (x 1) (rightGain (lanePan s p 1 (p 11))))
  else x c

/-- Step 7: the output of the panner. -/
def pannedSample (s : State) (p : SpIdx → F32) (c : Fin 2) : F32 := panned s p (mixedSample s p) c

/-- One band on one channel: the sample it answers and the registers it leaves; a disabled band passes the one and keeps the
other (rules R229, R230, R232). -/
def bandStep (s : State) (c : Fin 2) (b : Fin 4) (x : F32) : F32 × Biquad :=
  if s.cells.banden[b] = 1#1 then
    let y := fadd (fmul s.coef[b].b0 x) s.bq[b][c].s1
    (y, { s1 := fadd (fsub (fmul s.coef[b].b1 x) (fmul s.coef[b].a1 y)) s.bq[b][c].s2
          s2 := fsub (fmul s.coef[b].b2 x) (fmul s.coef[b].a2 y) })
  else (x, s.bq[b][c])

/-- Step 8: the four bands in series, the sample and the registers behind each (rule R230). -/
def cascade (s : State) (c : Fin 2) (x : F32) : Vector (F32 × Biquad) 4 :=
  let e0 := bandStep s c 0 x
  let e1 := bandStep s c 1 e0.1
  let e2 := bandStep s c 2 e1.1
  #v[e0, e1, e2, bandStep s c 3 e2.1]

/-- Steps 8 to 10: the word put on `AOUT` (rules R230, R254). -/
def outputSample (s : State) (p : SpIdx → F32) (c : Fin 2) : F32 :=
  fmul (cascade s c (pannedSample s p c))[3].1 (Config.num.fns.db2lin (p 1))

end Sys2Proof.Machine
end

