-- ==== Sys2Proof/Certificates/Slice0/Obligations.lean ====
section
/-! DEFINITION. The statements for the provers: encoding, the step, invariants, what each command does and leaves alone, the
ring, the ramps, blocks of frames, and the arithmetic of the stages. -/

section

open Sys2Proof Sys2Proof.Machine

/-! ### Encoding -/

/-- Every well-formed command is read back from its word, whole, on the queues that may carry it, and from the bytes of a
byte-wide transport (rules R63, R90 to R97). -/
def Obligations.DecodeInvertsEncode : Prop :=
  ∀ i : Instr, i.wellFormed = true →
    decode (encode i) = .ok i ∧
    (∀ q : Queue, classify q (encode i) =
      if i.engineClass = true ∧ q = .control then .error (.engineOnControl (opField (encode i))) else .ok i) ∧
    (∀ rest : List Byte, decodeBytes (commandBytes (encode i) ++ rest) = some (.ok i, rest))

/-- A legal word is the word of the command it decodes to: no two words are one command (rules R90, R92, R96). -/
def Obligations.EncodeInvertsDecode : Prop :=
  ∀ (w : Command) (i : Instr), decode w = .ok i → i.wellFormed = true ∧ encode i = w

/-- Which words are illegal, by the numbers in their fields (rules R94, R96, R97, R98). -/
def Obligations.IllegalWords : Prop :=
  ∀ (q : Queue) (w : Command),
    let op := w.toNat / 2 ^ 56
    let idx := w.toNat / 2 ^ 48 % 2 ^ 8
    let aux := w.toNat / 2 ^ 32 % 2 ^ 16
    let data := w.toNat % 2 ^ 32
    (∃ e, classify q w = .error e) ↔
      (0x09 ≤ op ∧ op ≤ 0x0F) ∨ 0x15 ≤ op ∨
      ((op = 0x00 ∨ op = 0x02 ∨ op = 0x03 ∨ op = 0x07 ∨ op = 0x08 ∨ op = 0x13) ∧ (idx ≠ 0 ∨ aux ≠ 0 ∨ data ≠ 0)) ∨
      (op = 0x04 ∧ (idx ≠ 0 ∨ data ≠ 0)) ∨
      ((op = 0x01 ∨ op = 0x05 ∨ op = 0x06 ∨ op = 0x10) ∧ aux ≠ 0) ∨
      ((op = 0x11 ∨ op = 0x12 ∨ op = 0x14) ∧ (aux ≠ 0 ∨ data ≠ 0)) ∨
      (0x01 ≤ op ∧ op ≤ 0x08 ∧ q = .control)

/-- The worked encodings of rule R102: each line assembles to its word on its queue, and the word decodes to its command. -/
def Obligations.WorkedEncodings : Prop :=
  (Assembler.assembleLine "c: setp drive, 12.0".toList = some [(.control, 0x1002000041400000)] ∧
    decode 0x1002000041400000 = .ok (.setpDrive 0x41400000)) ∧
  (Assembler.assembleLine "cfgw SAMPLE_RATE, 44100.0".toList = some [(.audio, 0x01000000472C4400)] ∧
    decode 0x01000000472C4400 = .ok (.cfgw 0x00 0x472C4400)) ∧
  (Assembler.assembleLine "cfgw NUM_CH, 2".toList = some [(.audio, 0x0102000000000002)] ∧
    decode 0x0102000000000002 = .ok (.cfgw 0x02 2)) ∧
  (Assembler.assembleLine "process 512".toList = some [(.audio, 0x0400020000000000)] ∧
    decode 0x0400020000000000 = .ok (.process 512)) ∧
  (Assembler.assembleLine "rbrd 1, 441".toList = some [(.audio, 0x06010000000001B9)] ∧
    decode 0x06010000000001B9 = .ok (.rbrd 1 441)) ∧
  (Assembler.assembleLine "setp distortiontype, 2.0".toList = some [(.audio, 0x1020000040000000)] ∧
    decode 0x1020000040000000 = .ok (.setpDistortiontype 0x40000000)) ∧
  (Assembler.assembleLine "getc pan".toList = some [(.audio, 0x1209000000000000)] ∧
    decode 0x1209000000000000 = .ok (.getc 0x09))

/-- On a byte-wide transport the least significant byte goes first, and words come back as they were sent (rule R63). -/
def Obligations.BytesLeastSignificantFirst : Prop :=
  (∀ (w : Command) (rest : List Byte), takeCommandBytes (commandBytes w ++ rest) = some (w, rest) ∧
    ∀ k < 8, ((commandBytes w).getD k 0).toNat = w.toNat / 256 ^ k % 256) ∧
  (∀ (w : Word32) (rest : List Byte), takeWordBytes (wordBytes w ++ rest) = some (w, rest) ∧
    ∀ k < 4, ((wordBytes w).getD k 0).toNat = w.toNat / 256 ^ k % 256)

/-! ### The step -/

/-- A step runs the decoded command: the word the sequencer takes is executed, whole, with its queue as the issuer
(rules R70, R72, R92). -/
def Obligations.StepRunsDecodedCommand : Prop :=
  ∀ (s t : State) (q : Queue) (w : Command) (i : Instr), Takes s q w t → classify q w = .ok i →
    step s = exec i { t with issuer := q }

/-- An illegal word is discarded: the step sets `E_ILLEGAL`, and changes nothing else but the queue the word left
(rules R98, R341). -/
def Obligations.IllegalWordDiscarded : Prop :=
  ∀ (s t : State) (q : Queue) (w : Command) (e : IllegalWord), Takes s q w t → classify q w = .error e →
    step s = .next { t with status := { t.status with eIllegal := true } }

/-- The reset values the rules give (rules R22 to R29, R38), and what a step makes of any state while `RST` is asserted:
those values, empty queues (rule R370). That the pin and the schedule's place are kept is the model's (log entry 12). -/
def Obligations.HardwareReset : Prop :=
  (State.reset.seq = ⟨false, 0#16⟩ ∧ statusWord State.reset = 0x00000000#32 ∧
    State.reset.cfg = #v[0x00000000#32, 0x00000000#32, 0x00000000#32, 0x44FA0000#32, 0x3CA3D70A#32, 0x00000000#32] ∧
    (∀ i : SpIdx, State.reset.sp[i] = ⟨(paramRange i).default, (paramRange i).default, 0x00000000#32, 0#18⟩) ∧
    (∀ k : Fin 8, cellNat State.reset k = if 4 ≤ k.val then 1 else 0) ∧
    (∀ b : Fin 4, State.reset.dirty[b] = true) ∧
    State.reset.io = ⟨[], [], [], [], [], [], false⟩) ∧
  ∀ s : State, s.io.rst = true →
    step s = .next { State.reset with io := ⟨[], [], [], [], [], [], true⟩, tick := s.tick }

/-- The table of rule R22: every range and default is the binary32 value nearest to the decimal the table gives. -/
def Obligations.ParameterTable : Prop :=
  let gain : ParamRange := ⟨fliteral true 24 1, fliteral false 24 1, fliteral false 0 1⟩
  let ratio : ParamRange := ⟨fliteral false 0 1, fliteral false 1 1, fliteral false 0 1⟩
  let delay : ParamRange := ⟨fliteral false 0 1, fliteral false 2000 1, fliteral false 0 1⟩
  let position : ParamRange := ⟨fliteral true 1 1, fliteral false 1 1, fliteral false 0 1⟩
  let q : ParamRange := ⟨fliteral false 1 10, fliteral false 20 1, fliteral false 707 1000⟩
  let hz (lo hi default : Nat) : ParamRange := ⟨fliteral false lo 1, fliteral false hi 1, fliteral false default 1⟩
  paramTable = #v[gain, gain, ⟨fliteral false 0 1, fliteral false 24 1, fliteral false 0 1⟩, ratio, gain, delay, delay,
    ratio, ratio, position, position, position, hz 0 20 0, ratio, hz 20 500 100, gain, q, hz 100 2000 500, gain, q,
    hz 500 8000 2000, gain, q, hz 2000 20000 8000, gain, q]

/-- An idle core, and an engine that holds inside a frame because `AIN` is empty, keep all state (rules R69, R358). A frame
whose words are not all there pops those that are: `AIN` is empty then, and it holds. That a pop is part of one step, and
that the engine holds inside the frame and not before it, are log entries 9 and 10. -/
def Obligations.IdleAndHoldKeepState : Prop :=
  ∀ s : State, s.io.rst = false →
    (s.seq.busy = false → s.io.cq = [] → s.io.aq = [] → step s = .next s) ∧
    (s.seq.busy = true → s.inFrame = true → s.seq.rem ≠ 0#16 → s.passing = none →
      s.popped.length + s.io.ain.length < s.frameWords →
      step s = .next { s with io := { s.io with ain := [] }, popped := s.popped ++ s.io.ain }) ∧
    (s.seq.busy = true → s.inFrame = true → s.seq.rem ≠ 0#16 → s.passing = none → s.io.ain = [] →
      s.popped.length < s.frameWords → step s = .next s) ∧
    (∀ k, s.seq.busy = true → s.inFrame = true → s.seq.rem ≠ 0#16 → s.passing = some k → s.io.ain = [] →
      step s = .next s)

/-- While a block runs the commands on `AQ` wait and nothing is answered to them (rule R70), and inside a frame no control
command is performed: `CQ`, its responses, the targets and the cells stay (rule R72). -/
def Obligations.QueuesWaitInsideBlocks : Prop :=
  ∀ s t : State, s.io.rst = false → s.seq.busy = true → step s = .next t →
    (t.io.aq = s.io.aq ∧ t.io.rspA = s.io.rspA) ∧
    (s.inFrame = true → t.io.cq = s.io.cq ∧ t.io.rspC = s.io.rspC ∧ t.cells = s.cells ∧
      ∀ i : SpIdx, t.sp[i].tgt = s.sp[i].tgt)

/-- The command at the head of `CQ` is performed after a bounded number of steps: with no `AQ` command behind the running
block and with the input the block still needs (rules R72, R74). The bound counts steps: one for a frame or a word of a
pass-through, one where the schedule lets the command go first (log entries 7 to 9). -/
def Obligations.ControlCommandIsPerformed : Prop :=
  ∀ (s : State) (w : Command) (rest : List Command), Inv s → s.io.rst = false → s.io.cq = w :: rest → s.io.aq = [] →
    s.seq.rem.toNat * s.act.nch.toNat ≤ s.io.ain.length + s.popped.length + s.passing.getD 0 →
    ∃ (n : Nat) (t u : State), n ≤ 2 * s.seq.rem.toNat ∧ Host.Core.run core n s = .next t ∧ t.io.cq = w :: rest ∧
      step t = .next u ∧ u.io.cq = rest

/-! ### Invariants -/

/-- The state after reset has the invariant. -/
def Obligations.ResetHasInvariant : Prop := Inv State.reset

/-- Every step keeps the invariant: canonical delay RAM, targets in range, ramps that end settled and stray no farther than
their roundings, legal cells, a valid latched rate, cursors below the capacity, phases in `[0, TWO_PI)`, a consistent
sequencer (rules R21, R23, R31, R34, R66, R129, R310). -/
def Obligations.StepKeepsInvariant : Prop := ∀ s t : State, Inv s → step s = .next t → Inv t

/-- A state with the invariant has a next state: no step faults or is refused (rules R66, R92, R340). -/
def Obligations.StepAlwaysAnswers : Prop := ∀ s : State, Inv s → ∃ t, step s = .next t

/-- Whatever the host does with the queues and the reset pin, a run from reset never stops. -/
def Obligations.RunsWithHostNeverStop : Prop :=
  ∀ acts : List (List HostAction), ∃ t, runWithHost acts State.reset = .next t ∧ Inv t

/-- The error flags are sticky: only CLRERR, and hardware reset, clears one (rule R29). -/
def Obligations.ErrorFlagsAreSticky : Prop :=
  ∀ (s t : State) (f : ErrorFlag), s.io.rst = false → step s = .next t → s.status.flag f = true →
    t.status.flag f = false → s.seq.busy = false ∧ ∃ w rest, s.io.aq = w :: rest ∧ decode w = .ok .clrerr

/-- Only PREPARE writes the active configuration, and only if it succeeds; only PREPARE moves `PREPARED`
(rules R27, R29, R153). -/
def Obligations.OnlyPrepareConfigures : Prop :=
  ∀ s t : State, s.io.rst = false → step s = .next t →
    (t.act ≠ s.act ∨ t.status.prepared ≠ s.status.prepared →
      s.seq.busy = false ∧ ∃ w rest, s.io.aq = w :: rest ∧ decode w = .ok .prepare) ∧
    (t.act ≠ s.act → t.status.prepared = true)

/-- A control-class command always completes, sets no flag, and touches only the registers, the cells, the dirty bits and
one response queue (rules R97, R344). -/
def Obligations.ControlClassLeavesEngineAlone : Prop :=
  ∀ (i : Instr) (s : State), i.engineClass = false →
    ∃ t, exec i s = .next t ∧ t = { s with sp := t.sp, cells := t.cells, dirty := t.dirty, io := t.io } ∧
      t.io = { s.io with rspC := t.io.rspC, rspA := t.io.rspA } ∧
      (s.issuer = .control → t.io.rspA = s.io.rspA) ∧ (s.issuer = .audio → t.io.rspC = s.io.rspC)

/-- No step shows the values that the spec leaves unspecified until PREPARE succeeds (rules R371, R375): states that agree
on everything else step to states that do. -/
def Obligations.StepIsBlindToUnspecifiedState : Prop :=
  ∀ s t s' : State, Inv s → Inv t → Agree s t → step s = .next s' → ∃ t', step t = .next t' ∧ Agree s' t'

/-! ### What each command does, and what it leaves alone

Each conclusion is a next state. Where it is written as a record that takes some fields from `t`, every other field, the
delay RAM among them, is as before. -/

/-- SETP of the 26 smoothed parameters (rules R122, R271, R276 to R301). -/
def Obligations.SetpSmoothed : Prop :=
  ∀ (i : SpIdx) (v : F32) (s : State), isNaN v = false →
    ∃ t, exec (smoothedCommand i v) s = .next t ∧ t = { s with sp := t.sp, dirty := t.dirty } ∧
      (∀ j : SpIdx, j ≠ i → t.sp[j] = s.sp[j]) ∧
      (∀ b : Fin 4, t.dirty[b] = (s.dirty[b] || decide (14 ≤ i.val ∧ b.val = (i.val - 14) / 3))) ∧
      let vc := fclamp v (paramRange i).lo (paramRange i).hi
      fle (paramRange i).lo vc = true ∧ fle vc (paramRange i).hi = true ∧
      (fle (paramRange i).lo v = true → fle v (paramRange i).hi = true → vc = v) ∧
      t.sp[i] =
        if feq vc s.sp[i].tgt = true then s.sp[i]
        else if s.status.prepared = false ∨ s.act.rampSamples = 0#18 then ⟨vc, vc, 0x00000000#32, 0#18⟩
        else ⟨s.sp[i].cur, vc, fdiv (fsub vc s.sp[i].cur) (u2f s.act.rampSamples.toNat), s.act.rampSamples⟩

/-- SETP of the 8 discrete cells: the value at which each integer begins (rules R24, R271, R272, R302 to R309). -/
def Obligations.SetpCell : Prop :=
  ∀ (k : Fin 8) (v : F32) (s : State), isNaN v = false →
    ∃ t, exec (cellCommand k v) s = .next t ∧ t = { s with cells := t.cells } ∧
      (∀ j : Fin 8, j ≠ k → cellNat t j = cellNat s j) ∧
      cellNat t k = if k = 0 ∧ fge v 0x3FC00000#32 = true then 2 else if fge v 0x3F000000#32 = true then 1 else 0

/-- SETP of a NaN and SETP of an unrecognised identifier complete and change nothing (rules R271, R273). -/
def Obligations.SetpIgnored : Prop :=
  ∀ (v : F32) (s : State),
    (isNaN v = true → (∀ i : SpIdx, exec (smoothedCommand i v) s = .next s) ∧
      ∀ k : Fin 8, exec (cellCommand k v) s = .next s) ∧
    ∀ pid : BitVec 8, (0x1A ≤ pid.toNat ∧ pid.toNat ≤ 0x1F) ∨ 0x28 ≤ pid.toNat → exec (.setp pid v) s = .next s

/-- GETP and GETC answer one word and change nothing else: the target and the current value of a register, a cell as F32,
`+0.0` for an unrecognised identifier (rules R273, R274, R275). -/
def Obligations.GetpAndGetc : Prop :=
  ∀ (pid : BitVec 8) (s : State), ∃ (tp tc : State) (wp wc : Word32),
    exec (.getp pid) s = .next tp ∧ exec (.getc pid) s = .next tc ∧ Answers s wp tp ∧ Answers s wc tc ∧
    (∀ i : SpIdx, pid.toNat = i.val → wp = s.sp[i].tgt ∧ wc = s.sp[i].cur) ∧
    (∀ k : Fin 8, pid.toNat = 0x20 + k.val → wc = wp ∧
      (cellNat s k = 0 → wp = 0x00000000#32) ∧ (cellNat s k = 1 → wp = 0x3F800000#32) ∧
      (cellNat s k = 2 → wp = 0x40000000#32)) ∧
    ((0x1A ≤ pid.toNat ∧ pid.toNat ≤ 0x1F) ∨ 0x28 ≤ pid.toNat → wp = 0x00000000#32 ∧ wc = 0x00000000#32)

/-- STATUS answers the status word, bit by bit, and changes nothing else (rules R29, R328). -/
def Obligations.StatusAnswers : Prop :=
  ∀ s : State, ∃ (t : State) (w : Word32), exec .status s = .next t ∧ Answers s w t ∧
    w.getLsbD 0 = s.status.prepared ∧ w.getLsbD 1 = s.seq.busy ∧ w.getLsbD 8 = s.status.eIllegal ∧
    w.getLsbD 9 = s.status.eBadRate ∧ w.getLsbD 10 = s.status.eBadCfg ∧ w.getLsbD 11 = s.status.eNotPrep ∧
    w.getLsbD 12 = s.status.eBlkSize ∧ w.getLsbD 13 = s.status.eRbOff ∧
    ∀ k, (2 ≤ k ∧ k ≤ 7) ∨ 14 ≤ k → w.getLsbD k = false

/-- CFGR answers the staged word, the active configuration while prepared, or 0, and changes nothing else
(rules R27, R322). -/
def Obligations.CfgrAnswers : Prop :=
  ∀ (idx : BitVec 8) (s : State), ∃ (t : State) (w : Word32), exec (.cfgr idx) s = .next t ∧ Answers s w t ∧
    (∀ i : Fin 6, idx.toNat = i.val → w = s.cfg[i]) ∧
    (6 ≤ idx.toNat → s.status.prepared = false → w = 0x00000000#32) ∧
    ((6 ≤ idx.toNat ∧ idx.toNat ≤ 0x0F) ∨ 0x18 ≤ idx.toNat → w = 0x00000000#32) ∧
    (s.status.prepared = true →
      (idx = 0x10 → w.toNat = s.act.cap.toNat) ∧ (idx = 0x11 → w.toNat = s.act.rampSamples.toNat) ∧
      (idx = 0x12 → w.toNat = s.wc[0].toNat) ∧ (idx = 0x13 → w.toNat = s.wc[1].toNat) ∧
      (idx = 0x14 → w = s.act.fs) ∧ (idx = 0x15 → w.toNat = s.act.nch.toNat) ∧
      (idx = 0x16 → w.toNat = s.act.maxBlk.toNat) ∧ (idx = 0x17 → w.toNat = s.act.rmode.toNat))

/-- CFGW stores the raw word in a staging register and nothing else; another index changes nothing (rule R321). -/
def Obligations.CfgwStages : Prop :=
  ∀ (idx : BitVec 8) (data : Word32) (s : State), ∃ t, exec (.cfgw idx data) s = .next t ∧ t = { s with cfg := t.cfg } ∧
    ∀ i : Fin 6, t.cfg[i] = if idx.toNat = i.val then data else s.cfg[i]

/-- NOP is the zero word, legal on both queues, and changes nothing; CLRERR is one word, legal on `AQ` only, and clears the
six error flags and nothing else (rules R320, R327). -/
def Obligations.NopAndClrerr : Prop :=
  (∀ w : Command, (decode w = .ok .nop ↔ w = 0x0000000000000000) ∧ (decode w = .ok .clrerr ↔ w = 0x0800000000000000)) ∧
  (∀ q : Queue, classify q 0x0000000000000000 = .ok .nop) ∧
  classify .audio 0x0800000000000000 = .ok .clrerr ∧ (∀ i : Instr, classify .control 0x0800000000000000 ≠ .ok i) ∧
  ∀ s : State, exec .nop s = .next s ∧
    ∃ t, exec .clrerr s = .next t ∧ t = { s with status := t.status } ∧ t.status.prepared = s.status.prepared ∧
      (∀ f : ErrorFlag, t.status.flag f = false) ∧
      ∀ k, (statusWord t).getLsbD k = ((statusWord s).getLsbD k && !decide (8 ≤ k ∧ k ≤ 13))

/-- PREPARE of a valid configuration (V1 to V6; V7 cannot then fail) latches it, clears the audio state and ends every ramp
at its target; targets, cells, staging and flags are kept (rules R121, R141, R161, R323, R324). -/
def Obligations.PrepareSucceeds : Prop :=
  ∀ s : State, ValidRate s.cfg → ValidSetup s.cfg →
    ∃ t, exec .prepare s = .next t ∧
      t = { s with sp := t.sp, act := t.act, status := { s.status with prepared := true }, wc := t.wc, dram := t.dram,
                   dc := t.dc, ph := t.ph, dirty := t.dirty, bq := t.bq } ∧
      t.act.fs = s.cfg[0] ∧ t.act.maxBlk.toNat = s.cfg[1].toNat ∧ t.act.nch.toNat = s.cfg[2].toNat ∧
      t.act.rmode.toNat = s.cfg[5].toNat ∧
      t.act.cap.toNat = max 1 (f2uCeil (fmul (fdiv s.cfg[3] Config.thousand) s.cfg[0])) ∧
      t.act.cap.toNat ≤ 384000 ∧
      t.act.rampSamples.toNat = f2uFloor (fmul s.cfg[4] s.cfg[0]) ∧ t.act.rampSamples.toNat ≤ 192000 ∧
      (t.act.rampSamples.toNat = 0 → t.act.expAlpha = Config.one) ∧
      (t.act.rampSamples.toNat ≠ 0 → t.act.expAlpha =
        fsub Config.one (Config.num.fns.exp (fneg (fdiv Config.expK (u2f t.act.rampSamples.toNat))))) ∧
      t.act.dcbR = fsub Config.one (fdiv (fmul Config.twoPi Config.dcbFc) s.cfg[0]) ∧
      (∀ i : SpIdx, t.sp[i] = ⟨s.sp[i].tgt, s.sp[i].tgt, 0x00000000#32, 0#18⟩) ∧
      (∀ a, a < t.act.nch.toNat * t.act.cap.toNat → memLookup t.dram a = 0x00000000#32) ∧
      (∀ a, t.act.nch.toNat * t.act.cap.toNat ≤ a → memLookup t.dram a = memLookup s.dram a) ∧
      (∀ c : Fin 2, t.wc[c] = 0#19 ∧ t.dc[c] = ⟨0x00000000#32, 0x00000000#32⟩ ∧ t.ph[c] = 0x00000000#32 ∧
        ∀ b : Fin 4, t.bq[b][c] = ⟨0x00000000#32, 0x00000000#32⟩) ∧
      ∀ b : Fin 4, t.dirty[b] = true

/-- PREPARE of an invalid configuration sets the flag of every failed check, un-prepares the core, and changes nothing
else (rules R323, R325, R342, R343). -/
def Obligations.PrepareFails : Prop :=
  ∀ s : State, ¬ (ValidRate s.cfg ∧ ValidSetup s.cfg) →
    ∃ t, exec .prepare s = .next t ∧ t = { s with status := t.status } ∧ t.status.prepared = false ∧
      (t.status.eBadRate = true ↔ s.status.eBadRate = true ∨ ¬ ValidRate s.cfg) ∧
      (t.status.eBadCfg = true ↔ s.status.eBadCfg = true ∨ ¬ ValidSetup s.cfg) ∧
      ∀ f : ErrorFlag, f ≠ .badRate → f ≠ .badCfg → t.status.flag f = s.status.flag f

/-- RESET of a prepared core clears the audio state and ends every ramp at its target; the configuration, targets, cells,
`COEF` and flags are kept (rule R326). -/
def Obligations.ResetCommand : Prop :=
  ∀ s : State, s.status.prepared = true →
    ∃ t, exec .reset s = .next t ∧
      t = { s with sp := t.sp, wc := t.wc, dram := t.dram, dc := t.dc, ph := t.ph, dirty := t.dirty, bq := t.bq } ∧
      (∀ i : SpIdx, t.sp[i] = ⟨s.sp[i].tgt, s.sp[i].tgt, 0x00000000#32, 0#18⟩) ∧
      (∀ a, a < s.act.nch.toNat * s.act.cap.toNat → memLookup t.dram a = 0x00000000#32) ∧
      (∀ a, s.act.nch.toNat * s.act.cap.toNat ≤ a → memLookup t.dram a = memLookup s.dram a) ∧
      (∀ c : Fin 2, t.wc[c] = 0#19 ∧ t.dc[c] = ⟨0x00000000#32, 0x00000000#32⟩ ∧ t.ph[c] = 0x00000000#32 ∧
        ∀ b : Fin 4, t.bq[b][c] = ⟨0x00000000#32, 0x00000000#32⟩) ∧
      ∀ b : Fin 4, t.dirty[b] = true

/-- RESET leaves what the PREPARE that latched the current configuration leaves, given the same targets (rule R326). -/
def Obligations.ResetIsPrepare : Prop :=
  ∀ s : State, ValidRate s.cfg → ValidSetup s.cfg → s.status.prepared = true → s.act = activeOf s.cfg →
    exec .reset s = exec .prepare s

/-- Not prepared: RESET, RBWR, RBRD, RBCLR and PROCESS of a non-empty block set `E_NOTPREP` and do nothing else, whatever
their operands; RBRD also answers 0 (rules R344, R349). -/
def Obligations.NotPrepared : Prop :=
  ∀ s : State, s.status.prepared = false →
    let u : State := { s with status := { s.status with eNotPrep := true } }
    exec .reset s = .next u ∧ exec .rbclr s = .next u ∧ (∀ ch v, exec (.rbwr ch v) s = .next u) ∧
    (∀ n, n ≠ 0#16 → exec (.process n) s = .next u) ∧
    ∀ ch k, ∃ t, exec (.rbrd ch k) s = .next t ∧ Answers u 0x00000000#32 t

/-- RBWR of a prepared core stores the sample at the write address of its channel and advances that channel's cursor; every
other word and cursor stays; an invalid channel changes nothing (rules R142, R144, R149). -/
def Obligations.RbwrWrites : Prop :=
  ∀ (ch : BitVec 8) (v : F32) (s : State), s.status.prepared = true → RingOk s → Memory.wf s.dram = true →
    (∀ c : Fin 2, ch.toNat = c.val → c.val < s.act.nch.toNat →
      ∃ t, exec (.rbwr ch v) s = .next t ∧ t = { s with dram := t.dram, wc := t.wc } ∧
        rbWaddr c s = c.val * s.act.cap.toNat + s.wc[c].toNat ∧
        memLookup t.dram (rbWaddr c s) = v ∧ (∀ a, a ≠ rbWaddr c s → memLookup t.dram a = memLookup s.dram a) ∧
        t.wc[c].toNat = (s.wc[c].toNat + 1) % s.act.cap.toNat ∧ ∀ d : Fin 2, d ≠ c → t.wc[d] = s.wc[d]) ∧
    (s.act.nch.toNat ≤ ch.toNat → exec (.rbwr ch v) s = .next s)

/-- RBRD of a prepared core answers the word `(cursor − offset) mod capacity` of its channel, an offset beyond the end
being clamped to it with `E_RBOFF` set; an invalid channel answers 0 and sets nothing (rules R146, R147, R150, R346). -/
def Obligations.RbrdReads : Prop :=
  ∀ (ch : BitVec 8) (k : Word32) (s : State), s.status.prepared = true → RingOk s →
    (∀ c : Fin 2, ch.toNat = c.val → c.val < s.act.nch.toNat →
      ∃ t, exec (.rbrd ch k) s = .next t ∧
        (k.toNat < s.act.cap.toNat → Answers s (ringWord s c k.toNat) t) ∧
        (s.act.cap.toNat ≤ k.toNat → Answers { s with status := { s.status with eRbOff := true } }
          (ringWord s c (s.act.cap.toNat - 1)) t)) ∧
    (s.act.nch.toNat ≤ ch.toNat → ∃ t, exec (.rbrd ch k) s = .next t ∧ Answers s 0x00000000#32 t)

/-- RBCLR of a prepared core clears the addressed words and the cursors, and nothing else (rules R148, R151). -/
def Obligations.RbclrClears : Prop :=
  ∀ s : State, s.status.prepared = true →
    ∃ t, exec .rbclr s = .next t ∧ t = { s with dram := t.dram, wc := t.wc } ∧ (∀ c : Fin 2, t.wc[c] = 0#19) ∧
      (∀ a, a < s.act.nch.toNat * s.act.cap.toNat → memLookup t.dram a = 0x00000000#32) ∧
      ∀ a, s.act.nch.toNat * s.act.cap.toNat ≤ a → memLookup t.dram a = memLookup s.dram a

/-- PROCESS: an empty block does nothing; an accepted one starts, with the coefficients of every band designed from the
current values; an oversized one starts as a pass-through with `E_BLKSIZE` set (rules R228, R250, R251, R345). -/
def Obligations.ProcessStarts : Prop :=
  ∀ s : State, exec (.process 0#16) s = .next s ∧
    ∀ n : BitVec 16, n ≠ 0#16 → s.status.prepared = true →
      (n ≤ s.act.maxBlk → ∃ t, exec (.process n) s = .next t ∧
        t = { s with seq := ⟨true, n⟩, passing := none, coef := t.coef, dirty := t.dirty } ∧
        ∀ b : Fin 4, t.dirty[b] = false ∧
          t.coef[b] = eqDesignOf (if b = 0 then .lowShelf else if b = 3 then .highShelf else .peaking)
            s.sp[14 + 3 * b.val].cur s.sp[15 + 3 * b.val].cur s.sp[16 + 3 * b.val].cur s.act.fs) ∧
      (s.act.maxBlk < n → exec (.process n) s =
        .next { s with seq := ⟨true, n⟩, passing := some 0, status := { s.status with eBlkSize := true } })

/-- Exactly RBRD, GETP, GETC, STATUS and CFGR answer, one word each, at the end of the issuing queue's response queue; no
command moves another queue (rules R94, R387). -/
def Obligations.ResponsePairing : Prop :=
  ∀ (i : Instr) (s t : State), exec i s = .next t →
    ∃ ws : List Word32,
      ws.length = (match i with | .rbrd _ _ | .getp _ | .getc _ | .status | .cfgr _ => 1 | _ => 0) ∧
      (s.issuer = .control → t.io = { s.io with rspC := s.io.rspC ++ ws }) ∧
      (s.issuer = .audio → t.io = { s.io with rspA := s.io.rspA ++ ws })

/-! ### The ring -/

/-- The cursor advances modulo the capacity, the other cursor and everything else stay (rule R144). -/
def Obligations.CursorAdvancesModuloCapacity : Prop :=
  ∀ (c : Fin 2) (s : State), s.wc[c].toNat < s.act.cap.toNat →
    (rbAdvance c s).wc[c].toNat = (s.wc[c].toNat + 1) % s.act.cap.toNat ∧
    (rbAdvance c s).wc[c].toNat < s.act.cap.toNat ∧
    (∀ d : Fin 2, d ≠ c → (rbAdvance c s).wc[d] = s.wc[d]) ∧
    rbAdvance c s = { s with wc := (rbAdvance c s).wc }

/-- The read addresses of a channel are its region, each reached by exactly one offset (rules R66, R146, R152). -/
def Obligations.ReadAddressBijection : Prop :=
  ∀ (c : Fin 2) (s : State), s.wc[c].toNat < s.act.cap.toNat →
    (∀ k < s.act.cap.toNat, c.val * s.act.cap.toNat ≤ rbRaddr c k s ∧
      rbRaddr c k s < c.val * s.act.cap.toNat + s.act.cap.toNat) ∧
    ∀ a, c.val * s.act.cap.toNat ≤ a → a < c.val * s.act.cap.toNat + s.act.cap.toNat →
      ∃! k, k < s.act.cap.toNat ∧ rbRaddr c k s = a

/-- The ring is a delay line: after a clear and any writes to the channels, an offset `k` of `1 .. CAP−1` reads the value
written `k` writes ago to that channel, and offset 0 the one written `CAP` writes ago; `+0.0` before that (rule R152). -/
def Obligations.RingHoldsHistory : Prop :=
  ∀ (s : State) (ws : List (Fin 2 × F32)), RingOk s → Memory.wf s.dram = true →
    (∀ p ∈ ws, p.1.val < s.act.nch.toNat) →
    ∃ t, writeAll ws (rbClear s) = .ok t ∧
      ∀ c : Fin 2, c.val < s.act.nch.toNat → ∀ k < s.act.cap.toNat,
        rbRead c k t = .ok ((writtenTo c ws).reverse.getD ((if k = 0 then s.act.cap.toNat else k) - 1) 0x00000000#32)

/-! ### The ramps -/

/-- A ramp lands on its target: after a target change while prepared and `RAMP_SAMPLES` advances, in either mode, `cur` and
`tgt` are the pattern of the new target and no advance is left (rule R128). -/
def Obligations.RampLands : Prop :=
  ∀ (i : SpIdx) (v : F32) (s : State), s.status.prepared = true → feq v s.sp[i].tgt = false →
    let r := advanceTimes s.act.rmode s.act.expAlpha s.act.rampSamples.toNat (spSetTarget i v s).sp[i]
    r.cur = v ∧ r.tgt = v ∧ r.cnt = 0#18

/-- One advance in either mode: an idle register stays, the last advance lands, any other adds the linear increment or the
exponential part of the gap; `tgt` and `step` stay (rules R123, R124). -/
def Obligations.AdvanceLaws : Prop :=
  ∀ (m : BitVec 1) (α : F32) (r : Sp),
    (r.cnt = 0#18 → advance m α r = r) ∧
    (r.cnt ≠ 0#18 → (advance m α r).cnt.toNat + 1 = r.cnt.toNat ∧ (advance m α r).tgt = r.tgt ∧
      (advance m α r).step = r.step ∧
      (r.cnt = 1#18 → (advance m α r).cur = r.tgt) ∧
      (r.cnt ≠ 1#18 → (m = 0#1 → (advance m α r).cur = fadd r.cur r.step) ∧
        (m = 1#1 → (advance m α r).cur = fadd r.cur (fmul α (fsub r.tgt r.cur)))))

/-! ### Frames and blocks -/

/-- A frame step of a ring in order, on a frame whose words are there: every register advances once; then, channel by
channel in use, input word, input gain, DC blocker, distortion, ring, delay mix, panner, the bands in series and output gain
in this order give the word put on `AOUT`, the word stored at the write address, the DC-blocker registers and the registers
of the bands; the cursor advances and so do both phases. Flags, configuration, cells, coefficients, the registers of an
unused channel and of a disabled band, and every other word of the delay RAM stay (rules R30, R127, R144, R162, R189, R204,
R230, R232, R252 to R255). That the frame is one step is log entry 9, the pattern of a produced NaN log entry 6. -/
def Obligations.FrameStepEffect : Prop :=
  ∀ s : State, RingOk s → Memory.wf s.dram = true → s.act.nch.toNat ≤ s.frameSupply.length →
    ∃ t, frameStep s = .ok t ∧
      t = { s with sp := t.sp, wc := t.wc, dram := t.dram, dc := t.dc, ph := t.ph, bq := t.bq, io := t.io, popped := [] } ∧
      let p (i : SpIdx) : F32 := t.sp[i].cur
      (∀ i : SpIdx, t.sp[i] = advance s.act.rmode s.act.expAlpha s.sp[i]) ∧
      (∀ l : Fin 2, t.ph[l] = lfoNext (p 12) s.act.fs s.ph[l]) ∧
      t.io = { s.io with ain := (s.popped ++ s.io.ain).drop s.act.nch.toNat,
                         aout := s.io.aout ++ ([0, 1].take s.act.nch.toNat).map (outputSample s p) } ∧
      (∀ c : Fin 2, c.val < s.act.nch.toNat →
        t.wc[c].toNat = (s.wc[c].toNat + 1) % s.act.cap.toNat ∧
        memLookup t.dram (rbWaddr c s) = storedSample s p c ∧
        t.dc[c] = ⟨gainedSample s p c, blockedSample s p c⟩ ∧
        ∀ b : Fin 4, t.bq[b][c] = (cascade s c (pannedSample s p c))[b].2) ∧
      (∀ c : Fin 2, s.act.nch.toNat ≤ c.val → t.wc[c] = s.wc[c] ∧ t.dc[c] = s.dc[c] ∧ ∀ b : Fin 4, t.bq[b][c] = s.bq[b][c]) ∧
      (∀ (b : Fin 4) (c : Fin 2), s.cells.banden[b] = 0#1 → t.bq[b][c] = s.bq[b][c]) ∧
      ∀ a, (∀ c : Fin 2, c.val < s.act.nch.toNat → a ≠ rbWaddr c s) → memLookup t.dram a = memLookup s.dram a

/-- The delay stage of a frame, all reads before all writes: the delayed samples are those of the ring before the frame,
each channel writes its input plus the feedback of its own delayed sample, of the other channel's in PingPong with two
channels, and the outputs are mixed from the own ones (rules R183 to R189). -/
def Obligations.DelayStageLaw : Prop :=
  ∀ (x : Frame) (s : State), RingOk s → Memory.wf s.dram = true → ∃ y t, delayFrame x s = .ok (y, t) ∧
    ∀ c : Fin 2, c.val < s.act.nch.toNat →
      let delayed (d : Fin 2) : F32 := ringWord s d (delaySamples d s)
      let source : Fin 2 := if s.cells.dlytype = 1#1 ∧ s.act.nch = 2#2 then 1 - c else c
      delaySamples c s < s.act.cap.toNat ∧
      memLookup t.dram (rbWaddr c s) = fadd x[c] (fmul (delayed source) s.sp[7].cur) ∧
      y[c] = fadd (fmul (fsub Config.one s.sp[8].cur) x[c]) (fmul s.sp[8].cur (delayed c))

/-- With no control traffic an accepted block is its frames: from the step that takes `process n`, `n + 1` steps give what
`n` frame steps after the block start give, and the engine is idle again (rules R70, R250, R256). That the acceptance is one
step and each frame another is the model's (log entries 8 and 9). -/
def Obligations.BlockIsItsFrames : Prop :=
  ∀ (s : State) (n : BitVec 16) (rest : List Command), Inv s → s.io.rst = false → s.status.prepared = true →
    s.seq.busy = false → s.io.cq = [] → s.io.aq = encode (.process n) :: rest → n ≠ 0#16 → n ≤ s.act.maxBlk →
    n.toNat * s.act.nch.toNat ≤ s.io.ain.length →
    ∃ u, framesOf n.toNat (blockStart { s with io := { s.io with aq := rest }, issuer := .audio }) = .ok u ∧
      u.seq = ⟨false, 0#16⟩ ∧ u.io.ain = s.io.ain.drop (n.toNat * s.act.nch.toNat) ∧
      u.io.aout.length = s.io.aout.length + n.toNat * s.act.nch.toNat ∧
      Host.Core.run core (n.toNat + 1) s = .next u

/-- An oversized block is passed through: its words go from `AIN` to `AOUT` bit for bit and in order, `E_BLKSIZE` is set,
and no parameter is ticked and no unit state changes (rules R251, R345). That the acceptance is one step and each word another
is the model's (log entries 8 and 9). -/
def Obligations.OversizedBlockPassesThrough : Prop :=
  ∀ (s : State) (n : BitVec 16) (rest : List Command), Inv s → s.io.rst = false → s.status.prepared = true →
    s.seq.busy = false → s.io.cq = [] → s.io.aq = encode (.process n) :: rest → s.act.maxBlk < n →
    n.toNat * s.act.nch.toNat ≤ s.io.ain.length →
    Host.Core.run core (n.toNat * s.act.nch.toNat + 1) s = .next { s with
      io := { s.io with aq := rest, ain := s.io.ain.drop (n.toNat * s.act.nch.toNat),
                        aout := s.io.aout ++ s.io.ain.take (n.toNat * s.act.nch.toNat) }
      issuer := .audio
      status := { s.status with eBlkSize := true } }

/-! ### The stages -/

/-- The arithmetic of rule R11 and the conversions of rules R11 and R14: sums, products and quotients of finite values are
the exact ones correctly rounded, with an infinity on overflow and the sign that IEEE 754 gives a zero; infinities, NaN and
division by zero; the square root is a nearest value (nearness compared by squares); `u2f` rounds to nearest, and the three
conversions to integers round half up, down and up, and give 0 for a NaN and for what is below zero. -/
def Obligations.ArithmeticAndConversions : Prop :=
  (∀ a b : F32, isFinite a = true → isFinite b = true →
    (IsRounded (fadd a b) (fvalue a + fvalue b) 1 ∧
      (fvalue a + fvalue b = 0 → fadd a b = if fsign a = true ∧ fsign b = true then 0x80000000#32 else 0x00000000#32)) ∧
    (IsRounded (fsub a b) (fvalue a - fvalue b) 1 ∧
      (fvalue a - fvalue b = 0 → fsub a b = if fsign a = true ∧ fsign b = false then 0x80000000#32 else 0x00000000#32)) ∧
    (IsRounded (fmul a b) (fvalue a * fvalue b) (2 ^ 149) ∧ fsign (fmul a b) = (fsign a != fsign b)) ∧
    (isZero b = false → IsRounded (fdiv a b) (fvalue a * 2 ^ 149 * (fvalue b).sign) |fvalue b| ∧
      fsign (fdiv a b) = (fsign a != fsign b)) ∧
    (isZero b = true → (isZero a = true → isNaN (fdiv a b) = true) ∧
      (isZero a = false → isInf (fdiv a b) = true ∧ fsign (fdiv a b) = (fsign a != fsign b)))) ∧
  (∀ a b : F32,
    (isNaN a = true ∨ isNaN b = true → isNaN (fadd a b) = true ∧ isNaN (fsub a b) = true ∧ isNaN (fmul a b) = true ∧
      isNaN (fdiv a b) = true) ∧
    (isInf a = true → isFinite b = true → fadd a b = a ∧ fadd b a = a ∧ fsub a b = a ∧ fsub b a = fneg a ∧
      (isInf (fdiv a b) = true ∧ fsign (fdiv a b) = (fsign a != fsign b)) ∧
      (isZero (fdiv b a) = true ∧ fsign (fdiv b a) = (fsign b != fsign a))) ∧
    (isInf a = true → isZero b = true → isNaN (fmul a b) = true ∧ isNaN (fmul b a) = true) ∧
    (isInf a = true → isZero b = false → isNaN b = false → (isInf (fmul a b) = true ∧ isInf (fmul b a) = true) ∧
      fsign (fmul a b) = (fsign a != fsign b) ∧ fsign (fmul b a) = (fsign b != fsign a)) ∧
    (isInf a = true → isInf b = true → isNaN (fdiv a b) = true ∧
      (fsign a = fsign b → fadd a b = a ∧ isNaN (fsub a b) = true) ∧
      (fsign a ≠ fsign b → isNaN (fadd a b) = true ∧ fsub a b = a))) ∧
  (∀ v : F32,
    (isZero v = true → fsqrt v = v) ∧ (isNaN v = true → isNaN (fsqrt v) = true) ∧
    (fsign v = true → isZero v = false → isNaN (fsqrt v) = true) ∧
    (fsign v = false → isInf v = true → fsqrt v = v) ∧
    (fsign v = false → isFinite v = true → isFinite (fsqrt v) = true ∧ fsign (fsqrt v) = false ∧
      ∀ w : F32, isFinite w = true → fsign w = false →
        (fvalue w < fvalue (fsqrt v) → (fvalue (fsqrt v) + fvalue w) ^ 2 ≤ 4 * (fvalue v * 2 ^ 149)) ∧
        (fvalue (fsqrt v) < fvalue w → 4 * (fvalue v * 2 ^ 149) ≤ (fvalue (fsqrt v) + fvalue w) ^ 2))) ∧
  (∀ n : Nat, IsRounded (u2f n) (n * 2 ^ 149) 1 ∧ fsign (u2f n) = false) ∧
  ∀ v : F32,
    (isFinite v = true → fle Config.zero v = true →
      (f2uRound v * 2 ^ 150 ≤ 2 * fvalue v + 2 ^ 149 ∧ 2 * fvalue v + 2 ^ 149 < (f2uRound v + 1) * 2 ^ 150) ∧
      (f2uFloor v * 2 ^ 149 ≤ fvalue v ∧ fvalue v < (f2uFloor v + 1) * 2 ^ 149) ∧
      ((f2uCeil v - 1 : Int) * 2 ^ 149 < fvalue v ∧ fvalue v ≤ f2uCeil v * 2 ^ 149)) ∧
    (isNaN v = true ∨ flt v Config.zero = true → f2uRound v = 0 ∧ f2uFloor v = 0 ∧ f2uCeil v = 0)

/-- From cleared registers the DC blocker's first output is its input, which it keeps (rule R162); the sign of a negative
zero excepted, which the rule's own sum turns into `+0.0`. -/
def Obligations.DcBlockerFirstOutput : Prop :=
  ∀ (c : Fin 2) (x : F32) (s : State), s.dc[c] = ⟨0x00000000#32, 0x00000000#32⟩ → isFinite s.act.dcbR = true →
    isNaN x = false → x ≠ 0x80000000#32 →
    (dcBlock c x s).1 = x ∧ (dcBlock c x s).2.dc[c] = ⟨x, x⟩ ∧
    (∀ d : Fin 2, d ≠ c → (dcBlock c x s).2.dc[d] = s.dc[d]) ∧ (dcBlock c x s).2 = { s with dc := (dcBlock c x s).2.dc }

/-- The distortion stage of a channel: the DC blocker, the transfer function `DTYPE` selects, with both branches of the
Saturation and the identity of type 3, the mix of shaped and blocked sample and the trim; it writes the DC-blocker registers
of its channel alone. In the Saturation a zero passes with its sign, a NaN gives a NaN, and an overflow of `sinh` to `−∞`
is brought back to −1 (rules R162 to R168). -/
def Obligations.DistortionStage : Prop :=
  ∀ (c : Fin 2) (x : F32) (s : State),
    let drv := s.sp[2].cur
    let m := s.sp[3].cur
    let xd := fadd (fsub x s.dc[c].x1) (fmul s.act.dcbR s.dc[c].y1)
    let driven := fmul xd (Config.num.fns.db2lin drv)
    let u := fmul xd (Config.num.fns.db2lin (fadd Config.satLoDb (fmul drv Config.satScale)))
    let saturated :=
      if fge xd Config.zero = true then Config.num.fns.tanh u
      else fsub (Config.num.fns.tanh (Config.num.fns.sinh u))
        (fmul (fmul Config.satAsym u) (Config.num.fns.sin (fmul Config.pi u)))
    let wet :=
      if s.cells.dtype = 0#2 then fclamp driven (fneg Config.clipLevel) Config.clipLevel
      else if s.cells.dtype = 1#2 then fmul Config.twoOverPi (Config.num.fns.atan driven)
      else if s.cells.dtype = 2#2 then saturated
      else xd
    (dist c x s).1 = fmul (fadd (fmul m wet) (fmul (fsub Config.one m) xd)) (Config.num.fns.db2lin s.sp[4].cur) ∧
    (dist c x s).2 = { s with dc := (dist c x s).2.dc } ∧ (dist c x s).2.dc[c] = ⟨x, xd⟩ ∧
    (∀ d : Fin 2, d ≠ c → (dist c x s).2.dc[d] = s.dc[d]) ∧
    (isZero xd = true → fle Config.zero drv = true → fle drv (paramRange 2).hi = true → saturated = xd) ∧
    (isNaN xd = true → isNaN saturated = true) ∧
    (Config.num.fns.sinh u = Config.minusInf → Config.num.fns.tanh (Config.num.fns.sinh u) = Config.minusOne)

/-- HardClip stays within the clip level, passes what is inside it, and passes a NaN as a NaN (rules R164, R172). -/
def Obligations.HardClipBound : Prop :=
  ∀ g x : F32,
    (isNaN (fmul x g) = false → fle (fneg Config.clipLevel) (shape0 g x) = true ∧ fle (shape0 g x) Config.clipLevel = true ∧
      (fle (fneg Config.clipLevel) (fmul x g) = true → fle (fmul x g) Config.clipLevel = true → shape0 g x = fmul x g)) ∧
    (isNaN (fmul x g) = true → isNaN (shape0 g x) = true)

/-- SoftClip stays within one and is odd, bit for bit (rules R12, R165, R171). -/
def Obligations.SoftClipBoundedAndOdd : Prop :=
  ∀ g x : F32, isNaN (fmul x g) = false →
    fle (fneg Config.one) (shape1 g x) = true ∧ fle (shape1 g x) Config.one = true ∧
    shape1 g (fneg x) = fneg (shape1 g x)

/-- The read offset of a delay time lies in the ring, and is 0 for a NaN (rules R183, R192). -/
def Obligations.DelayOffsetInRing : Prop :=
  ∀ (ms fs : F32) (cap : Nat), 1 ≤ cap → cap ≤ Config.capMax →
    delayOffset ms fs cap ≤ cap - 1 ∧ (isNaN ms = true → delayOffset ms fs cap = 0)

/-- The LFO phase stays in `[0, TWO_PI)` at every valid sample rate, whatever number the rate register holds
(rules R34, R204). -/
def Obligations.PhaseStaysInRange : Prop :=
  ∀ rate fs phase : F32, isNaN rate = false → fle Config.srMin fs = true → fle fs Config.srMax = true →
    fle Config.zero phase = true → flt phase Config.twoPi = true →
    fle Config.zero (lfoNext rate fs phase) = true ∧ flt (lfoNext rate fs phase) Config.twoPi = true

/-- The extremes of the pan law: at −1 the gains are exactly 1 and `+0.0`, at +1 the angle is exactly `HALF_PI`. The
effective pan lies in `[−1, 1]` for every base that is a number, while the LFO is on with a finite depth at a finite phase;
a base in the range is passed unchanged while the LFO is off (rules R205, R206). -/
def Obligations.PanLawExtremes : Prop :=
  panGains Config.minusOne = (Config.one, Config.zero) ∧ panAngle Config.one = Config.halfPi ∧
  ∀ (s : State) (l : Fin 2) (base : F32), isNaN base = false →
    (s.cells.lfoen = 1#1 → isFinite s.sp[13].cur = true ∧ isFinite s.ph[l] = true) →
    fle Config.minusOne (finalPan s l base) = true ∧ fle (finalPan s l base) Config.one = true ∧
    (s.cells.lfoen = 0#1 → fle Config.minusOne base = true → fle base Config.one = true → finalPan s l base = base)

/-- The forms of the panner: Mono scales channel 0 by the left gain and, with two channels, channel 1 by the right one, both of
lane 0 and the register `pan`; Stereo with two channels mixes by the 2×2 matrix of the gains of lane 0 (`leftPan`) and lane 1
(`rightPan`). The phase a lane modulates by is the one before the advance, and only the phases change (rules R203 to R208). -/
def Obligations.PannerForms : Prop :=
  ∀ (x : Frame) (s : State),
    let p (i : SpIdx) : F32 := s.sp[i].cur
    let y := (panFrame x s).1
    (panFrame x s).2 = { s with ph := (panFrame x s).2.ph } ∧
    (∀ l : Fin 2, (panFrame x s).2.ph[l] = lfoNext (p 12) s.act.fs s.ph[l]) ∧
    (s.cells.panmode = 0#1 →
      y[0] = fmul x[0] (leftGain (lanePan s p 0 (p 9))) ∧
      (s.act.nch = 2#2 → y[1] = fmul x[1] (rightGain (lanePan s p 0 (p 9))))) ∧
    (s.cells.panmode = 1#1 → s.act.nch = 2#2 →
      y[0] = fadd (fmul x[0] (leftGain (lanePan s p 0 (p 10)))) (fmul x[1] (leftGain (lanePan s p 1 (p 11)))) ∧
      y[1] = fadd (fmul x[0] (rightGain (lanePan s p 0 (p 10)))) (fmul x[1] (rightGain (lanePan s p 1 (p 11)))))

/-- The Stereo panner with one channel passes the sample bit for bit, and both phases still advance (rules R204, R209). -/
def Obligations.StereoPannerOneChannel : Prop :=
  ∀ (x : Frame) (s : State), s.cells.panmode = 1#1 → s.act.nch = 1#2 →
    (panFrame x s).1[0] = x[0] ∧ ∀ l : Fin 2, (panFrame x s).2.ph[l] = lfoNext s.sp[12].cur s.act.fs s.ph[l]

/-- The equalizer of a channel: the enabled bands in series, in band order, each the biquad step of its coefficients and
registers; a disabled band passes the sample and keeps its registers, and only the registers of the channel change. With every
band disabled the equalizer is the identity, bit for bit, and touches nothing (rules R229, R230, R233). -/
def Obligations.EqualizerCascade : Prop :=
  ∀ (c : Fin 2) (x : F32) (s : State),
    (∀ b : Fin 4,
      let y := fadd (fmul s.coef[b].b0 x) s.bq[b][c].s1
      (eqSample b c x s).1 = y ∧
      (eqSample b c x s).2 = { s with bq := (eqSample b c x s).2.bq } ∧
      (eqSample b c x s).2.bq[b][c] = { s1 := fadd (fsub (fmul s.coef[b].b1 x) (fmul s.coef[b].a1 y)) s.bq[b][c].s2
                                        s2 := fsub (fmul s.coef[b].b2 x) (fmul s.coef[b].a2 y) } ∧
      ∀ (d : Fin 4) (e : Fin 2), d ≠ b ∨ e ≠ c → (eqSample b c x s).2.bq[d][e] = s.bq[d][e]) ∧
    (eqChannel c x s).1 = (cascade s c x)[3].1 ∧
    (eqChannel c x s).2 = { s with bq := (eqChannel c x s).2.bq } ∧
    (∀ b : Fin 4, (eqChannel c x s).2.bq[b][c] = (cascade s c x)[b].2 ∧
      (s.cells.banden[b] = 0#1 → (eqChannel c x s).2.bq[b][c] = s.bq[b][c]) ∧
      ∀ d : Fin 2, d ≠ c → (eqChannel c x s).2.bq[b][d] = s.bq[b][d]) ∧
    ((∀ b : Fin 4, s.cells.banden[b] = 0#1) → eqChannel c x s = (x, s))

/-- The design of a band: frequency, gain and Q are clamped first (a number into its range, one inside it unchanged), the
bounds of the frequency being in order at every valid sample rate; from the clamped values `A`, `cw` and `alpha`; from these
the six values of the band's type; the five stored coefficients are the quotients by `a0` (rules R222 to R227). -/
def Obligations.EqualizerDesign : Prop :=
  ∀ freq gain q fs : F32,
    let top := fmul Config.eqFHiRatio fs
    let f := fclamp freq Config.eqFLo top
    let g := fclamp gain Config.eqGLo Config.eqGHi
    let qc := fclamp q Config.eqQLo Config.eqQHi
    let A := Config.num.fns.db2a g
    let w0 := fdiv (fmul Config.twoPi f) fs
    let cw := Config.num.fns.cos w0
    let alpha := fdiv (Config.num.fns.sin w0) (fmul Config.two qc)
    let beta := fmul (fmul Config.two (fsqrt A)) alpha
    let up := fadd A Config.one
    let um := fsub A Config.one
    let stored (b0 b1 b2 a0 a1 a2 : F32) : Coef := ⟨fdiv b0 a0, fdiv b1 a0, fdiv b2 a0, fdiv a1 a0, fdiv a2 a0⟩
    (fle Config.srMin fs = true → fle fs Config.srMax = true → fle Config.eqFLo top = true ∧
      (isNaN freq = false → fle Config.eqFLo f = true ∧ fle f top = true ∧
        (fle Config.eqFLo freq = true → fle freq top = true → f = freq))) ∧
    (isNaN gain = false → fle Config.eqGLo g = true ∧ fle g Config.eqGHi = true ∧
      (fle Config.eqGLo gain = true → fle gain Config.eqGHi = true → g = gain)) ∧
    (isNaN q = false → fle Config.eqQLo qc = true ∧ fle qc Config.eqQHi = true ∧
      (fle Config.eqQLo q = true → fle q Config.eqQHi = true → qc = q)) ∧
    eqDesignOf .peaking freq gain q fs =
      stored (fadd Config.one (fmul alpha A)) (fmul Config.minusTwo cw) (fsub Config.one (fmul alpha A))
        (fadd Config.one (fdiv alpha A)) (fmul Config.minusTwo cw) (fsub Config.one (fdiv alpha A)) ∧
    eqDesignOf .lowShelf freq gain q fs =
      stored (fmul A (fadd (fsub up (fmul um cw)) beta)) (fmul (fmul Config.two A) (fsub um (fmul up cw)))
        (fmul A (fsub (fsub up (fmul um cw)) beta)) (fadd (fadd up (fmul um cw)) beta)
        (fmul Config.minusTwo (fadd um (fmul up cw))) (fsub (fadd up (fmul um cw)) beta) ∧
    eqDesignOf .highShelf freq gain q fs =
      stored (fmul A (fadd (fadd up (fmul um cw)) beta)) (fmul (fmul Config.minusTwo A) (fadd um (fmul up cw)))
        (fmul A (fsub (fadd up (fmul um cw)) beta)) (fadd (fsub up (fmul um cw)) beta)
        (fmul Config.two (fsub um (fmul up cw))) (fsub (fsub up (fmul um cw)) beta)

/-- At 0 dB the design has `b0 = a0`, `b1 = a1` and `b2 = a2`, bit for bit, in all three band types (rule R234), for finite
`cw` and `alpha` with `cw` not zero: for a zero `cw`, which no cosine of a valid frequency need be, the shelves' `b1` and
`a1` are zeros of opposite signs. -/
def Obligations.ZeroDecibelDesign : Prop :=
  ∀ g cw alpha : F32, isZero g = true → isFinite cw = true → isZero cw = false → isFinite alpha = true →
    ∀ d ∈ [designPeaking (Config.num.fns.db2a g) cw alpha, designLowShelf (Config.num.fns.db2a g) cw alpha,
        designHighShelf (Config.num.fns.db2a g) cw alpha],
      d.b0 = d.a0 ∧ d.b1 = d.a1 ∧ d.b2 = d.a2

end
end

