-- ==== Sys2Proof/Laws/State.lean ====
section
/-! SUPPORT. One lemma per field per update of the state (Machine/Ops.lean), each true by `rfl`, so that no later proof
unfolds a record update. -/

namespace Sys2Proof.Machine.State

/-! `setSeq` -/

@[simp] theorem setSeq_seq (s : State) (v : Seq) : (s.setSeq v).seq = v := rfl
@[simp] theorem setSeq_sp (s : State) (v : Seq) : (s.setSeq v).sp = s.sp := rfl
@[simp] theorem setSeq_cells (s : State) (v : Seq) : (s.setSeq v).cells = s.cells := rfl
@[simp] theorem setSeq_cfg (s : State) (v : Seq) : (s.setSeq v).cfg = s.cfg := rfl
@[simp] theorem setSeq_act (s : State) (v : Seq) : (s.setSeq v).act = s.act := rfl
@[simp] theorem setSeq_status (s : State) (v : Seq) : (s.setSeq v).status = s.status := rfl
@[simp] theorem setSeq_wc (s : State) (v : Seq) : (s.setSeq v).wc = s.wc := rfl
@[simp] theorem setSeq_dram (s : State) (v : Seq) : (s.setSeq v).dram = s.dram := rfl
@[simp] theorem setSeq_dc (s : State) (v : Seq) : (s.setSeq v).dc = s.dc := rfl
@[simp] theorem setSeq_ph (s : State) (v : Seq) : (s.setSeq v).ph = s.ph := rfl
@[simp] theorem setSeq_coef (s : State) (v : Seq) : (s.setSeq v).coef = s.coef := rfl
@[simp] theorem setSeq_dirty (s : State) (v : Seq) : (s.setSeq v).dirty = s.dirty := rfl
@[simp] theorem setSeq_bq (s : State) (v : Seq) : (s.setSeq v).bq = s.bq := rfl
@[simp] theorem setSeq_io (s : State) (v : Seq) : (s.setSeq v).io = s.io := rfl
@[simp] theorem setSeq_issuer (s : State) (v : Seq) : (s.setSeq v).issuer = s.issuer := rfl
@[simp] theorem setSeq_passing (s : State) (v : Seq) : (s.setSeq v).passing = s.passing := rfl
@[simp] theorem setSeq_inFrame (s : State) (v : Seq) : (s.setSeq v).inFrame = s.inFrame := rfl
@[simp] theorem setSeq_popped (s : State) (v : Seq) : (s.setSeq v).popped = s.popped := rfl
@[simp] theorem setSeq_tick (s : State) (v : Seq) : (s.setSeq v).tick = s.tick := rfl

/-! `setSp` -/

@[simp] theorem setSp_seq (s : State) (v : Vector Sp 26) : (s.setSp v).seq = s.seq := rfl
@[simp] theorem setSp_sp (s : State) (v : Vector Sp 26) : (s.setSp v).sp = v := rfl
@[simp] theorem setSp_cells (s : State) (v : Vector Sp 26) : (s.setSp v).cells = s.cells := rfl
@[simp] theorem setSp_cfg (s : State) (v : Vector Sp 26) : (s.setSp v).cfg = s.cfg := rfl
@[simp] theorem setSp_act (s : State) (v : Vector Sp 26) : (s.setSp v).act = s.act := rfl
@[simp] theorem setSp_status (s : State) (v : Vector Sp 26) : (s.setSp v).status = s.status := rfl
@[simp] theorem setSp_wc (s : State) (v : Vector Sp 26) : (s.setSp v).wc = s.wc := rfl
@[simp] theorem setSp_dram (s : State) (v : Vector Sp 26) : (s.setSp v).dram = s.dram := rfl
@[simp] theorem setSp_dc (s : State) (v : Vector Sp 26) : (s.setSp v).dc = s.dc := rfl
@[simp] theorem setSp_ph (s : State) (v : Vector Sp 26) : (s.setSp v).ph = s.ph := rfl
@[simp] theorem setSp_coef (s : State) (v : Vector Sp 26) : (s.setSp v).coef = s.coef := rfl
@[simp] theorem setSp_dirty (s : State) (v : Vector Sp 26) : (s.setSp v).dirty = s.dirty := rfl
@[simp] theorem setSp_bq (s : State) (v : Vector Sp 26) : (s.setSp v).bq = s.bq := rfl
@[simp] theorem setSp_io (s : State) (v : Vector Sp 26) : (s.setSp v).io = s.io := rfl
@[simp] theorem setSp_issuer (s : State) (v : Vector Sp 26) : (s.setSp v).issuer = s.issuer := rfl
@[simp] theorem setSp_passing (s : State) (v : Vector Sp 26) : (s.setSp v).passing = s.passing := rfl
@[simp] theorem setSp_inFrame (s : State) (v : Vector Sp 26) : (s.setSp v).inFrame = s.inFrame := rfl
@[simp] theorem setSp_popped (s : State) (v : Vector Sp 26) : (s.setSp v).popped = s.popped := rfl
@[simp] theorem setSp_tick (s : State) (v : Vector Sp 26) : (s.setSp v).tick = s.tick := rfl

/-! `setCells` -/

@[simp] theorem setCells_seq (s : State) (v : Cells) : (s.setCells v).seq = s.seq := rfl
@[simp] theorem setCells_sp (s : State) (v : Cells) : (s.setCells v).sp = s.sp := rfl
@[simp] theorem setCells_cells (s : State) (v : Cells) : (s.setCells v).cells = v := rfl
@[simp] theorem setCells_cfg (s : State) (v : Cells) : (s.setCells v).cfg = s.cfg := rfl
@[simp] theorem setCells_act (s : State) (v : Cells) : (s.setCells v).act = s.act := rfl
@[simp] theorem setCells_status (s : State) (v : Cells) : (s.setCells v).status = s.status := rfl
@[simp] theorem setCells_wc (s : State) (v : Cells) : (s.setCells v).wc = s.wc := rfl
@[simp] theorem setCells_dram (s : State) (v : Cells) : (s.setCells v).dram = s.dram := rfl
@[simp] theorem setCells_dc (s : State) (v : Cells) : (s.setCells v).dc = s.dc := rfl
@[simp] theorem setCells_ph (s : State) (v : Cells) : (s.setCells v).ph = s.ph := rfl
@[simp] theorem setCells_coef (s : State) (v : Cells) : (s.setCells v).coef = s.coef := rfl
@[simp] theorem setCells_dirty (s : State) (v : Cells) : (s.setCells v).dirty = s.dirty := rfl
@[simp] theorem setCells_bq (s : State) (v : Cells) : (s.setCells v).bq = s.bq := rfl
@[simp] theorem setCells_io (s : State) (v : Cells) : (s.setCells v).io = s.io := rfl
@[simp] theorem setCells_issuer (s : State) (v : Cells) : (s.setCells v).issuer = s.issuer := rfl
@[simp] theorem setCells_passing (s : State) (v : Cells) : (s.setCells v).passing = s.passing := rfl
@[simp] theorem setCells_inFrame (s : State) (v : Cells) : (s.setCells v).inFrame = s.inFrame := rfl
@[simp] theorem setCells_popped (s : State) (v : Cells) : (s.setCells v).popped = s.popped := rfl
@[simp] theorem setCells_tick (s : State) (v : Cells) : (s.setCells v).tick = s.tick := rfl

/-! `setCfg` -/

@[simp] theorem setCfg_seq (s : State) (v : Vector Word32 6) : (s.setCfg v).seq = s.seq := rfl
@[simp] theorem setCfg_sp (s : State) (v : Vector Word32 6) : (s.setCfg v).sp = s.sp := rfl
@[simp] theorem setCfg_cells (s : State) (v : Vector Word32 6) : (s.setCfg v).cells = s.cells := rfl
@[simp] theorem setCfg_cfg (s : State) (v : Vector Word32 6) : (s.setCfg v).cfg = v := rfl
@[simp] theorem setCfg_act (s : State) (v : Vector Word32 6) : (s.setCfg v).act = s.act := rfl
@[simp] theorem setCfg_status (s : State) (v : Vector Word32 6) : (s.setCfg v).status = s.status := rfl
@[simp] theorem setCfg_wc (s : State) (v : Vector Word32 6) : (s.setCfg v).wc = s.wc := rfl
@[simp] theorem setCfg_dram (s : State) (v : Vector Word32 6) : (s.setCfg v).dram = s.dram := rfl
@[simp] theorem setCfg_dc (s : State) (v : Vector Word32 6) : (s.setCfg v).dc = s.dc := rfl
@[simp] theorem setCfg_ph (s : State) (v : Vector Word32 6) : (s.setCfg v).ph = s.ph := rfl
@[simp] theorem setCfg_coef (s : State) (v : Vector Word32 6) : (s.setCfg v).coef = s.coef := rfl
@[simp] theorem setCfg_dirty (s : State) (v : Vector Word32 6) : (s.setCfg v).dirty = s.dirty := rfl
@[simp] theorem setCfg_bq (s : State) (v : Vector Word32 6) : (s.setCfg v).bq = s.bq := rfl
@[simp] theorem setCfg_io (s : State) (v : Vector Word32 6) : (s.setCfg v).io = s.io := rfl
@[simp] theorem setCfg_issuer (s : State) (v : Vector Word32 6) : (s.setCfg v).issuer = s.issuer := rfl
@[simp] theorem setCfg_passing (s : State) (v : Vector Word32 6) : (s.setCfg v).passing = s.passing := rfl
@[simp] theorem setCfg_inFrame (s : State) (v : Vector Word32 6) : (s.setCfg v).inFrame = s.inFrame := rfl
@[simp] theorem setCfg_popped (s : State) (v : Vector Word32 6) : (s.setCfg v).popped = s.popped := rfl
@[simp] theorem setCfg_tick (s : State) (v : Vector Word32 6) : (s.setCfg v).tick = s.tick := rfl

/-! `setAct` -/

@[simp] theorem setAct_seq (s : State) (v : Active) : (s.setAct v).seq = s.seq := rfl
@[simp] theorem setAct_sp (s : State) (v : Active) : (s.setAct v).sp = s.sp := rfl
@[simp] theorem setAct_cells (s : State) (v : Active) : (s.setAct v).cells = s.cells := rfl
@[simp] theorem setAct_cfg (s : State) (v : Active) : (s.setAct v).cfg = s.cfg := rfl
@[simp] theorem setAct_act (s : State) (v : Active) : (s.setAct v).act = v := rfl
@[simp] theorem setAct_status (s : State) (v : Active) : (s.setAct v).status = s.status := rfl
@[simp] theorem setAct_wc (s : State) (v : Active) : (s.setAct v).wc = s.wc := rfl
@[simp] theorem setAct_dram (s : State) (v : Active) : (s.setAct v).dram = s.dram := rfl
@[simp] theorem setAct_dc (s : State) (v : Active) : (s.setAct v).dc = s.dc := rfl
@[simp] theorem setAct_ph (s : State) (v : Active) : (s.setAct v).ph = s.ph := rfl
@[simp] theorem setAct_coef (s : State) (v : Active) : (s.setAct v).coef = s.coef := rfl
@[simp] theorem setAct_dirty (s : State) (v : Active) : (s.setAct v).dirty = s.dirty := rfl
@[simp] theorem setAct_bq (s : State) (v : Active) : (s.setAct v).bq = s.bq := rfl
@[simp] theorem setAct_io (s : State) (v : Active) : (s.setAct v).io = s.io := rfl
@[simp] theorem setAct_issuer (s : State) (v : Active) : (s.setAct v).issuer = s.issuer := rfl
@[simp] theorem setAct_passing (s : State) (v : Active) : (s.setAct v).passing = s.passing := rfl
@[simp] theorem setAct_inFrame (s : State) (v : Active) : (s.setAct v).inFrame = s.inFrame := rfl
@[simp] theorem setAct_popped (s : State) (v : Active) : (s.setAct v).popped = s.popped := rfl
@[simp] theorem setAct_tick (s : State) (v : Active) : (s.setAct v).tick = s.tick := rfl

/-! `setStatus` -/

@[simp] theorem setStatus_seq (s : State) (v : Status) : (s.setStatus v).seq = s.seq := rfl
@[simp] theorem setStatus_sp (s : State) (v : Status) : (s.setStatus v).sp = s.sp := rfl
@[simp] theorem setStatus_cells (s : State) (v : Status) : (s.setStatus v).cells = s.cells := rfl
@[simp] theorem setStatus_cfg (s : State) (v : Status) : (s.setStatus v).cfg = s.cfg := rfl
@[simp] theorem setStatus_act (s : State) (v : Status) : (s.setStatus v).act = s.act := rfl
@[simp] theorem setStatus_status (s : State) (v : Status) : (s.setStatus v).status = v := rfl
@[simp] theorem setStatus_wc (s : State) (v : Status) : (s.setStatus v).wc = s.wc := rfl
@[simp] theorem setStatus_dram (s : State) (v : Status) : (s.setStatus v).dram = s.dram := rfl
@[simp] theorem setStatus_dc (s : State) (v : Status) : (s.setStatus v).dc = s.dc := rfl
@[simp] theorem setStatus_ph (s : State) (v : Status) : (s.setStatus v).ph = s.ph := rfl
@[simp] theorem setStatus_coef (s : State) (v : Status) : (s.setStatus v).coef = s.coef := rfl
@[simp] theorem setStatus_dirty (s : State) (v : Status) : (s.setStatus v).dirty = s.dirty := rfl
@[simp] theorem setStatus_bq (s : State) (v : Status) : (s.setStatus v).bq = s.bq := rfl
@[simp] theorem setStatus_io (s : State) (v : Status) : (s.setStatus v).io = s.io := rfl
@[simp] theorem setStatus_issuer (s : State) (v : Status) : (s.setStatus v).issuer = s.issuer := rfl
@[simp] theorem setStatus_passing (s : State) (v : Status) : (s.setStatus v).passing = s.passing := rfl
@[simp] theorem setStatus_inFrame (s : State) (v : Status) : (s.setStatus v).inFrame = s.inFrame := rfl
@[simp] theorem setStatus_popped (s : State) (v : Status) : (s.setStatus v).popped = s.popped := rfl
@[simp] theorem setStatus_tick (s : State) (v : Status) : (s.setStatus v).tick = s.tick := rfl

/-! `setWc` -/

@[simp] theorem setWc_seq (s : State) (v : Vector (BitVec 19) 2) : (s.setWc v).seq = s.seq := rfl
@[simp] theorem setWc_sp (s : State) (v : Vector (BitVec 19) 2) : (s.setWc v).sp = s.sp := rfl
@[simp] theorem setWc_cells (s : State) (v : Vector (BitVec 19) 2) : (s.setWc v).cells = s.cells := rfl
@[simp] theorem setWc_cfg (s : State) (v : Vector (BitVec 19) 2) : (s.setWc v).cfg = s.cfg := rfl
@[simp] theorem setWc_act (s : State) (v : Vector (BitVec 19) 2) : (s.setWc v).act = s.act := rfl
@[simp] theorem setWc_status (s : State) (v : Vector (BitVec 19) 2) : (s.setWc v).status = s.status := rfl
@[simp] theorem setWc_wc (s : State) (v : Vector (BitVec 19) 2) : (s.setWc v).wc = v := rfl
@[simp] theorem setWc_dram (s : State) (v : Vector (BitVec 19) 2) : (s.setWc v).dram = s.dram := rfl
@[simp] theorem setWc_dc (s : State) (v : Vector (BitVec 19) 2) : (s.setWc v).dc = s.dc := rfl
@[simp] theorem setWc_ph (s : State) (v : Vector (BitVec 19) 2) : (s.setWc v).ph = s.ph := rfl
@[simp] theorem setWc_coef (s : State) (v : Vector (BitVec 19) 2) : (s.setWc v).coef = s.coef := rfl
@[simp] theorem setWc_dirty (s : State) (v : Vector (BitVec 19) 2) : (s.setWc v).dirty = s.dirty := rfl
@[simp] theorem setWc_bq (s : State) (v : Vector (BitVec 19) 2) : (s.setWc v).bq = s.bq := rfl
@[simp] theorem setWc_io (s : State) (v : Vector (BitVec 19) 2) : (s.setWc v).io = s.io := rfl
@[simp] theorem setWc_issuer (s : State) (v : Vector (BitVec 19) 2) : (s.setWc v).issuer = s.issuer := rfl
@[simp] theorem setWc_passing (s : State) (v : Vector (BitVec 19) 2) : (s.setWc v).passing = s.passing := rfl
@[simp] theorem setWc_inFrame (s : State) (v : Vector (BitVec 19) 2) : (s.setWc v).inFrame = s.inFrame := rfl
@[simp] theorem setWc_popped (s : State) (v : Vector (BitVec 19) 2) : (s.setWc v).popped = s.popped := rfl
@[simp] theorem setWc_tick (s : State) (v : Vector (BitVec 19) 2) : (s.setWc v).tick = s.tick := rfl

/-! `setDram` -/

@[simp] theorem setDram_seq (s : State) (v : Memory) : (s.setDram v).seq = s.seq := rfl
@[simp] theorem setDram_sp (s : State) (v : Memory) : (s.setDram v).sp = s.sp := rfl
@[simp] theorem setDram_cells (s : State) (v : Memory) : (s.setDram v).cells = s.cells := rfl
@[simp] theorem setDram_cfg (s : State) (v : Memory) : (s.setDram v).cfg = s.cfg := rfl
@[simp] theorem setDram_act (s : State) (v : Memory) : (s.setDram v).act = s.act := rfl
@[simp] theorem setDram_status (s : State) (v : Memory) : (s.setDram v).status = s.status := rfl
@[simp] theorem setDram_wc (s : State) (v : Memory) : (s.setDram v).wc = s.wc := rfl
@[simp] theorem setDram_dram (s : State) (v : Memory) : (s.setDram v).dram = v := rfl
@[simp] theorem setDram_dc (s : State) (v : Memory) : (s.setDram v).dc = s.dc := rfl
@[simp] theorem setDram_ph (s : State) (v : Memory) : (s.setDram v).ph = s.ph := rfl
@[simp] theorem setDram_coef (s : State) (v : Memory) : (s.setDram v).coef = s.coef := rfl
@[simp] theorem setDram_dirty (s : State) (v : Memory) : (s.setDram v).dirty = s.dirty := rfl
@[simp] theorem setDram_bq (s : State) (v : Memory) : (s.setDram v).bq = s.bq := rfl
@[simp] theorem setDram_io (s : State) (v : Memory) : (s.setDram v).io = s.io := rfl
@[simp] theorem setDram_issuer (s : State) (v : Memory) : (s.setDram v).issuer = s.issuer := rfl
@[simp] theorem setDram_passing (s : State) (v : Memory) : (s.setDram v).passing = s.passing := rfl
@[simp] theorem setDram_inFrame (s : State) (v : Memory) : (s.setDram v).inFrame = s.inFrame := rfl
@[simp] theorem setDram_popped (s : State) (v : Memory) : (s.setDram v).popped = s.popped := rfl
@[simp] theorem setDram_tick (s : State) (v : Memory) : (s.setDram v).tick = s.tick := rfl

/-! `setDc` -/

@[simp] theorem setDc_seq (s : State) (v : Vector Dc 2) : (s.setDc v).seq = s.seq := rfl
@[simp] theorem setDc_sp (s : State) (v : Vector Dc 2) : (s.setDc v).sp = s.sp := rfl
@[simp] theorem setDc_cells (s : State) (v : Vector Dc 2) : (s.setDc v).cells = s.cells := rfl
@[simp] theorem setDc_cfg (s : State) (v : Vector Dc 2) : (s.setDc v).cfg = s.cfg := rfl
@[simp] theorem setDc_act (s : State) (v : Vector Dc 2) : (s.setDc v).act = s.act := rfl
@[simp] theorem setDc_status (s : State) (v : Vector Dc 2) : (s.setDc v).status = s.status := rfl
@[simp] theorem setDc_wc (s : State) (v : Vector Dc 2) : (s.setDc v).wc = s.wc := rfl
@[simp] theorem setDc_dram (s : State) (v : Vector Dc 2) : (s.setDc v).dram = s.dram := rfl
@[simp] theorem setDc_dc (s : State) (v : Vector Dc 2) : (s.setDc v).dc = v := rfl
@[simp] theorem setDc_ph (s : State) (v : Vector Dc 2) : (s.setDc v).ph = s.ph := rfl
@[simp] theorem setDc_coef (s : State) (v : Vector Dc 2) : (s.setDc v).coef = s.coef := rfl
@[simp] theorem setDc_dirty (s : State) (v : Vector Dc 2) : (s.setDc v).dirty = s.dirty := rfl
@[simp] theorem setDc_bq (s : State) (v : Vector Dc 2) : (s.setDc v).bq = s.bq := rfl
@[simp] theorem setDc_io (s : State) (v : Vector Dc 2) : (s.setDc v).io = s.io := rfl
@[simp] theorem setDc_issuer (s : State) (v : Vector Dc 2) : (s.setDc v).issuer = s.issuer := rfl
@[simp] theorem setDc_passing (s : State) (v : Vector Dc 2) : (s.setDc v).passing = s.passing := rfl
@[simp] theorem setDc_inFrame (s : State) (v : Vector Dc 2) : (s.setDc v).inFrame = s.inFrame := rfl
@[simp] theorem setDc_popped (s : State) (v : Vector Dc 2) : (s.setDc v).popped = s.popped := rfl
@[simp] theorem setDc_tick (s : State) (v : Vector Dc 2) : (s.setDc v).tick = s.tick := rfl

/-! `setPh` -/

@[simp] theorem setPh_seq (s : State) (v : Vector F32 2) : (s.setPh v).seq = s.seq := rfl
@[simp] theorem setPh_sp (s : State) (v : Vector F32 2) : (s.setPh v).sp = s.sp := rfl
@[simp] theorem setPh_cells (s : State) (v : Vector F32 2) : (s.setPh v).cells = s.cells := rfl
@[simp] theorem setPh_cfg (s : State) (v : Vector F32 2) : (s.setPh v).cfg = s.cfg := rfl
@[simp] theorem setPh_act (s : State) (v : Vector F32 2) : (s.setPh v).act = s.act := rfl
@[simp] theorem setPh_status (s : State) (v : Vector F32 2) : (s.setPh v).status = s.status := rfl
@[simp] theorem setPh_wc (s : State) (v : Vector F32 2) : (s.setPh v).wc = s.wc := rfl
@[simp] theorem setPh_dram (s : State) (v : Vector F32 2) : (s.setPh v).dram = s.dram := rfl
@[simp] theorem setPh_dc (s : State) (v : Vector F32 2) : (s.setPh v).dc = s.dc := rfl
@[simp] theorem setPh_ph (s : State) (v : Vector F32 2) : (s.setPh v).ph = v := rfl
@[simp] theorem setPh_coef (s : State) (v : Vector F32 2) : (s.setPh v).coef = s.coef := rfl
@[simp] theorem setPh_dirty (s : State) (v : Vector F32 2) : (s.setPh v).dirty = s.dirty := rfl
@[simp] theorem setPh_bq (s : State) (v : Vector F32 2) : (s.setPh v).bq = s.bq := rfl
@[simp] theorem setPh_io (s : State) (v : Vector F32 2) : (s.setPh v).io = s.io := rfl
@[simp] theorem setPh_issuer (s : State) (v : Vector F32 2) : (s.setPh v).issuer = s.issuer := rfl
@[simp] theorem setPh_passing (s : State) (v : Vector F32 2) : (s.setPh v).passing = s.passing := rfl
@[simp] theorem setPh_inFrame (s : State) (v : Vector F32 2) : (s.setPh v).inFrame = s.inFrame := rfl
@[simp] theorem setPh_popped (s : State) (v : Vector F32 2) : (s.setPh v).popped = s.popped := rfl
@[simp] theorem setPh_tick (s : State) (v : Vector F32 2) : (s.setPh v).tick = s.tick := rfl

/-! `setCoef` -/

@[simp] theorem setCoef_seq (s : State) (v : Vector Coef 4) : (s.setCoef v).seq = s.seq := rfl
@[simp] theorem setCoef_sp (s : State) (v : Vector Coef 4) : (s.setCoef v).sp = s.sp := rfl
@[simp] theorem setCoef_cells (s : State) (v : Vector Coef 4) : (s.setCoef v).cells = s.cells := rfl
@[simp] theorem setCoef_cfg (s : State) (v : Vector Coef 4) : (s.setCoef v).cfg = s.cfg := rfl
@[simp] theorem setCoef_act (s : State) (v : Vector Coef 4) : (s.setCoef v).act = s.act := rfl
@[simp] theorem setCoef_status (s : State) (v : Vector Coef 4) : (s.setCoef v).status = s.status := rfl
@[simp] theorem setCoef_wc (s : State) (v : Vector Coef 4) : (s.setCoef v).wc = s.wc := rfl
@[simp] theorem setCoef_dram (s : State) (v : Vector Coef 4) : (s.setCoef v).dram = s.dram := rfl
@[simp] theorem setCoef_dc (s : State) (v : Vector Coef 4) : (s.setCoef v).dc = s.dc := rfl
@[simp] theorem setCoef_ph (s : State) (v : Vector Coef 4) : (s.setCoef v).ph = s.ph := rfl
@[simp] theorem setCoef_coef (s : State) (v : Vector Coef 4) : (s.setCoef v).coef = v := rfl
@[simp] theorem setCoef_dirty (s : State) (v : Vector Coef 4) : (s.setCoef v).dirty = s.dirty := rfl
@[simp] theorem setCoef_bq (s : State) (v : Vector Coef 4) : (s.setCoef v).bq = s.bq := rfl
@[simp] theorem setCoef_io (s : State) (v : Vector Coef 4) : (s.setCoef v).io = s.io := rfl
@[simp] theorem setCoef_issuer (s : State) (v : Vector Coef 4) : (s.setCoef v).issuer = s.issuer := rfl
@[simp] theorem setCoef_passing (s : State) (v : Vector Coef 4) : (s.setCoef v).passing = s.passing := rfl
@[simp] theorem setCoef_inFrame (s : State) (v : Vector Coef 4) : (s.setCoef v).inFrame = s.inFrame := rfl
@[simp] theorem setCoef_popped (s : State) (v : Vector Coef 4) : (s.setCoef v).popped = s.popped := rfl
@[simp] theorem setCoef_tick (s : State) (v : Vector Coef 4) : (s.setCoef v).tick = s.tick := rfl

/-! `setDirty` -/

@[simp] theorem setDirty_seq (s : State) (v : Vector Bool 4) : (s.setDirty v).seq = s.seq := rfl
@[simp] theorem setDirty_sp (s : State) (v : Vector Bool 4) : (s.setDirty v).sp = s.sp := rfl
@[simp] theorem setDirty_cells (s : State) (v : Vector Bool 4) : (s.setDirty v).cells = s.cells := rfl
@[simp] theorem setDirty_cfg (s : State) (v : Vector Bool 4) : (s.setDirty v).cfg = s.cfg := rfl
@[simp] theorem setDirty_act (s : State) (v : Vector Bool 4) : (s.setDirty v).act = s.act := rfl
@[simp] theorem setDirty_status (s : State) (v : Vector Bool 4) : (s.setDirty v).status = s.status := rfl
@[simp] theorem setDirty_wc (s : State) (v : Vector Bool 4) : (s.setDirty v).wc = s.wc := rfl
@[simp] theorem setDirty_dram (s : State) (v : Vector Bool 4) : (s.setDirty v).dram = s.dram := rfl
@[simp] theorem setDirty_dc (s : State) (v : Vector Bool 4) : (s.setDirty v).dc = s.dc := rfl
@[simp] theorem setDirty_ph (s : State) (v : Vector Bool 4) : (s.setDirty v).ph = s.ph := rfl
@[simp] theorem setDirty_coef (s : State) (v : Vector Bool 4) : (s.setDirty v).coef = s.coef := rfl
@[simp] theorem setDirty_dirty (s : State) (v : Vector Bool 4) : (s.setDirty v).dirty = v := rfl
@[simp] theorem setDirty_bq (s : State) (v : Vector Bool 4) : (s.setDirty v).bq = s.bq := rfl
@[simp] theorem setDirty_io (s : State) (v : Vector Bool 4) : (s.setDirty v).io = s.io := rfl
@[simp] theorem setDirty_issuer (s : State) (v : Vector Bool 4) : (s.setDirty v).issuer = s.issuer := rfl
@[simp] theorem setDirty_passing (s : State) (v : Vector Bool 4) : (s.setDirty v).passing = s.passing := rfl
@[simp] theorem setDirty_inFrame (s : State) (v : Vector Bool 4) : (s.setDirty v).inFrame = s.inFrame := rfl
@[simp] theorem setDirty_popped (s : State) (v : Vector Bool 4) : (s.setDirty v).popped = s.popped := rfl
@[simp] theorem setDirty_tick (s : State) (v : Vector Bool 4) : (s.setDirty v).tick = s.tick := rfl

/-! `setBq` -/

@[simp] theorem setBq_seq (s : State) (v : Vector (Vector Biquad 2) 4) : (s.setBq v).seq = s.seq := rfl
@[simp] theorem setBq_sp (s : State) (v : Vector (Vector Biquad 2) 4) : (s.setBq v).sp = s.sp := rfl
@[simp] theorem setBq_cells (s : State) (v : Vector (Vector Biquad 2) 4) : (s.setBq v).cells = s.cells := rfl
@[simp] theorem setBq_cfg (s : State) (v : Vector (Vector Biquad 2) 4) : (s.setBq v).cfg = s.cfg := rfl
@[simp] theorem setBq_act (s : State) (v : Vector (Vector Biquad 2) 4) : (s.setBq v).act = s.act := rfl
@[simp] theorem setBq_status (s : State) (v : Vector (Vector Biquad 2) 4) : (s.setBq v).status = s.status := rfl
@[simp] theorem setBq_wc (s : State) (v : Vector (Vector Biquad 2) 4) : (s.setBq v).wc = s.wc := rfl
@[simp] theorem setBq_dram (s : State) (v : Vector (Vector Biquad 2) 4) : (s.setBq v).dram = s.dram := rfl
@[simp] theorem setBq_dc (s : State) (v : Vector (Vector Biquad 2) 4) : (s.setBq v).dc = s.dc := rfl
@[simp] theorem setBq_ph (s : State) (v : Vector (Vector Biquad 2) 4) : (s.setBq v).ph = s.ph := rfl
@[simp] theorem setBq_coef (s : State) (v : Vector (Vector Biquad 2) 4) : (s.setBq v).coef = s.coef := rfl
@[simp] theorem setBq_dirty (s : State) (v : Vector (Vector Biquad 2) 4) : (s.setBq v).dirty = s.dirty := rfl
@[simp] theorem setBq_bq (s : State) (v : Vector (Vector Biquad 2) 4) : (s.setBq v).bq = v := rfl
@[simp] theorem setBq_io (s : State) (v : Vector (Vector Biquad 2) 4) : (s.setBq v).io = s.io := rfl
@[simp] theorem setBq_issuer (s : State) (v : Vector (Vector Biquad 2) 4) : (s.setBq v).issuer = s.issuer := rfl
@[simp] theorem setBq_passing (s : State) (v : Vector (Vector Biquad 2) 4) : (s.setBq v).passing = s.passing := rfl
@[simp] theorem setBq_inFrame (s : State) (v : Vector (Vector Biquad 2) 4) : (s.setBq v).inFrame = s.inFrame := rfl
@[simp] theorem setBq_popped (s : State) (v : Vector (Vector Biquad 2) 4) : (s.setBq v).popped = s.popped := rfl
@[simp] theorem setBq_tick (s : State) (v : Vector (Vector Biquad 2) 4) : (s.setBq v).tick = s.tick := rfl

/-! `setIo` -/

@[simp] theorem setIo_seq (s : State) (v : Io) : (s.setIo v).seq = s.seq := rfl
@[simp] theorem setIo_sp (s : State) (v : Io) : (s.setIo v).sp = s.sp := rfl
@[simp] theorem setIo_cells (s : State) (v : Io) : (s.setIo v).cells = s.cells := rfl
@[simp] theorem setIo_cfg (s : State) (v : Io) : (s.setIo v).cfg = s.cfg := rfl
@[simp] theorem setIo_act (s : State) (v : Io) : (s.setIo v).act = s.act := rfl
@[simp] theorem setIo_status (s : State) (v : Io) : (s.setIo v).status = s.status := rfl
@[simp] theorem setIo_wc (s : State) (v : Io) : (s.setIo v).wc = s.wc := rfl
@[simp] theorem setIo_dram (s : State) (v : Io) : (s.setIo v).dram = s.dram := rfl
@[simp] theorem setIo_dc (s : State) (v : Io) : (s.setIo v).dc = s.dc := rfl
@[simp] theorem setIo_ph (s : State) (v : Io) : (s.setIo v).ph = s.ph := rfl
@[simp] theorem setIo_coef (s : State) (v : Io) : (s.setIo v).coef = s.coef := rfl
@[simp] theorem setIo_dirty (s : State) (v : Io) : (s.setIo v).dirty = s.dirty := rfl
@[simp] theorem setIo_bq (s : State) (v : Io) : (s.setIo v).bq = s.bq := rfl
@[simp] theorem setIo_io (s : State) (v : Io) : (s.setIo v).io = v := rfl
@[simp] theorem setIo_issuer (s : State) (v : Io) : (s.setIo v).issuer = s.issuer := rfl
@[simp] theorem setIo_passing (s : State) (v : Io) : (s.setIo v).passing = s.passing := rfl
@[simp] theorem setIo_inFrame (s : State) (v : Io) : (s.setIo v).inFrame = s.inFrame := rfl
@[simp] theorem setIo_popped (s : State) (v : Io) : (s.setIo v).popped = s.popped := rfl
@[simp] theorem setIo_tick (s : State) (v : Io) : (s.setIo v).tick = s.tick := rfl

/-! `setIssuer` -/

@[simp] theorem setIssuer_seq (s : State) (v : Queue) : (s.setIssuer v).seq = s.seq := rfl
@[simp] theorem setIssuer_sp (s : State) (v : Queue) : (s.setIssuer v).sp = s.sp := rfl
@[simp] theorem setIssuer_cells (s : State) (v : Queue) : (s.setIssuer v).cells = s.cells := rfl
@[simp] theorem setIssuer_cfg (s : State) (v : Queue) : (s.setIssuer v).cfg = s.cfg := rfl
@[simp] theorem setIssuer_act (s : State) (v : Queue) : (s.setIssuer v).act = s.act := rfl
@[simp] theorem setIssuer_status (s : State) (v : Queue) : (s.setIssuer v).status = s.status := rfl
@[simp] theorem setIssuer_wc (s : State) (v : Queue) : (s.setIssuer v).wc = s.wc := rfl
@[simp] theorem setIssuer_dram (s : State) (v : Queue) : (s.setIssuer v).dram = s.dram := rfl
@[simp] theorem setIssuer_dc (s : State) (v : Queue) : (s.setIssuer v).dc = s.dc := rfl
@[simp] theorem setIssuer_ph (s : State) (v : Queue) : (s.setIssuer v).ph = s.ph := rfl
@[simp] theorem setIssuer_coef (s : State) (v : Queue) : (s.setIssuer v).coef = s.coef := rfl
@[simp] theorem setIssuer_dirty (s : State) (v : Queue) : (s.setIssuer v).dirty = s.dirty := rfl
@[simp] theorem setIssuer_bq (s : State) (v : Queue) : (s.setIssuer v).bq = s.bq := rfl
@[simp] theorem setIssuer_io (s : State) (v : Queue) : (s.setIssuer v).io = s.io := rfl
@[simp] theorem setIssuer_issuer (s : State) (v : Queue) : (s.setIssuer v).issuer = v := rfl
@[simp] theorem setIssuer_passing (s : State) (v : Queue) : (s.setIssuer v).passing = s.passing := rfl
@[simp] theorem setIssuer_inFrame (s : State) (v : Queue) : (s.setIssuer v).inFrame = s.inFrame := rfl
@[simp] theorem setIssuer_popped (s : State) (v : Queue) : (s.setIssuer v).popped = s.popped := rfl
@[simp] theorem setIssuer_tick (s : State) (v : Queue) : (s.setIssuer v).tick = s.tick := rfl

/-! `setPassing` -/

@[simp] theorem setPassing_seq (s : State) (v : Option Nat) : (s.setPassing v).seq = s.seq := rfl
@[simp] theorem setPassing_sp (s : State) (v : Option Nat) : (s.setPassing v).sp = s.sp := rfl
@[simp] theorem setPassing_cells (s : State) (v : Option Nat) : (s.setPassing v).cells = s.cells := rfl
@[simp] theorem setPassing_cfg (s : State) (v : Option Nat) : (s.setPassing v).cfg = s.cfg := rfl
@[simp] theorem setPassing_act (s : State) (v : Option Nat) : (s.setPassing v).act = s.act := rfl
@[simp] theorem setPassing_status (s : State) (v : Option Nat) : (s.setPassing v).status = s.status := rfl
@[simp] theorem setPassing_wc (s : State) (v : Option Nat) : (s.setPassing v).wc = s.wc := rfl
@[simp] theorem setPassing_dram (s : State) (v : Option Nat) : (s.setPassing v).dram = s.dram := rfl
@[simp] theorem setPassing_dc (s : State) (v : Option Nat) : (s.setPassing v).dc = s.dc := rfl
@[simp] theorem setPassing_ph (s : State) (v : Option Nat) : (s.setPassing v).ph = s.ph := rfl
@[simp] theorem setPassing_coef (s : State) (v : Option Nat) : (s.setPassing v).coef = s.coef := rfl
@[simp] theorem setPassing_dirty (s : State) (v : Option Nat) : (s.setPassing v).dirty = s.dirty := rfl
@[simp] theorem setPassing_bq (s : State) (v : Option Nat) : (s.setPassing v).bq = s.bq := rfl
@[simp] theorem setPassing_io (s : State) (v : Option Nat) : (s.setPassing v).io = s.io := rfl
@[simp] theorem setPassing_issuer (s : State) (v : Option Nat) : (s.setPassing v).issuer = s.issuer := rfl
@[simp] theorem setPassing_passing (s : State) (v : Option Nat) : (s.setPassing v).passing = v := rfl
@[simp] theorem setPassing_inFrame (s : State) (v : Option Nat) : (s.setPassing v).inFrame = s.inFrame := rfl
@[simp] theorem setPassing_popped (s : State) (v : Option Nat) : (s.setPassing v).popped = s.popped := rfl
@[simp] theorem setPassing_tick (s : State) (v : Option Nat) : (s.setPassing v).tick = s.tick := rfl

/-! `setInFrame` -/

@[simp] theorem setInFrame_seq (s : State) (v : Bool) : (s.setInFrame v).seq = s.seq := rfl
@[simp] theorem setInFrame_sp (s : State) (v : Bool) : (s.setInFrame v).sp = s.sp := rfl
@[simp] theorem setInFrame_cells (s : State) (v : Bool) : (s.setInFrame v).cells = s.cells := rfl
@[simp] theorem setInFrame_cfg (s : State) (v : Bool) : (s.setInFrame v).cfg = s.cfg := rfl
@[simp] theorem setInFrame_act (s : State) (v : Bool) : (s.setInFrame v).act = s.act := rfl
@[simp] theorem setInFrame_status (s : State) (v : Bool) : (s.setInFrame v).status = s.status := rfl
@[simp] theorem setInFrame_wc (s : State) (v : Bool) : (s.setInFrame v).wc = s.wc := rfl
@[simp] theorem setInFrame_dram (s : State) (v : Bool) : (s.setInFrame v).dram = s.dram := rfl
@[simp] theorem setInFrame_dc (s : State) (v : Bool) : (s.setInFrame v).dc = s.dc := rfl
@[simp] theorem setInFrame_ph (s : State) (v : Bool) : (s.setInFrame v).ph = s.ph := rfl
@[simp] theorem setInFrame_coef (s : State) (v : Bool) : (s.setInFrame v).coef = s.coef := rfl
@[simp] theorem setInFrame_dirty (s : State) (v : Bool) : (s.setInFrame v).dirty = s.dirty := rfl
@[simp] theorem setInFrame_bq (s : State) (v : Bool) : (s.setInFrame v).bq = s.bq := rfl
@[simp] theorem setInFrame_io (s : State) (v : Bool) : (s.setInFrame v).io = s.io := rfl
@[simp] theorem setInFrame_issuer (s : State) (v : Bool) : (s.setInFrame v).issuer = s.issuer := rfl
@[simp] theorem setInFrame_passing (s : State) (v : Bool) : (s.setInFrame v).passing = s.passing := rfl
@[simp] theorem setInFrame_inFrame (s : State) (v : Bool) : (s.setInFrame v).inFrame = v := rfl
@[simp] theorem setInFrame_popped (s : State) (v : Bool) : (s.setInFrame v).popped = s.popped := rfl
@[simp] theorem setInFrame_tick (s : State) (v : Bool) : (s.setInFrame v).tick = s.tick := rfl

/-! `setPopped` -/

@[simp] theorem setPopped_seq (s : State) (v : List Word32) : (s.setPopped v).seq = s.seq := rfl
@[simp] theorem setPopped_sp (s : State) (v : List Word32) : (s.setPopped v).sp = s.sp := rfl
@[simp] theorem setPopped_cells (s : State) (v : List Word32) : (s.setPopped v).cells = s.cells := rfl
@[simp] theorem setPopped_cfg (s : State) (v : List Word32) : (s.setPopped v).cfg = s.cfg := rfl
@[simp] theorem setPopped_act (s : State) (v : List Word32) : (s.setPopped v).act = s.act := rfl
@[simp] theorem setPopped_status (s : State) (v : List Word32) : (s.setPopped v).status = s.status := rfl
@[simp] theorem setPopped_wc (s : State) (v : List Word32) : (s.setPopped v).wc = s.wc := rfl
@[simp] theorem setPopped_dram (s : State) (v : List Word32) : (s.setPopped v).dram = s.dram := rfl
@[simp] theorem setPopped_dc (s : State) (v : List Word32) : (s.setPopped v).dc = s.dc := rfl
@[simp] theorem setPopped_ph (s : State) (v : List Word32) : (s.setPopped v).ph = s.ph := rfl
@[simp] theorem setPopped_coef (s : State) (v : List Word32) : (s.setPopped v).coef = s.coef := rfl
@[simp] theorem setPopped_dirty (s : State) (v : List Word32) : (s.setPopped v).dirty = s.dirty := rfl
@[simp] theorem setPopped_bq (s : State) (v : List Word32) : (s.setPopped v).bq = s.bq := rfl
@[simp] theorem setPopped_io (s : State) (v : List Word32) : (s.setPopped v).io = s.io := rfl
@[simp] theorem setPopped_issuer (s : State) (v : List Word32) : (s.setPopped v).issuer = s.issuer := rfl
@[simp] theorem setPopped_passing (s : State) (v : List Word32) : (s.setPopped v).passing = s.passing := rfl
@[simp] theorem setPopped_inFrame (s : State) (v : List Word32) : (s.setPopped v).inFrame = s.inFrame := rfl
@[simp] theorem setPopped_popped (s : State) (v : List Word32) : (s.setPopped v).popped = v := rfl
@[simp] theorem setPopped_tick (s : State) (v : List Word32) : (s.setPopped v).tick = s.tick := rfl

/-! `setTick` -/

@[simp] theorem setTick_seq (s : State) (v : Nat) : (s.setTick v).seq = s.seq := rfl
@[simp] theorem setTick_sp (s : State) (v : Nat) : (s.setTick v).sp = s.sp := rfl
@[simp] theorem setTick_cells (s : State) (v : Nat) : (s.setTick v).cells = s.cells := rfl
@[simp] theorem setTick_cfg (s : State) (v : Nat) : (s.setTick v).cfg = s.cfg := rfl
@[simp] theorem setTick_act (s : State) (v : Nat) : (s.setTick v).act = s.act := rfl
@[simp] theorem setTick_status (s : State) (v : Nat) : (s.setTick v).status = s.status := rfl
@[simp] theorem setTick_wc (s : State) (v : Nat) : (s.setTick v).wc = s.wc := rfl
@[simp] theorem setTick_dram (s : State) (v : Nat) : (s.setTick v).dram = s.dram := rfl
@[simp] theorem setTick_dc (s : State) (v : Nat) : (s.setTick v).dc = s.dc := rfl
@[simp] theorem setTick_ph (s : State) (v : Nat) : (s.setTick v).ph = s.ph := rfl
@[simp] theorem setTick_coef (s : State) (v : Nat) : (s.setTick v).coef = s.coef := rfl
@[simp] theorem setTick_dirty (s : State) (v : Nat) : (s.setTick v).dirty = s.dirty := rfl
@[simp] theorem setTick_bq (s : State) (v : Nat) : (s.setTick v).bq = s.bq := rfl
@[simp] theorem setTick_io (s : State) (v : Nat) : (s.setTick v).io = s.io := rfl
@[simp] theorem setTick_issuer (s : State) (v : Nat) : (s.setTick v).issuer = s.issuer := rfl
@[simp] theorem setTick_passing (s : State) (v : Nat) : (s.setTick v).passing = s.passing := rfl
@[simp] theorem setTick_inFrame (s : State) (v : Nat) : (s.setTick v).inFrame = s.inFrame := rfl
@[simp] theorem setTick_popped (s : State) (v : Nat) : (s.setTick v).popped = s.popped := rfl
@[simp] theorem setTick_tick (s : State) (v : Nat) : (s.setTick v).tick = v := rfl

end Sys2Proof.Machine.State
end

