-- ==== Sys2Proof/Laws/Ramp.lean ====
section
/-! SUPPORT. What the ramp engine and the SETP path do to a register. -/

namespace Sys2Proof.Machine

/-- The entries of a vector of registers after one was written. -/
theorem Vector.get_set_sp (v : Vector Sp 26) (i j : SpIdx) (r : Sp) : (v.set i r)[j] = if j = i then r else v[j] := by
  simp only [Fin.getElem_fin, Vector.getElem_set, Fin.ext_iff]
  split_ifs <;> first | rfl | omega

theorem setReg_eq (s : State) (i : SpIdx) (r : Sp) : s.setReg i r = s.setSp (s.sp.set i r) := rfl

@[simp] theorem spTick_sp (s : State) (i : SpIdx) : (spTick s).sp[i] = advance s.act.rmode s.act.expAlpha s.sp[i] := by
  simp [spTick]

@[simp] theorem spSnap_sp (s : State) (i : SpIdx) : (spSnap s).sp[i] = snap s.sp[i] := by
  simp [spSnap]

theorem spTick_eq (s : State) : spTick s = s.setSp (spTick s).sp := rfl

theorem spSnap_eq (s : State) : spSnap s = s.setSp (spSnap s).sp := rfl

/-! ### `advance` -/

@[simp] theorem advance_tgt (m : BitVec 1) (α : F32) (r : Sp) : (advance m α r).tgt = r.tgt := by
  unfold advance; dsimp only; split_ifs <;> rfl

@[simp] theorem advance_step (m : BitVec 1) (α : F32) (r : Sp) : (advance m α r).step = r.step := by
  unfold advance; dsimp only; split_ifs <;> rfl

theorem advance_cnt (m : BitVec 1) (α : F32) (r : Sp) : (advance m α r).cnt.toNat = r.cnt.toNat - 1 := by
  by_cases h1 : r.cnt = 0#18
  · unfold advance; rw [if_pos h1, h1]; rfl
  · have h2 : (advance m α r).cnt = r.cnt - 1#18 := by
      unfold advance; rw [if_neg h1]; dsimp only; split_ifs <;> rfl
    have h3 : r.cnt.toNat ≠ 0 := fun e => h1 (BitVec.eq_of_toNat_eq (by simpa using e))
    have hlt := r.cnt.isLt
    rw [h2, BitVec.toNat_sub, BitVec.toNat_ofNat]
    omega

/-- An idle register stays as it is (rule R123). -/
theorem advance_idle (m : BitVec 1) (α : F32) {r : Sp} (h : r.cnt = 0#18) : advance m α r = r := if_pos h

/-- The last advance copies the target (rules R123, R124). -/
theorem advance_last (m : BitVec 1) (α : F32) {r : Sp} (h : r.cnt = 1#18) :
    advance m α r = { r with cur := r.tgt, cnt := 0#18 } := by
  unfold advance; rw [h]; rfl

/-! ### `retarget` -/

/-- All that `retarget` does (rule R122). -/
theorem retarget_cases (p : Bool) (n : BitVec 18) (v : F32) (r : Sp) :
    (feq v r.tgt = true ∧ retarget p n v r = r) ∨
    (feq v r.tgt = false ∧ (p = false ∨ n = 0#18) ∧ retarget p n v r = ⟨v, v, Config.zero, 0#18⟩) ∨
    (feq v r.tgt = false ∧ p = true ∧ n ≠ 0#18 ∧
      retarget p n v r = ⟨r.cur, v, fdiv (fsub v r.cur) (u2f n.toNat), n⟩) := by
  unfold retarget
  by_cases h : feq v r.tgt = true
  · exact .inl ⟨h, if_pos h⟩
  · have h' : feq v r.tgt = false := by simpa using h
    by_cases h2 : p = false ∨ n = 0#18
    · refine .inr (.inl ⟨h', h2, ?_⟩)
      rw [if_neg h, if_pos (by rcases h2 with h2 | h2 <;> simp [h2])]
    · rw [not_or, Bool.not_eq_false] at h2
      refine .inr (.inr ⟨h', h2.1, h2.2, ?_⟩)
      rw [if_neg h, if_neg (by simp [h2])]

/-! ### The SETP path -/

/-- All that `markDirty` does. -/
theorem markDirty_eq (i : SpIdx) (s : State) : ∃ d, markDirty i s = s.setDirty d := by
  unfold markDirty
  split
  · exact ⟨_, rfl⟩
  · exact ⟨s.dirty, rfl⟩

/-- All that `setCell` does: the cells change, and nothing else. -/
theorem setCell_eq (s : State) (pid : BitVec 8) (n : Nat) : ∃ c, setCell s pid n = s.setCells c := by
  unfold setCell
  split <;> exact ⟨_, rfl⟩

/-- All that `setSmoothed` does. -/
theorem setSmoothed_eq (i : SpIdx) (v : F32) (s : State) :
    ∃ d, setSmoothed i v s =
      (s.setSp (s.sp.set i (retarget s.status.prepared s.act.rampSamples
        (fclamp v (paramRange i).lo (paramRange i).hi) s.sp[i]))).setDirty d := by
  unfold setSmoothed
  exact markDirty_eq i _

/-- All that a SETP can touch: the registers, the cells and the dirty bits. -/
theorem setParameter_eq (pid : BitVec 8) (v : F32) (s : State) :
    ∃ r c d, setParameter pid v s = ((s.setSp r).setCells c).setDirty d := by
  unfold setParameter
  split
  · exact ⟨s.sp, s.cells, s.dirty, rfl⟩
  · split
    · next i _ =>
      obtain ⟨d, h⟩ := setSmoothed_eq i v s
      exact ⟨s.sp.set i _, s.cells, d, h⟩
    · obtain ⟨c, h⟩ := setCell_eq s pid (convert pid v); exact ⟨s.sp, c, s.dirty, h.trans rfl⟩

end Sys2Proof.Machine
end

