-- ==== Sys2Proof/Laws/Memory.lean ====
section
/-! SUPPORT. What the delay RAM's operations do (Machine/Ops.lean): a word reads as it was last written, every other word
as before, and every operation keeps the canonical form. -/

namespace Sys2Proof.Machine

theorem memLookup_eq_default_of_forall_lt {m : Memory} {a : Nat} (h : ∀ c ∈ m, a < c.1) : memLookup m a = dramDefault := by
  induction m with
  | nil => rfl
  | cons c rest ih =>
    obtain ⟨b, w⟩ := c
    have hb : a < b := h (b, w) (by simp)
    rw [memLookup, if_neg (by omega), ih fun c hc => h c (by simp [hc])]

/-- The canonical form of a non-empty memory. -/
theorem Memory.wf_cons {a : Nat} {v : Word32} {rest : Memory} :
    Memory.wf ((a, v) :: rest) = true ↔
      a < dramWords ∧ v ≠ dramDefault ∧ (∀ c ∈ rest, a < c.1) ∧ Memory.wf rest = true := by
  simp [Memory.wf, and_assoc]

/-- A stored word reads as it was written. -/
theorem memLookup_memStore_self {m : Memory} (h : Memory.wf m = true) (a : Nat) (v : Word32) :
    memLookup (memStore m a v) a = v := by
  induction m with
  | nil => by_cases hv : v = dramDefault <;> simp [memStore, memLookup, hv]
  | cons c rest ih =>
    obtain ⟨b, w⟩ := c
    obtain ⟨-, -, hr, hw⟩ := Memory.wf_cons.mp h
    simp only [memStore]
    by_cases h1 : a < b
    · have hd : memLookup ((b, w) :: rest) a = dramDefault :=
        memLookup_eq_default_of_forall_lt (by simp only [List.forall_mem_cons]; exact ⟨h1, fun c hc => by have := hr c hc; omega⟩)
      by_cases hv : v = dramDefault
      · simp only [h1, hv, if_true]; exact hd
      · simp [h1, hv, memLookup]
    · by_cases h2 : a = b
      · subst h2
        have hd : memLookup rest a = dramDefault := memLookup_eq_default_of_forall_lt hr
        by_cases hv : v = dramDefault
        · simp [hv, hd]
        · simp [hv, memLookup]
      · simp [h1, h2, memLookup, ih hw]

/-- A store leaves every other word as it was. -/
theorem memLookup_memStore_of_ne (m : Memory) {a b : Nat} (v : Word32) (h : b ≠ a) :
    memLookup (memStore m a v) b = memLookup m b := by
  induction m with
  | nil => by_cases hv : v = dramDefault <;> simp [memStore, memLookup, hv, h]
  | cons c rest ih =>
    obtain ⟨d, w⟩ := c
    simp only [memStore]
    by_cases h1 : a < d
    · by_cases hv : v = dramDefault <;> simp [h1, hv, memLookup, h]
    · by_cases h2 : a = d
      · subst h2
        by_cases hv : v = dramDefault <;> simp [hv, memLookup, h]
      · simp [h1, h2, memLookup, ih]

theorem mem_memStore {m : Memory} {a : Nat} {v : Word32} {c : Nat × Word32} (h : c ∈ memStore m a v) :
    c = (a, v) ∨ c ∈ m := by
  induction m with
  | nil =>
    by_cases hv : v = dramDefault <;> simp [memStore, hv] at h
    exact .inl h
  | cons d rest ih =>
    obtain ⟨b, w⟩ := d
    simp only [memStore] at h
    split at h
    · split at h
      · exact .inr h
      · simpa using h
    · split at h
      · split at h
        · exact .inr (by simp [h])
        · rcases List.mem_cons.mp h with h | h
          · exact .inl h
          · exact .inr (by simp [h])
      · rcases List.mem_cons.mp h with h | h
        · exact .inr (by simp [h])
        · rcases ih h with h | h
          · exact .inl h
          · exact .inr (by simp [h])

/-- A store at an address of the delay RAM keeps the canonical form. -/
theorem wf_memStore {m : Memory} (h : Memory.wf m = true) {a : Nat} (ha : a < dramWords) (v : Word32) :
    Memory.wf (memStore m a v) = true := by
  induction m with
  | nil =>
    by_cases hv : v = dramDefault
    · simp [memStore, hv, Memory.wf]
    · simp [memStore, hv, Memory.wf, ha]
  | cons c rest ih =>
    obtain ⟨b, w⟩ := c
    obtain ⟨hb, hw, hr, hwf⟩ := Memory.wf_cons.mp h
    simp only [memStore]
    by_cases h1 : a < b
    · by_cases hv : v = dramDefault
      · simp only [h1, hv, if_true]; exact h
      · simp only [h1, hv, if_true, if_false]
        refine Memory.wf_cons.mpr ⟨ha, hv, ?_, h⟩
        simp only [List.forall_mem_cons]
        exact ⟨h1, fun c hc => by have := hr c hc; omega⟩
    · by_cases h2 : a = b
      · subst h2
        by_cases hv : v = dramDefault
        · simp [hv, hwf]
        · simp only [lt_irrefl, hv, if_false, if_true]
          exact Memory.wf_cons.mpr ⟨ha, hv, hr, hwf⟩
      · simp only [h1, h2, if_false]
        refine Memory.wf_cons.mpr ⟨hb, hw, fun c hc => ?_, ih hwf⟩
        rcases mem_memStore hc with rfl | hc
        · omega
        · exact hr c hc

theorem memLookup_memClearBelow (m : Memory) (n a : Nat) :
    memLookup (memClearBelow m n) a = if a < n then dramDefault else memLookup m a := by
  induction m with
  | nil => simp [memClearBelow, memLookup]
  | cons c rest ih =>
    obtain ⟨b, w⟩ := c
    simp only [memClearBelow] at ih ⊢
    by_cases hb : n ≤ b
    · rw [List.filter_cons_of_pos (by simpa using hb)]
      simp only [memLookup, ih]
      split_ifs <;> first | rfl | omega
    · rw [List.filter_cons_of_neg (by simpa using hb), ih]
      simp only [memLookup]
      split_ifs <;> first | rfl | omega

/-- Clearing keeps the canonical form. -/
theorem wf_memClearBelow {m : Memory} (h : Memory.wf m = true) (n : Nat) : Memory.wf (memClearBelow m n) = true := by
  induction m with
  | nil => rfl
  | cons c rest ih =>
    obtain ⟨b, w⟩ := c
    obtain ⟨hb, hw, hr, hwf⟩ := Memory.wf_cons.mp h
    have ih := ih hwf
    simp only [memClearBelow] at ih ⊢
    by_cases hn : n ≤ b
    · rw [List.filter_cons_of_pos (by simpa using hn)]
      exact Memory.wf_cons.mpr ⟨hb, hw, fun c hc => hr c (List.mem_filter.mp hc).1, ih⟩
    · rwa [List.filter_cons_of_neg (by simpa using hn)]

/-- The empty memory of `State.reset` has the canonical form. -/
theorem wf_reset_dram : Memory.wf State.reset.dram = true := rfl

/-- All that `memRead` does. -/
theorem memRead_of_lt {s : State} {a : Nat} (h : a < dramWords) : memRead s a = .ok (memLookup s.dram a) := if_pos h

/-- All that `memWrite` does: if it answers `s'`, the address exists, and `s'` is `s` with the word stored. -/
theorem memWrite_ok {s s' : State} {a : Nat} {v : Word32} (h : memWrite s a v = .ok s') :
    a < dramWords ∧ s' = s.setDram (memStore s.dram a v) := by
  unfold memWrite at h
  split at h
  · next hlt => cases h; exact ⟨hlt, rfl⟩
  · cases h

theorem memWrite_of_lt {s : State} {a : Nat} {v : Word32} (h : a < dramWords) :
    memWrite s a v = .ok (s.setDram (memStore s.dram a v)) := if_pos h

end Sys2Proof.Machine
end

