-- ==== Sys2Proof/Laws/Ring.lean ====
section
/-! SUPPORT. What the ring-buffer address generator does in a state whose ring is in order (`RingOk`). -/

namespace Sys2Proof.Machine

/-- Reading a vector of two entries after one was written. -/
theorem Vector.get_set_two {α : Type} (v : Vector α 2) (c d : Fin 2) (x : α) :
    (v.set c x)[d] = if d = c then x else v[d] := by
  simp only [Fin.getElem_fin, Vector.getElem_set, Fin.ext_iff]
  split_ifs <;> first | rfl | omega

@[simp] theorem setCursor_wc (s : State) (c : Fin 2) (v : BitVec 19) : (s.setCursor c v).wc = s.wc.set c v := rfl

/-- All that `rbAdvance` does: the cursor of its channel, and nothing else, changes. -/
theorem rbAdvance_eq (c : Fin 2) (s : State) : ∃ v, rbAdvance c s = s.setWc (s.wc.set c v) := by
  unfold rbAdvance
  dsimp only
  split
  · exact ⟨_, rfl⟩
  · exact ⟨_, rfl⟩

/-- The advanced cursor: one further, and 0 at the end (the comparison of rule R144). -/
theorem rbAdvance_cursor {c : Fin 2} {s : State} (h : s.wc[c].toNat < s.act.cap.toNat) :
    (rbAdvance c s).wc[c].toNat = if s.wc[c].toNat + 1 = s.act.cap.toNat then 0 else s.wc[c].toNat + 1 := by
  have hc := s.act.cap.isLt
  have hw := s.wc[c].isLt
  have key : (s.wc[c].setWidth 20 + 1#20 = s.act.cap.setWidth 20) ↔ s.wc[c].toNat + 1 = s.act.cap.toNat := by
    rw [← BitVec.toNat_inj]
    simp only [BitVec.toNat_add, BitVec.toNat_setWidth, BitVec.toNat_ofNat]
    omega
  unfold rbAdvance
  dsimp only
  by_cases h1 : s.wc[c].toNat + 1 = s.act.cap.toNat
  · rw [if_pos (key.mpr h1), if_pos h1, setCursor_wc, Vector.get_set_two, if_pos rfl]; rfl
  · rw [if_neg (fun e => h1 (key.mp e)), if_neg h1, setCursor_wc, Vector.get_set_two, if_pos rfl]
    simp only [BitVec.extractLsb'_toNat, BitVec.toNat_add, BitVec.toNat_setWidth, BitVec.toNat_ofNat, Nat.shiftRight_zero]
    omega

/-- The other channel's cursor stays. -/
theorem rbAdvance_other {c d : Fin 2} {s : State} (h : d ≠ c) : (rbAdvance c s).wc[d] = s.wc[d] := by
  obtain ⟨v, hv⟩ := rbAdvance_eq c s
  rw [hv, State.setWc_wc, Vector.get_set_two, if_neg h]

/-- A ring in order has its regions inside the delay RAM (rule R61). -/
theorem RingOk.region_lt {s : State} (h : RingOk s) {c : Fin 2} (hc : c.val < s.act.nch.toNat) {i : Nat}
    (hi : i < s.act.cap.toNat) : c.val * s.act.cap.toNat + i < rbWords s ∧ rbWords s ≤ dramWords := by
  constructor
  · unfold rbWords
    calc c.val * s.act.cap.toNat + i < c.val * s.act.cap.toNat + s.act.cap.toNat := by omega
      _ = (c.val + 1) * s.act.cap.toNat := by ring
      _ ≤ s.act.nch.toNat * s.act.cap.toNat := Nat.mul_le_mul_right _ hc
  · unfold rbWords dramWords
    exact Nat.mul_le_mul h.nch_le h.cap_le

/-- The write address lies in the channel's region (rule R66). -/
theorem RingOk.waddr_lt {s : State} (h : RingOk s) {c : Fin 2} (hc : c.val < s.act.nch.toNat) : rbWaddr c s < dramWords :=
  lt_of_lt_of_le (h.region_lt hc (h.cursor c)).1 (h.region_lt hc (h.cursor c)).2

/-- The ring index of a clamped offset lies below the capacity (rule R146). -/
theorem RingOk.index_lt {s : State} (h : RingOk s) (c : Fin 2) (k : Nat) :
    rbIndex c (rbClamp k s) s < s.act.cap.toNat := by
  have h1 := h.cursor c
  have h2 := h.cap_pos
  unfold rbIndex rbClamp
  dsimp only
  split <;> omega

/-- The read address of a clamped offset lies in the channel's region (rule R66). -/
theorem RingOk.raddr_lt {s : State} (h : RingOk s) {c : Fin 2} (hc : c.val < s.act.nch.toNat) (k : Nat) :
    rbRaddr c (rbClamp k s) s < dramWords :=
  lt_of_lt_of_le (h.region_lt hc (h.index_lt c k)).1 (h.region_lt hc (h.index_lt c k)).2

/-- A clamped offset below the capacity is the offset. -/
theorem rbClamp_of_lt {k : Nat} {s : State} (h : k < s.act.cap.toNat) : rbClamp k s = k := by unfold rbClamp; omega

/-- All that `rbWrite` does: the word at the write address, and the channel's cursor. -/
theorem rbWrite_ok {c : Fin 2} {v : F32} {s t : State} (h : rbWrite c v s = .ok t) :
    rbWaddr c s < dramWords ∧ t = rbAdvance c (s.setDram (memStore s.dram (rbWaddr c s) v)) := by
  unfold rbWrite at h
  split at h
  · cases h
  · next s' hs =>
    obtain ⟨hlt, rfl⟩ := memWrite_ok hs
    cases h
    exact ⟨hlt, rfl⟩

theorem rbWrite_of_ringOk {s : State} (h : RingOk s) {c : Fin 2} (hc : c.val < s.act.nch.toNat) (v : F32) :
    rbWrite c v s = .ok (rbAdvance c (s.setDram (memStore s.dram (rbWaddr c s) v))) := by
  unfold rbWrite
  rw [memWrite_of_lt (h.waddr_lt hc)]

theorem rbRead_of_ringOk {s : State} (h : RingOk s) {c : Fin 2} (hc : c.val < s.act.nch.toNat) (k : Nat) :
    rbRead c k s = .ok (memLookup s.dram (rbRaddr c (rbClamp k s) s)) := memRead_of_lt (h.raddr_lt hc k)

/-- All that `rbClear` does: the addressed words and the cursors become zero. -/
theorem rbClear_eq (s : State) :
    rbClear s = (s.setDram (memClearBelow s.dram (rbWords s))).setWc #v[0#19, 0#19] := rfl

theorem RingOk.setDram {s : State} (h : RingOk s) (m : Memory) : RingOk (s.setDram m) :=
  ⟨h.nch_pos, h.nch_le, h.cap_pos, h.cap_le, h.cursor, h.unused⟩

/-- Advancing the cursor of a channel in use keeps the ring in order (rule R144). -/
theorem RingOk.advance {s : State} (h : RingOk s) {c : Fin 2} (hc : c.val < s.act.nch.toNat) : RingOk (rbAdvance c s) := by
  have hadv := rbAdvance_cursor (h.cursor c)
  obtain ⟨v, hv⟩ := rbAdvance_eq c s
  have hact : (rbAdvance c s).act = s.act := by rw [hv, State.setWc_act]
  refine ⟨by rw [hact]; exact h.nch_pos, by rw [hact]; exact h.nch_le, by rw [hact]; exact h.cap_pos,
    by rw [hact]; exact h.cap_le, fun d => ?_, fun d hd => ?_⟩
  · by_cases hdc : d = c
    · subst hdc
      have := h.cursor d
      rw [hact, hadv]; split <;> omega
    · rw [hact, rbAdvance_other hdc]; exact h.cursor d
  · rw [hact] at hd
    have hdc : d ≠ c := fun e => by subst e; omega
    rw [rbAdvance_other hdc]; exact h.unused d hd

/-- A write keeps the ring in order. -/
theorem RingOk.write {s t : State} (h : RingOk s) {c : Fin 2} (hc : c.val < s.act.nch.toNat) {v : F32}
    (hw : rbWrite c v s = .ok t) : RingOk t := by
  obtain ⟨-, rfl⟩ := rbWrite_ok hw
  exact (h.setDram _).advance hc

end Sys2Proof.Machine
end

