-- ==== Sys2Proof/Laws/Updates.lean ====
section
/-! SUPPORT. What the shared operations over the whole state leave alone, one lemma per field. -/

namespace Sys2Proof.Machine

/-! `spTick` -/

@[simp] theorem spTick_seq (s : State) : (spTick s).seq = s.seq := by simp [spTick]
@[simp] theorem spTick_cells (s : State) : (spTick s).cells = s.cells := by simp [spTick]
@[simp] theorem spTick_cfg (s : State) : (spTick s).cfg = s.cfg := by simp [spTick]
@[simp] theorem spTick_act (s : State) : (spTick s).act = s.act := by simp [spTick]
@[simp] theorem spTick_status (s : State) : (spTick s).status = s.status := by simp [spTick]
@[simp] theorem spTick_wc (s : State) : (spTick s).wc = s.wc := by simp [spTick]
@[simp] theorem spTick_dram (s : State) : (spTick s).dram = s.dram := by simp [spTick]
@[simp] theorem spTick_dc (s : State) : (spTick s).dc = s.dc := by simp [spTick]
@[simp] theorem spTick_ph (s : State) : (spTick s).ph = s.ph := by simp [spTick]
@[simp] theorem spTick_coef (s : State) : (spTick s).coef = s.coef := by simp [spTick]
@[simp] theorem spTick_dirty (s : State) : (spTick s).dirty = s.dirty := by simp [spTick]
@[simp] theorem spTick_bq (s : State) : (spTick s).bq = s.bq := by simp [spTick]
@[simp] theorem spTick_io (s : State) : (spTick s).io = s.io := by simp [spTick]
@[simp] theorem spTick_issuer (s : State) : (spTick s).issuer = s.issuer := by simp [spTick]
@[simp] theorem spTick_passing (s : State) : (spTick s).passing = s.passing := by simp [spTick]
@[simp] theorem spTick_inFrame (s : State) : (spTick s).inFrame = s.inFrame := by simp [spTick]
@[simp] theorem spTick_popped (s : State) : (spTick s).popped = s.popped := by simp [spTick]
@[simp] theorem spTick_tick (s : State) : (spTick s).tick = s.tick := by simp [spTick]

/-! `spSnap` -/

@[simp] theorem spSnap_seq (s : State) : (spSnap s).seq = s.seq := by simp [spSnap]
@[simp] theorem spSnap_cells (s : State) : (spSnap s).cells = s.cells := by simp [spSnap]
@[simp] theorem spSnap_cfg (s : State) : (spSnap s).cfg = s.cfg := by simp [spSnap]
@[simp] theorem spSnap_act (s : State) : (spSnap s).act = s.act := by simp [spSnap]
@[simp] theorem spSnap_status (s : State) : (spSnap s).status = s.status := by simp [spSnap]
@[simp] theorem spSnap_wc (s : State) : (spSnap s).wc = s.wc := by simp [spSnap]
@[simp] theorem spSnap_dram (s : State) : (spSnap s).dram = s.dram := by simp [spSnap]
@[simp] theorem spSnap_dc (s : State) : (spSnap s).dc = s.dc := by simp [spSnap]
@[simp] theorem spSnap_ph (s : State) : (spSnap s).ph = s.ph := by simp [spSnap]
@[simp] theorem spSnap_coef (s : State) : (spSnap s).coef = s.coef := by simp [spSnap]
@[simp] theorem spSnap_dirty (s : State) : (spSnap s).dirty = s.dirty := by simp [spSnap]
@[simp] theorem spSnap_bq (s : State) : (spSnap s).bq = s.bq := by simp [spSnap]
@[simp] theorem spSnap_io (s : State) : (spSnap s).io = s.io := by simp [spSnap]
@[simp] theorem spSnap_issuer (s : State) : (spSnap s).issuer = s.issuer := by simp [spSnap]
@[simp] theorem spSnap_passing (s : State) : (spSnap s).passing = s.passing := by simp [spSnap]
@[simp] theorem spSnap_inFrame (s : State) : (spSnap s).inFrame = s.inFrame := by simp [spSnap]
@[simp] theorem spSnap_popped (s : State) : (spSnap s).popped = s.popped := by simp [spSnap]
@[simp] theorem spSnap_tick (s : State) : (spSnap s).tick = s.tick := by simp [spSnap]

/-! `popFrame` -/

@[simp] theorem popFrame_seq (s : State) : s.popFrame.seq = s.seq := rfl
@[simp] theorem popFrame_sp (s : State) : s.popFrame.sp = s.sp := rfl
@[simp] theorem popFrame_cells (s : State) : s.popFrame.cells = s.cells := rfl
@[simp] theorem popFrame_cfg (s : State) : s.popFrame.cfg = s.cfg := rfl
@[simp] theorem popFrame_act (s : State) : s.popFrame.act = s.act := rfl
@[simp] theorem popFrame_status (s : State) : s.popFrame.status = s.status := rfl
@[simp] theorem popFrame_wc (s : State) : s.popFrame.wc = s.wc := rfl
@[simp] theorem popFrame_dram (s : State) : s.popFrame.dram = s.dram := rfl
@[simp] theorem popFrame_dc (s : State) : s.popFrame.dc = s.dc := rfl
@[simp] theorem popFrame_ph (s : State) : s.popFrame.ph = s.ph := rfl
@[simp] theorem popFrame_coef (s : State) : s.popFrame.coef = s.coef := rfl
@[simp] theorem popFrame_dirty (s : State) : s.popFrame.dirty = s.dirty := rfl
@[simp] theorem popFrame_bq (s : State) : s.popFrame.bq = s.bq := rfl
@[simp] theorem popFrame_issuer (s : State) : s.popFrame.issuer = s.issuer := rfl
@[simp] theorem popFrame_passing (s : State) : s.popFrame.passing = s.passing := rfl
@[simp] theorem popFrame_inFrame (s : State) : s.popFrame.inFrame = s.inFrame := rfl
@[simp] theorem popFrame_tick (s : State) : s.popFrame.tick = s.tick := rfl
@[simp] theorem popFrame_popped (s : State) : s.popFrame.popped = [] := rfl
@[simp] theorem popFrame_io (s : State) :
    s.popFrame.io = { s.io with ain := (s.popped ++ s.io.ain).drop s.frameWords } := rfl

/-! `popAvailable` -/

@[simp] theorem popAvailable_seq (s : State) : s.popAvailable.seq = s.seq := rfl
@[simp] theorem popAvailable_sp (s : State) : s.popAvailable.sp = s.sp := rfl
@[simp] theorem popAvailable_cells (s : State) : s.popAvailable.cells = s.cells := rfl
@[simp] theorem popAvailable_cfg (s : State) : s.popAvailable.cfg = s.cfg := rfl
@[simp] theorem popAvailable_act (s : State) : s.popAvailable.act = s.act := rfl
@[simp] theorem popAvailable_status (s : State) : s.popAvailable.status = s.status := rfl
@[simp] theorem popAvailable_wc (s : State) : s.popAvailable.wc = s.wc := rfl
@[simp] theorem popAvailable_dram (s : State) : s.popAvailable.dram = s.dram := rfl
@[simp] theorem popAvailable_dc (s : State) : s.popAvailable.dc = s.dc := rfl
@[simp] theorem popAvailable_ph (s : State) : s.popAvailable.ph = s.ph := rfl
@[simp] theorem popAvailable_coef (s : State) : s.popAvailable.coef = s.coef := rfl
@[simp] theorem popAvailable_dirty (s : State) : s.popAvailable.dirty = s.dirty := rfl
@[simp] theorem popAvailable_bq (s : State) : s.popAvailable.bq = s.bq := rfl
@[simp] theorem popAvailable_issuer (s : State) : s.popAvailable.issuer = s.issuer := rfl
@[simp] theorem popAvailable_passing (s : State) : s.popAvailable.passing = s.passing := rfl
@[simp] theorem popAvailable_inFrame (s : State) : s.popAvailable.inFrame = s.inFrame := rfl
@[simp] theorem popAvailable_tick (s : State) : s.popAvailable.tick = s.tick := rfl
@[simp] theorem popAvailable_popped (s : State) : s.popAvailable.popped = s.popped ++ s.io.ain := rfl
@[simp] theorem popAvailable_io (s : State) : s.popAvailable.io = { s.io with ain := [] } := rfl

/-! `pushOutput` -/

@[simp] theorem pushOutput_seq (s : State) (ws : List Word32) : (s.pushOutput ws).seq = s.seq := rfl
@[simp] theorem pushOutput_sp (s : State) (ws : List Word32) : (s.pushOutput ws).sp = s.sp := rfl
@[simp] theorem pushOutput_cells (s : State) (ws : List Word32) : (s.pushOutput ws).cells = s.cells := rfl
@[simp] theorem pushOutput_cfg (s : State) (ws : List Word32) : (s.pushOutput ws).cfg = s.cfg := rfl
@[simp] theorem pushOutput_act (s : State) (ws : List Word32) : (s.pushOutput ws).act = s.act := rfl
@[simp] theorem pushOutput_status (s : State) (ws : List Word32) : (s.pushOutput ws).status = s.status := rfl
@[simp] theorem pushOutput_wc (s : State) (ws : List Word32) : (s.pushOutput ws).wc = s.wc := rfl
@[simp] theorem pushOutput_dram (s : State) (ws : List Word32) : (s.pushOutput ws).dram = s.dram := rfl
@[simp] theorem pushOutput_dc (s : State) (ws : List Word32) : (s.pushOutput ws).dc = s.dc := rfl
@[simp] theorem pushOutput_ph (s : State) (ws : List Word32) : (s.pushOutput ws).ph = s.ph := rfl
@[simp] theorem pushOutput_coef (s : State) (ws : List Word32) : (s.pushOutput ws).coef = s.coef := rfl
@[simp] theorem pushOutput_dirty (s : State) (ws : List Word32) : (s.pushOutput ws).dirty = s.dirty := rfl
@[simp] theorem pushOutput_bq (s : State) (ws : List Word32) : (s.pushOutput ws).bq = s.bq := rfl
@[simp] theorem pushOutput_issuer (s : State) (ws : List Word32) : (s.pushOutput ws).issuer = s.issuer := rfl
@[simp] theorem pushOutput_passing (s : State) (ws : List Word32) : (s.pushOutput ws).passing = s.passing := rfl
@[simp] theorem pushOutput_inFrame (s : State) (ws : List Word32) : (s.pushOutput ws).inFrame = s.inFrame := rfl
@[simp] theorem pushOutput_popped (s : State) (ws : List Word32) : (s.pushOutput ws).popped = s.popped := rfl
@[simp] theorem pushOutput_tick (s : State) (ws : List Word32) : (s.pushOutput ws).tick = s.tick := rfl

/-! `rbClear` -/

@[simp] theorem rbClear_seq (s : State) : (rbClear s).seq = s.seq := rfl
@[simp] theorem rbClear_sp (s : State) : (rbClear s).sp = s.sp := rfl
@[simp] theorem rbClear_cells (s : State) : (rbClear s).cells = s.cells := rfl
@[simp] theorem rbClear_cfg (s : State) : (rbClear s).cfg = s.cfg := rfl
@[simp] theorem rbClear_act (s : State) : (rbClear s).act = s.act := rfl
@[simp] theorem rbClear_status (s : State) : (rbClear s).status = s.status := rfl
@[simp] theorem rbClear_dc (s : State) : (rbClear s).dc = s.dc := rfl
@[simp] theorem rbClear_ph (s : State) : (rbClear s).ph = s.ph := rfl
@[simp] theorem rbClear_coef (s : State) : (rbClear s).coef = s.coef := rfl
@[simp] theorem rbClear_dirty (s : State) : (rbClear s).dirty = s.dirty := rfl
@[simp] theorem rbClear_bq (s : State) : (rbClear s).bq = s.bq := rfl
@[simp] theorem rbClear_io (s : State) : (rbClear s).io = s.io := rfl
@[simp] theorem rbClear_issuer (s : State) : (rbClear s).issuer = s.issuer := rfl
@[simp] theorem rbClear_passing (s : State) : (rbClear s).passing = s.passing := rfl
@[simp] theorem rbClear_inFrame (s : State) : (rbClear s).inFrame = s.inFrame := rfl
@[simp] theorem rbClear_popped (s : State) : (rbClear s).popped = s.popped := rfl
@[simp] theorem rbClear_tick (s : State) : (rbClear s).tick = s.tick := rfl

/-! `clearUnits` -/

@[simp] theorem clearUnits_seq (s : State) : (clearUnits s).seq = s.seq := rfl
@[simp] theorem clearUnits_sp (s : State) : (clearUnits s).sp = s.sp := rfl
@[simp] theorem clearUnits_cells (s : State) : (clearUnits s).cells = s.cells := rfl
@[simp] theorem clearUnits_cfg (s : State) : (clearUnits s).cfg = s.cfg := rfl
@[simp] theorem clearUnits_act (s : State) : (clearUnits s).act = s.act := rfl
@[simp] theorem clearUnits_status (s : State) : (clearUnits s).status = s.status := rfl
@[simp] theorem clearUnits_wc (s : State) : (clearUnits s).wc = s.wc := rfl
@[simp] theorem clearUnits_dram (s : State) : (clearUnits s).dram = s.dram := rfl
@[simp] theorem clearUnits_coef (s : State) : (clearUnits s).coef = s.coef := rfl
@[simp] theorem clearUnits_io (s : State) : (clearUnits s).io = s.io := rfl
@[simp] theorem clearUnits_issuer (s : State) : (clearUnits s).issuer = s.issuer := rfl
@[simp] theorem clearUnits_passing (s : State) : (clearUnits s).passing = s.passing := rfl
@[simp] theorem clearUnits_inFrame (s : State) : (clearUnits s).inFrame = s.inFrame := rfl
@[simp] theorem clearUnits_popped (s : State) : (clearUnits s).popped = s.popped := rfl
@[simp] theorem clearUnits_tick (s : State) : (clearUnits s).tick = s.tick := rfl

/-! `blockStart` -/

@[simp] theorem blockStart_seq (s : State) : (blockStart s).seq = s.seq := rfl
@[simp] theorem blockStart_sp (s : State) : (blockStart s).sp = s.sp := rfl
@[simp] theorem blockStart_cells (s : State) : (blockStart s).cells = s.cells := rfl
@[simp] theorem blockStart_cfg (s : State) : (blockStart s).cfg = s.cfg := rfl
@[simp] theorem blockStart_act (s : State) : (blockStart s).act = s.act := rfl
@[simp] theorem blockStart_status (s : State) : (blockStart s).status = s.status := rfl
@[simp] theorem blockStart_wc (s : State) : (blockStart s).wc = s.wc := rfl
@[simp] theorem blockStart_dram (s : State) : (blockStart s).dram = s.dram := rfl
@[simp] theorem blockStart_dc (s : State) : (blockStart s).dc = s.dc := rfl
@[simp] theorem blockStart_ph (s : State) : (blockStart s).ph = s.ph := rfl
@[simp] theorem blockStart_bq (s : State) : (blockStart s).bq = s.bq := rfl
@[simp] theorem blockStart_io (s : State) : (blockStart s).io = s.io := rfl
@[simp] theorem blockStart_issuer (s : State) : (blockStart s).issuer = s.issuer := rfl
@[simp] theorem blockStart_passing (s : State) : (blockStart s).passing = s.passing := rfl
@[simp] theorem blockStart_inFrame (s : State) : (blockStart s).inFrame = s.inFrame := rfl
@[simp] theorem blockStart_popped (s : State) : (blockStart s).popped = s.popped := rfl
@[simp] theorem blockStart_tick (s : State) : (blockStart s).tick = s.tick := rfl

/-! `lfoAdvance` -/

@[simp] theorem lfoAdvance_seq (s : State) : (lfoAdvance s).seq = s.seq := rfl
@[simp] theorem lfoAdvance_sp (s : State) : (lfoAdvance s).sp = s.sp := rfl
@[simp] theorem lfoAdvance_cells (s : State) : (lfoAdvance s).cells = s.cells := rfl
@[simp] theorem lfoAdvance_cfg (s : State) : (lfoAdvance s).cfg = s.cfg := rfl
@[simp] theorem lfoAdvance_act (s : State) : (lfoAdvance s).act = s.act := rfl
@[simp] theorem lfoAdvance_status (s : State) : (lfoAdvance s).status = s.status := rfl
@[simp] theorem lfoAdvance_wc (s : State) : (lfoAdvance s).wc = s.wc := rfl
@[simp] theorem lfoAdvance_dram (s : State) : (lfoAdvance s).dram = s.dram := rfl
@[simp] theorem lfoAdvance_dc (s : State) : (lfoAdvance s).dc = s.dc := rfl
@[simp] theorem lfoAdvance_coef (s : State) : (lfoAdvance s).coef = s.coef := rfl
@[simp] theorem lfoAdvance_dirty (s : State) : (lfoAdvance s).dirty = s.dirty := rfl
@[simp] theorem lfoAdvance_bq (s : State) : (lfoAdvance s).bq = s.bq := rfl
@[simp] theorem lfoAdvance_io (s : State) : (lfoAdvance s).io = s.io := rfl
@[simp] theorem lfoAdvance_issuer (s : State) : (lfoAdvance s).issuer = s.issuer := rfl
@[simp] theorem lfoAdvance_passing (s : State) : (lfoAdvance s).passing = s.passing := rfl
@[simp] theorem lfoAdvance_inFrame (s : State) : (lfoAdvance s).inFrame = s.inFrame := rfl
@[simp] theorem lfoAdvance_popped (s : State) : (lfoAdvance s).popped = s.popped := rfl
@[simp] theorem lfoAdvance_tick (s : State) : (lfoAdvance s).tick = s.tick := rfl

/-! `setPrepared` -/

@[simp] theorem setPrepared_seq (s : State) (b : Bool) : (s.setPrepared b).seq = s.seq := rfl
@[simp] theorem setPrepared_sp (s : State) (b : Bool) : (s.setPrepared b).sp = s.sp := rfl
@[simp] theorem setPrepared_cells (s : State) (b : Bool) : (s.setPrepared b).cells = s.cells := rfl
@[simp] theorem setPrepared_cfg (s : State) (b : Bool) : (s.setPrepared b).cfg = s.cfg := rfl
@[simp] theorem setPrepared_act (s : State) (b : Bool) : (s.setPrepared b).act = s.act := rfl
@[simp] theorem setPrepared_wc (s : State) (b : Bool) : (s.setPrepared b).wc = s.wc := rfl
@[simp] theorem setPrepared_dram (s : State) (b : Bool) : (s.setPrepared b).dram = s.dram := rfl
@[simp] theorem setPrepared_dc (s : State) (b : Bool) : (s.setPrepared b).dc = s.dc := rfl
@[simp] theorem setPrepared_ph (s : State) (b : Bool) : (s.setPrepared b).ph = s.ph := rfl
@[simp] theorem setPrepared_coef (s : State) (b : Bool) : (s.setPrepared b).coef = s.coef := rfl
@[simp] theorem setPrepared_dirty (s : State) (b : Bool) : (s.setPrepared b).dirty = s.dirty := rfl
@[simp] theorem setPrepared_bq (s : State) (b : Bool) : (s.setPrepared b).bq = s.bq := rfl
@[simp] theorem setPrepared_io (s : State) (b : Bool) : (s.setPrepared b).io = s.io := rfl
@[simp] theorem setPrepared_issuer (s : State) (b : Bool) : (s.setPrepared b).issuer = s.issuer := rfl
@[simp] theorem setPrepared_passing (s : State) (b : Bool) : (s.setPrepared b).passing = s.passing := rfl
@[simp] theorem setPrepared_inFrame (s : State) (b : Bool) : (s.setPrepared b).inFrame = s.inFrame := rfl
@[simp] theorem setPrepared_popped (s : State) (b : Bool) : (s.setPrepared b).popped = s.popped := rfl
@[simp] theorem setPrepared_tick (s : State) (b : Bool) : (s.setPrepared b).tick = s.tick := rfl

/-! `endBlock` -/

@[simp] theorem endBlock_sp (s : State) : (endBlock s).sp = s.sp := rfl
@[simp] theorem endBlock_cells (s : State) : (endBlock s).cells = s.cells := rfl
@[simp] theorem endBlock_cfg (s : State) : (endBlock s).cfg = s.cfg := rfl
@[simp] theorem endBlock_act (s : State) : (endBlock s).act = s.act := rfl
@[simp] theorem endBlock_status (s : State) : (endBlock s).status = s.status := rfl
@[simp] theorem endBlock_wc (s : State) : (endBlock s).wc = s.wc := rfl
@[simp] theorem endBlock_dram (s : State) : (endBlock s).dram = s.dram := rfl
@[simp] theorem endBlock_dc (s : State) : (endBlock s).dc = s.dc := rfl
@[simp] theorem endBlock_ph (s : State) : (endBlock s).ph = s.ph := rfl
@[simp] theorem endBlock_coef (s : State) : (endBlock s).coef = s.coef := rfl
@[simp] theorem endBlock_dirty (s : State) : (endBlock s).dirty = s.dirty := rfl
@[simp] theorem endBlock_bq (s : State) : (endBlock s).bq = s.bq := rfl
@[simp] theorem endBlock_io (s : State) : (endBlock s).io = s.io := rfl
@[simp] theorem endBlock_issuer (s : State) : (endBlock s).issuer = s.issuer := rfl
@[simp] theorem endBlock_tick (s : State) : (endBlock s).tick = s.tick := rfl

end Sys2Proof.Machine
end

