-- ==== Sys2Proof/Laws/Chain.lean ====
section
/-! SUPPORT. What the stages of a frame, and a whole frame step, can change. -/

namespace Sys2Proof.Machine

/-! ### Going over the channels -/

/-- What one channel's treatment keeps, a stage over all channels keeps. -/
theorem eachChannel_keeps {f : Fin 2 → F32 → State → F32 × State} {P : State → Prop}
    (hf : ∀ c x s, P s → P (f c x s).2) (x : Frame) {s : State} (h : P s) : P (eachChannel f x s).2 := by
  unfold eachChannel
  generalize s.channels = cs
  suffices ∀ p : Frame × State, P p.2 →
      P (cs.foldl (fun p (c : Fin 2) => let q := f c p.1[c] p.2; (p.1.set c q.1, q.2)) p).2 from this (x, s) h
  induction cs with
  | nil => exact fun p hp => hp
  | cons c rest ih => exact fun p hp => ih _ (hf c _ _ hp)

/-! ### What each stage may change -/

theorem dist_state (c : Fin 2) (x : F32) (s : State) : ∃ d, (dist c x s).2 = s.setDc d := ⟨_, rfl⟩

theorem eachChannel_dist_state (x : Frame) (s : State) : ∃ d, (eachChannel dist x s).2 = s.setDc d :=
  eachChannel_keeps (P := fun t => ∃ d, t = s.setDc d)
    (fun c y t ⟨_, ht⟩ => by obtain ⟨e, he⟩ := dist_state c y t; exact ⟨e, by rw [he, ht]; rfl⟩) x ⟨s.dc, rfl⟩

theorem eqSample_state (b : Fin 4) (c : Fin 2) (x : F32) (s : State) : ∃ q, (eqSample b c x s).2 = s.setBq q := ⟨_, rfl⟩

theorem eqChannel_state (c : Fin 2) (x : F32) (s : State) : ∃ q, (eqChannel c x s).2 = s.setBq q := by
  unfold eqChannel
  generalize ([0, 1, 2, 3] : List (Fin 4)) = bs
  suffices ∀ p : F32 × State, (∃ q, p.2 = s.setBq q) →
      ∃ q, (bs.foldl (fun p b => if s.cells.banden[b] = 1#1 then eqSample b c p.1 p.2 else p) p).2 = s.setBq q from
    this (x, s) ⟨s.bq, rfl⟩
  induction bs with
  | nil => exact fun p hp => hp
  | cons b rest ih =>
    refine fun p hp => ih _ ?_
    obtain ⟨q, hq⟩ := hp
    dsimp only
    split
    · obtain ⟨e, he⟩ := eqSample_state b c p.1 p.2
      exact ⟨e, by rw [he, hq]; rfl⟩
    · exact ⟨q, hq⟩

theorem eachChannel_eq_state (x : Frame) (s : State) : ∃ q, (eachChannel eqChannel x s).2 = s.setBq q :=
  eachChannel_keeps (P := fun t => ∃ q, t = s.setBq q)
    (fun c y t ⟨_, ht⟩ => by obtain ⟨e, he⟩ := eqChannel_state c y t; exact ⟨e, by rw [he, ht]; rfl⟩) x ⟨s.bq, rfl⟩

theorem rbWrite_state {c : Fin 2} {v : F32} {s t : State} (h : rbWrite c v s = .ok t) :
    ∃ m w, t = (s.setDram m).setWc w := by
  obtain ⟨-, rfl⟩ := rbWrite_ok h
  obtain ⟨w, hw⟩ := rbAdvance_eq c (s.setDram (memStore s.dram (rbWaddr c s) v))
  exact ⟨_, _, hw⟩

theorem writeRings_state {x d : Frame} {s t : State} (h : writeRings x d s = .ok t) :
    ∃ m w, t = (s.setDram m).setWc w := by
  unfold writeRings at h
  generalize s.channels = cs at h
  suffices ∀ u : State, (∃ m w, u = (s.setDram m).setWc w) →
      cs.foldlM (fun t (c : Fin 2) => rbWrite c (delayWriteValue s x d c) t) u = .ok t →
      ∃ m w, t = (s.setDram m).setWc w from this s ⟨s.dram, s.wc, rfl⟩ h
  clear h
  induction cs with
  | nil => intro u hu h; cases h; exact hu
  | cons c rest ih =>
    intro u hu h
    rw [List.foldlM_cons] at h
    cases hw : rbWrite c (delayWriteValue s x d c) u with
    | error e => rw [hw] at h; cases h
    | ok v =>
      rw [hw] at h
      refine ih v ?_ h
      obtain ⟨m, w, hv⟩ := rbWrite_state hw
      obtain ⟨m', w', rfl⟩ := hu
      exact ⟨m, w, hv⟩

theorem delayFrame_state {x y : Frame} {s t : State} (h : delayFrame x s = .ok (y, t)) :
    ∃ m w, t = (s.setDram m).setWc w := by
  unfold delayFrame at h
  split at h
  · cases h
  · split at h
    · cases h
    · next t' ht => cases h; exact writeRings_state ht

theorem panFrame_state (x : Frame) (s : State) : ∃ p, (panFrame x s).2 = s.setPh p := ⟨_, rfl⟩

/-- All that a frame step can change: the registers (by the tick), the unit registers, the ring and the two streams. -/
theorem frameStep_state {s t : State} (h : frameStep s = .ok t) :
    ∃ d m w p q ws, t = ((((((spTick s.popFrame).setDc d).setDram m).setWc w).setPh p).setBq q).pushOutput ws := by
  unfold frameStep at h
  dsimp only at h
  split at h
  · cases h
  · next p3 h3 =>
    obtain ⟨d, hd⟩ := eachChannel_dist_state
      (applyGain (Config.num.fns.db2lin ((spTick s.popFrame).cur inGain)) (inputFrame s)
        (spTick s.popFrame)) (spTick s.popFrame)
    obtain ⟨m, w, hm⟩ := delayFrame_state (y := p3.1) (t := p3.2) h3
    rw [hd] at hm
    obtain ⟨p, hp⟩ := panFrame_state p3.1 p3.2
    obtain ⟨q, hq⟩ := eachChannel_eq_state (panFrame p3.1 p3.2).1 (panFrame p3.1 p3.2).2
    obtain ⟨ws, hws⟩ : ∃ ws, t = ((eachChannel eqChannel (panFrame p3.1 p3.2).1 (panFrame p3.1 p3.2).2).2).pushOutput ws :=
      ⟨_, (Except.ok.inj h).symm⟩
    exact ⟨d, m, w, p, q, ws, by rw [hws, hq, hp, hm]⟩

/-! ### A frame step of a machine whose ring is in order -/

/-- The channels in use are those below the channel count. -/
theorem mem_channels_lt {s : State} (h : RingOk s) {c : Fin 2} (hc : c ∈ s.channels) : c.val < s.act.nch.toNat := by
  have h2 : s.act.nch.toNat ≤ 2 := h.nch_le
  have h1 := h.nch_pos
  unfold State.channels at hc
  have : s.act.nch.toNat = 1 ∨ s.act.nch.toNat = 2 := by omega
  rcases this with e | e <;> rw [e] at hc ⊢ <;> simp at hc <;> omega

/-- One channel or two. -/
theorem channels_of_ringOk {s : State} (h : RingOk s) :
    (s.act.nch = 1#2 ∧ s.channels = [0]) ∨ (s.act.nch = 2#2 ∧ s.channels = [0, 1]) := by
  have h1 := h.nch_pos
  have h2 : s.act.nch.toNat ≤ 2 := h.nch_le
  rcases (by omega : s.act.nch.toNat = 1 ∨ s.act.nch.toNat = 2) with e | e
  · exact .inl ⟨BitVec.eq_of_toNat_eq e, by unfold State.channels; rw [e]; rfl⟩
  · exact .inr ⟨BitVec.eq_of_toNat_eq e, by unfold State.channels; rw [e]; rfl⟩

/-- How many words a frame has. -/
theorem frameWords_of_ringOk {s : State} (h : RingOk s) : s.frameWords = s.act.nch.toNat := by
  have h2 : s.act.nch.toNat ≤ 2 := h.nch_le
  simp [State.frameWords, State.channels, h2]

theorem readDelayed_of_ringOk {s : State} (h : RingOk s) : ∃ d, readDelayed s = .ok d := by
  unfold readDelayed
  have hc : ∀ c ∈ s.channels, c.val < s.act.nch.toNat := fun c hc => mem_channels_lt h hc
  revert hc
  generalize s.channels = cs
  generalize Frame.silent = d0
  induction cs generalizing d0 with
  | nil => exact fun _ => ⟨d0, rfl⟩
  | cons c rest ih =>
    intro hc
    obtain ⟨d, hd⟩ := ih (d0.set c (memLookup s.dram (rbRaddr c (rbClamp (delaySamples c s) s) s)))
      fun c' h' => hc c' (by simp [h'])
    refine ⟨d, ?_⟩
    rw [List.foldlM_cons]
    simp only [rbRead_of_ringOk h (hc c (by simp))]
    exact hd

theorem writeRings_of_ringOk {s : State} (h : RingOk s) (x d : Frame) : ∃ t, writeRings x d s = .ok t ∧ RingOk t := by
  unfold writeRings
  have hc : ∀ c ∈ s.channels, c.val < s.act.nch.toNat := fun c hc => mem_channels_lt h hc
  revert hc
  generalize s.channels = cs
  suffices ∀ u : State, RingOk u → u.act = s.act → (∀ c ∈ cs, c.val < s.act.nch.toNat) →
      ∃ t, cs.foldlM (fun t (c : Fin 2) => rbWrite c (delayWriteValue s x d c) t) u = .ok t ∧ RingOk t from
    fun hc => this s h rfl hc
  induction cs with
  | nil => exact fun u hu _ _ => ⟨u, rfl, hu⟩
  | cons c rest ih =>
    intro u hu ha hc
    have hcu : c.val < u.act.nch.toNat := by rw [ha]; exact hc c (by simp)
    have hw := rbWrite_of_ringOk hu hcu (delayWriteValue s x d c)
    rw [List.foldlM_cons, hw]
    refine ih _ (hu.write hcu hw) ?_ fun c' h' => hc c' (by simp [h'])
    obtain ⟨m, w, e⟩ := rbWrite_state hw
    rw [e]; exact ha

/-- The delay stage completes, and keeps the ring in order. -/
theorem delayFrame_of_ringOk {s : State} (h : RingOk s) (x : Frame) : ∃ y t, delayFrame x s = .ok (y, t) ∧ RingOk t := by
  obtain ⟨d, hd⟩ := readDelayed_of_ringOk h
  obtain ⟨t, ht, hr⟩ := writeRings_of_ringOk h x d
  unfold delayFrame
  rw [hd]
  dsimp only
  rw [ht]
  exact ⟨_, _, rfl, hr⟩

/-- The ring is in order or not by the active configuration and the cursors alone. -/
theorem RingOk.congr {s t : State} (h : RingOk s) (ha : t.act = s.act) (hw : t.wc = s.wc) : RingOk t :=
  ⟨by rw [ha]; exact h.nch_pos, by rw [ha]; exact h.nch_le, by rw [ha]; exact h.cap_pos, by rw [ha]; exact h.cap_le,
    fun c => by rw [ha, hw]; exact h.cursor c, fun c hc => by rw [hw]; rw [ha] at hc; exact h.unused c hc⟩

/-- A frame step of a machine whose ring is in order completes, and keeps the ring in order. -/
theorem frameStep_of_ringOk {s : State} (h : RingOk s) : ∃ t, frameStep s = .ok t ∧ RingOk t := by
  have h0 : RingOk (spTick s.popFrame) := h.congr (by simp) (by simp)
  unfold frameStep
  dsimp only
  obtain ⟨d, hd⟩ := eachChannel_dist_state
    (applyGain (Config.num.fns.db2lin ((spTick s.popFrame).cur inGain)) (inputFrame s)
      (spTick s.popFrame)) (spTick s.popFrame)
  have h2 : RingOk (eachChannel dist
      (applyGain (Config.num.fns.db2lin ((spTick s.popFrame).cur inGain)) (inputFrame s)
        (spTick s.popFrame)) (spTick s.popFrame)).2 := by
    rw [hd]; exact h0.congr (State.setDc_act _ _) (State.setDc_wc _ _)
  obtain ⟨y, t, ht, hr⟩ := delayFrame_of_ringOk h2 (eachChannel dist
      (applyGain (Config.num.fns.db2lin ((spTick s.popFrame).cur inGain)) (inputFrame s)
        (spTick s.popFrame)) (spTick s.popFrame)).1
  rw [ht]
  refine ⟨_, rfl, ?_⟩
  obtain ⟨q, hq⟩ := eachChannel_eq_state (panFrame y t).1 (panFrame y t).2
  dsimp only
  rw [hq]
  exact hr.congr (by simp [panFrame]) (by simp [panFrame])

end Sys2Proof.Machine
end

