-- ==== Sys2Proof/Laws/Encoding.lean ====
section
/-! SUPPORT. The fields of a word and the word of its fields (rule R90). -/

namespace Sys2Proof

@[simp] theorem opField_packFields (op idx : BitVec 8) (aux : BitVec 16) (data : Word32) :
    opField (packFields op idx aux data) = op := by
  unfold opField packFields
  refine BitVec.eq_of_getLsbD_eq fun i hi => ?_
  simp only [BitVec.getLsbD_extractLsb', BitVec.getLsbD_append, hi, decide_true, Bool.true_and]
  split_ifs <;> first | omega | (congr 1; omega)

@[simp] theorem idxField_packFields (op idx : BitVec 8) (aux : BitVec 16) (data : Word32) :
    idxField (packFields op idx aux data) = idx := by
  unfold idxField packFields
  refine BitVec.eq_of_getLsbD_eq fun i hi => ?_
  simp only [BitVec.getLsbD_extractLsb', BitVec.getLsbD_append, hi, decide_true, Bool.true_and]
  split_ifs <;> first | omega | (congr 1; omega)

@[simp] theorem auxField_packFields (op idx : BitVec 8) (aux : BitVec 16) (data : Word32) :
    auxField (packFields op idx aux data) = aux := by
  unfold auxField packFields
  refine BitVec.eq_of_getLsbD_eq fun i hi => ?_
  simp only [BitVec.getLsbD_extractLsb', BitVec.getLsbD_append, hi, decide_true, Bool.true_and]
  split_ifs <;> first | omega | (congr 1; omega)

@[simp] theorem dataField_packFields (op idx : BitVec 8) (aux : BitVec 16) (data : Word32) :
    dataField (packFields op idx aux data) = data := by
  unfold dataField packFields
  refine BitVec.eq_of_getLsbD_eq fun i hi => ?_
  simp only [BitVec.getLsbD_extractLsb', BitVec.getLsbD_append, hi, decide_true, Bool.true_and]
  split_ifs <;> first | omega | (congr 1; omega)

/-- A word is put together from its four fields. -/
theorem packFields_fields (w : Command) : packFields (opField w) (idxField w) (auxField w) (dataField w) = w := by
  unfold opField idxField auxField dataField packFields
  ext i hi
  simp only [BitVec.getElem_append, BitVec.getElem_extractLsb']
  split_ifs with h1 h2 h3 <;> simp only [← BitVec.getLsbD_eq_getElem hi] <;> congr 1 <;> omega

/-- The command of a word is the command of its fields. -/
theorem decode_packFields (op idx : BitVec 8) (aux : BitVec 16) (data : Word32) :
    decode (packFields op idx aux data) = decodeFields op idx aux data := by
  unfold decode
  rw [opField_packFields, idxField_packFields, auxField_packFields, dataField_packFields]

end Sys2Proof
end

