-- ==== Sys2Proof/Laws/Flags.lean ====
section
/-! SUPPORT. What raising and clearing flags, and answering on a response queue, change and leave alone. -/

namespace Sys2Proof.Machine

/-! ### `raise` -/

@[simp] theorem raise_seq (s : State) (f : ErrorFlag) : (s.raise f).seq = s.seq := rfl
@[simp] theorem raise_sp (s : State) (f : ErrorFlag) : (s.raise f).sp = s.sp := rfl
@[simp] theorem raise_cells (s : State) (f : ErrorFlag) : (s.raise f).cells = s.cells := rfl
@[simp] theorem raise_cfg (s : State) (f : ErrorFlag) : (s.raise f).cfg = s.cfg := rfl
@[simp] theorem raise_act (s : State) (f : ErrorFlag) : (s.raise f).act = s.act := rfl
@[simp] theorem raise_wc (s : State) (f : ErrorFlag) : (s.raise f).wc = s.wc := rfl
@[simp] theorem raise_dram (s : State) (f : ErrorFlag) : (s.raise f).dram = s.dram := rfl
@[simp] theorem raise_dc (s : State) (f : ErrorFlag) : (s.raise f).dc = s.dc := rfl
@[simp] theorem raise_ph (s : State) (f : ErrorFlag) : (s.raise f).ph = s.ph := rfl
@[simp] theorem raise_coef (s : State) (f : ErrorFlag) : (s.raise f).coef = s.coef := rfl
@[simp] theorem raise_dirty (s : State) (f : ErrorFlag) : (s.raise f).dirty = s.dirty := rfl
@[simp] theorem raise_bq (s : State) (f : ErrorFlag) : (s.raise f).bq = s.bq := rfl
@[simp] theorem raise_io (s : State) (f : ErrorFlag) : (s.raise f).io = s.io := rfl
@[simp] theorem raise_issuer (s : State) (f : ErrorFlag) : (s.raise f).issuer = s.issuer := rfl
@[simp] theorem raise_passing (s : State) (f : ErrorFlag) : (s.raise f).passing = s.passing := rfl
@[simp] theorem raise_inFrame (s : State) (f : ErrorFlag) : (s.raise f).inFrame = s.inFrame := rfl
@[simp] theorem raise_popped (s : State) (f : ErrorFlag) : (s.raise f).popped = s.popped := rfl
@[simp] theorem raise_tick (s : State) (f : ErrorFlag) : (s.raise f).tick = s.tick := rfl
@[simp] theorem raise_prepared (s : State) (f : ErrorFlag) : (s.raise f).status.prepared = s.status.prepared := by
  cases f <;> rfl

/-- All that `raise` does: the one flag becomes true. -/
theorem raise_flag (s : State) (f g : ErrorFlag) :
    (s.raise f).status.flag g = (decide (g = f) || s.status.flag g) := by
  cases f <;> cases g <;> rfl

/-- Two statuses with the same flags and the same `PREPARED` are equal. -/
theorem Status.ext_flag {t u : Status} (hp : t.prepared = u.prepared) (hf : ∀ g, t.flag g = u.flag g) : t = u := by
  obtain ⟨_, _, _, _, _, _, _⟩ := t
  obtain ⟨_, _, _, _, _, _, _⟩ := u
  have h1 := hf .illegal
  have h2 := hf .badRate
  have h3 := hf .badCfg
  have h4 := hf .notPrep
  have h5 := hf .blkSize
  have h6 := hf .rbOff
  simp only [Status.flag] at *
  simp [*]

/-- A flag raised while already set stays set (rule R351): raising twice is raising once. -/
theorem raise_raise (s : State) (f : ErrorFlag) : (s.raise f).raise f = s.raise f := by cases f <;> rfl

/-- All that `raiseAll` does. -/
theorem raiseAll_eq (s : State) (fs : List ErrorFlag) :
    ∃ u, s.raiseAll fs = s.setStatus u ∧ u.prepared = s.status.prepared ∧
      ∀ g, u.flag g = (decide (g ∈ fs) || s.status.flag g) := by
  unfold State.raiseAll
  induction fs generalizing s with
  | nil => exact ⟨s.status, rfl, rfl, fun g => by simp⟩
  | cons f rest ih =>
    obtain ⟨u, hu, hp, hf⟩ := ih (s.raise f)
    refine ⟨u, by rw [List.foldl_cons, hu]; rfl, by rw [hp, raise_prepared], fun g => ?_⟩
    rw [hf, raise_flag]
    by_cases h : g = f <;> simp [h]

/-- All that `clearErrors` does (rules R327, R351). -/
theorem clearErrors_eq (s : State) :
    ∃ u, s.clearErrors = s.setStatus u ∧ u.prepared = s.status.prepared ∧ ∀ g, u.flag g = false :=
  ⟨_, rfl, rfl, fun g => by cases g <;> rfl⟩

/-! ### `respond` -/

/-- All that `respond` does: one word at the end of the response queue of the issuing queue. -/
theorem respond_eq (s : State) (w : Word32) :
    s.respond w = s.setIo (match s.issuer with
      | .control => { s.io with rspC := s.io.rspC ++ [w] }
      | .audio => { s.io with rspA := s.io.rspA ++ [w] }) := by
  unfold State.respond; cases s.issuer <;> rfl

@[simp] theorem respond_seq (s : State) (w : Word32) : (s.respond w).seq = s.seq := by rw [respond_eq]; rfl
@[simp] theorem respond_sp (s : State) (w : Word32) : (s.respond w).sp = s.sp := by rw [respond_eq]; rfl
@[simp] theorem respond_cells (s : State) (w : Word32) : (s.respond w).cells = s.cells := by rw [respond_eq]; rfl
@[simp] theorem respond_cfg (s : State) (w : Word32) : (s.respond w).cfg = s.cfg := by rw [respond_eq]; rfl
@[simp] theorem respond_act (s : State) (w : Word32) : (s.respond w).act = s.act := by rw [respond_eq]; rfl
@[simp] theorem respond_status (s : State) (w : Word32) : (s.respond w).status = s.status := by rw [respond_eq]; rfl
@[simp] theorem respond_wc (s : State) (w : Word32) : (s.respond w).wc = s.wc := by rw [respond_eq]; rfl
@[simp] theorem respond_dram (s : State) (w : Word32) : (s.respond w).dram = s.dram := by rw [respond_eq]; rfl
@[simp] theorem respond_dc (s : State) (w : Word32) : (s.respond w).dc = s.dc := by rw [respond_eq]; rfl
@[simp] theorem respond_ph (s : State) (w : Word32) : (s.respond w).ph = s.ph := by rw [respond_eq]; rfl
@[simp] theorem respond_coef (s : State) (w : Word32) : (s.respond w).coef = s.coef := by rw [respond_eq]; rfl
@[simp] theorem respond_dirty (s : State) (w : Word32) : (s.respond w).dirty = s.dirty := by rw [respond_eq]; rfl
@[simp] theorem respond_bq (s : State) (w : Word32) : (s.respond w).bq = s.bq := by rw [respond_eq]; rfl
@[simp] theorem respond_issuer (s : State) (w : Word32) : (s.respond w).issuer = s.issuer := by rw [respond_eq]; rfl
@[simp] theorem respond_passing (s : State) (w : Word32) : (s.respond w).passing = s.passing := by rw [respond_eq]; rfl
@[simp] theorem respond_inFrame (s : State) (w : Word32) : (s.respond w).inFrame = s.inFrame := by rw [respond_eq]; rfl
@[simp] theorem respond_popped (s : State) (w : Word32) : (s.respond w).popped = s.popped := by rw [respond_eq]; rfl
@[simp] theorem respond_tick (s : State) (w : Word32) : (s.respond w).tick = s.tick := by rw [respond_eq]; rfl
@[simp] theorem respond_cq (s : State) (w : Word32) : (s.respond w).io.cq = s.io.cq := by
  rw [respond_eq]; cases s.issuer <;> rfl
@[simp] theorem respond_aq (s : State) (w : Word32) : (s.respond w).io.aq = s.io.aq := by
  rw [respond_eq]; cases s.issuer <;> rfl
@[simp] theorem respond_ain (s : State) (w : Word32) : (s.respond w).io.ain = s.io.ain := by
  rw [respond_eq]; cases s.issuer <;> rfl
@[simp] theorem respond_aout (s : State) (w : Word32) : (s.respond w).io.aout = s.io.aout := by
  rw [respond_eq]; cases s.issuer <;> rfl
@[simp] theorem respond_rst (s : State) (w : Word32) : (s.respond w).io.rst = s.io.rst := by
  rw [respond_eq]; cases s.issuer <;> rfl

end Sys2Proof.Machine
end

