-- ==== Sys2Proof/Laws/Float.lean ====
section
/-! SUPPORT. The magnitudes of binary32 patterns and the one rounding: patterns of one sign are in the order of their values,
an exact value is kept, and rounding is monotone (rule R11). -/

namespace Sys2Proof.Machine

/-! ### The value of magnitude bits -/

/-- The value of the magnitude bits of a finite pattern, in units of `2^-149`. -/
def magUnits (m : Nat) : Nat := if m / 2 ^ 23 = 0 then m else (2 ^ 23 + m % 2 ^ 23) * 2 ^ (m / 2 ^ 23 - 1)

theorem fmag_eq_magUnits (v : F32) : fmag v = magUnits (fmagBits v) := by
  have h : ffrac v = fmagBits v % 2 ^ 23 := by unfold ffrac fmagBits; omega
  unfold fmag magUnits fexpo
  rw [h]
  split_ifs with h0
  · rw [Nat.div_eq_zero_iff] at h0; exact Nat.mod_eq_of_lt (by omega)
  · rfl

theorem magUnits_of_lt {m : Nat} (h : m < 2 ^ 24) : magUnits m = m := by
  unfold magUnits
  split_ifs with h0
  · rfl
  · have h1 : m / 2 ^ 23 = 1 := by omega
    rw [h1]; omega

theorem magUnits_lt_succ (m : Nat) : magUnits m < magUnits (m + 1) := by
  by_cases h : m + 1 < 2 ^ 24
  · rw [magUnits_of_lt h, magUnits_of_lt (by omega)]; omega
  · unfold magUnits
    rw [if_neg (by omega), if_neg (by omega)]
    by_cases hf : m % 2 ^ 23 = 2 ^ 23 - 1
    · have h1 : (m + 1) / 2 ^ 23 = m / 2 ^ 23 + 1 := by omega
      have h2 : (m + 1) % 2 ^ 23 = 0 := by omega
      have h3 : m / 2 ^ 23 + 1 - 1 = (m / 2 ^ 23 - 1) + 1 := by omega
      rw [h1, h2, h3, hf, pow_succ 2 (m / 2 ^ 23 - 1)]
      have := Nat.two_pow_pos (m / 2 ^ 23 - 1)
      generalize 2 ^ (m / 2 ^ 23 - 1) = p at *
      omega
    · have h1 : (m + 1) / 2 ^ 23 = m / 2 ^ 23 := by omega
      have h2 : (m + 1) % 2 ^ 23 = m % 2 ^ 23 + 1 := by omega
      rw [h1, h2]
      exact Nat.mul_lt_mul_of_pos_right (by omega) (Nat.two_pow_pos _)

theorem magUnits_strictMono : StrictMono magUnits := strictMono_nat_of_lt_succ magUnits_lt_succ

/-- Patterns of one sign are in the order of their values. -/
theorem fmag_le_iff (a b : F32) : fmag a ≤ fmag b ↔ fmagBits a ≤ fmagBits b := by
  rw [fmag_eq_magUnits, fmag_eq_magUnits]; exact magUnits_strictMono.le_iff_le

theorem fmag_lt_iff (a b : F32) : fmag a < fmag b ↔ fmagBits a < fmagBits b := by
  rw [fmag_eq_magUnits, fmag_eq_magUnits]; exact magUnits_strictMono.lt_iff_lt

/-! ### The rounding -/

/-- The place, above `2^-149`, of the last bit that the rounding keeps. -/
def roundPlace (num den : Nat) : Nat := if num / den < 2 ^ 24 then 0 else Nat.log2 (num / den) - 23

/-- The rounded quotient at that place, before the overflow to infinity. -/
def roundSig (num den : Nat) : Nat :=
  let d := den * 2 ^ roundPlace num den
  if d < 2 * (num % d) ∨ (2 * (num % d) = d ∧ num / d % 2 = 1) then num / d + 1 else num / d

theorem roundMag_eq (num den : Nat) :
    roundMag num den = min infBits (roundPlace num den * 2 ^ 23 + roundSig num den) := by
  unfold roundMag roundSig roundPlace
  dsimp only
  congr 2
  simp only [Bool.or_eq_true, Bool.and_eq_true, decide_eq_true_eq]

theorem roundMag_le (num den : Nat) : roundMag num den ≤ infBits := by rw [roundMag_eq]; exact min_le_left _ _

/-- The quotient at the kept place has at most 24 bits, and exactly 24 above the subnormal range. -/
theorem quotient_bounds (num den : Nat) :
    num / (den * 2 ^ roundPlace num den) < 2 ^ 24 ∧
      (roundPlace num den ≠ 0 → 2 ^ 23 ≤ num / (den * 2 ^ roundPlace num den)) := by
  unfold roundPlace
  split_ifs with h
  · simp only [pow_zero, mul_one]; exact ⟨h, fun h => absurd rfl h⟩
  · generalize hq : num / den = q at h ⊢
    have hq0 : q ≠ 0 := by omega
    have h1 : 24 ≤ Nat.log2 q := (Nat.le_log2 hq0).mpr (by omega)
    have h2 : q < 2 ^ (Nat.log2 q + 1) := Nat.lt_log2_self
    have h3 : 2 ^ Nat.log2 q ≤ q := Nat.log2_self_le hq0
    rw [← Nat.div_div_eq_div_mul, hq]
    constructor
    · rw [Nat.div_lt_iff_lt_mul (Nat.two_pow_pos _), ← pow_add]
      rwa [show 24 + (Nat.log2 q - 23) = Nat.log2 q + 1 by omega]
    · intro _
      rw [Nat.le_div_iff_mul_le (Nat.two_pow_pos _), ← pow_add]
      rwa [show 23 + (Nat.log2 q - 23) = Nat.log2 q by omega]

theorem roundSig_bounds (num den : Nat) :
    num / (den * 2 ^ roundPlace num den) ≤ roundSig num den ∧
      roundSig num den ≤ num / (den * 2 ^ roundPlace num den) + 1 := by
  unfold roundSig; dsimp only; split_ifs <;> omega

/-- Halves rounded to even do not change the order. -/
theorem roundSig_mono_of_place {a b den : Nat} (hab : a ≤ b) (h : roundPlace a den = roundPlace b den) :
    roundSig a den ≤ roundSig b den := by
  unfold roundSig
  rw [h]
  dsimp only
  generalize den * 2 ^ roundPlace b den = d
  have hq : a / d ≤ b / d := Nat.div_le_div_right hab
  by_cases he : a / d = b / d
  · have h1 := Nat.div_add_mod a d
    have h2 := Nat.div_add_mod b d
    rw [he] at h1 ⊢
    have hm : a % d ≤ b % d := by omega
    split_ifs <;> omega
  · split_ifs <;> omega

theorem roundPlace_mono {a b : Nat} (den : Nat) (hab : a ≤ b) : roundPlace a den ≤ roundPlace b den := by
  have hq : a / den ≤ b / den := Nat.div_le_div_right hab
  unfold roundPlace
  split_ifs with h1 h2
  · exact le_rfl
  · omega
  · omega
  · have ha : a / den ≠ 0 := by omega
    have : Nat.log2 (a / den) ≤ Nat.log2 (b / den) :=
      (Nat.le_log2 (by omega)).mpr (le_trans (Nat.log2_self_le ha) hq)
    omega

/-- Rounding is monotone (rule R11). -/
theorem roundMag_mono {a b : Nat} (den : Nat) (hab : a ≤ b) : roundMag a den ≤ roundMag b den := by
  rw [roundMag_eq, roundMag_eq]
  refine min_le_min_left _ ?_
  rcases (roundPlace_mono den hab).lt_or_eq with h | h
  · have h1 := (quotient_bounds a den).1
    have h2 := (roundSig_bounds a den).2
    have h3 := le_trans ((quotient_bounds b den).2 (by omega)) (roundSig_bounds b den).1
    calc roundPlace a den * 2 ^ 23 + roundSig a den ≤ roundPlace a den * 2 ^ 23 + 2 ^ 24 := by omega
      _ = (roundPlace a den + 1) * 2 ^ 23 + 2 ^ 23 := by omega
      _ ≤ roundPlace b den * 2 ^ 23 + roundSig b den := by
        exact Nat.add_le_add (Nat.mul_le_mul_right (2 ^ 23) (show roundPlace a den + 1 ≤ roundPlace b den from h)) h3
  · have := roundSig_mono_of_place hab h
    rw [h]; omega

/-- An exact value is kept (rule R11). -/
theorem roundMag_exact {m : Nat} (hm : m < infBits) {den : Nat} (hd : 0 < den) : roundMag (magUnits m * den) den = m := by
  have hq : magUnits m * den / den = magUnits m := Nat.mul_div_cancel _ hd
  by_cases h : m < 2 ^ 24
  · have hp : roundPlace (magUnits m * den) den = 0 := by
      unfold roundPlace; rw [hq, magUnits_of_lt h, if_pos h]
    have hs : roundSig (magUnits m * den) den = m := by
      unfold roundSig
      rw [hp]
      simp only [pow_zero, mul_one]
      rw [Nat.mul_mod_left, hq, magUnits_of_lt h, if_neg]; omega
    rw [roundMag_eq, hp, hs]; omega
  · have hu : magUnits m = (2 ^ 23 + m % 2 ^ 23) * 2 ^ (m / 2 ^ 23 - 1) := by unfold magUnits; rw [if_neg (by omega)]
    have hl : Nat.log2 (magUnits m) = 23 + (m / 2 ^ 23 - 1) := by
      have h0 : magUnits m ≠ 0 := by rw [hu]; positivity
      apply le_antisymm
      · have : Nat.log2 (magUnits m) < 24 + (m / 2 ^ 23 - 1) := by
          rw [Nat.log2_lt h0, hu, pow_add]
          exact Nat.mul_lt_mul_of_pos_right (by omega) (Nat.two_pow_pos _)
        omega
      · rw [Nat.le_log2 h0, hu, pow_add]
        exact Nat.mul_le_mul_right _ (by omega)
    have hbig : ¬ magUnits m < 2 ^ 24 := by
      have := magUnits_strictMono.le_iff_le.mpr (show 2 ^ 24 ≤ m by omega)
      have h24 : magUnits (2 ^ 24) = 2 ^ 24 := by norm_num [magUnits]
      omega
    have hp : roundPlace (magUnits m * den) den = m / 2 ^ 23 - 1 := by
      unfold roundPlace; rw [hq, if_neg hbig, hl]; omega
    have hs : roundSig (magUnits m * den) den = 2 ^ 23 + m % 2 ^ 23 := by
      unfold roundSig
      rw [hp]
      have hdd : 0 < den * 2 ^ (m / 2 ^ 23 - 1) := Nat.mul_pos hd (Nat.two_pow_pos _)
      have he : magUnits m * den = (2 ^ 23 + m % 2 ^ 23) * (den * 2 ^ (m / 2 ^ 23 - 1)) := by rw [hu]; ring
      rw [he]
      simp only [Nat.mul_mod_left, Nat.mul_div_cancel _ hdd]
      rw [if_neg]; omega
    have he : (m / 2 ^ 23 - 1) * 2 ^ 23 + (2 ^ 23 + m % 2 ^ 23) = m := by omega
    rw [roundMag_eq, hp, hs, he]
    exact min_eq_right hm.le

/-- The value of a finite pattern rounds to the pattern's magnitude bits. -/
theorem roundMag_fmag {v : F32} (h : isFinite v = true) {den : Nat} (hd : 0 < den) :
    roundMag (fmag v * den) den = fmagBits v := by
  rw [fmag_eq_magUnits]; exact roundMag_exact (by simpa [isFinite] using h) hd

/-! ### Patterns from sign and magnitude -/

theorem fmagBits_withSign (s : Bool) {m : Nat} (h : m < 2 ^ 31) : fmagBits (withSign s m) = m := by
  unfold fmagBits withSign
  cases s <;> simp only [BitVec.toNat_ofNat] <;> simp <;> omega

theorem fsign_withSign (s : Bool) {m : Nat} (h : m < 2 ^ 31) : fsign (withSign s m) = s := by
  unfold fsign withSign
  rw [BitVec.getLsbD_ofNat, Nat.testBit_eq_decide_div_mod_eq]
  cases s <;> simp <;> omega

theorem withSign_self (v : F32) : withSign (fsign v) (fmagBits v) = v := by
  apply BitVec.eq_of_toNat_eq
  have h := toNat_eq_sign_mag v
  have hb := fmagBits_lt v
  unfold withSign
  rw [BitVec.toNat_ofNat, ← h]
  exact Nat.mod_eq_of_lt v.isLt

theorem infBits_lt : infBits < 2 ^ 31 := by decide

/-! ### Integers -/

/-- A significand of 24 bits at a place is a magnitude. -/
theorem magUnits_of_sig {sig k : Nat} (h1 : 2 ^ 23 ≤ sig) (h2 : sig < 2 ^ 24) :
    magUnits ((k + 1) * 2 ^ 23 + (sig - 2 ^ 23)) = sig * 2 ^ k := by
  unfold magUnits
  have hd : ((k + 1) * 2 ^ 23 + (sig - 2 ^ 23)) / 2 ^ 23 = k + 1 := by omega
  have hm : ((k + 1) * 2 ^ 23 + (sig - 2 ^ 23)) % 2 ^ 23 = sig - 2 ^ 23 := by omega
  rw [hd, hm, if_neg (by omega), show 2 ^ 23 + (sig - 2 ^ 23) = sig by omega, Nat.add_sub_cancel]

/-- The value of an integer below `2^24` is the value of a finite magnitude. -/
theorem exists_magUnits_nat {n : Nat} (h : n < 2 ^ 24) : ∃ m < infBits, magUnits m = n * 2 ^ 149 := by
  rcases Nat.eq_zero_or_pos n with rfl | hn
  · exact ⟨0, by decide, rfl⟩
  · have hn0 : n ≠ 0 := by omega
    have hlt : Nat.log2 n < 24 := (Nat.log2_lt hn0).mpr h
    have h1 : 2 ^ Nat.log2 n ≤ n := Nat.log2_self_le hn0
    have h2 : n < 2 ^ (Nat.log2 n + 1) := Nat.lt_log2_self
    refine ⟨(Nat.log2 n + 126 + 1) * 2 ^ 23 + (n * 2 ^ (23 - Nat.log2 n) - 2 ^ 23), ?_, ?_⟩
    · have : n * 2 ^ (23 - Nat.log2 n) < 2 ^ 24 := by
        calc n * 2 ^ (23 - Nat.log2 n) < 2 ^ (Nat.log2 n + 1) * 2 ^ (23 - Nat.log2 n) :=
              Nat.mul_lt_mul_of_pos_right h2 (Nat.two_pow_pos _)
          _ = 2 ^ 24 := by rw [← pow_add]; congr 1; omega
      have : infBits = 255 * 2 ^ 23 := rfl
      omega
    · rw [magUnits_of_sig, mul_assoc, ← pow_add]
      · congr 2; omega
      · calc 2 ^ 23 = 2 ^ Nat.log2 n * 2 ^ (23 - Nat.log2 n) := by rw [← pow_add]; congr 1; omega
          _ ≤ n * 2 ^ (23 - Nat.log2 n) := Nat.mul_le_mul_right _ h1
      · calc n * 2 ^ (23 - Nat.log2 n) < 2 ^ (Nat.log2 n + 1) * 2 ^ (23 - Nat.log2 n) :=
              Nat.mul_lt_mul_of_pos_right h2 (Nat.two_pow_pos _)
          _ = 2 ^ 24 := by rw [← pow_add]; congr 1; omega

/-- An integer below `2^24` converts exactly (rule R11). -/
theorem u2f_exact {n : Nat} (h : n < 2 ^ 24) :
    isFinite (u2f n) = true ∧ fsign (u2f n) = false ∧ fmag (u2f n) = n * 2 ^ 149 := by
  obtain ⟨m, hm, hu⟩ := exists_magUnits_nat h
  have hr : roundMag (n * 2 ^ 149) 1 = m := by
    have := roundMag_exact hm (den := 1) (by decide)
    rwa [mul_one, hu] at this
  have hb : m < 2 ^ 31 := lt_trans hm infBits_lt
  unfold u2f
  rw [hr]
  refine ⟨?_, fsign_withSign _ hb, ?_⟩
  · unfold isFinite; rw [fmagBits_withSign _ hb]; exact decide_eq_true hm
  · rw [fmag_eq_magUnits, fmagBits_withSign _ hb, hu]

/-! ### NaN operands: the result is a NaN, whatever its pattern (rule R11, U5) -/

theorem isNaN_producedNaN (op : Config.FloatOp) (a b : F32) : isNaN (producedNaN op a b) = true :=
  Config.nan.isNaN_pattern op a b

theorem isNaN_fadd {a b : F32} (h : isNaN a = true ∨ isNaN b = true) : isNaN (fadd a b) = true := by
  have h' : (isNaN a || isNaN b) = true := by simpa using h
  unfold fadd sumWith; rw [if_pos h']; exact isNaN_producedNaN _ _ _

theorem isNaN_fsub {a b : F32} (h : isNaN a = true ∨ isNaN b = true) : isNaN (fsub a b) = true := by
  have h' : (isNaN a || isNaN (fneg b)) = true := by simpa using h
  unfold fsub sumWith; rw [if_pos h']; exact isNaN_producedNaN _ _ _

theorem isNaN_fmul {a b : F32} (h : isNaN a = true ∨ isNaN b = true) : isNaN (fmul a b) = true := by
  have h' : (isNaN a || isNaN b) = true := by simpa using h
  unfold fmul; dsimp only; rw [if_pos h']; exact isNaN_producedNaN _ _ _

theorem isNaN_fdiv {a b : F32} (h : isNaN a = true ∨ isNaN b = true) : isNaN (fdiv a b) = true := by
  have h' : (isNaN a || isNaN b) = true := by simpa using h
  unfold fdiv; dsimp only; rw [if_pos h']; exact isNaN_producedNaN _ _ _

theorem convertible_of_isNaN {v : F32} (h : isNaN v = true) : convertible v = false := by
  simp [convertible, fge, fle, h]

/-- A NaN converts to 0 (rule R14). -/
theorem f2uRound_of_isNaN {v : F32} (h : isNaN v = true) : f2uRound v = 0 := by
  unfold f2uRound; rw [convertible_of_isNaN h, if_neg Bool.false_ne_true]

end Sys2Proof.Machine
end

