-- ==== Sys2Proof/Laws/Rounding.lean ====
section
/-! SUPPORT. The operations of rule R11 on finite operands as one signed rounding of an exact value: it is monotone, keeps
what a pattern represents, and errs by at most half a unit in the last place. -/

namespace Sys2Proof.Machine

/-! ### Values and places in the order -/

/-- The value at a place of the IEEE order, in units of `2^-149`. -/
def keyValue (k : Int) : Int := if k < 0 then -(magUnits k.natAbs : Int) else (magUnits k.natAbs : Int)

theorem magUnits_zero : magUnits 0 = 0 := rfl

theorem magUnits_pos {m : Nat} (h : 0 < m) : 0 < magUnits m := magUnits_strictMono h

theorem keyValue_strictMono : StrictMono keyValue := by
  intro a b h
  unfold keyValue
  split_ifs with ha hb hb
  · have := magUnits_strictMono (show b.natAbs < a.natAbs by omega); omega
  · have := magUnits_pos (show 0 < a.natAbs by omega); omega
  · omega
  · have := magUnits_strictMono (show a.natAbs < b.natAbs by omega); omega

theorem fvalue_eq_keyValue (v : F32) : fvalue v = keyValue (orderKey v) := by
  unfold fvalue orderKey keyValue
  rw [fmag_eq_magUnits]
  cases fsign v
  · simp
  · simp only [if_true]
    rcases Nat.eq_zero_or_pos (fmagBits v) with h | h
    · rw [h]; rfl
    · rw [if_pos (by omega)]; simp

theorem fvalue_le_iff (a b : F32) : fvalue a ≤ fvalue b ↔ orderKey a ≤ orderKey b := by
  rw [fvalue_eq_keyValue, fvalue_eq_keyValue]; exact keyValue_strictMono.le_iff_le

theorem natAbs_orderKey (v : F32) : (orderKey v).natAbs = fmagBits v := by
  unfold orderKey; cases fsign v <;> simp

theorem natAbs_fvalue (v : F32) : (fvalue v).natAbs = fmag v := by
  unfold fvalue; cases fsign v <;> simp

/-- Between numbers the IEEE order is the order of the values. -/
theorem fle_iff_value {a b : F32} (ha : isNaN a = false) (hb : isNaN b = false) :
    fle a b = true ↔ fvalue a ≤ fvalue b := by rw [fle_iff, fvalue_le_iff]; simp [ha, hb]

/-! ### The signed rounding -/

/-- The place that an exact value `num / den` rounds to. -/
def roundKey (num : Int) (den : Nat) : Int :=
  if num < 0 then -(roundMag num.natAbs den : Int) else (roundMag num.natAbs den : Int)

/-- Rounding is monotone (rule R11). -/
theorem roundKey_mono {a b : Int} (den : Nat) (h : a ≤ b) : roundKey a den ≤ roundKey b den := by
  unfold roundKey
  split_ifs with ha hb hb
  · have := roundMag_mono den (show b.natAbs ≤ a.natAbs by omega); omega
  · omega
  · omega
  · have := roundMag_mono den (show a.natAbs ≤ b.natAbs by omega); omega

/-- What a finite pattern represents is kept (rule R11). -/
theorem roundKey_fvalue {w : F32} (h : isFinite w = true) {den : Nat} (hd : 0 < den) :
    roundKey (fvalue w * den) den = orderKey w := by
  have hm := roundMag_fmag h hd
  have hd' : (0 : Int) < den := by exact_mod_cast hd
  have hn : (fvalue w * den).natAbs = fmag w * den := by rw [Int.natAbs_mul, natAbs_fvalue]; rfl
  unfold roundKey
  rw [hn, hm]
  unfold fvalue orderKey
  cases hs : fsign w
  · simp only [Bool.false_eq_true, if_false]
    rw [if_neg]
    exact not_lt.mpr (mul_nonneg (Int.natCast_nonneg _) hd'.le)
  · simp only [if_true]
    split_ifs with h0
    · rfl
    · have hz : fmag w = 0 := by
        rcases Nat.eq_zero_or_pos (fmag w) with hz | hp
        · exact hz
        · exact absurd (mul_neg_of_neg_of_pos (by omega : -(fmag w : Int) < 0) hd') h0
      rw [hz, Nat.zero_mul] at hm
      have : roundMag 0 den = 0 := by
        have := roundMag_exact (m := 0) (by decide) hd
        simpa [magUnits_zero] using this
      omega

/-- A value between two finite patterns rounds between them. -/
theorem roundKey_between {lo hi : F32} (hl : isFinite lo = true) (hh : isFinite hi = true) {num : Int} {den : Nat} (hd : 0 < den)
    (h1 : fvalue lo * den ≤ num) (h2 : num ≤ fvalue hi * den) :
    orderKey lo ≤ roundKey num den ∧ roundKey num den ≤ orderKey hi :=
  ⟨by rw [← roundKey_fvalue hl hd]; exact roundKey_mono den h1, by rw [← roundKey_fvalue hh hd]; exact roundKey_mono den h2⟩

/-! ### The error of the rounding -/

theorem magUnits_of_place {j sig : Nat} (h1 : sig ≤ 2 ^ 24) (h2 : j ≠ 0 → 2 ^ 23 ≤ sig) :
    magUnits (j * 2 ^ 23 + sig) = sig * 2 ^ j := by
  rcases Nat.eq_zero_or_pos j with rfl | hj
  · rcases h1.lt_or_eq with h | h
    · rw [Nat.zero_mul, Nat.zero_add, magUnits_of_lt h, pow_zero, mul_one]
    · rw [h]; norm_num [magUnits]
  · have hs := h2 (by omega)
    rcases h1.lt_or_eq with h | h
    · have := magUnits_of_sig (k := j) hs h
      rw [← this, show j * 2 ^ 23 + sig = (j + 1) * 2 ^ 23 + (sig - 2 ^ 23) by omega]
    · rw [h, show j * 2 ^ 23 + 2 ^ 24 = (j + 1 + 1) * 2 ^ 23 + (2 ^ 23 - 2 ^ 23) by omega,
        magUnits_of_sig (k := j + 1) le_rfl (by decide)]
      rw [show (2 : Nat) ^ 24 = 2 ^ 23 * 2 by norm_num, pow_succ]; ring

/-- Rounding errs by at most half a unit in the last place: half of the smallest unit, or `2^-24` of the value (rule R11). -/
theorem roundMag_error {num den : Nat} (hd : 0 < den) (hf : roundMag num den < infBits) :
    2 ^ 25 * |(magUnits (roundMag num den) : Int) * den - num| ≤ 2 * num + 2 ^ 24 * den := by
  have hq := quotient_bounds num den
  have hs := roundSig_bounds num den
  have hu : magUnits (roundMag num den) = roundSig num den * 2 ^ roundPlace num den := by
    rw [roundMag_eq] at hf ⊢
    rw [min_eq_right (by omega)]
    exact magUnits_of_place (by omega) (fun h => le_trans (hq.2 h) hs.1)
  rw [hu]
  have hd2 : 0 < den * 2 ^ roundPlace num den := Nat.mul_pos hd (Nat.two_pow_pos _)
  have he : ((roundSig num den * 2 ^ roundPlace num den : Nat) : Int) * den =
      roundSig num den * ((den * 2 ^ roundPlace num den : Nat) : Int) := by push_cast; ring
  rw [he]
  have hdm := Nat.div_add_mod num (den * 2 ^ roundPlace num den)
  have hml := Nat.mod_lt num hd2
  have hb : 2 * |(roundSig num den : Int) * ((den * 2 ^ roundPlace num den : Nat) : Int) - num| ≤
      ((den * 2 ^ roundPlace num den : Nat) : Int) := by
    unfold roundSig
    dsimp only
    generalize den * 2 ^ roundPlace num den = d at *
    have hdm' : (num : Int) = d * (num / d : Nat) + (num % d : Nat) := by exact_mod_cast hdm.symm
    split_ifs with h
    · rw [hdm', show (((num / d + 1 : Nat) : Int) * d - (d * (num / d : Nat) + (num % d : Nat))) = d - (num % d : Nat) by
        push_cast; ring]
      rw [abs_of_nonneg (by omega)]; omega
    · rw [hdm', show (((num / d : Nat) : Int) * d - (d * (num / d : Nat) + (num % d : Nat))) = -(num % d : Nat) by ring]
      rw [abs_neg, abs_of_nonneg (by omega)]; omega
  rcases Nat.eq_zero_or_pos (roundPlace num den) with hz | hp
  · rw [hz, pow_zero, mul_one] at hb ⊢; omega
  · have h23 := hq.2 (by omega)
    have : (den * 2 ^ roundPlace num den) * 2 ^ 23 ≤ num := by
      calc (den * 2 ^ roundPlace num den) * 2 ^ 23 ≤ den * 2 ^ roundPlace num den * (num / (den * 2 ^ roundPlace num den)) :=
            Nat.mul_le_mul_left _ h23
        _ ≤ num := by omega
    generalize den * 2 ^ roundPlace num den = d at *
    omega

theorem keyValue_roundKey (num : Int) (den : Nat) :
    keyValue (roundKey num den) = if num < 0 then -(magUnits (roundMag num.natAbs den) : Int)
      else (magUnits (roundMag num.natAbs den) : Int) := by
  unfold roundKey keyValue
  split_ifs with h h1 h1
  · rw [Int.natAbs_neg, Int.natAbs_natCast]
  · have : roundMag num.natAbs den = 0 := by omega
    rw [this]; rfl
  · omega
  · rw [Int.natAbs_natCast]

/-- The same of the signed rounding. -/
theorem roundKey_error {num : Int} {den : Nat} (hd : 0 < den) (hf : (roundKey num den).natAbs < infBits) :
    2 ^ 25 * |keyValue (roundKey num den) * den - num| ≤ 2 * |num| + 2 ^ 24 * den := by
  have hr : roundMag num.natAbs den < infBits := by
    unfold roundKey at hf; split_ifs at hf <;> omega
  have := roundMag_error hd hr
  rw [keyValue_roundKey, ← Int.natCast_natAbs num]
  generalize (magUnits (roundMag num.natAbs den) : Int) = u at *
  split_ifs with h
  · have e : -u * (den : Int) - num = -(u * den - num.natAbs) := by
      rw [show (num.natAbs : Int) = -num by omega]; ring
    rwa [e, abs_neg]
  · have e : u * (den : Int) - num = u * den - num.natAbs := by rw [show (num.natAbs : Int) = num by omega]
    rwa [e]

/-! ### The operations on finite operands -/

/-- A result: no NaN, at the place its exact value rounds to. -/
structure RoundsTo (r : F32) (num : Int) (den : Nat) : Prop where
  notNaN : isNaN r = false
  key : orderKey r = roundKey num den

theorem isNaN_withSign (s : Bool) {m : Nat} (h : m ≤ infBits) : isNaN (withSign s m) = false := by
  have hb : m < 2 ^ 31 := lt_of_le_of_lt h infBits_lt
  unfold isNaN; rw [fmagBits_withSign _ hb]; exact decide_eq_false (by omega)

theorem orderKey_withSign (s : Bool) {m : Nat} (h : m ≤ infBits) :
    orderKey (withSign s m) = if s then -(m : Int) else (m : Int) := by
  have hb : m < 2 ^ 31 := lt_of_le_of_lt h infBits_lt
  unfold orderKey; rw [fmagBits_withSign _ hb, fsign_withSign _ hb]

theorem isInf_eq_false_of_isFinite {v : F32} (h : isFinite v = true) : isInf v = false := by
  simp only [isFinite, isInf, decide_eq_true_eq, decide_eq_false_iff_not] at *; omega

theorem fvalue_fneg (v : F32) : fvalue (fneg v) = -fvalue v := by
  have h : fmag (fneg v) = fmag v := by rw [fmag_eq_magUnits, fmag_eq_magUnits, fmagBits_fneg]
  unfold fvalue; rw [fsign_fneg, h]; cases fsign v <;> simp

theorem sumWith_rounds (nan : F32) {a b : F32} (ha : isFinite a = true) (hb : isFinite b = true) :
    RoundsTo (sumWith nan a b) (fvalue a + fvalue b) 1 := by
  have e : sumWith nan a b = if fvalue a + fvalue b = 0 then withSign (fsign a && fsign b) 0
      else withSign (decide (fvalue a + fvalue b < 0)) (roundMag (fvalue a + fvalue b).natAbs 1) := by
    unfold sumWith
    simp [isNaN_eq_false_of_isFinite ha, isNaN_eq_false_of_isFinite hb, isInf_eq_false_of_isFinite ha,
      isInf_eq_false_of_isFinite hb]
  have hz : roundMag 0 1 = 0 := by decide
  rw [e]
  split_ifs with h
  · refine ⟨isNaN_withSign _ (Nat.zero_le _), ?_⟩
    rw [orderKey_withSign _ (Nat.zero_le _), h]; unfold roundKey; simp [hz]
  · refine ⟨isNaN_withSign _ (roundMag_le _ _), ?_⟩
    rw [orderKey_withSign _ (roundMag_le _ _)]; unfold roundKey; simp only [decide_eq_true_eq]

theorem fadd_rounds {a b : F32} (ha : isFinite a = true) (hb : isFinite b = true) :
    RoundsTo (fadd a b) (fvalue a + fvalue b) 1 := sumWith_rounds _ ha hb

theorem fsub_rounds {a b : F32} (ha : isFinite a = true) (hb : isFinite b = true) :
    RoundsTo (fsub a b) (fvalue a - fvalue b) 1 := by
  have := sumWith_rounds (producedNaN .sub a b) ha (b := fneg b) (by simpa using hb)
  rwa [fvalue_fneg, ← sub_eq_add_neg] at this

/-- A rounded magnitude with its sign, where the sign is that of the exact value unless that is zero. -/
theorem withSign_rounds {s : Bool} {m den : Nat} {num : Int} (hd : 0 < den) (hm : num.natAbs = m)
    (hs : num ≠ 0 → s = decide (num < 0)) : RoundsTo (withSign s (roundMag m den)) num den := by
  refine ⟨isNaN_withSign _ (roundMag_le _ _), ?_⟩
  rw [orderKey_withSign _ (roundMag_le _ _)]
  unfold roundKey
  rw [hm]
  by_cases h : num = 0
  · have hz : roundMag m den = 0 := by
      have := roundMag_exact (m := 0) (by decide) hd
      rw [← hm, h]; simpa [magUnits_zero] using this
    rw [hz]; cases s <;> simp
  · rw [hs h]; simp only [decide_eq_true_eq]

theorem fmul_rounds {a b : F32} (ha : isFinite a = true) (hb : isFinite b = true) :
    RoundsTo (fmul a b) (fvalue a * fvalue b) (2 ^ 149) := by
  have e : fmul a b = withSign (fsign a != fsign b) (roundMag (fmag a * fmag b) (2 ^ 149)) := by
    unfold fmul
    simp [isNaN_eq_false_of_isFinite ha, isNaN_eq_false_of_isFinite hb, isInf_eq_false_of_isFinite ha,
      isInf_eq_false_of_isFinite hb]
  rw [e]
  refine withSign_rounds (by positivity) (by rw [Int.natAbs_mul, natAbs_fvalue, natAbs_fvalue]) fun h => ?_
  unfold fvalue at h ⊢
  cases fsign a <;> cases fsign b <;> simp only [Bool.false_eq_true, if_false, if_true, ne_eq, mul_eq_zero,
    not_or] at h ⊢ <;>
    have h1 : (0 : Int) < (fmag a : Int) := by omega
  all_goals have h2 : (0 : Int) < (fmag b : Int) := by omega
  all_goals have h3 := mul_pos h1 h2
  · simpa using h3.le
  · simpa [mul_neg] using h3
  · simpa [neg_mul] using h3
  · simpa using h3.le

/-- Division by a positive number. -/
theorem fdiv_rounds {a b : F32} (ha : isFinite a = true) (hb : isFinite b = true) (hs : fsign b = false) (h0 : 0 < fmag b) :
    RoundsTo (fdiv a b) (fvalue a * 2 ^ 149) (fmag b) := by
  have hz : isZero b = false := by
    unfold isZero
    refine decide_eq_false fun h => ?_
    rw [fmag_eq_magUnits, h] at h0; exact absurd h0 (by decide)
  have e : fdiv a b = withSign (fsign a) (roundMag (fmag a * 2 ^ 149) (fmag b)) := by
    unfold fdiv
    simp [isNaN_eq_false_of_isFinite ha, isNaN_eq_false_of_isFinite hb, isInf_eq_false_of_isFinite ha,
      isInf_eq_false_of_isFinite hb, hz, hs]
  rw [e]
  refine withSign_rounds h0 (by rw [Int.natAbs_mul, natAbs_fvalue]; rfl) fun h => ?_
  unfold fvalue at h ⊢
  cases fsign a <;> simp at h ⊢
  omega

/-! ### What follows for the result -/

/-- A result between two finite patterns. -/
theorem RoundsTo.between {r lo hi : F32} {num : Int} {den : Nat} (h : RoundsTo r num den) (hd : 0 < den)
    (hl : isFinite lo = true) (hh : isFinite hi = true) (h1 : fvalue lo * den ≤ num) (h2 : num ≤ fvalue hi * den) :
    isFinite r = true ∧ fvalue lo ≤ fvalue r ∧ fvalue r ≤ fvalue hi := by
  obtain ⟨k1, k2⟩ := roundKey_between hl hh hd h1 h2
  rw [← h.key] at k1 k2
  refine ⟨?_, (fvalue_le_iff _ _).mpr k1, (fvalue_le_iff _ _).mpr k2⟩
  have e1 := natAbs_orderKey lo
  have e2 := natAbs_orderKey hi
  have e3 := natAbs_orderKey r
  simp only [isFinite, decide_eq_true_eq] at hl hh ⊢
  omega

/-- The error of a finite result. -/
theorem RoundsTo.error {r : F32} {num : Int} {den : Nat} (h : RoundsTo r num den) (hd : 0 < den) (hf : isFinite r = true) :
    2 ^ 25 * |fvalue r * den - num| ≤ 2 * |num| + 2 ^ 24 * den := by
  have hk : (roundKey num den).natAbs < infBits := by
    rw [← h.key, natAbs_orderKey]; simpa [isFinite] using hf
  have := roundKey_error hd hk
  rwa [← h.key, ← fvalue_eq_keyValue] at this

end Sys2Proof.Machine
end

