-- ==== Sys2Proof/Laws/Glide.lean ====
section
/-! SUPPORT. How far rounding carries a ramp (rule R129): an advance and a target change keep `Glides`, and what PREPARE latches
is `ActiveOk`. -/

namespace Sys2Proof.Machine

/-! ### The ranges of rule R22 -/

/-- The patterns of twice and four times the span of a range: the exponent of its upper end one and two higher. -/
theorem paramRange_span : ∀ i : SpIdx,
    isFinite (paramRange i).lo = true ∧ isFinite (paramRange i).hi = true ∧
    isFinite ((paramRange i).hi + 0x00800000#32) = true ∧ isFinite ((paramRange i).hi + 0x01000000#32) = true ∧
    fvalue ((paramRange i).hi + 0x00800000#32) = 2 * (paramRange i).span ∧
    fvalue ((paramRange i).hi + 0x01000000#32) = 4 * (paramRange i).span ∧ 2 ^ 149 ≤ (paramRange i).span := by
  decide +kernel

/-- A result whose exact value is within twice the span. -/
theorem RoundsTo.within_two {i : SpIdx} {r : F32} {num : Int} {den : Nat} (h : RoundsTo r num den) (hd : 0 < den)
    (hb : |num| ≤ 2 * (paramRange i).span * den) : isFinite r = true ∧ |fvalue r| ≤ 2 * (paramRange i).span := by
  obtain ⟨-, -, hw, -, hv, -⟩ := paramRange_span i
  rw [abs_le] at hb
  obtain ⟨h1, h2, h3⟩ := h.between (lo := fneg ((paramRange i).hi + 0x00800000#32)) hd (by simpa using hw) hw
    (by rw [fvalue_fneg, hv]; linarith [hb.1]) (by rw [hv]; exact hb.2)
  rw [fvalue_fneg, hv] at h2
  rw [hv] at h3
  exact ⟨h1, abs_le.mpr ⟨h2, h3⟩⟩

/-- A result whose exact value is within four times the span. -/
theorem RoundsTo.within_four {i : SpIdx} {r : F32} {num : Int} {den : Nat} (h : RoundsTo r num den) (hd : 0 < den)
    (hb : |num| ≤ 4 * (paramRange i).span * den) : isFinite r = true := by
  obtain ⟨-, -, -, hw, -, hv, -⟩ := paramRange_span i
  rw [abs_le] at hb
  exact (h.between (lo := fneg ((paramRange i).hi + 0x01000000#32)) hd (by simpa using hw) hw
    (by rw [fvalue_fneg, hv]; linarith [hb.1]) (by rw [hv]; exact hb.2)).1

/-- A number between finite bounds is finite, and its value lies between theirs. -/
theorem finite_of_fle {lo v hi : F32} (hl : isFinite lo = true) (hh : isFinite hi = true) (h1 : fle lo v = true)
    (h2 : fle v hi = true) : isFinite v = true ∧ fvalue lo ≤ fvalue v ∧ fvalue v ≤ fvalue hi := by
  obtain ⟨_, _, k1⟩ := fle_iff.mp h1
  obtain ⟨_, _, k2⟩ := fle_iff.mp h2
  refine ⟨?_, (fvalue_le_iff _ _).mpr k1, (fvalue_le_iff _ _).mpr k2⟩
  have e1 := natAbs_orderKey lo
  have e2 := natAbs_orderKey hi
  have e3 := natAbs_orderKey v
  simp only [isFinite, decide_eq_true_eq] at hl hh ⊢
  omega

theorem InRange.value {i : SpIdx} {v : F32} (h : InRange (paramRange i) v) :
    isFinite v = true ∧ |fvalue v| ≤ (paramRange i).span := by
  obtain ⟨hl, hh, -⟩ := paramRange_span i
  obtain ⟨h1, h2, h3⟩ := finite_of_fle hl hh h.1 h.2
  have k1 : |fvalue (paramRange i).lo| ≤ (paramRange i).span := le_max_left _ _
  have k2 : |fvalue (paramRange i).hi| ≤ (paramRange i).span := le_max_right _ _
  rw [abs_le] at *
  exact ⟨h1, by omega, by omega⟩

/-! ### The ramp engine keeps the registers near their ranges -/

/-- A register at rest on a value of its range. -/
theorem Glides.rest {a : Active} {i : SpIdx} {v step : F32} (hv : InRange (paramRange i) v) (hs : isFinite step = true) :
    Glides a (paramRange i) ⟨v, v, step, 0#18⟩ where
  finite := ⟨hv.value.1, hs⟩
  near := by
    have h1 := hv.value.2
    have h2 := (paramRange_span i).2.2.2.2.2.2
    dsimp only; linarith
  drift := fun _ h => absurd rfl h

/-- The arithmetic of a linear step: where the exact sum lies. -/
theorem linear_sum {S C P T n R : Int} (hS : 0 ≤ S) (hn : 2 ≤ n) (hR : R ≤ 192000) (hC : |C| ≤ 2 * S)
    (hT : |T| ≤ S) (hd : 2 ^ 21 * |C + n * P - T| ≤ (R - n + 2) * S) : |C + P| ≤ 2 * S := by
  have h1 : (R - n + 2) * S ≤ 192000 * S := mul_le_mul_of_nonneg_right (by omega) hS
  have he := abs_le.mp (show |C + n * P - T| ≤ S by linarith)
  rw [abs_le] at *
  have hsplit : C + P = (C + n * P - T) + T - (n - 1) * P := by ring
  rcases le_total 0 P with hp | hp
  · have := mul_nonneg (by omega : 0 ≤ n - 1) hp
    constructor <;> linarith
  · have := mul_nonneg (by omega : 0 ≤ n - 1) (neg_nonneg.mpr hp)
    constructor <;> linarith

/-- The arithmetic of a linear step: how much farther from the exact line the rounded sum `C'` is. -/
theorem linear_drift {S C C' P T n R : Int} (hS : 2 ^ 149 ≤ S) (hsum : |C + P| ≤ 2 * S)
    (he : 2 ^ 25 * |C' - (C + P)| ≤ 2 * |C + P| + 2 ^ 24) (hd : 2 ^ 21 * |C + n * P - T| ≤ (R - n + 2) * S) :
    2 ^ 21 * |C' + (n - 1) * P - T| ≤ (R - (n - 1) + 2) * S := by
  have h1 : |C' + (n - 1) * P - T| ≤ |C' - (C + P)| + |C + n * P - T| := by
    rw [show C' + (n - 1) * P - T = (C' - (C + P)) + (C + n * P - T) by ring]; exact abs_add_le _ _
  have h2 : (R - (n - 1) + 2) * S = (R - n + 2) * S + S := by ring
  rw [h2]
  linarith

/-- One linear step that is not the last. -/
theorem Glides.linear {a : Active} {i : SpIdx} {r : Sp} (hg : Glides a (paramRange i) r) (ht : InRange (paramRange i) r.tgt)
    (hr : a.rampSamples.toNat ≤ 192000) (hn : r.cnt ≤ a.rampSamples) (hm : a.rmode = 0#1) (h2 : 2 ≤ r.cnt.toNat) :
    Glides a (paramRange i) { r with cur := fadd r.cur r.step, cnt := r.cnt - 1#18 } := by
  have hc0 : r.cnt ≠ 0#18 := by rintro h; rw [h] at h2; exact absurd h2 (by decide)
  have hd := hg.drift hm hc0
  have hS := (paramRange_span i).2.2.2.2.2.2
  have hadd := fadd_rounds hg.finite.1 hg.finite.2
  have hle : r.cnt.toNat ≤ a.rampSamples.toNat := hn
  have hcnt : (r.cnt - 1#18).toNat = r.cnt.toNat - 1 := by
    have := r.cnt.isLt
    rw [BitVec.toNat_sub, BitVec.toNat_ofNat]; omega
  have hsum := linear_sum (by linarith) (by omega) (by omega) hg.near ht.value.2 hd
  obtain ⟨hf, hv⟩ := hadd.within_two (i := i) (by decide) (by simpa using hsum)
  refine ⟨⟨hf, hg.finite.2⟩, hv, fun _ _ => ?_⟩
  have := linear_drift hS hsum (by simpa using hadd.error (by decide) hf) hd
  dsimp only
  rw [hcnt, Nat.cast_sub (by omega)]
  exact_mod_cast this

/-- The arithmetic of the difference `D` that a ramp goes. -/
theorem gap_bound {S C T D : Int} (hS : 2 ^ 149 ≤ S) (hC : |C| ≤ 2 * S) (hT : |T| ≤ S) : |T - C| ≤ 3 * S ∧
    (2 ^ 25 * |D - (T - C)| ≤ 2 * |T - C| + 2 ^ 24 → 2 ^ 25 * |D - (T - C)| ≤ 7 * S) := by
  have h1 : |T - C| ≤ 3 * S := by rw [abs_le] at *; omega
  exact ⟨h1, fun h => by linarith⟩

/-- One exponential step. -/
theorem Glides.exponential {a : Active} {i : SpIdx} {r : Sp} {n : BitVec 18} (hg : Glides a (paramRange i) r)
    (ht : InRange (paramRange i) r.tgt) (ha : fle Config.zero a.expAlpha = true ∧ fle a.expAlpha Config.one = true)
    (hm : a.rmode ≠ 0#1) :
    Glides a (paramRange i) { r with cur := fadd r.cur (fmul a.expAlpha (fsub r.tgt r.cur)), cnt := n } := by
  have hS := (paramRange_span i).2.2.2.2.2.2
  obtain ⟨hT, hTv⟩ := ht.value
  have hsub := fsub_rounds hT hg.finite.1
  obtain ⟨hgap, hgerr⟩ := gap_bound (D := fvalue (fsub r.tgt r.cur)) hS hg.near hTv
  have hD := hsub.within_four (i := i) (by decide) (by simp only [Nat.cast_one, mul_one]; linarith)
  have herr := hgerr (by simpa using hsub.error (by decide) hD)
  obtain ⟨hA, hA0, hA1⟩ := finite_of_fle (by decide) (by decide) ha.1 ha.2
  have hz : fvalue Config.zero = 0 := by decide
  have h1 : fvalue Config.one = 2 ^ 149 := by decide
  rw [hz] at hA0
  rw [h1] at hA1
  have hmul := fmul_rounds hA hD
  have hbetween : isFinite (fmul a.expAlpha (fsub r.tgt r.cur)) = true ∧
      ((0 ≤ fvalue (fmul a.expAlpha (fsub r.tgt r.cur)) ∧
          fvalue (fmul a.expAlpha (fsub r.tgt r.cur)) ≤ fvalue (fsub r.tgt r.cur)) ∨
        (fvalue (fsub r.tgt r.cur) ≤ fvalue (fmul a.expAlpha (fsub r.tgt r.cur)) ∧
          fvalue (fmul a.expAlpha (fsub r.tgt r.cur)) ≤ 0)) := by
    rcases le_total 0 (fvalue (fsub r.tgt r.cur)) with hp | hp
    · obtain ⟨b1, b2, b3⟩ := hmul.between (lo := Config.zero) (hi := fsub r.tgt r.cur) (by positivity) (by decide) hD
        (by rw [hz, zero_mul]; exact mul_nonneg hA0 hp)
        (by push_cast; rw [mul_comm]; exact mul_le_mul_of_nonneg_left hA1 hp)
      rw [hz] at b2
      exact ⟨b1, .inl ⟨b2, b3⟩⟩
    · obtain ⟨b1, b2, b3⟩ := hmul.between (lo := fsub r.tgt r.cur) (hi := Config.zero) (by positivity) hD (by decide)
        (by push_cast; rw [mul_comm (fvalue a.expAlpha)]; exact mul_le_mul_of_nonpos_left hA1 hp)
        (by rw [hz, zero_mul]; exact mul_nonpos_of_nonneg_of_nonpos hA0 hp)
      rw [hz] at b3
      exact ⟨b1, .inr ⟨b2, b3⟩⟩
  have hadd := fadd_rounds hg.finite.1 hbetween.1
  obtain ⟨hf, hv⟩ := hadd.within_two (i := i) (by decide) (by
    have hC := hg.near
    have hb := hbetween.2
    simp only [Nat.cast_one, mul_one]
    have he := abs_le.mp (show |fvalue (fsub r.tgt r.cur) - (fvalue r.tgt - fvalue r.cur)| ≤ (paramRange i).span by linarith)
    rw [abs_le] at *
    omega)
  exact ⟨⟨hf, hg.finite.2⟩, hv, fun h => absurd h hm⟩

/-- An advance keeps a register near its range (rules R123, R124, R129). -/
theorem Glides.advance {a : Active} {i : SpIdx} {r : Sp} (hg : Glides a (paramRange i) r) (ht : InRange (paramRange i) r.tgt)
    (ha : ActiveOk a) (hn : r.cnt ≤ a.rampSamples) : Glides a (paramRange i) (advance a.rmode a.expAlpha r) := by
  by_cases h0 : r.cnt = 0#18
  · rw [advance_idle _ _ h0]; exact hg
  · by_cases h1 : r.cnt = 1#18
    · rw [advance_last _ _ h1]
      exact (Glides.rest (a := a) ht hg.finite.2)
    · have h2 : 2 ≤ r.cnt.toNat := by
        have e0 : r.cnt.toNat ≠ 0 := fun e => h0 (BitVec.eq_of_toNat_eq e)
        have e1 : r.cnt.toNat ≠ 1 := fun e => h1 (BitVec.eq_of_toNat_eq e)
        omega
      have h3 : r.cnt - 1#18 ≠ 0#18 := fun e => h1 (by
        have := congrArg (· + 1#18) e; simpa using this)
      unfold Machine.advance
      rw [if_neg h0]
      dsimp only
      rw [if_neg h3]
      by_cases hm : a.rmode = 0#1
      · rw [if_pos hm]; exact hg.linear ht ha.ramp hn hm h2
      · rw [if_neg hm]; exact hg.exponential ht ha.alpha hm

/-- The arithmetic of a new ramp: the increment `P` is a rounded quotient of the rounded difference `D`. -/
theorem retarget_drift {S C P D T n : Int} (hS : 2 ^ 149 ≤ S) (hn : n ≤ 2 ^ 18) (hgap : |T - C| ≤ 3 * S)
    (hD : 2 ^ 25 * |D - (T - C)| ≤ 7 * S) (hP : 2 ^ 25 * |P * n - D| ≤ 2 * |D| + 2 ^ 24 * n) :
    2 ^ 21 * |C + n * P - T| ≤ 2 * S := by
  have h1 : |C + n * P - T| ≤ |P * n - D| + |D - (T - C)| := by
    rw [show C + n * P - T = (P * n - D) + (D - (T - C)) by ring]; exact abs_add_le _ _
  have h2 : |D| ≤ |D - (T - C)| + |T - C| := by
    have := abs_add_le (D - (T - C)) (T - C); rwa [sub_add_cancel] at this
  linarith

/-- The increment of a new ramp: a finite quotient by the ramp length, and how far the length times it is from the gap. -/
theorem increment_error {i : SpIdx} {d : F32} {n : Nat} (hd : isFinite d = true) (h1 : 1 ≤ n) (h2 : n < 2 ^ 24)
    (hv : |fvalue d| ≤ 4 * (paramRange i).span) : isFinite (fdiv d (u2f n)) = true ∧
      2 ^ 25 * |fvalue (fdiv d (u2f n)) * n - fvalue d| ≤ 2 * |fvalue d| + 2 ^ 24 * n := by
  obtain ⟨hu, hus, hum⟩ := u2f_exact h2
  have hden : 0 < n * 2 ^ 149 := by positivity
  have hdiv := fdiv_rounds hd hu hus (by rw [hum]; exact hden)
  rw [hum] at hdiv
  have hU : (0 : Int) < 2 ^ 149 := by positivity
  have hnum : |fvalue d * 2 ^ 149| = |fvalue d| * 2 ^ 149 := by rw [abs_mul, abs_of_pos hU]
  have hcast : ((n * 2 ^ 149 : Nat) : Int) = (n : Int) * 2 ^ 149 := by push_cast; rfl
  have hf : isFinite (fdiv d (u2f n)) = true := hdiv.within_four (i := i) hden (by
    rw [hnum, hcast, ← mul_assoc]
    refine mul_le_mul_of_nonneg_right (le_trans hv ?_) hU.le
    exact le_mul_of_one_le_right (le_trans (abs_nonneg _) hv) (by exact_mod_cast h1))
  have he := hdiv.error hden hf
  rw [hnum, hcast, show fvalue (fdiv d (u2f n)) * ((n : Int) * 2 ^ 149) - fvalue d * 2 ^ 149 =
    (fvalue (fdiv d (u2f n)) * n - fvalue d) * 2 ^ 149 by ring, abs_mul, abs_of_pos hU] at he
  refine ⟨hf, le_of_mul_le_mul_right ?_ hU⟩
  generalize (2 : Int) ^ 149 = U at *
  linarith

/-- A target change keeps a register near its range (rules R122, R129). -/
theorem Glides.retarget {a : Active} {i : SpIdx} {r : Sp} {p : Bool} {v : F32} (hg : Glides a (paramRange i) r)
    (hv : InRange (paramRange i) v) (ha : p = true → ActiveOk a) :
    Glides a (paramRange i) (retarget p a.rampSamples v r) := by
  rcases retarget_cases p a.rampSamples v r with ⟨-, e⟩ | ⟨-, -, e⟩ | ⟨-, hp, hn, e⟩
  · rw [e]; exact hg
  · rw [e]; exact .rest hv (by decide)
  · rw [e]
    have hS := (paramRange_span i).2.2.2.2.2.2
    have hR := (ha hp).ramp
    have hR0 : a.rampSamples.toNat ≠ 0 := fun e => hn (BitVec.eq_of_toNat_eq e)
    obtain ⟨hV, hVv⟩ := hv.value
    have hsub := fsub_rounds hV hg.finite.1
    obtain ⟨hgap, hgerr⟩ := gap_bound (D := fvalue (fsub v r.cur)) hS hg.near hVv
    have hD := hsub.within_four (i := i) (by decide) (by simp only [Nat.cast_one, mul_one]; linarith)
    have herr := hgerr (by simpa using hsub.error (by decide) hD)
    have hDv : |fvalue (fsub v r.cur)| ≤ 4 * (paramRange i).span := by
      have h2 := abs_add_le (fvalue (fsub v r.cur) - (fvalue v - fvalue r.cur)) (fvalue v - fvalue r.cur)
      rw [sub_add_cancel] at h2
      linarith
    obtain ⟨hf, hperr⟩ := increment_error (n := a.rampSamples.toNat) hD (by omega) (by omega) hDv
    refine ⟨⟨hg.finite.1, hf⟩, hg.near, fun _ _ => ?_⟩
    have hn18 : (a.rampSamples.toNat : Int) ≤ 2 ^ 18 := by exact_mod_cast (show a.rampSamples.toNat ≤ 2 ^ 18 by omega)
    have := retarget_drift hS hn18 hgap herr hperr
    dsimp only
    rwa [sub_self, zero_add]

/-! ### What PREPARE latches -/

/-- A quotient of `EXP_K` by a ramp length is a number of `[0, EXP_K]` (rule R126). -/
theorem expQuotient_range {n : Nat} (h1 : 1 ≤ n) (h2 : n < 2 ^ 24) :
    isFinite (fdiv Config.expK (u2f n)) = true ∧ 0 ≤ fvalue (fdiv Config.expK (u2f n)) ∧
      fvalue (fdiv Config.expK (u2f n)) ≤ fvalue Config.expK := by
  obtain ⟨hu, hus, hum⟩ := u2f_exact h2
  have hden : 0 < n * 2 ^ 149 := by positivity
  have hdiv := fdiv_rounds (a := Config.expK) (by decide) hu hus (by rw [hum]; exact hden)
  rw [hum] at hdiv
  have hk : 0 ≤ fvalue Config.expK := by decide
  have hz : fvalue Config.zero = 0 := by decide
  have hU : (0 : Int) < 2 ^ 149 := by positivity
  have hcast : ((n * 2 ^ 149 : Nat) : Int) = (n : Int) * 2 ^ 149 := by push_cast; rfl
  obtain ⟨b1, b2, b3⟩ := hdiv.between (lo := Config.zero) (hi := Config.expK) hden (by decide) (by decide)
    (by rw [hz, zero_mul]; exact mul_nonneg hk hU.le)
    (by rw [hcast, ← mul_assoc]
        exact mul_le_mul_of_nonneg_right (le_mul_of_one_le_right hk (by exact_mod_cast h1)) hU.le)
  rw [hz] at b2
  exact ⟨b1, b2, b3⟩

/-- The coefficient of the exponential ramp is in `[0, 1]` (rules R12, R126). -/
theorem expCoefficient_range {n : Nat} (h : n < 2 ^ 24) :
    fle Config.zero (expCoefficient n) = true ∧ fle (expCoefficient n) Config.one = true := by
  unfold expCoefficient
  split_ifs with h0
  · exact ⟨by decide, by decide⟩
  · obtain ⟨q1, q2, q3⟩ := expQuotient_range (by omega) h
    generalize fdiv Config.expK (u2f n) = q at *
    have hq1 : isFinite (fneg q) = true := by simpa using q1
    have hle : fle (fneg q) Config.zero = true := by
      rw [fle_iff_value (isNaN_eq_false_of_isFinite hq1) (by decide), fvalue_fneg, show fvalue Config.zero = 0 by decide]
      linarith
    have hmono := Config.num.props.mono.2.2.2.2.2 _ _ hle
    rw [(Config.num.props.exact0_one Config.zero (by decide)).2.1] at hmono
    have habs : fle (fabs (fneg q)) 0x42B00000#32 = true := by
      have hm : fmagBits (fabs (fneg q)) = fmagBits q := by
        unfold fabs fmagBits fneg
        simp only [BitVec.toNat_and, BitVec.toNat_xor]
        have e1 : (0x7FFFFFFF#32 : BitVec 32).toNat = 2 ^ 31 - 1 := rfl
        rw [e1, Nat.and_two_pow_sub_one_eq_mod, Nat.mod_mod, Nat.xor_mod_two_pow]
        simp
      have hs : fsign (fabs (fneg q)) = false := by
        unfold fsign fabs
        rw [BitVec.getLsbD_and, show (0x7FFFFFFF#32 : BitVec 32).getLsbD 31 = false by decide, Bool.and_false]
      have hk : fmagBits q ≤ fmagBits Config.expK := by
        rw [← fmag_le_iff]
        have e1 := natAbs_fvalue q
        have e2 := natAbs_fvalue Config.expK
        omega
      have hkb : fmagBits Config.expK ≤ 0x42B00000 := by decide
      rw [fle_iff]
      refine ⟨?_, by decide, ?_⟩
      · unfold isNaN; rw [hm]; refine decide_eq_false ?_
        have : infBits = 0x7F800000 := rfl
        omega
      · unfold orderKey; rw [hm, hs]
        have : fmagBits (0x42B00000#32) = 0x42B00000 := by decide
        rw [this, show fsign (0x42B00000#32) = false by decide]
        simp only [Bool.false_eq_true, if_false]
        omega
    obtain ⟨f1, f2⟩ := Config.num.props.range_exp.1 _ hq1 habs
    generalize Config.num.fns.exp (fneg q) = e at *
    have v1 := (fle_iff_value (isNaN_eq_false_of_isFinite f1) (by decide)).mp hmono
    have v0 : fvalue Config.zero ≤ fvalue e := (fvalue_le_iff _ _).mpr (flt_iff.mp f2).2.2.le
    have hz : fvalue Config.zero = 0 := by decide
    rw [hz] at v0
    obtain ⟨b1, b2, b3⟩ := (fsub_rounds (a := Config.one) (by decide) f1).between (lo := Config.zero) (hi := Config.one)
      (by decide) (by decide) (by decide) (by rw [hz]; omega) (by simp only [Nat.cast_one, mul_one]; omega)
    have hn := isNaN_eq_false_of_isFinite b1
    exact ⟨(fle_iff_value (by decide) hn).mpr b2, (fle_iff_value hn (by decide)).mpr b3⟩

/-- No valid ramp is longer than 192000 frames (rule R121). -/
theorem rampLength_le {rt fs : F32} (h1 : fle Config.zero rt = true) (h2 : fle rt Config.rampTimeLimit = true)
    (h3 : fle Config.srMin fs = true) (h4 : fle fs Config.srMax = true) : rampLength rt fs ≤ 192000 := by
  obtain ⟨a1, a2, a3⟩ := finite_of_fle (by decide) (by decide) h1 h2
  obtain ⟨c1, c2, c3⟩ := finite_of_fle (by decide) (by decide) h3 h4
  rw [show fvalue Config.zero = 0 by decide] at a2
  rw [show fvalue Config.rampTimeLimit = 2 ^ 149 by decide] at a3
  have c0 : 0 ≤ fvalue fs := le_trans (by decide) c2
  obtain ⟨b1, b2, b3⟩ := (fmul_rounds a1 c1).between (lo := Config.zero) (hi := Config.srMax) (by positivity) (by decide) (by decide)
    (by rw [show fvalue Config.zero = 0 by decide, zero_mul]; exact mul_nonneg a2 c0)
    (by push_cast; rw [mul_comm (fvalue Config.srMax)]; exact mul_le_mul a3 c3 c0 (by positivity))
  unfold rampLength f2uFloor
  split_ifs
  · have hm := natAbs_fvalue (fmul rt fs)
    have hs : fvalue Config.srMax = 192000 * 2 ^ 149 := by decide +kernel
    rw [show fvalue Config.zero = 0 by decide] at b2
    refine Nat.div_le_of_le_mul ?_
    have : (fmag (fmul rt fs) : Int) ≤ 192000 * 2 ^ 149 := by rw [← hs]; omega
    rw [mul_comm]
    exact_mod_cast this
  · exact Nat.zero_le _

/-- What a successful PREPARE latches (rules R121, R126, R323). -/
theorem activeOf_ok {cfg : Vector Word32 6} (h1 : ValidRate cfg) (h2 : ValidSetup cfg) : ActiveOk (activeOf cfg) := by
  have hr := rampLength_le h2.ramp.2.1 h2.ramp.2.2 h1.2.1 h1.2.2
  have hr' : rampLength (cfgRampTime cfg) (cfgSampleRate cfg) ≤ 192000 := hr
  refine ⟨h1.2, ?_, expCoefficient_range (by omega)⟩
  show (BitVec.ofNat 18 (rampLength (cfgRampTime cfg) (cfgSampleRate cfg))).toNat ≤ 192000
  rw [BitVec.toNat_ofNat]
  exact le_trans (Nat.mod_le _ _) hr'

end Sys2Proof.Machine
end

