-- ==== Sys2Proof/Laws/PerInstr.lean ====
section
/-! SUPPORT. The family `EncodeDecode`: the decoder reads each well-formed command back from its word (rules R90, R94, R95). -/

namespace Sys2Proof.Laws.EncodeDecode

/-- The decoder reads the command back from its word. -/
def Statement (i : Instr) : Prop := i.wellFormed = true → decode (encode i) = .ok i

theorem nop : Statement (.nop) := fun _ => (decode_packFields _ _ _ _).trans rfl
theorem cfgw (idx : BitVec 8) (data : Word32) : Statement (.cfgw idx data) := fun _ => (decode_packFields _ _ _ _).trans rfl
theorem prepare : Statement (.prepare) := fun _ => (decode_packFields _ _ _ _).trans rfl
theorem reset : Statement (.reset) := fun _ => (decode_packFields _ _ _ _).trans rfl
theorem process (n : BitVec 16) : Statement (.process n) := fun _ => (decode_packFields _ _ _ _).trans rfl
theorem rbwr (ch : BitVec 8) (sample : F32) : Statement (.rbwr ch sample) := fun _ => (decode_packFields _ _ _ _).trans rfl
theorem rbrd (ch : BitVec 8) (offsetBack : Word32) : Statement (.rbrd ch offsetBack) := fun _ => (decode_packFields _ _ _ _).trans rfl
theorem rbclr : Statement (.rbclr) := fun _ => (decode_packFields _ _ _ _).trans rfl
theorem clrerr : Statement (.clrerr) := fun _ => (decode_packFields _ _ _ _).trans rfl
theorem setpInput (value : F32) : Statement (.setpInput value) := fun _ => (decode_packFields _ _ _ _).trans rfl
theorem setpOutput (value : F32) : Statement (.setpOutput value) := fun _ => (decode_packFields _ _ _ _).trans rfl
theorem setpDrive (value : F32) : Statement (.setpDrive value) := fun _ => (decode_packFields _ _ _ _).trans rfl
theorem setpMix (value : F32) : Statement (.setpMix value) := fun _ => (decode_packFields _ _ _ _).trans rfl
theorem setpDistOutput (value : F32) : Statement (.setpDistOutput value) := fun _ => (decode_packFields _ _ _ _).trans rfl
theorem setpDelayTimeLeft (value : F32) : Statement (.setpDelayTimeLeft value) := fun _ => (decode_packFields _ _ _ _).trans rfl
theorem setpDelayTimeRight (value : F32) : Statement (.setpDelayTimeRight value) := fun _ => (decode_packFields _ _ _ _).trans rfl
theorem setpFeedback (value : F32) : Statement (.setpFeedback value) := fun _ => (decode_packFields _ _ _ _).trans rfl
theorem setpDelayMix (value : F32) : Statement (.setpDelayMix value) := fun _ => (decode_packFields _ _ _ _).trans rfl
theorem setpPan (value : F32) : Statement (.setpPan value) := fun _ => (decode_packFields _ _ _ _).trans rfl
theorem setpLeftPan (value : F32) : Statement (.setpLeftPan value) := fun _ => (decode_packFields _ _ _ _).trans rfl
theorem setpRightPan (value : F32) : Statement (.setpRightPan value) := fun _ => (decode_packFields _ _ _ _).trans rfl
theorem setpLfoFreq (value : F32) : Statement (.setpLfoFreq value) := fun _ => (decode_packFields _ _ _ _).trans rfl
theorem setpLfoDepth (value : F32) : Statement (.setpLfoDepth value) := fun _ => (decode_packFields _ _ _ _).trans rfl
theorem setpBand0Frequency (value : F32) : Statement (.setpBand0Frequency value) := fun _ => (decode_packFields _ _ _ _).trans rfl
theorem setpBand0Gain (value : F32) : Statement (.setpBand0Gain value) := fun _ => (decode_packFields _ _ _ _).trans rfl
theorem setpBand0Q (value : F32) : Statement (.setpBand0Q value) := fun _ => (decode_packFields _ _ _ _).trans rfl
theorem setpBand1Frequency (value : F32) : Statement (.setpBand1Frequency value) := fun _ => (decode_packFields _ _ _ _).trans rfl
theorem setpBand1Gain (value : F32) : Statement (.setpBand1Gain value) := fun _ => (decode_packFields _ _ _ _).trans rfl
theorem setpBand1Q (value : F32) : Statement (.setpBand1Q value) := fun _ => (decode_packFields _ _ _ _).trans rfl
theorem setpBand2Frequency (value : F32) : Statement (.setpBand2Frequency value) := fun _ => (decode_packFields _ _ _ _).trans rfl
theorem setpBand2Gain (value : F32) : Statement (.setpBand2Gain value) := fun _ => (decode_packFields _ _ _ _).trans rfl
theorem setpBand2Q (value : F32) : Statement (.setpBand2Q value) := fun _ => (decode_packFields _ _ _ _).trans rfl
theorem setpBand3Frequency (value : F32) : Statement (.setpBand3Frequency value) := fun _ => (decode_packFields _ _ _ _).trans rfl
theorem setpBand3Gain (value : F32) : Statement (.setpBand3Gain value) := fun _ => (decode_packFields _ _ _ _).trans rfl
theorem setpBand3Q (value : F32) : Statement (.setpBand3Q value) := fun _ => (decode_packFields _ _ _ _).trans rfl
theorem setpDistortiontype (value : F32) : Statement (.setpDistortiontype value) := fun _ => (decode_packFields _ _ _ _).trans rfl
theorem setpDelaytype (value : F32) : Statement (.setpDelaytype value) := fun _ => (decode_packFields _ _ _ _).trans rfl
theorem setpLfoEnabled (value : F32) : Statement (.setpLfoEnabled value) := fun _ => (decode_packFields _ _ _ _).trans rfl
theorem setpPanMode (value : F32) : Statement (.setpPanMode value) := fun _ => (decode_packFields _ _ _ _).trans rfl
theorem setpBand0Enabled (value : F32) : Statement (.setpBand0Enabled value) := fun _ => (decode_packFields _ _ _ _).trans rfl
theorem setpBand1Enabled (value : F32) : Statement (.setpBand1Enabled value) := fun _ => (decode_packFields _ _ _ _).trans rfl
theorem setpBand2Enabled (value : F32) : Statement (.setpBand2Enabled value) := fun _ => (decode_packFields _ _ _ _).trans rfl
theorem setpBand3Enabled (value : F32) : Statement (.setpBand3Enabled value) := fun _ => (decode_packFields _ _ _ _).trans rfl
theorem setp (pid : BitVec 8) (value : F32) : Statement (.setp pid value) := by
  intro h
  have hz : recognisedPid pid = false := by simpa [Instr.wellFormed] using h
  have hd : decodeSetp pid value = .setp pid value := by
    simp only [recognisedPid, Bool.or_eq_false_iff, Bool.and_eq_false_iff, decide_eq_false_iff_not] at hz
    unfold decodeSetp
    split <;> first | omega | rfl
  rw [encode, decode_packFields]
  exact congrArg Except.ok hd
theorem getp (pid : BitVec 8) : Statement (.getp pid) := fun _ => (decode_packFields _ _ _ _).trans rfl
theorem getc (pid : BitVec 8) : Statement (.getc pid) := fun _ => (decode_packFields _ _ _ _).trans rfl
theorem status : Statement (.status) := fun _ => (decode_packFields _ _ _ _).trans rfl
theorem cfgr (idx : BitVec 8) : Statement (.cfgr idx) := fun _ => (decode_packFields _ _ _ _).trans rfl

end Sys2Proof.Laws.EncodeDecode
end

