-- ==== Sys2Proof/Laws/Step.lean ====
section
/-! SUPPORT. What a step can do, said once: the four cases of a step, what performing a word is, what the engine does inside a
frame, and the end of a frame. Later proofs take these apart and unfold no sequencer definition. -/

namespace Sys2Proof.Machine

/-- The state in which the engine goes on inside a frame, from a running block at `s` (rules R72, R73): already inside; at a
boundary with no `CQ` word; at a boundary where the schedule lets the waiting `CQ` word wait. -/
inductive Enters (s : State) : State → Prop where
  | inside : s.inFrame = true → Enters s s
  | noControl : s.inFrame = false → s.io.cq = [] → Enters s (s.setInFrame true)
  | controlWaits : s.inFrame = false → s.io.cq ≠ [] → Config.schedule.serve s.tick = false →
      Enters s ((nextTick s).setInFrame true)

theorem Enters.inFrame_eq {s u : State} (h : Enters s u) : u.inFrame = true := by
  cases h with
  | inside h => exact h
  | noControl => rfl
  | controlWaits => rfl

/-- All that entering a frame changes: the mark that the boundary is left, and the counter of the schedule. -/
theorem Enters.eq {s u : State} (h : Enters s u) : ∃ n, u = (s.setTick n).setInFrame true := by
  cases h with
  | inside h => exact ⟨s.tick, by rw [← h]; rfl⟩
  | noControl => exact ⟨s.tick, rfl⟩
  | controlWaits => exact ⟨s.tick + 1, rfl⟩

/-- The four cases of a step. -/
theorem step_cases (s : State) :
    (s.io.rst = true ∧ step s = .next s.hardwareReset) ∨
    (s.io.rst = false ∧ s.seq.busy = false ∧ s.io.cq = [] ∧ s.io.aq = [] ∧ step s = .next s) ∨
    (∃ q w t, Takes s q w t ∧ step s = perform q w t) ∨
    (s.io.rst = false ∧ s.seq.busy = true ∧ ∃ u, Enters s u ∧ step s = engineStep u) := by
  unfold step nextStep
  cases hr : s.io.rst
  · rw [if_neg Bool.false_ne_true]
    cases hb : s.seq.busy
    · rw [if_neg Bool.false_ne_true]
      unfold runIdle
      cases hc : s.io.cq with
      | nil =>
        cases ha : s.io.aq with
        | nil => exact .inr (.inl ⟨rfl, rfl, rfl, rfl, rfl⟩)
        | cons v as => exact .inr (.inr (.inl ⟨_, _, _, .audio v as hr hb ha hc, rfl⟩))
      | cons w cs =>
        cases ha : s.io.aq with
        | nil => exact .inr (.inr (.inl ⟨_, _, _, .control w cs hr hb hc ha, rfl⟩))
        | cons v as =>
          cases ht : controlTurn s
          · exact .inr (.inr (.inl ⟨_, _, _, .audioFirst v as hr hb ha (by rw [hc]; exact List.cons_ne_nil _ _) ht, by simp; rfl⟩))
          · exact .inr (.inr (.inl ⟨_, _, _, .controlFirst w cs hr hb hc (by rw [ha]; exact List.cons_ne_nil _ _) ht, by simp; rfl⟩))
    · rw [if_pos rfl]
      unfold runBlock
      cases hf : s.inFrame
      · rw [if_neg Bool.false_ne_true]
        cases hc : s.io.cq with
        | nil => exact .inr (.inr (.inr ⟨rfl, rfl, _, .noControl hf hc, rfl⟩))
        | cons w cs =>
          cases ht : controlTurn s
          · exact .inr (.inr (.inr ⟨rfl, rfl, _, .controlWaits hf (by rw [hc]; exact List.cons_ne_nil _ _) ht, by simp⟩))
          · exact .inr (.inr (.inl ⟨_, _, _, .controlAtBoundary w cs hr hb hf hc ht, by simp; rfl⟩))
      · exact .inr (.inr (.inr ⟨rfl, rfl, _, .inside hf, by rw [if_pos rfl]⟩))
  · exact .inl ⟨rfl, by rw [if_pos rfl]⟩

/-- What performing a word is: an illegal word raises `E_ILLEGAL`, a legal one is executed for its queue (rules R92, R98). -/
theorem perform_cases (q : Queue) (w : Command) (s : State) :
    (∃ e, classify q w = .error e ∧ perform q w s = .next (s.raise .illegal)) ∨
    ∃ i, classify q w = .ok i ∧ perform q w s = exec i (s.setIssuer q) := by
  unfold perform
  cases h : classify q w with
  | error e => exact .inl ⟨e, rfl, rfl⟩
  | ok i => exact .inr ⟨i, rfl, rfl⟩

/-- What the engine does inside a frame (rules R69, R250, R251). -/
theorem engineStep_cases (s : State) :
    (s.seq.rem = 0#16 ∧ engineStep s = .next (endBlock s)) ∨
    (∃ k, s.seq.rem ≠ 0#16 ∧ s.passing = some k ∧ engineStep s = .next (passWord k s)) ∨
    (s.seq.rem ≠ 0#16 ∧ s.passing = none ∧ s.frameSupply.length < s.frameWords ∧
      engineStep s = .next s.popAvailable) ∨
    (∃ f, s.seq.rem ≠ 0#16 ∧ s.passing = none ∧ frameStep s = .error f ∧ engineStep s = .fault f) ∨
    ∃ t, s.seq.rem ≠ 0#16 ∧ s.passing = none ∧ s.frameWords ≤ s.frameSupply.length ∧ frameStep s = .ok t ∧
      engineStep s = .next (endFrame t) := by
  unfold engineStep
  by_cases hr : s.seq.rem = 0#16
  · exact .inl ⟨hr, by rw [if_pos hr]⟩
  · rw [if_neg hr]
    cases hp : s.passing with
    | some k => exact .inr (.inl ⟨k, hr, rfl, rfl⟩)
    | none =>
      by_cases hl : s.frameSupply.length < s.frameWords
      · exact .inr (.inr (.inl ⟨hr, rfl, hl, by dsimp only; rw [if_pos hl]⟩))
      · cases hf : frameStep s with
        | error f => exact .inr (.inr (.inr (.inl ⟨f, hr, rfl, rfl, by dsimp only; rw [if_neg hl]⟩)))
        | ok t => exact .inr (.inr (.inr (.inr ⟨t, hr, rfl, Nat.le_of_not_lt hl, rfl, by dsimp only; rw [if_neg hl]⟩)))

/-- With `AIN` empty the pops that it can serve are none, and the engine holds (rule R69). -/
theorem popAvailable_of_empty {s : State} (h : s.io.ain = []) : s.popAvailable = s := by
  have h1 : s.frameSupply = s.popped := by unfold State.frameSupply; rw [h, List.append_nil]
  unfold State.popAvailable
  rw [h1, ← h]
  rfl

/-- One word of a pass-through: the hold, a word inside the frame, or the last word of the frame (rule R251). -/
theorem passWord_cases (k : Nat) (s : State) :
    (s.io.ain = [] ∧ passWord k s = s) ∨
    ∃ w rest, s.io.ain = w :: rest ∧
      let s' := s.setIo { s.io with ain := rest, aout := s.io.aout ++ [w] }
      (k + 1 < s.frameWords ∧ passWord k s = s'.setPassing (some (k + 1))) ∨
      (s.frameWords ≤ k + 1 ∧ passWord k s = endFrame (s'.setPassing (some 0))) := by
  unfold passWord
  cases h : s.io.ain with
  | nil => exact .inl ⟨rfl, rfl⟩
  | cons w rest =>
    refine .inr ⟨w, rest, rfl, ?_⟩
    by_cases hk : k + 1 < s.frameWords
    · exact .inl ⟨hk, by dsimp only; rw [if_pos hk]⟩
    · exact .inr ⟨Nat.le_of_not_lt hk, by dsimp only; rw [if_neg hk]; rfl⟩

/-- The end of a frame: the end of the block with its last frame, else one frame less and the next boundary (rule R250). -/
theorem endFrame_cases (s : State) :
    (s.seq.rem - 1#16 = 0#16 ∧ endFrame s = endBlock s) ∨
    (s.seq.rem - 1#16 ≠ 0#16 ∧ endFrame s = (s.setSeq ⟨true, s.seq.rem - 1#16⟩).setInFrame false) := by
  unfold endFrame
  by_cases h : s.seq.rem - 1#16 = 0#16
  · exact .inl ⟨h, by dsimp only; rw [if_pos h]⟩
  · exact .inr ⟨h, by dsimp only; rw [if_neg h]⟩

end Sys2Proof.Machine
end

