-- ==== Sys2Proof/Machine/Accuracy.lean ====
section
/-! DEFINITION. `P_ACC(k)` of rule R12, the one property of `NUM` with a parameter: a premise that a claim can take. The model
does not assume it for any `k`. -/

namespace Sys2Proof.Machine

/-- The real number a finite pattern stands for. -/
noncomputable def realValue (v : F32) : ℝ := (fvalue v : ℝ) / 2 ^ 149

/-- The least magnitude that rounds to infinity: half a unit in the last place above the largest finite value, where the tie
goes to the even significand (rule R11). -/
noncomputable def overflowBound : ℝ := (2 ^ 25 - 1) * 2 ^ 103

/-- `c` is the real `y` correctly rounded (rule R11): an infinity of its sign from `overflowBound` on; below it a nearest
finite pattern, of two equally near values the one with the even significand. -/
def CorrectlyRounded (c : F32) (y : ℝ) : Prop :=
  if overflowBound ≤ |y| then c = if 0 < y then Config.inf else Config.minusInf
  else
    isFinite c = true ∧ ∀ w, isFinite w = true → |realValue c - y| ≤ |realValue w - y| ∧
      (|realValue c - y| = |realValue w - y| → realValue w = realValue c ∨ fmagBits c % 2 = 0)

/-- `v` is within `k` units in the last place of the correctly rounded `y`: patterns of one sign follow each other in the
order of their magnitude bits, infinity after the largest finite one. -/
def WithinUlps (k : Nat) (v : F32) (y : ℝ) : Prop :=
  isNaN v = false ∧ ∃ c, CorrectlyRounded c y ∧ (orderKey v - orderKey c).natAbs ≤ k

/-- `P_ACC(k)` for one function. -/
def Accurate (k : Nat) (f : F32 → F32) (g : ℝ → ℝ) : Prop :=
  ∀ x, isFinite x = true → WithinUlps k (f x) (g (realValue x))

/-- `P_ACC(k)` (rule R12). -/
structure NumAccurate (k : Nat) (n : Config.NumFns) : Prop where
  sin : Accurate k n.sin Real.sin
  cos : Accurate k n.cos Real.cos
  atan : Accurate k n.atan Real.arctan
  tanh : Accurate k n.tanh Real.tanh
  sinh : Accurate k n.sinh Real.sinh
  exp : Accurate k n.exp Real.exp
  db2lin : Accurate k n.db2lin fun d => (10 : ℝ) ^ (d / 20)
  db2a : Accurate k n.db2a fun d => (10 : ℝ) ^ (d / 40)

end Sys2Proof.Machine
end

