-- ==== Sys2Proof/Tests/Slice0.lean ====
section
/-! SUPPORT. Tests: the smoke test of well-formedness, a word for every row of the opcode table, the vectors of
`spec/95_test_vectors.md` that involve no open value, and for every statement with hypotheses a state and operands that
meet them. -/

set_option Elab.async false

namespace Sys2Proof.Tests

open Sys2Proof.Machine

/-! ### Well-formedness -/

/-- The catch-all SETP is refused for a recognised identifier (rule R95), at each end of the two recognised ranges. -/
theorem test_wellFormed_refuses : (Instr.setp 0x00 1).wellFormed = false ∧ (Instr.setp 0x19 1).wellFormed = false ∧
    (Instr.setp 0x20 1).wellFormed = false ∧ (Instr.setp 0x27 1).wellFormed = false := by decide

/-- It is accepted next to those ranges. -/
theorem test_wellFormed_accepts : (Instr.setp 0x1A 1).wellFormed = true ∧ (Instr.setp 0x1F 1).wellFormed = true ∧
    (Instr.setp 0x28 1).wellFormed = true ∧ (Instr.setp 0xFF 1).wellFormed = true := by decide

/-! ### Words written out from rule R94 and the vectors T-E -/

/-- T-E1, T-E2, T-E5 to T-E12, T-E15 to T-E18: the commands but SETP. -/
theorem test_decode_commands : ∀ p ∈ ([
    (0x0000000000000000, .nop), (0x01000000472C4400, .cfgw 0x00 0x472C4400), (0x0105000000000001, .cfgw 0x05 1),
    (0x0200000000000000, .prepare), (0x0300000000000000, .reset), (0x0400020000000000, .process 512),
    (0x0400FFFF00000000, .process 65535), (0x05010000BF800000, .rbwr 1 0xBF800000),
    (0x0601000000015887, .rbrd 1 88199), (0x0700000000000000, .rbclr), (0x0800000000000000, .clrerr),
    (0x1119000000000000, .getp 0x19), (0x120D000000000000, .getc 0x0D), (0x1300000000000000, .status),
    (0x1416000000000000, .cfgr 0x16)] : List (Command × Instr)), decode p.1 = .ok p.2 := by decide +kernel

/-- Rules R276 to R301, T-E13, T-E14: SETP of the smoothed parameters. -/
theorem test_decode_setp_smoothed : ∀ p ∈ ([
    (0x10000000C1F00000, .setpInput 0xC1F00000), (0x1001000040C00000, .setpOutput 0x40C00000),
    (0x1002000041F00000, .setpDrive 0x41F00000), (0x100300007FC00000, .setpMix 0x7FC00000),
    (0x1004000040C00000, .setpDistOutput 0x40C00000), (0x1005000041200000, .setpDelayTimeLeft 0x41200000),
    (0x10060000451C4000, .setpDelayTimeRight 0x451C4000), (0x10070000FF800000, .setpFeedback 0xFF800000),
    (0x100800003F800000, .setpDelayMix 0x3F800000), (0x100900003F800000, .setpPan 0x3F800000),
    (0x100A00003F800000, .setpLeftPan 0x3F800000), (0x100B0000BF800000, .setpRightPan 0xBF800000),
    (0x100C000041A40000, .setpLfoFreq 0x41A40000), (0x100D00003F800000, .setpLfoDepth 0x3F800000),
    (0x100E000041200000, .setpBand0Frequency 0x41200000), (0x100F000040C00000, .setpBand0Gain 0x40C00000),
    (0x101000003F34FDF4, .setpBand0Q 0x3F34FDF4), (0x1011000043FA0000, .setpBand1Frequency 0x43FA0000),
    (0x1012000040C00000, .setpBand1Gain 0x40C00000), (0x101300003F34FDF4, .setpBand1Q 0x3F34FDF4),
    (0x1014000044FA0000, .setpBand2Frequency 0x44FA0000), (0x1015000040C00000, .setpBand2Gain 0x40C00000),
    (0x101600003F34FDF4, .setpBand2Q 0x3F34FDF4), (0x1017000045FA0000, .setpBand3Frequency 0x45FA0000),
    (0x1018000040C00000, .setpBand3Gain 0x40C00000), (0x101900003F34FDF4, .setpBand3Q 0x3F34FDF4)]
    : List (Command × Instr)), decode p.1 = .ok p.2 := by decide +kernel

/-- Rules R302 to R309, R273: SETP of the cells and of an unrecognised identifier (T-C2, T-C9, T-C14, T-C27). -/
theorem test_decode_setp_cells : ∀ p ∈ ([
    (0x102000003F000000, .setpDistortiontype 0x3F000000), (0x102100003EFAE148, .setpDelaytype 0x3EFAE148),
    (0x1022000040000000, .setpLfoEnabled 0x40000000), (0x102300003F800000, .setpPanMode 0x3F800000),
    (0x1024000000000000, .setpBand0Enabled 0), (0x1025000000000000, .setpBand1Enabled 0),
    (0x1026000000000000, .setpBand2Enabled 0), (0x1027000000000000, .setpBand3Enabled 0),
    (0x101A00003F800000, .setp 0x1A 0x3F800000)] : List (Command × Instr)), decode p.1 = .ok p.2 := by decide +kernel

/-- T-E19 to T-E25: illegal words, and the queue a word is on. -/
theorem test_classify :
    classify .audio 0x0900000000000000 = .error (.reservedOpcode 0x09) ∧
    classify .audio 0xFF00000000000000 = .error (.reservedOpcode 0xFF) ∧
    classify .audio 0x0400000100000001 = .error (.nonzeroField 0x04) ∧
    classify .audio 0x1300000000000001 = .error (.nonzeroField 0x13) ∧
    classify .audio 0x1101000100000000 = .error (.nonzeroField 0x11) ∧
    classify .control 0x0200000000000000 = .error (.engineOnControl 0x02) ∧
    classify .control 0x100900003F800000 = .ok (.setpPan 0x3F800000) := by decide +kernel

/-- The edges of the reserved opcodes (rule R94). -/
theorem test_reserved_edges :
    classify .audio 0x0F00000000000000 = .error (.reservedOpcode 0x0F) ∧
    classify .audio 0x1500000000000000 = .error (.reservedOpcode 0x15) ∧
    classify .audio 0x1400000000000000 = .ok (.cfgr 0) ∧ classify .audio 0x1000000000000000 = .ok (.setpInput 0) := by
  decide +kernel

/-- Rule R63: the bytes of `process 512`, least significant first. -/
theorem test_command_bytes : commandBytes 0x0400020000000000 = [0x00, 0x00, 0x00, 0x00, 0x00, 0x02, 0x00, 0x04] := by decide

/-! ### The assembler (rules R100, R101) -/

theorem test_assemble_vectors :
    Assembler.assembleLine "setp band3_q, 0.707".toList = some [(.audio, 0x101900003F34FDF4)] ∧
    Assembler.assembleLine "c: getc lfoDepth ; a comment".toList = some [(.control, 0x120D000000000000)] ∧
    Assembler.assembleLine "rbwr 1, -1.0".toList = some [(.audio, 0x05010000BF800000)] := by decide +kernel

/-- T-C8, T-C12, T-C13. -/
theorem test_assemble_nonfinite :
    Assembler.assembleLine "setp distortiontype, NaN".toList = some [(.audio, 0x102000007FC00000)] ∧
    Assembler.assembleLine "setp delaytype, +inf".toList = some [(.audio, 0x102100007F800000)] ∧
    Assembler.assembleLine "setp delaytype, -inf".toList = some [(.audio, 0x10210000FF800000)] := by decide +kernel

theorem test_assemble_pseudo :
    Assembler.assembleLine "prepare! 44100.0, 512, 2".toList = some [(.audio, 0x01000000472C4400),
      (.audio, 0x0101000000000200), (.audio, 0x0102000000000002), (.audio, 0x0200000000000000)] ∧
    Assembler.assembleLine "setband 1, gain, 6.0".toList = some [(.audio, 0x1012000040C00000)] := by decide +kernel

/-! ### Constants (rules R7, R11, R13): the nearest patterns to the decimals of the rules -/

theorem test_constants :
    Config.srMin = fliteral false 8000 1 ∧ Config.srMax = fliteral false 192000 1 ∧
    Config.maxDelayMsLimit = fliteral false 2000 1 ∧ Config.rampTimeDefault = fliteral false 2 100 ∧
    Config.expK = fliteral false 69077554 10000000 ∧ Config.clipLevel = fliteral false 99 100 ∧
    Config.satAsym = fliteral false 2 10 ∧ Config.eqFHiRatio = fliteral false 49 100 ∧
    Config.eqQLo = fliteral false 1 10 ∧ Config.pi = fliteral false 314159265358979 100000000000000 ∧
    Config.twoPi = fliteral false 628318530717959 100000000000000 ∧
    Config.halfPi = fliteral false 157079632679490 100000000000000 ∧
    Config.quarterPi = fliteral false 785398163397448 1000000000000000 ∧
    Config.twoOverPi = fliteral false 636619772367581 1000000000000000 := by decide +kernel

/-! ### Arithmetic -/

/-- T-R1: ring lengths. -/
theorem test_rbLength : rbLength 0x44FA0000 0x472C4400 = 88200 ∧ rbLength 0x44FA0000 0x483B8000 = 384000 ∧
    rbLength 0x41200000 0x472C4400 = 441 ∧ rbLength 0x3FC00000 0x472C4400 = 67 ∧ rbLength 0x3F000000 0x45FA0000 = 4 ∧
    rbLength 0x3DCCCCCD 0x45FA0000 = 1 := by decide +kernel

/-- T-P3: ramp lengths. -/
theorem test_rampLength : rampLength 0x3CA3D70A 0x472C4400 = 882 ∧ rampLength 0x3CA3D70A 0x46AC4400 = 441 ∧
    rampLength 0x3A03126F 0x45FA0000 = 4 ∧ rampLength 0x38D1B717 0x472C4400 = 4 ∧
    rampLength 0x3F800000 0x483B8000 = 192000 ∧ rampLength 0 0x472C4400 = 0 := by decide +kernel

/-- T-L1: read offsets, the clamps and the ties among them. -/
theorem test_delayOffset : delayOffset 0x41200000 0x472C4400 88200 = 441 ∧ delayOffset 0x44FA0000 0x472C4400 88200 = 88199 ∧
    delayOffset 0x3D800000 0x45FA0000 4 = 1 ∧ delayOffset 0x3E400000 0x45FA0000 4 = 2 ∧
    delayOffset 0x3F800000 0x45FA0000 4 = 3 ∧ delayOffset 0xBA83126F 0x472C4400 88200 = 0 := by decide +kernel

/-- T-L1: a NaN delay time gives offset 0. -/
theorem test_delayOffset_nan : delayOffset 0x7FC00000 0x472C4400 88200 = 0 := by
  have h : isNaN (fdiv (fmul 0x7FC00000 0x472C4400) Config.thousand) = true :=
    isNaN_fdiv (.inl (isNaN_fmul (.inl (by decide))))
  unfold delayOffset
  rw [fclamp_of_isNaN _ _ h, f2uRound_of_isNaN h]

/-- T-Y3, T-N2, T-N5: the DC-blocker pole, the LFO increment and phases, and the exact end of the pan angle. -/
theorem test_rates : dcbPole 0x472C4400 = 0x3F7FA2A1 ∧ lfoIncrement 0x3F800000 0x472C4400 = 0x39156593 ∧
    lfoIncrement 0x41A00000 0x45FA0000 = 0x3C80ADFD ∧ lfoNext 0x3F800000 0x472C4400 0x39956593 = 0x39E0185C ∧
    panAngle 0xBF000000 = 0x3EC90FDB ∧ panAngle 0x3F800000 = 0x3FC90FDB := by decide +kernel

/-- T-P1: the linear ramp to 1.0 in four advances. -/
theorem test_linear_ramp :
    let r0 := retarget true 4#18 0x3F800000 ⟨0, 0, 0, 0#18⟩
    let r1 := advance 0#1 0 r0
    let r2 := advance 0#1 0 r1
    let r3 := advance 0#1 0 r2
    r0 = ⟨0, 0x3F800000, 0x3E800000, 4#18⟩ ∧ r1.cur = 0x3E800000 ∧ r2.cur = 0x3F000000 ∧ r3.cur = 0x3F400000 ∧
    advance 0#1 0 r3 = ⟨0x3F800000, 0x3F800000, 0x3E800000, 0#18⟩ := by decide +kernel

/-- T-P6: retargets in mid-ramp, to the same value and to 0.0. -/
theorem test_retarget :
    let r : Sp := ⟨0x3F000000, 0x3F800000, 0x3E800000, 2#18⟩
    retarget true 4#18 0x3F800000 r = r ∧ retarget true 4#18 0 r = ⟨0x3F000000, 0, 0xBE000000, 4#18⟩ := by decide +kernel

/-- T-P2: the exponential ramp's first three values, with `EXP_ALPHA = 0x3F5279DE`. -/
theorem test_exponential_ramp :
    let r1 := advance 1#1 0x3F5279DE ⟨0, 0x3F800000, 0x3E800000, 4#18⟩
    let r2 := advance 1#1 0x3F5279DE r1
    let r3 := advance 1#1 0x3F5279DE r2
    r1.cur = 0x3F5279DE ∧ r2.cur = 0x3F77E792 ∧ r3.cur = 0x3F7E8F77 ∧ (advance 1#1 0x3F5279DE r3).cur = 0x3F800000 := by
  decide +kernel

/-- T-Q8: the filter step. -/
theorem test_biquad :
    let k : Coef := ⟨0x3F000000, 0x3E800000, 0x3E000000, 0xBF000000, 0x3E800000⟩
    let p1 := biquadStep k ⟨0, 0⟩ 0x3F800000
    let p2 := biquadStep k p1.2 0
    let p3 := biquadStep k p2.2 0
    p1 = (0x3F000000, ⟨0x3F000000, 0⟩) ∧ p2 = (0x3F000000, ⟨0x3E800000, 0xBE000000⟩) ∧
    p3 = (0x3E800000, ⟨0, 0xBD800000⟩) ∧ biquadStep k p3.2 0x40000000 = (0x3F800000, ⟨0x3F700000, 0⟩) := by
  decide +kernel

/-- T-Q3: the peaking design of +6 dB at 500 Hz, from the intermediate values the vector gives: `A = 0x3FB4CE08`, and `cw` and
`alpha` as the nearest patterns to its decimals; the values before normalisation it prints. -/
theorem test_peaking :
    let d := designPeaking 0x3FB4CE08 (fliteral false 99746364 100000000) (fliteral false 50337829 1000000000)
    d.b0 = fliteral false 1071104 1000000 ∧ d.a0 = fliteral false 10356364 10000000 ∧
    d.b1 = fliteral true 19949273 10000000 ∧ d.a1 = d.b1 ∧ d.b2 = fliteral false 92889595 100000000 ∧
    d.a2 = fliteral false 96436357 100000000 := by decide +kernel

/-- T-S2, rule R164: HardClip with gain 1. -/
theorem test_hardClip : shape0 Config.one 0x40000000 = 0x3F7D70A4 ∧ shape0 Config.one 0xBF000000 = 0xBF000000 ∧
    shape0 Config.one 0x80000000 = 0x80000000 ∧ shape0 Config.one 0xFF800000 = 0xBF7D70A4 := by decide +kernel

/-! ### Commands on small states -/

/-- The state a command leaves; the state itself if it does not answer a next state. -/
def after (i : Instr) (s : State) : State :=
  match exec i s with
  | .next t => t
  | _ => s

/-- The state after a step; the state itself if the step does not answer a next state. -/
def stepped (s : State) : State :=
  match step s with
  | .next t => t
  | _ => s

/-- The state after a frame's delay stage, and its output. -/
def delayed (p : Frame × State) : Frame × State :=
  match delayFrame p.1 p.2 with
  | .ok q => q
  | .error _ => p

/-- The last word answered on `RSP_A`. -/
def answer (i : Instr) (s : State) : Word32 := (after i s).io.rspA.getLastD 0xDEADBEEF

/-- T-C1 to T-C7, T-C9 to T-C14: SETP of the cells, each from hardware reset, then GETP. -/
theorem test_setp_cells : ∀ p ∈ ([
    (.setpDistortiontype 0x3ECCCCCD, 0x20, 0x00000000), (.setpDistortiontype 0x3F000000, 0x20, 0x3F800000),
    (.setpDistortiontype 0x3FBFFFAC, 0x20, 0x3F800000), (.setpDistortiontype 0x3FC00000, 0x20, 0x40000000),
    (.setpDistortiontype 0x402CCCCD, 0x20, 0x40000000), (.setpDistortiontype 0xBF800000, 0x20, 0x00000000),
    (.setpDistortiontype 0x7F800000, 0x20, 0x40000000), (.setpDelaytype 0x3EFAE148, 0x21, 0x00000000),
    (.setpDelaytype 0x3F000000, 0x21, 0x3F800000), (.setpDelaytype 0x80000000, 0x21, 0x00000000),
    (.setpDelaytype 0xFF800000, 0x21, 0x00000000), (.setpLfoEnabled 0x40000000, 0x22, 0x3F800000),
    (.setpPanMode 0x3F800000, 0x23, 0x3F800000), (.setpBand3Enabled 0x00000000, 0x27, 0x00000000)]
    : List (Instr × BitVec 8 × Word32)),
    answer (.getp p.2.1) (after p.1 State.reset) = p.2.2 ∧ answer (.getc p.2.1) (after p.1 State.reset) = p.2.2 := by
  decide +kernel

/-- T-C15 to T-C27: SETP of the registers, each from hardware reset, then GETP. -/
theorem test_setp_registers : ∀ p ∈ ([
    (.setpBand0Frequency 0x41200000, 0x0E, 0x41A00000), (.setpBand0Frequency 0x447A0000, 0x0E, 0x43FA0000),
    (.setpFeedback 0xFF800000, 0x07, 0x00000000), (.setpFeedback 0x3FC00000, 0x07, 0x3F800000),
    (.setpInput 0xC1F00000, 0x00, 0xC1C00000), (.setpOutput 0x40C00000, 0x01, 0x40C00000),
    (.setpBand3Q 0x3D4CCCCD, 0x19, 0x3DCCCCCD), (.setpBand3Q 0x41C80000, 0x19, 0x41A00000),
    (.setpPan 0x7F800000, 0x09, 0x3F800000), (.setpDelayTimeRight 0x451C4000, 0x06, 0x44FA0000),
    (.setpLfoFreq 0x41A40000, 0x0C, 0x41A00000), (.setpMix 0x7FC00000, 0x03, 0x00000000),
    (.setp 0x1A 0x3F800000, 0x1A, 0x00000000)] : List (Instr × BitVec 8 × Word32)),
    answer (.getp p.2.1) (after p.1 State.reset) = p.2.2 ∧ answer (.getc p.2.1) (after p.1 State.reset) = p.2.2 := by
  decide +kernel

/-- T-C28 to T-C30, T-Y1: reads right after hardware reset. -/
theorem test_reset_reads : answer (.getp 0x25) State.reset = 0x3F800000 ∧ answer (.getp 0x14) State.reset = 0x44FA0000 ∧
    answer (.getp 0x10) State.reset = 0x3F34FDF4 ∧ answer .status State.reset = 0x00000000 ∧
    answer (.cfgr 0x00) State.reset = 0x00000000 ∧ answer (.cfgr 0x03) State.reset = 0x44FA0000 ∧
    answer (.cfgr 0x04) State.reset = 0x3CA3D70A ∧ answer (.cfgr 0x10) State.reset = 0x00000000 := by decide +kernel

/-- T-Y2: PREPARE right after hardware reset fails V1, V2 and V3; CLRERR then clears both flags. -/
theorem test_prepare_fails : answer .status (after .prepare State.reset) = 0x00000600 ∧
    answer .status (after .clrerr (after .prepare State.reset)) = 0x00000000 := by decide +kernel

/-- The state after `cfgw SAMPLE_RATE, 44100.0; cfgw MAX_BLOCK, 512; cfgw NUM_CH, 2; prepare` (T-Y3). -/
def prepared44100 : State :=
  after .prepare (after (.cfgw 0x02 2) (after (.cfgw 0x01 512) (after (.cfgw 0x00 0x472C4400) State.reset)))

/-- T-Y3. -/
theorem test_prepare : answer .status prepared44100 = 0x00000001 ∧ answer (.cfgr 0x10) prepared44100 = 0x00015888 ∧
    answer (.cfgr 0x11) prepared44100 = 0x00000372 ∧ answer (.cfgr 0x14) prepared44100 = 0x472C4400 ∧
    answer (.cfgr 0x15) prepared44100 = 2 ∧ answer (.cfgr 0x16) prepared44100 = 0x200 ∧
    answer (.cfgr 0x17) prepared44100 = 0 ∧ prepared44100.act.dcbR = 0x3F7FA2A1 := by decide +kernel

/-- T-P5: `setp drive, 30.0` while prepared starts a ramp of 882 advances to 24.0. -/
theorem test_setp_ramp : (after (.setpDrive 0x41F00000) prepared44100).sp[2] = ⟨0, 0x41C00000, 0x3CDEE95C, 882#18⟩ := by
  decide +kernel

/-- T-Y4: the edges of validity. -/
theorem test_validity :
    let good : Vector Word32 6 := #v[0x45FA0000, 1, 1, 0x00000001, 0x80000000, 1]
    prepareFailures good = [] ∧ (activeOf good).cap = 1#19 ∧ (activeOf good).rampSamples = 0#18 ∧
    prepareFailures (good.set 0 0x483B8000) = [] ∧ prepareFailures (good.set 0 0x45F9FFFF) = [.badRate] ∧
    prepareFailures (good.set 0 0x483B8001) = [.badRate] ∧ prepareFailures (good.set 0 0x7F800000) = [.badRate] ∧
    prepareFailures (good.set 1 0) = [.badCfg] ∧ prepareFailures (good.set 1 65535) = [] ∧
    prepareFailures (good.set 1 65536) = [.badCfg] ∧ prepareFailures (good.set 2 3) = [.badCfg] ∧
    prepareFailures (good.set 3 0) = [.badCfg] ∧ prepareFailures (good.set 3 0x44FA0001) = [.badCfg] ∧
    prepareFailures (good.set 4 0x3F800001) = [.badCfg] ∧ prepareFailures (good.set 5 2) = [.badCfg] := by decide +kernel

/-! ### A small prepared machine, and the invariant on it -/

/-- 8000 Hz, blocks of at most 2 frames, two channels, 0.5 ms of delay (`CAP = 4`), a ramp of 4 frames. -/
def smallCfg : Vector Word32 6 := #v[0x45FA0000, 2, 2, 0x3F000000, 0x3A03126F, 0]

/-- A machine prepared with `smallCfg`, with these queues and this block. -/
def small (io : Io) (seq : Seq) (passing : Option Nat) (inFrame : Bool) : State :=
  { State.reset with
    cfg := smallCfg, act := activeOf smallCfg, status := { State.reset.status with prepared := true }
    io := io, seq := seq, passing := passing, inFrame := inFrame }

/-- No block is running. -/
abbrev smallIdle (io : Io) : State := small io ⟨false, 0#16⟩ none false

def noIo : Io := ⟨[], [], [], [], [], [], false⟩

theorem small_ring : RingOk (smallIdle noIo) where
  nch_pos := by decide +kernel
  nch_le := by decide +kernel
  cap_pos := by decide +kernel
  cap_le := by decide +kernel
  cursor := by decide +kernel
  unused := by decide +kernel

theorem test_small_ring (io : Io) (seq : Seq) (passing : Option Nat) (inFrame : Bool) :
    RingOk (small io seq passing inFrame) := small_ring.congr rfl rfl

theorem small_targets : ∀ i : SpIdx, InRange (paramRange i) (smallIdle noIo).sp[i].tgt := by decide +kernel

theorem small_registers : ∀ i : SpIdx, (smallIdle noIo).sp[i].cur = (smallIdle noIo).sp[i].tgt ∧
    (smallIdle noIo).sp[i].cnt ≤ (smallIdle noIo).act.rampSamples := by decide +kernel

/-- The registers after reset glide in the sense of the invariant, whatever the active configuration. -/
theorem glides_reset (a : Active) (i : SpIdx) : Glides a (paramRange i) State.reset.sp[i] := by
  have h : State.reset.sp[i] = Sp.reset i := by simp [State.reset]
  rw [h]
  refine .rest ?_ (by decide)
  have ht := small_targets i
  have h2 : (smallIdle noIo).sp[i] = Sp.reset i := h
  rwa [h2] at ht

theorem small_valid : ValidRate smallCfg ∧ ValidSetup smallCfg := by
  refine ⟨?_, ⟨?_, ?_, ?_, ?_, ?_⟩⟩ <;> first | decide +kernel | (unfold ValidRate; decide +kernel)

theorem inv_small {io : Io} {seq : Seq} {passing : Option Nat} {inFrame : Bool}
    (h : SeqOk (small io seq passing inFrame)) : Inv (small io seq passing inFrame) where
  mem := rfl
  targets := small_targets
  settled := fun i _ => (small_registers i).1
  ramps := fun i => (small_registers i).2
  glides := glides_reset _
  cells := (by decide : (0#2 : BitVec 2) ≠ 3#2)
  active := fun _ => activeOf_ok small_valid.1 small_valid.2
  ring := fun _ => test_small_ring io seq passing inFrame
  phases := fun _ => (by decide : PhaseOk State.reset)
  seq := h

theorem seqOk_idle {s : State} (h1 : s.seq = ⟨false, 0#16⟩) (h2 : s.passing = none) (h3 : s.inFrame = false)
    (h4 : s.popped = []) : SeqOk s := by
  constructor <;> simp [h1, h2, h3, h4]

theorem test_small_idle_inv (io : Io) : Inv (smallIdle io) := inv_small (seqOk_idle rfl rfl rfl rfl)

/-- T-R2: five writes with `CAP = 4`, and what then stands at each offset (rule R152). -/
theorem test_ring :
    let s := [0x3F800000, 0x40000000, 0x40400000, 0x40800000, 0x40A00000].foldl
      (fun s v => after (.rbwr 0 v) s) (smallIdle noIo)
    s.wc[0] = 1#19 ∧ s.wc[1] = 0#19 ∧ answer (.rbrd 0 1) s = 0x40A00000 ∧ answer (.rbrd 0 3) s = 0x40400000 ∧
    answer (.rbrd 0 0) s = 0x40000000 ∧ answer (.rbrd 1 0) s = 0 ∧ answer (.rbrd 0 9) s = 0x40400000 ∧
    (after (.rbrd 0 9) s).status.eRbOff = true ∧ (after .rbclr s).dram = [] ∧ (after .reset s).wc[0] = 0#19 := by
  decide +kernel

/-- T-L4: PingPong, delay 0.125 ms on both channels, feedback 0.5, all wet: the first two frames. -/
theorem test_pingPong :
    let s0 := smallIdle noIo
    let at1 (v : F32) : Sp := ⟨v, v, 0, 0#18⟩
    let s : State := { s0 with
      sp := (((s0.sp.set 5 (at1 0x3E000000)).set 6 (at1 0x3E000000)).set 7 (at1 0x3F000000)).set 8 (at1 0x3F800000)
      cells := { s0.cells with dlytype := 1#1 } }
    let p1 := delayed (#v[0x3F800000, 0], s)
    let p2 := delayed (#v[0, 0], p1.2)
    p1.1 = #v[0, 0] ∧ p2.1 = #v[0x3F800000, 0] ∧ p2.2.dram = [(0, 0x3F800000), (5, 0x3F000000)] ∧
    p2.2.wc = #v[2#19, 2#19] := by decide +kernel

/-! ### The step, and the word the host puts where the next step runs it -/

/-- The words of `decodeTableWord` and `withFetchWord` on a command with operands. -/
theorem test_fetch : decodeTableWord 64 0x01000000472C4400 = some (.cfgw 0x00 0x472C4400) ∧
    (stepped (State.reset.withFetchWord 64 0x01000000472C4400)).cfg[0] = 0x472C4400 ∧
    (stepped (State.reset.withFetchWord 64 0x01000000472C4400)).io.aq = [] := by decide +kernel

/-- T-E22: an illegal word sets `E_ILLEGAL` and answers nothing. -/
theorem test_step_illegal : statusWord (stepped (State.reset.withFetchWord 64 0x1300000000000001)) = 0x00000100 ∧
    (stepped (State.reset.withFetchWord 64 0x1300000000000001)).io.rspA = [] := by decide +kernel

/-- T-Y3, T-Y7: STATUS from `CQ` answers on `RSP_C`; between commands `BUSY` is 0. -/
theorem test_step_control : (stepped (smallIdle { noIo with cq := [0x1300000000000000] })).io.rspC = [0x00000001] := by
  decide +kernel

/-- Rule R251: a word of a pass-through of one frame of two channels, then the end of the block. -/
theorem test_passThrough :
    let s := small { noIo with ain := [0x7FC00001, 0x80000000] } ⟨true, 1#16⟩ (some 0) false
    (stepped s).io.aout = [0x7FC00001] ∧ (stepped s).passing = some 1 ∧ (stepped s).seq.busy = true ∧
    (stepped (stepped s)).io.aout = [0x7FC00001, 0x80000000] ∧ (stepped (stepped s)).seq.busy = false := by decide +kernel

/-- Rule R370: a pulse of `RST` loads the reset values and empties the queues, and the core accepts nothing under it. -/
theorem test_reset_pulse :
    let s := [.pushSample 1, .driveReset true, .pushAudio 0, .driveReset false].foldl State.hostAct
      (small { noIo with cq := [0] } ⟨true, 1#16⟩ none true)
    s.io = noIo ∧ s.seq.busy = false ∧ statusWord s = 0 := by decide +kernel

/-! ### For every statement with hypotheses, a state and operands that meet them all

`test_hyp_<Name>` is about `Obligations.<Name>`; where a statement has several clauses, at a boundary of each. -/

theorem test_hyp_DecodeInvertsEncode : (Instr.setpBand3Q 0).wellFormed = true ∧ (Instr.setp 0xFF 0).wellFormed = true ∧
    (Instr.prepare.engineClass = true ∧ Queue.control = Queue.control) ∧ Instr.nop.engineClass = false := by decide

theorem test_hyp_EncodeInvertsDecode : decode 0x101A00003F800000 = .ok (.setp 0x1A 0x3F800000) := by decide +kernel

/-- Whether a word is illegal on a queue. -/
def isIllegal (q : Queue) (w : Command) : Bool :=
  match classify q w with
  | .error _ => true
  | .ok _ => false

/-- Each disjunct at the ends of its opcodes, and the legal words beside it. -/
theorem test_hyp_IllegalWords :
    [0x0900000000000000, 0x0F00000000000000, 0x1500000000000000, 0xFF00000000000000, 0x0001000000000000,
      0x1300000100000000, 0x0700000000000001, 0x0401000000000000, 0x0400000000000001, 0x0100000100000000,
      0x1000FFFF00000000, 0x1100000100000000, 0x1400000000000001].all (isIllegal .audio) = true ∧
    [0x0100000000000000, 0x0800000000000000].all (fun w => isIllegal .control w && !isIllegal .audio w) = true ∧
    [0x0000000000000000, 0x1000000000000000, 0x1400000000000000].all (fun w => !isIllegal .control w) = true := by
  decide +kernel

theorem test_hyp_BytesLeastSignificantFirst : (0 < 8 ∧ 7 < 8) ∧ (0 < 4 ∧ 3 < 4) := by decide

/-- All ways the sequencer takes a word happen, each with a legal and an illegal word: those that the free schedule
decides at some place of it. -/
theorem test_hyp_StepRunsDecodedCommand :
    classify .audio 0x0200000000000000 = .ok .prepare ∧ classify .control 0x1300000000000000 = .ok .status ∧
    (∃ s t, Takes s .audio 0x0200000000000000 t) ∧ (∃ s t, Takes s .control 0x1300000000000000 t) ∧
    (∃ s t, s.io.aq ≠ [] ∧ Takes s .control 0x1300000000000000 t) ∧
    ∃ s t, s.seq.busy = true ∧ Takes s .control 0x1300000000000000 t := by
  obtain ⟨n, -, hn⟩ := Config.schedule.fair 0
  exact ⟨by decide +kernel, by decide +kernel,
    ⟨_, _, .audio (s := smallIdle { noIo with aq := [0x0200000000000000] }) _ [] rfl rfl rfl rfl⟩,
    ⟨_, _, .control (s := smallIdle { noIo with cq := [0x1300000000000000] }) _ [] rfl rfl rfl rfl⟩,
    ⟨_, _, List.cons_ne_nil 0 [], .controlFirst
      (s := (smallIdle { noIo with cq := [0x1300000000000000], aq := [0] }).setTick n) _ [] rfl rfl rfl
        (List.cons_ne_nil 0 []) hn⟩,
    ⟨_, _, rfl, .controlAtBoundary
      (s := (small { noIo with cq := [0x1300000000000000] } ⟨true, 1#16⟩ none false).setTick n) _ [] rfl rfl rfl rfl hn⟩⟩

theorem test_hyp_IllegalWordDiscarded : classify .audio 0x0900000000000000 = .error (.reservedOpcode 0x09) ∧
    ∃ s t, Takes s .audio 0x0900000000000000 t :=
  ⟨by decide +kernel, _, _, .audio (s := smallIdle { noIo with aq := [0x0900000000000000] }) _ [] rfl rfl rfl rfl⟩

theorem test_hyp_HardwareReset : (smallIdle { noIo with rst := true }).io.rst = true := rfl

/-- The idle core; a frame with one of two words there, then that word popped and `AIN` empty; a pass-through. -/
theorem test_hyp_IdleAndHoldKeepState :
    (let s := smallIdle noIo; s.io.rst = false ∧ s.seq.busy = false ∧ s.io.cq = [] ∧ s.io.aq = []) ∧
    (let s := small { noIo with ain := [7] } ⟨true, 1#16⟩ none true;
      let t := stepped s;
      s.io.rst = false ∧ s.seq.busy = true ∧ s.inFrame = true ∧ s.seq.rem ≠ 0#16 ∧ s.passing = none ∧
        s.popped.length + s.io.ain.length < s.frameWords ∧
        t.io.rst = false ∧ t.seq.busy = true ∧ t.inFrame = true ∧ t.seq.rem ≠ 0#16 ∧ t.passing = none ∧ t.io.ain = [] ∧
        t.popped = [7] ∧ t.popped.length < t.frameWords) ∧
    (let s := small noIo ⟨true, 1#16⟩ (some 1) true;
      s.io.rst = false ∧ s.seq.busy = true ∧ s.inFrame = true ∧ s.seq.rem ≠ 0#16 ∧ s.passing = some 1 ∧ s.io.ain = []) := by
  decide +kernel

/-- A processed frame and a word of a pass-through, inside a frame. -/
theorem test_hyp_QueuesWaitInsideBlocks :
    (let s := small { noIo with ain := [0, 0] } ⟨true, 1#16⟩ none true;
      s.io.rst = false ∧ s.seq.busy = true ∧ s.inFrame = true ∧ ∃ t, step s = .next t) ∧
    (let s := small { noIo with ain := [0, 0] } ⟨true, 1#16⟩ (some 0) true;
      s.io.rst = false ∧ s.seq.busy = true ∧ s.inFrame = true ∧ ∃ t, step s = .next t) := by
  refine ⟨⟨rfl, rfl, rfl, ?_⟩, rfl, rfl, rfl, _, rfl⟩
  have hr := test_small_ring { noIo with ain := [0, 0] } ⟨true, 1#16⟩ none true
  generalize hs : small { noIo with ain := [0, 0] } ⟨true, 1#16⟩ none true = s at hr ⊢
  obtain ⟨t, ht, -⟩ := frameStep_of_ringOk hr
  have h1 : s.io.rst = false ∧ s.seq.busy = true ∧ s.inFrame = true ∧ s.passing = none ∧ s.seq.rem = 1#16 := by
    subst hs; exact ⟨rfl, rfl, rfl, rfl, rfl⟩
  have h2 : ¬ s.frameSupply.length < s.frameWords := by subst hs; decide +kernel
  exact ⟨endFrame t, by simp [step, nextStep, runBlock, engineStep, h1, h2, ht]⟩

theorem seqOk_small_busy {io : Io} {passing : Option Nat} (h : ∀ k, passing = some k → k = 0) :
    SeqOk (small io ⟨true, 1#16⟩ passing false) :=
  ⟨fun _ => ⟨rfl, (by decide : (1#16 : BitVec 16) ≠ 0#16)⟩, fun _ _ => (by decide +kernel : (1#16 : BitVec 16) ≤ (smallIdle noIo).act.maxBlk),
    fun h => (Bool.false_ne_true h.symm).elim, fun k _ hk => h k hk,
    fun k hk => by rw [h k hk]; exact (by decide +kernel : 0 < (smallIdle noIo).act.nch.toNat),
    fun h => (h rfl).elim⟩

/-- Idle; before a frame to process; before the second word of a pass-through. -/
theorem test_hyp_ControlCommandIsPerformed :
    (let s := smallIdle { noIo with cq := [0] };
      Inv s ∧ s.io.rst = false ∧ s.io.cq = 0 :: [] ∧ s.io.aq = [] ∧
        s.seq.rem.toNat * s.act.nch.toNat ≤ s.io.ain.length + s.popped.length + s.passing.getD 0) ∧
    (let s := small { noIo with cq := [0], ain := [0, 0] } ⟨true, 1#16⟩ none false;
      Inv s ∧ s.io.rst = false ∧ s.io.cq = 0 :: [] ∧ s.io.aq = [] ∧
        s.seq.rem.toNat * s.act.nch.toNat ≤ s.io.ain.length + s.popped.length + s.passing.getD 0) ∧
    (let s := small { noIo with cq := [0], ain := [0] } ⟨true, 1#16⟩ (some 1) true;
      Inv s ∧ s.io.rst = false ∧ s.io.cq = 0 :: [] ∧ s.io.aq = [] ∧
        s.seq.rem.toNat * s.act.nch.toNat ≤ s.io.ain.length + s.popped.length + s.passing.getD 0) := by
  refine ⟨⟨test_small_idle_inv _, rfl, rfl, rfl, by decide +kernel⟩,
    ⟨inv_small (seqOk_small_busy fun _ h => (Option.some_ne_none _ h.symm).elim), rfl, rfl, rfl, by decide +kernel⟩,
    inv_small ⟨fun _ => ⟨rfl, (by decide : (1#16 : BitVec 16) ≠ 0#16)⟩, fun _ h => (Option.some_ne_none _ h).elim,
      fun h => (Bool.false_ne_true h.symm).elim, fun _ h => (Bool.false_ne_true h.symm).elim, fun k hk => ?_,
      fun h => (h rfl).elim⟩, rfl, rfl, rfl, by decide +kernel⟩
  obtain rfl : 1 = k := Option.some.inj hk
  exact (by decide +kernel : 1 < (smallIdle noIo).act.nch.toNat)

theorem test_hyp_StepKeepsInvariant : Inv (smallIdle { noIo with aq := [0x0400000200000000] }) ∧
    ∃ t, step (smallIdle { noIo with aq := [0x0400000200000000] }) = .next t := ⟨test_small_idle_inv _, _, rfl⟩

theorem test_hyp_StepAlwaysAnswers : Inv (smallIdle noIo) := test_small_idle_inv noIo

theorem test_hyp_ErrorFlagsAreSticky :
    let s := (smallIdle { noIo with aq := [0x0800000000000000] }).raise .illegal
    s.io.rst = false ∧ step s = .next (stepped s) ∧ s.status.flag .illegal = true ∧
      (stepped s).status.flag .illegal = false := ⟨rfl, rfl, by decide +kernel, by decide +kernel⟩

/-- A PREPARE that changes the configuration, and one that fails. -/
theorem test_hyp_OnlyPrepareConfigures :
    (let s := { State.reset with cfg := smallCfg, io := { noIo with aq := [0x0200000000000000] } };
      s.io.rst = false ∧ step s = .next (stepped s) ∧ (stepped s).act ≠ s.act ∧
        (stepped s).status.prepared ≠ s.status.prepared) ∧
    (let s := { smallIdle { noIo with aq := [0x0200000000000000] } with cfg := State.reset.cfg };
      s.io.rst = false ∧ step s = .next (stepped s) ∧ (stepped s).status.prepared ≠ s.status.prepared) := by
  refine ⟨⟨rfl, rfl, fun h => ?_, by decide +kernel⟩, rfl, rfl, by decide +kernel⟩
  have := congrArg Active.nch h
  revert this; decide +kernel

theorem test_hyp_ControlClassLeavesEngineAlone : Instr.status.engineClass = false ∧ (Instr.setp 0x1A 0).engineClass = false ∧
    (smallIdle noIo).issuer = .audio ∧ ((smallIdle noIo).setIssuer .control).issuer = .control := by decide

/-- Two states that differ in what hardware reset leaves unspecified; two prepared ones that differ beyond the words the
ring addresses, and in the coefficients. -/
theorem test_hyp_StepIsBlindToUnspecifiedState :
    (let s := State.reset;
      let t := ((State.reset.setPh #v[0x3F800000, 0x3F800000]).setDram [(7, 0x3F800000)]).setWc #v[3#19, 5#19];
      Inv s ∧ Inv t ∧ Agree s t ∧ ∃ s', step s = .next s') ∧
    (let s := smallIdle noIo;
      let t := ((smallIdle noIo).setDram [(8, 0x3F800000)]).setCoef #v[⟨1, 1, 1, 1, 1⟩, ⟨1, 1, 1, 1, 1⟩, ⟨1, 1, 1, 1, 1⟩, ⟨1, 1, 1, 1, 1⟩];
      Inv s ∧ Inv t ∧ Agree s t ∧ ∃ s', step s = .next s') := by
  have hr : Inv State.reset := ⟨by decide, small_targets, fun i _ => (small_registers i).1, by decide +kernel,
    glides_reset _, by decide, fun h => (Bool.false_ne_true h).elim, fun h => (Bool.false_ne_true h).elim,
    fun h => (Bool.false_ne_true h).elim, seqOk_idle rfl rfl rfl rfl⟩
  have hs : Inv (smallIdle noIo) := test_small_idle_inv noIo
  refine ⟨⟨hr, ⟨by decide +kernel, hr.targets, hr.settled, hr.ramps, hr.glides, hr.cells, fun h => (Bool.false_ne_true h).elim,
      fun h => (Bool.false_ne_true h).elim, fun h => (Bool.false_ne_true h).elim, seqOk_idle rfl rfl rfl rfl⟩, ?_, _, rfl⟩,
    hs, ⟨by decide +kernel, hs.targets, hs.settled, hs.ramps, hs.glides, hs.cells, hs.active,
      fun h => (hs.ring h).congr rfl rfl, hs.phases, seqOk_idle rfl rfl rfl rfl⟩, ?_, _, rfl⟩
  · exact ⟨⟨rfl, rfl, rfl, rfl, rfl, rfl, rfl, rfl, rfl, rfl, rfl, rfl⟩, fun h => (Bool.false_ne_true h).elim,
      fun h => (Bool.false_ne_true h).elim, fun h => (Bool.false_ne_true h).elim, fun h => (Bool.false_ne_true h).elim,
      fun h => (Bool.false_ne_true h).elim, fun h => (Bool.false_ne_true h).elim, fun h => (Bool.false_ne_true h).elim⟩
  · refine ⟨⟨rfl, rfl, rfl, rfl, rfl, rfl, rfl, rfl, rfl, rfl, rfl, rfl⟩, fun _ => rfl, fun _ => rfl, fun _ a ha => ?_, fun _ => rfl,
      fun _ => rfl, fun _ => rfl, fun h => (Bool.false_ne_true h).elim⟩
    have h8 : a < 8 := lt_of_lt_of_eq ha (by decide +kernel : rbWords (smallIdle noIo) = 8)
    show dramDefault = if a = 8 then _ else dramDefault
    rw [if_neg (by omega)]

/-- Numbers beyond the range, at its ends, and a negative zero against a stored zero; both immediate and ramped. -/
theorem test_hyp_SetpSmoothed : isNaN 0x7F800000 = false ∧ isNaN 0x41C00000 = false ∧ isNaN 0x80000000 = false ∧
    feq 0x80000000 State.reset.sp[2].tgt = true ∧ feq 0x41C00000 State.reset.sp[2].tgt = false ∧
    State.reset.status.prepared = false ∧ (smallIdle noIo).status.prepared = true ∧
    (smallIdle noIo).act.rampSamples ≠ 0#18 := by decide +kernel

/-- On each side of the two boundaries of the enumeration. -/
theorem test_hyp_SetpCell : isNaN 0x3FC00000 = false ∧ fge 0x3FBFFFFF 0x3FC00000 = false ∧ fge 0x3F000000 0x3F000000 = true ∧
    fge 0x3EFFFFFF 0x3F000000 = false ∧ fge 0xFF800000 0x3F000000 = false := by decide

theorem test_hyp_SetpIgnored : isNaN 0x7F800001 = true ∧ isNaN 0xFFC00000 = true ∧
    (∀ pid ∈ ([0x1A, 0x1F, 0x28, 0xFF] : List (BitVec 8)),
      (0x1A ≤ pid.toNat ∧ pid.toNat ≤ 0x1F) ∨ 0x28 ≤ pid.toNat) := by decide

/-- The three clauses at the ends of their identifiers. -/
theorem test_hyp_GetpAndGetc : (0x00#8).toNat = (0 : SpIdx).val ∧ (0x19#8).toNat = (25 : SpIdx).val ∧
    (0x20#8).toNat = 0x20 + (0 : Fin 8).val ∧ (0x27#8).toNat = 0x20 + (7 : Fin 8).val ∧
    0x1A ≤ (0x1A#8).toNat ∧ (0x1F#8).toNat ≤ 0x1F ∧ 0x28 ≤ (0x28#8).toNat ∧ cellNat State.reset 0 = 0 ∧
    cellNat State.reset 7 = 1 ∧ cellNat (after (.setpDistortiontype 0x40000000) State.reset) 0 = 2 := by decide +kernel

theorem test_hyp_CfgrAnswers : (0x05#8).toNat = (5 : Fin 6).val ∧ 6 ≤ (0x06#8).toNat ∧ (0x0F#8).toNat ≤ 0x0F ∧
    0x18 ≤ (0x18#8).toNat ∧ State.reset.status.prepared = false ∧ (smallIdle noIo).status.prepared = true := by decide

/-- The configuration at the lower and the upper ends of V1 to V6. -/
theorem test_hyp_PrepareSucceeds :
    (let s := { State.reset with cfg := #v[0x45FA0000, 1, 1, 0x00000001, 0x00000000, 0] }; ValidRate s.cfg ∧ ValidSetup s.cfg) ∧
    (let s := { State.reset with cfg := #v[0x483B8000, 65535, 2, 0x44FA0000, 0x3F800000, 1] };
      ValidRate s.cfg ∧ ValidSetup s.cfg) := by
  refine ⟨⟨?_, ⟨?_, ?_, ?_, ?_, ?_⟩⟩, ?_, ⟨?_, ?_, ?_, ?_, ?_⟩⟩ <;> first | decide +kernel | (unfold ValidRate; decide +kernel)

theorem test_hyp_PrepareFails : ¬ (ValidRate State.reset.cfg ∧ ValidSetup State.reset.cfg) := by
  rintro ⟨⟨-, h, -⟩, -⟩
  revert h; decide +kernel

theorem test_hyp_ResetCommand : (smallIdle noIo).status.prepared = true := rfl

theorem test_hyp_ResetIsPrepare : ValidRate (smallIdle noIo).cfg ∧ ValidSetup (smallIdle noIo).cfg ∧
    (smallIdle noIo).status.prepared = true ∧ (smallIdle noIo).act = activeOf (smallIdle noIo).cfg := by
  refine ⟨?_, ⟨?_, ?_, ?_, ?_, ?_⟩, rfl, rfl⟩ <;> first | decide +kernel | (unfold ValidRate; decide +kernel)

theorem test_hyp_NotPrepared : State.reset.status.prepared = false ∧ (1#16 : BitVec 16) ≠ 0#16 := by decide

/-- Both channels, and the first invalid one. -/
theorem test_hyp_RbwrWrites : (smallIdle noIo).status.prepared = true ∧ RingOk (smallIdle noIo) ∧
    Memory.wf (smallIdle noIo).dram = true ∧ ((0x01#8).toNat = (1 : Fin 2).val ∧ (1 : Fin 2).val < (smallIdle noIo).act.nch.toNat) ∧
    (smallIdle noIo).act.nch.toNat ≤ (0x02#8).toNat :=
  ⟨rfl, small_ring, rfl, by decide +kernel, by decide +kernel⟩

/-- The last offset inside the ring, and the first beyond it. -/
theorem test_hyp_RbrdReads : (smallIdle noIo).status.prepared = true ∧ RingOk (smallIdle noIo) ∧
    ((0x00#8).toNat = (0 : Fin 2).val ∧ (0 : Fin 2).val < (smallIdle noIo).act.nch.toNat) ∧
    (0x3#32).toNat < (smallIdle noIo).act.cap.toNat ∧ (smallIdle noIo).act.cap.toNat ≤ (0x4#32).toNat ∧
    (smallIdle noIo).act.nch.toNat ≤ (0x02#8).toNat :=
  ⟨rfl, small_ring, by decide +kernel, by decide +kernel, by decide +kernel, by decide +kernel⟩

/-- An address inside the cleared region, and the first beyond it. -/
theorem test_hyp_RbclrClears : (smallIdle noIo).status.prepared = true ∧
    7 < (smallIdle noIo).act.nch.toNat * (smallIdle noIo).act.cap.toNat ∧
    (smallIdle noIo).act.nch.toNat * (smallIdle noIo).act.cap.toNat ≤ 8 := by decide +kernel

/-- The longest accepted block, and the shortest oversized one. -/
theorem test_hyp_ProcessStarts : (smallIdle noIo).status.prepared = true ∧
    (2#16 : BitVec 16) ≠ 0#16 ∧ 2#16 ≤ (smallIdle noIo).act.maxBlk ∧
    (3#16 : BitVec 16) ≠ 0#16 ∧ (smallIdle noIo).act.maxBlk < 3#16 := by decide +kernel

theorem test_hyp_ResponsePairing : exec .status (smallIdle noIo) = .next (after .status (smallIdle noIo)) ∧
    exec .nop (smallIdle noIo) = .next (smallIdle noIo) ∧ (smallIdle noIo).issuer = .audio ∧
    ((smallIdle noIo).setIssuer .control).issuer = .control := ⟨rfl, rfl, rfl, rfl⟩

/-- At the start of the ring and at its end. -/
theorem test_hyp_CursorAdvancesModuloCapacity : (smallIdle noIo).wc[0].toNat < (smallIdle noIo).act.cap.toNat ∧
    ((smallIdle noIo).setWc #v[0#19, 3#19]).wc[1].toNat < ((smallIdle noIo).setWc #v[0#19, 3#19]).act.cap.toNat := by
  decide +kernel

theorem test_hyp_ReadAddressBijection :
    let s := (smallIdle noIo).setWc #v[0#19, 3#19]
    s.wc[1].toNat < s.act.cap.toNat ∧ 0 < s.act.cap.toNat ∧ 3 < s.act.cap.toNat ∧
      (1 : Fin 2).val * s.act.cap.toNat ≤ 4 ∧ 7 < (1 : Fin 2).val * s.act.cap.toNat + s.act.cap.toNat := by decide +kernel

theorem test_hyp_RingHoldsHistory : RingOk (smallIdle noIo) ∧ Memory.wf (smallIdle noIo).dram = true ∧
    (∀ p ∈ ([(0, 1), (1, 2), (0, 3)] : List (Fin 2 × F32)), p.1.val < (smallIdle noIo).act.nch.toNat) ∧
    (1 : Fin 2).val < (smallIdle noIo).act.nch.toNat ∧ 3 < (smallIdle noIo).act.cap.toNat :=
  ⟨small_ring, rfl, fun p _ => lt_of_lt_of_eq p.1.isLt (by decide +kernel : 2 = (smallIdle noIo).act.nch.toNat),
    by decide +kernel, by decide +kernel⟩

theorem test_hyp_RampLands : (smallIdle noIo).status.prepared = true ∧
    feq 0x3F800000 (smallIdle noIo).sp[2].tgt = false := by decide +kernel

/-- No advance left, one, and more than one. -/
theorem test_hyp_AdvanceLaws : (Sp.mk 0 0 0 0#18).cnt = 0#18 ∧ (Sp.mk 0 0 0 1#18).cnt = 1#18 ∧ (1#18 : BitVec 18) ≠ 0#18 ∧
    (Sp.mk 0 0 0 2#18).cnt ≠ 1#18 ∧ (Sp.mk 0 0 0 2#18).cnt ≠ 0#18 ∧ (0#1 : BitVec 1) ≠ 1#1 := by decide

/-- The configuration of `smallCfg` with one channel. -/
def monoCfg : Vector Word32 6 := smallCfg.set 2 1

/-- Two channels in use, a word of the frame popped before a hold; and one channel in use beside an unused one, with a
disabled band beside enabled ones. -/
theorem test_hyp_FrameStepEffect :
    (let s := (small { noIo with ain := [2] } ⟨true, 1#16⟩ none true).setPopped [1];
      RingOk s ∧ Memory.wf s.dram = true ∧ s.act.nch.toNat ≤ s.frameSupply.length ∧ (1 : Fin 2).val < s.act.nch.toNat) ∧
    (let s := ((small { noIo with ain := [1] } ⟨true, 1#16⟩ none true).setAct (activeOf monoCfg)).setCells
        { State.reset.cells with banden := #v[1#1, 0#1, 1#1, 1#1] };
      RingOk s ∧ Memory.wf s.dram = true ∧ s.act.nch.toNat ≤ s.frameSupply.length ∧ (0 : Fin 2).val < s.act.nch.toNat ∧
        s.act.nch.toNat ≤ (1 : Fin 2).val ∧ s.cells.banden[(1 : Fin 4)] = 0#1 ∧ s.cells.banden[(0 : Fin 4)] = 1#1) :=
  ⟨⟨small_ring.congr rfl rfl, rfl, by decide +kernel, by decide +kernel⟩,
    ⟨by decide +kernel, by decide +kernel, by decide +kernel, by decide +kernel, by decide +kernel, by decide +kernel⟩, rfl,
    by decide +kernel, by decide +kernel, by decide +kernel, rfl, rfl⟩

/-- SingleTap, and PingPong with two channels. -/
theorem test_hyp_DelayStageLaw : (RingOk (smallIdle noIo) ∧ Memory.wf (smallIdle noIo).dram = true ∧
      (1 : Fin 2).val < (smallIdle noIo).act.nch.toNat ∧ (smallIdle noIo).cells.dlytype = 0#1) ∧
    ∃ s : State, s.cells.dlytype = 1#1 ∧ s.act.nch = 2#2 ∧ RingOk s ∧ Memory.wf s.dram = true ∧
      (1 : Fin 2).val < s.act.nch.toNat := by
  have hp : RingOk ((smallIdle noIo).setCells { State.reset.cells with dlytype := 1#1 }) := small_ring.congr rfl rfl
  exact ⟨⟨small_ring, rfl, by decide +kernel, rfl⟩, _, rfl, by decide +kernel, hp, rfl, by decide +kernel⟩

theorem test_hyp_BlockIsItsFrames :
    let s := smallIdle { noIo with aq := [0x0400000200000000], ain := [1, 2, 3, 4] }
    Inv s ∧ s.io.rst = false ∧ s.status.prepared = true ∧ s.seq.busy = false ∧ s.io.cq = [] ∧
      s.io.aq = encode (.process 2#16) :: [] ∧ (2#16 : BitVec 16) ≠ 0#16 ∧ 2#16 ≤ s.act.maxBlk ∧
      (2#16).toNat * s.act.nch.toNat ≤ s.io.ain.length :=
  ⟨test_small_idle_inv _, rfl, rfl, rfl, rfl, by decide +kernel, by decide, by decide +kernel, by decide +kernel⟩

theorem test_hyp_OversizedBlockPassesThrough :
    let s := smallIdle { noIo with aq := [0x0400000300000000], ain := [1, 2, 3, 4, 5, 6] }
    Inv s ∧ s.io.rst = false ∧ s.status.prepared = true ∧ s.seq.busy = false ∧ s.io.cq = [] ∧
      s.io.aq = encode (.process 3#16) :: [] ∧ s.act.maxBlk < 3#16 ∧ (3#16).toNat * s.act.nch.toNat ≤ s.io.ain.length :=
  ⟨test_small_idle_inv _, rfl, rfl, rfl, rfl, by decide +kernel, by decide +kernel, by decide +kernel⟩

/-- Finite operands whose sum cancels or overflows, a zero and a nonzero divisor; infinities of both signs and a NaN; the
operands of each clause of the square root and of the conversions. -/
theorem test_hyp_ArithmeticAndConversions :
    (isFinite 0x3F800000 = true ∧ isFinite 0xBF800000 = true ∧ fvalue 0x3F800000 + fvalue 0xBF800000 = 0 ∧
      fvalue 0x80000000 - fvalue 0x00000000 = 0 ∧ overflowUnits * 1 ≤ |fvalue 0x7F7FFFFF + fvalue 0x73000000| ∧
      |fvalue 0x7F7FFFFF + fvalue 0x72FFFFFF| < overflowUnits * 1 ∧ isZero 0x40400000 = false ∧ isZero 0x80000000 = true) ∧
    (isNaN 0x7F800001 = true ∧ isInf 0x7F800000 = true ∧ isInf 0xFF800000 = true ∧ fsign 0x7F800000 ≠ fsign 0xFF800000) ∧
    (fsign 0x80000001 = true ∧ isZero 0x80000001 = false ∧ fsign 0x40000000 = false ∧
      fvalue 0x3FB504F2 < fvalue (fsqrt 0x40000000) ∧ fvalue (fsqrt 0x40000000) < fvalue 0x3FB504F4) ∧
    (fle Config.zero 0x80000000 = true ∧ fle Config.zero 0x3F000000 = true ∧ flt 0xBF000000 Config.zero = true) := by
  decide +kernel

theorem test_hyp_DcBlockerFirstOutput : State.reset.dc[1] = ⟨0x00000000, 0x00000000⟩ ∧ isFinite State.reset.act.dcbR = true ∧
    isNaN 0x00000000 = false ∧ (0x00000000 : F32) ≠ 0x80000000 ∧ isNaN 0x7F800000 = false := by decide +kernel

/-- Inside the level, at it, beyond it, and a NaN. -/
theorem test_hyp_HardClipBound : isNaN (fmul 0x7F800000 Config.one) = false ∧
    fle (fneg Config.clipLevel) (fmul 0xBF7D70A4 Config.one) = true ∧ fle (fmul 0x3F7D70A4 Config.one) Config.clipLevel = true ∧
    isNaN (fmul 0x7FC00000 Config.one) = true :=
  ⟨by decide +kernel, by decide +kernel, by decide +kernel, isNaN_fmul (.inl (by decide))⟩

theorem test_hyp_SoftClipBoundedAndOdd : isNaN (fmul 0x80000000 Config.one) = false ∧
    isNaN (fmul 0x7F800000 Config.one) = false := by decide +kernel

theorem test_hyp_DelayOffsetInRing : (1 ≤ 1 ∧ 1 ≤ Config.capMax) ∧ (1 ≤ 384000 ∧ 384000 ≤ Config.capMax) ∧
    isNaN 0x7FC00000 = true := by decide

/-- A zero behind the DC blocker at either end of the drive's range, and a NaN. -/
theorem test_hyp_DistortionStage : isZero (fadd (fsub 0x3F800000 0x3F800000) (fmul 0x3F000000 0x00000000)) = true ∧
    fle Config.zero 0x00000000 = true ∧ fle 0x41C00000 (paramRange 2).hi = true ∧
    isNaN (fadd (fsub 0x7FC00000 0x3F800000) (fmul 0x3F000000 0x00000000)) = true :=
  ⟨by decide +kernel, by decide +kernel, by decide +kernel, isNaN_fadd (.inl (isNaN_fsub (.inl (by decide))))⟩

/-- An infinite base with the LFO on, and a base at the end of the range with the LFO off. -/
theorem test_hyp_PanLawExtremes : isNaN 0x7F800000 = false ∧
    (let s := State.reset.setCells { State.reset.cells with lfoen := 1#1 };
      s.cells.lfoen = 1#1 ∧ isFinite s.sp[(13 : SpIdx)].cur = true ∧ isFinite s.ph[(1 : Fin 2)] = true) ∧
    State.reset.cells.lfoen = 0#1 ∧ fle Config.minusOne 0x3F800000 = true ∧ fle 0x3F800000 Config.one = true := by
  decide +kernel

/-- Mono and Stereo with two channels. -/
theorem test_hyp_PannerForms : (smallIdle noIo).cells.panmode = 0#1 ∧ (smallIdle noIo).act.nch = 2#2 ∧
    ((smallIdle noIo).setCells { State.reset.cells with panmode := 1#1 }).cells.panmode = 1#1 := by decide +kernel

/-- The ends of the rate window and of the phase, and a rate register beyond its range. -/
theorem test_hyp_PhaseStaysInRange : isNaN 0x7F800000 = false ∧
    (fle Config.srMin 0x45FA0000 = true ∧ fle 0x45FA0000 Config.srMax = true) ∧
    (fle Config.srMin 0x483B8000 = true ∧ fle 0x483B8000 Config.srMax = true) ∧
    (fle Config.zero 0x80000000 = true ∧ flt 0x80000000 Config.twoPi = true) ∧
    (fle Config.zero 0x40C90FDA = true ∧ flt 0x40C90FDA Config.twoPi = true) := by decide

theorem test_hyp_StereoPannerOneChannel :
    let s : State := { smallIdle noIo with
      cells := { State.reset.cells with panmode := 1#1 }, act := { (smallIdle noIo).act with nch := 1#2 } }
    s.cells.panmode = 1#1 ∧ s.act.nch = 1#2 := ⟨rfl, rfl⟩

/-- Other bands and channels; one band disabled; all of them. -/
theorem test_hyp_EqualizerCascade : (1 : Fin 4) ≠ 0 ∧ (1 : Fin 2) ≠ 0 ∧
    { State.reset with cells := ⟨0, 0, 0, 0, #v[1#1, 0#1, 1#1, 1#1]⟩ }.cells.banden[(1 : Fin 4)] = 0#1 ∧
    ∀ b : Fin 4, { State.reset with cells := ⟨0, 0, 0, 0, #v[0#1, 0#1, 0#1, 0#1]⟩ }.cells.banden[b] = 0#1 := by decide

/-- The ends of the rate window; numbers at the ends of each range and beyond them. -/
theorem test_hyp_EqualizerDesign :
    (fle Config.srMin 0x45FA0000 = true ∧ fle 0x483B8000 Config.srMax = true) ∧
    (isNaN 0x7F800000 = false ∧ fle Config.eqFLo 0x41A00000 = true ∧
      fle 0x41A00000 (fmul Config.eqFHiRatio 0x45FA0000) = true) ∧
    (fle Config.eqGLo 0xC1C00000 = true ∧ fle 0xC1C00000 Config.eqGHi = true) ∧
    (fle Config.eqQLo 0x41A00000 = true ∧ fle 0x41A00000 Config.eqQHi = true) := by decide +kernel

/-- `g` either zero, `cw` of either sign. -/
theorem test_hyp_ZeroDecibelDesign : isZero 0x00000000 = true ∧ isZero 0x80000000 = true ∧
    isFinite 0x3F7F5DBF = true ∧ isZero 0x3F7F5DBF = false ∧ isFinite 0xB33BBD2E = true ∧ isZero 0xB33BBD2E = false ∧
    isFinite 0x3D4E2F00 = true := by decide

end Sys2Proof.Tests
end

section
/-! PROOFS. The parameter table (rule R22). -/

-- As in the tests: proofs elaborated in parallel need more memory than the check allows.
set_option Elab.async false

namespace Sys2Proof.Machine

/-- Settles O9, by evaluating the rounding of each decimal of the table. -/
theorem parameterTable : Obligations.ParameterTable := by
  unfold Obligations.ParameterTable
  decide +kernel

end Sys2Proof.Machine
end

section
/-! PROOFS. Signs and NaN of the operations of rule R11, and the SoftClip (rules R12, R165, R171). -/

set_option Elab.async false

namespace Sys2Proof.Machine

/-! ### Sign symmetry (rule R11) -/

/-- Flipping the sign of a pattern is flipping the sign it is made with. -/
theorem fneg_withSign (s : Bool) {m : Nat} (h : m < 2 ^ 31) : fneg (withSign s m) = withSign (!s) m := by
  rw [← withSign_self (fneg (withSign s m)), fsign_fneg, fmagBits_fneg, fsign_withSign s h, fmagBits_withSign s h]

/-- A product that is a number has a magnitude that depends on the magnitudes of its factors alone, and the sign of their
signs. -/
theorem fmul_of_magnitudes {a b : F32} (h : isNaN (fmul a b) = false) :
    ∃ m < 2 ^ 31, ∀ a' b', fmagBits a' = fmagBits a → fmagBits b' = fmagBits b →
      fmul a' b' = withSign (fsign a' != fsign b') m := by
  have hnan := isNaN_producedNaN .mul a b
  unfold fmul isNaN isInf isZero at *
  simp only [fmag_eq_magUnits] at *
  split_ifs at h with hn hi hz
  · simp [hnan] at h
  · simp [hnan] at h
  · exact ⟨infBits, infBits_lt, fun a' b' ha hb => by rw [ha, hb, if_neg hn, if_pos hi, if_neg hz]⟩
  · exact ⟨_, lt_of_le_of_lt (roundMag_le _ _) infBits_lt, fun a' b' ha hb => by rw [ha, hb, if_neg hn, if_neg hi]⟩

/-- A product changes its sign with its first factor, unless it is a NaN, whose pattern is a free value (U5). -/
theorem fmul_fneg_left {a b : F32} (h : isNaN (fmul a b) = false) : fmul (fneg a) b = fneg (fmul a b) := by
  obtain ⟨m, hm, hmul⟩ := fmul_of_magnitudes h
  rw [hmul _ _ (fmagBits_fneg a) rfl, hmul a b rfl rfl, fneg_withSign _ hm, fsign_fneg, Bool.not_bne]

/-- A product changes its sign with its second factor, unless it is a NaN. -/
theorem fmul_fneg_right {a b : F32} (h : isNaN (fmul a b) = false) : fmul a (fneg b) = fneg (fmul a b) := by
  obtain ⟨m, hm, hmul⟩ := fmul_of_magnitudes h
  rw [hmul _ _ rfl (fmagBits_fneg b), hmul a b rfl rfl, fneg_withSign _ hm, fsign_fneg, Bool.bne_not]

theorem fmagBits_fabs (v : F32) : fmagBits (fabs v) = fmagBits v := by
  unfold fabs fmagBits
  rw [BitVec.toNat_and, show (0x7FFFFFFF#32 : BitVec 32).toNat = 2 ^ 31 - 1 from rfl, Nat.and_two_pow_sub_one_eq_mod,
    Nat.mod_mod]

theorem fsign_fabs (v : F32) : fsign (fabs v) = false := by
  unfold fsign fabs
  rw [BitVec.getLsbD_and, show (0x7FFFFFFF#32 : BitVec 32).getLsbD 31 = false by decide, Bool.and_false]

/-- A bound on the absolute value bounds the magnitude bits. -/
theorem fle_fabs_iff {v b : F32} (hb : fsign b = false) :
    fle (fabs v) b = true ↔ isNaN v = false ∧ isNaN b = false ∧ fmagBits v ≤ fmagBits b := by
  rw [fle_iff]
  unfold isNaN orderKey
  rw [fmagBits_fabs, fsign_fabs, hb]
  simp

/-- A number of magnitude at most a finite bound is finite, and its value lies between the bound and its negative. -/
theorem value_of_fle_fabs {v b : F32} (hs : fsign b = false) (hb : isFinite b = true) (h : fle (fabs v) b = true) :
    isFinite v = true ∧ |fvalue v| ≤ fvalue b := by
  obtain ⟨-, -, hm⟩ := (fle_fabs_iff hs).mp h
  refine ⟨by simp only [isFinite, decide_eq_true_eq] at hb ⊢; omega, ?_⟩
  rw [Int.abs_eq_natAbs, natAbs_fvalue]
  have := (fmag_le_iff v b).mpr hm
  have hfb : fvalue b = fmag b := by simp [fvalue, hs]
  rw [hfb]
  exact_mod_cast this

/-! ### SoftClip -/

/-- The arctangent of a number is a number of magnitude at most `HALF_PI` (`P_RANGE` of rule R12). -/
theorem atan_range {u : F32} (h : isNaN u = false) :
    isFinite (Config.num.fns.atan u) = true ∧ |fvalue (Config.num.fns.atan u)| ≤ fvalue Config.halfPi :=
  value_of_fle_fabs (by decide) (by decide) (Config.num.props.range_bounded u h).2

/-- `P_ODD` of rule R12 at a number: the arctangent is odd bit for bit. -/
theorem atan_fneg {u : F32} (h : isNaN u = false) : Config.num.fns.atan (fneg u) = fneg (Config.num.fns.atan u) := by
  have hodd := Config.num.props.odd.2.1 u h
  have hn := isNaN_eq_false_of_isFinite (atan_range h).1
  simpa [sameResult, hn] using hodd

/-- `TWO_OVER_PI` times a value of magnitude at most `HALF_PI` is of magnitude at most one (rule R165): the exact product of
the two constants is below one, and one is a binary32 value. -/
theorem twoOverPi_mul_range {v : F32} (hf : isFinite v = true) (hv : |fvalue v| ≤ fvalue Config.halfPi) :
    isFinite (fmul Config.twoOverPi v) = true ∧ fvalue (fneg Config.one) ≤ fvalue (fmul Config.twoOverPi v) ∧
      fvalue (fmul Config.twoOverPi v) ≤ fvalue Config.one := by
  have hc : 0 ≤ fvalue Config.twoOverPi := by decide
  have hprod : fvalue Config.twoOverPi * fvalue Config.halfPi ≤ fvalue Config.one * (2 ^ 149 : Nat) := by decide +kernel
  obtain ⟨hlo, hhi⟩ := abs_le.mp hv
  refine (fmul_rounds (by decide) hf).between (by positivity) (by decide) (by decide) ?_ ?_
  · rw [fvalue_fneg]
    linarith [mul_le_mul_of_nonneg_left hlo hc]
  · exact le_trans (mul_le_mul_of_nonneg_left hhi hc) hprod

/-- Settles O52: the product by `TWO_OVER_PI` of an arctangent of magnitude at most `HALF_PI`, both odd. -/
theorem softClipBoundedAndOdd : Obligations.SoftClipBoundedAndOdd := by
  unfold Obligations.SoftClipBoundedAndOdd
  intro g x hu
  obtain ⟨hf, hv⟩ := atan_range hu
  obtain ⟨hw, hlo, hhi⟩ := twoOverPi_mul_range hf hv
  have hn := isNaN_eq_false_of_isFinite hw
  refine ⟨(fle_iff_value (by decide) hn).mpr hlo, (fle_iff_value hn (by decide)).mpr hhi, ?_⟩
  unfold shape1
  rw [fmul_fneg_left hu, atan_fneg hu, fmul_fneg_right hn]

end Sys2Proof.Machine
end

section
/-! PROOFS. The one rounding is to nearest, ties to even, with an infinity from half a unit above the largest finite value on
(rule R11): the floor pattern of an exact value, and on which side of the midpoint to the next pattern the value lies. -/

set_option Elab.async false

namespace Sys2Proof.Machine

/-! ### The floor pattern -/

/-- The magnitude bits of the largest value that is not above `num / den`, were the exponents unbounded. -/
def floorBits (num den : Nat) : Nat := roundPlace num den * 2 ^ 23 + num / (den * 2 ^ roundPlace num den)

/-- An exact value lies between its floor pattern and the next pattern. -/
theorem floorBits_bounds {num den : Nat} (hd : 0 < den) :
    magUnits (floorBits num den) * den ≤ num ∧ num < magUnits (floorBits num den + 1) * den := by
  obtain ⟨hq, hn⟩ := quotient_bounds num den
  have hpos : 0 < den * 2 ^ roundPlace num den := Nat.mul_pos hd (Nat.two_pow_pos _)
  unfold floorBits
  rw [Nat.add_assoc, magUnits_of_place hq.le hn, magUnits_of_place hq (fun h => Nat.le_succ_of_le (hn h)),
    Nat.mul_assoc, Nat.mul_assoc, Nat.mul_comm _ den]
  exact ⟨Nat.div_mul_le_self _ _, Nat.lt_mul_of_div_lt (Nat.lt_succ_self _) hpos⟩

/-- The rounding takes the floor pattern or the next one, by the side of their midpoint on which the value lies; a midpoint
goes to the even pattern. -/
theorem roundMag_eq_floor (num den : Nat) :
    let k := floorBits num den
    let mid := (magUnits k + magUnits (k + 1)) * den
    roundMag num den = min infBits (if mid < 2 * num ∨ (mid = 2 * num ∧ k % 2 = 1) then k + 1 else k) := by
  obtain ⟨hq, hn⟩ := quotient_bounds num den
  have hdm := Nat.div_add_mod num (den * 2 ^ roundPlace num den)
  have hmid : (magUnits (floorBits num den) + magUnits (floorBits num den + 1)) * den =
      2 * (den * 2 ^ roundPlace num den * (num / (den * 2 ^ roundPlace num den))) + den * 2 ^ roundPlace num den := by
    unfold floorBits
    rw [Nat.add_assoc, magUnits_of_place hq.le hn, magUnits_of_place hq (fun h => Nat.le_succ_of_le (hn h)),
      Nat.succ_eq_add_one]
    ring
  have hodd : floorBits num den % 2 = num / (den * 2 ^ roundPlace num den) % 2 := by unfold floorBits; omega
  dsimp only
  rw [hmid, hodd, roundMag_eq]
  unfold roundSig floorBits
  dsimp only
  congr 1
  generalize den * 2 ^ roundPlace num den = d at *
  generalize d * (num / d) = p at *
  split_ifs <;> omega

/-! ### Nearest -/

/-- A finite rounded magnitude is nearest: every integer multiple of the unit that is no pattern's value between the floor
pattern and the next is at least as far from the exact value, and strictly farther if the magnitude is odd. -/
theorem roundMag_nearest {num den : Nat} (hd : 0 < den) (hf : roundMag num den < infBits) {x : Int}
    (hx : x ≤ magUnits (floorBits num den) ∨ magUnits (floorBits num den + 1) ≤ x) :
    |(magUnits (roundMag num den) : Int) * den - num| ≤ |x * den - num| ∧
      (|(magUnits (roundMag num den) : Int) * den - num| = |x * den - num| →
        x = magUnits (roundMag num den) ∨ roundMag num den % 2 = 0) := by
  obtain ⟨hlo, hhi⟩ := floorBits_bounds (num := num) hd
  have hr := roundMag_eq_floor num den
  dsimp only at hr
  generalize floorBits num den = k at *
  have hd' : (0 : Int) < den := by exact_mod_cast hd
  have hlo' : (magUnits k : Int) * den ≤ num := by exact_mod_cast hlo
  have hhi' : (num : Int) < magUnits (k + 1) * den := by exact_mod_cast hhi
  rw [min_eq_right (by omega)] at hr
  rw [hr]
  have hmid : (((magUnits k + magUnits (k + 1)) * den : Nat) : Int) = magUnits k * den + magUnits (k + 1) * den := by
    push_cast; ring
  have hx' : x * den < magUnits k * den ∨ x = magUnits k ∨ x = magUnits (k + 1) ∨
      (magUnits (k + 1) : Int) * den < x * den := by
    rw [mul_lt_mul_iff_left₀ hd', mul_lt_mul_iff_left₀ hd']; omega
  generalize (magUnits k + magUnits (k + 1)) * den = mid at *
  simp only [Int.abs_eq_natAbs]
  rcases hx' with h | rfl | rfl | h <;> split_ifs <;> omega

/-- No pattern has a value between those of two magnitudes that follow each other. -/
theorem fvalue_outside (w : F32) (k : Nat) : fvalue w ≤ magUnits k ∨ (magUnits (k + 1) : Int) ≤ fvalue w := by
  have hmono := magUnits_strictMono.monotone
  unfold fvalue
  rw [fmag_eq_magUnits]
  cases fsign w
  · rcases Nat.lt_or_ge k (fmagBits w) with h | h
    · exact .inr (by simpa using hmono h)
    · exact .inl (by simpa using hmono h)
  · exact .inl (by simp only [if_true]; omega)

/-- The overflow of rule R11: exactly from half a unit above the largest finite value on. -/
theorem roundMag_eq_infBits_iff {num den : Nat} (hd : 0 < den) :
    roundMag num den = infBits ↔ (2 ^ 25 - 1) * 2 ^ 252 * den ≤ num := by
  obtain ⟨hlo, hhi⟩ := floorBits_bounds (num := num) hd
  have hr := roundMag_eq_floor num den
  dsimp only at hr
  generalize floorBits num den = k at *
  have hlast : magUnits (infBits - 1) = (2 ^ 24 - 1) * 2 ^ 253 := by decide +kernel
  have hinf : magUnits infBits = 2 ^ 24 * 2 ^ 253 := by decide +kernel
  have hinfBits : infBits = 2139095040 := rfl
  rw [hr]
  rcases lt_trichotomy (k + 1) infBits with h | h | h
  · have hu : magUnits (k + 1) * den ≤ magUnits (infBits - 1) * den :=
      Nat.mul_le_mul_right _ (magUnits_strictMono.monotone (by omega))
    rw [hlast, Nat.mul_assoc] at hu
    have : (2 ^ 25 - 1) * 2 ^ 252 * den = 2 ^ 252 * den + (2 ^ 24 - 1) * (2 ^ 253 * den) := by ring
    split_ifs <;> omega
  · obtain rfl : k = infBits - 1 := by omega
    rw [h, hlast, hinf]
    have : ((2 ^ 24 - 1) * 2 ^ 253 + 2 ^ 24 * 2 ^ 253) * den = 2 * ((2 ^ 25 - 1) * 2 ^ 252 * den) := by ring
    rw [this]
    split_ifs <;> omega
  · have hu : magUnits infBits * den ≤ magUnits k * den :=
      Nat.mul_le_mul_right _ (magUnits_strictMono.monotone (by omega))
    rw [hinf] at hu
    have : 2 ^ 24 * 2 ^ 253 * den = (2 ^ 25 - 1) * 2 ^ 252 * den + 2 ^ 252 * den := by ring
    split_ifs <;> omega

/-! ### The operations are correctly rounded -/

/-- The magnitude bits of a result are those its exact value rounds to. -/
theorem RoundsTo.fmagBits_eq {r : F32} {num : Int} {den : Nat} (h : RoundsTo r num den) :
    fmagBits r = roundMag num.natAbs den := by
  rw [← natAbs_orderKey, h.key]
  unfold roundKey
  split_ifs <;> omega

/-- The value of a result has the sign of the exact value. -/
theorem RoundsTo.fvalue_eq {r : F32} {num : Int} {den : Nat} (h : RoundsTo r num den) :
    fvalue r = if num < 0 then -(magUnits (roundMag num.natAbs den) : Int) else magUnits (roundMag num.natAbs den) := by
  rw [fvalue_eq_keyValue, h.key, keyValue_roundKey]

/-- A finite result is nearest to the exact value, ties to even. -/
theorem RoundsTo.isNearest {r : F32} {num : Int} {den : Nat} (h : RoundsTo r num den) (hd : 0 < den)
    (hf : isFinite r = true) : IsNearest r num den := by
  intro w _
  have hb := h.fmagBits_eq
  have hfin : roundMag num.natAbs den < infBits := by rw [← hb]; simpa [isFinite] using hf
  rw [hb, h.fvalue_eq]
  rcases lt_or_ge num 0 with hn | hn
  · have hnear := roundMag_nearest hd hfin (x := -fvalue w) (by rw [← fvalue_fneg]; exact fvalue_outside _ _)
    have habs (a : Int) : |a * den - num.natAbs| = |-a * den - num| := by
      rw [← abs_neg, show (num.natAbs : Int) = -num by omega]; ring_nf
    rw [habs, habs, neg_neg] at hnear
    rw [if_pos hn]
    exact ⟨hnear.1, fun he => (hnear.2 he).imp_left neg_eq_iff_eq_neg.mp⟩
  · have hnear := roundMag_nearest hd hfin (fvalue_outside w _)
    rw [Int.natAbs_of_nonneg hn] at hnear
    rwa [if_neg (not_lt.mpr hn)]

/-- A place of the order other than that of the zeros is the place of one pattern. -/
theorem eq_of_orderKey_eq {a b : F32} (h : orderKey a = orderKey b) (h0 : orderKey b ≠ 0) : a = b := by
  rw [← withSign_self a, ← withSign_self b]
  unfold orderKey at h h0
  cases ha : fsign a <;> cases hb : fsign b <;> simp only [ha, hb, if_true, Bool.false_eq_true, if_false] at h h0 <;>
    congr 1 <;> omega

/-- A result is the exact value correctly rounded (rule R11). -/
theorem RoundsTo.isRounded {r : F32} {num : Int} {den : Nat} (h : RoundsTo r num den) (hd : 0 < den) :
    IsRounded r num den := by
  have hkey : overflowUnits * den ≤ |num| ↔ roundMag num.natAbs den = infBits := by
    have hunits : overflowUnits = ((2 ^ 25 - 1) * 2 ^ 252 : Nat) := by decide +kernel
    rw [roundMag_eq_infBits_iff hd, Int.abs_eq_natAbs, hunits, ← Int.natCast_mul, Int.ofNat_le]
  unfold IsRounded
  split_ifs with ho hp
  · refine eq_of_orderKey_eq ?_ (by decide)
    rw [h.key, show orderKey Config.inf = infBits by decide]
    unfold roundKey
    rw [if_neg (by omega), hkey.mp ho]
  · refine eq_of_orderKey_eq ?_ (by decide)
    have hpos : 0 < overflowUnits * den := mul_pos (by decide) (by exact_mod_cast hd)
    have hn : num < 0 := by
      rcases lt_trichotomy num 0 with hn | rfl | hn
      · exact hn
      · rw [abs_zero] at ho; omega
      · exact absurd hn hp
    rw [h.key, show orderKey Config.minusInf = -infBits by decide]
    unfold roundKey
    rw [if_pos hn, hkey.mp ho]
  · have hle : fmagBits r ≤ infBits := by rw [h.fmagBits_eq]; exact roundMag_le _ _
    have hne : fmagBits r ≠ infBits := fun e => ho (hkey.mpr (by rw [← h.fmagBits_eq, e]))
    have hf : isFinite r = true := by unfold isFinite; exact decide_eq_true (by omega)
    exact ⟨hf, h.isNearest hd hf⟩

end Sys2Proof.Machine
end

section
/-! PROOFS. The clauses of rule R11 on infinities, NaN, zeros and the signs of results. -/

set_option Elab.async false

namespace Sys2Proof.Machine

/-! ### Classes of patterns -/

theorem isNaN_eq_false_of_isInf {v : F32} (h : isInf v = true) : isNaN v = false := by
  simp only [isInf, isNaN, decide_eq_true_eq, decide_eq_false_iff_not] at *; omega

theorem isZero_eq_false_of_isInf {v : F32} (h : isInf v = true) : isZero v = false := by
  have : infBits ≠ 0 := by decide
  simp only [isInf, isZero, decide_eq_true_eq, decide_eq_false_iff_not] at *; omega

theorem isFinite_of_isZero {v : F32} (h : isZero v = true) : isFinite v = true := by
  have : 0 < infBits := by decide
  simp only [isFinite, isZero, decide_eq_true_eq] at *; omega

theorem isInf_withSign (s : Bool) : isInf (withSign s infBits) = true := by cases s <;> decide

theorem isZero_withSign (s : Bool) : isZero (withSign s 0) = true := by cases s <;> decide

theorem fsign_withSign_roundMag (s : Bool) (num den : Nat) : fsign (withSign s (roundMag num den)) = s :=
  fsign_withSign s (lt_of_le_of_lt (roundMag_le _ _) infBits_lt)

/-- A nonzero finite pattern has a magnitude. -/
theorem fmag_pos {v : F32} (h : isZero v = false) : 0 < fmag v := by
  rw [fmag_eq_magUnits]
  exact magUnits_pos (Nat.pos_of_ne_zero (by simpa [isZero] using h))

/-! ### Sums -/

/-- A sum of finite values that is zero is `+0.0`, unless both are `-0.0` in sign. -/
theorem sumWith_of_zero (nan : F32) {a b : F32} (ha : isFinite a = true) (hb : isFinite b = true)
    (h : fvalue a + fvalue b = 0) : sumWith nan a b = withSign (fsign a && fsign b) 0 := by
  unfold sumWith
  simp [isNaN_eq_false_of_isFinite ha, isNaN_eq_false_of_isFinite hb, isInf_eq_false_of_isFinite ha,
    isInf_eq_false_of_isFinite hb, h]

/-- An infinity absorbs what is finite, and an infinity of its sign. -/
theorem sumWith_inf_left (nan : F32) {a b : F32} (ha : isInf a = true) (hb : isNaN b = false)
    (h : isInf b = true → fsign a = fsign b) : sumWith nan a b = a := by
  unfold sumWith
  cases hi : isInf b
  · simp [isNaN_eq_false_of_isInf ha, hb, ha]
  · simp [isNaN_eq_false_of_isInf ha, hb, ha, h hi]

theorem sumWith_inf_right (nan : F32) {a b : F32} (ha : isFinite a = true) (hb : isInf b = true) : sumWith nan a b = b := by
  unfold sumWith
  simp [isNaN_eq_false_of_isFinite ha, isNaN_eq_false_of_isInf hb, isInf_eq_false_of_isFinite ha, hb]

/-- Infinities of opposite signs have no sum. -/
theorem sumWith_opposite_inf (nan : F32) {a b : F32} (ha : isInf a = true) (hb : isInf b = true) (h : fsign a ≠ fsign b) :
    sumWith nan a b = nan := by
  unfold sumWith
  simp [isNaN_eq_false_of_isInf ha, isNaN_eq_false_of_isInf hb, ha, hb, h]

/-! ### Products -/

theorem fmul_of_finite {a b : F32} (ha : isFinite a = true) (hb : isFinite b = true) :
    fmul a b = withSign (fsign a != fsign b) (roundMag (fmag a * fmag b) (2 ^ 149)) := by
  unfold fmul
  simp [isNaN_eq_false_of_isFinite ha, isNaN_eq_false_of_isFinite hb, isInf_eq_false_of_isFinite ha,
    isInf_eq_false_of_isFinite hb]

theorem isNaN_fmul_inf_zero {a b : F32} (h : isInf a = true ∧ isZero b = true ∨ isZero a = true ∧ isInf b = true) :
    isNaN (fmul a b) = true := by
  have hnan := isNaN_producedNaN .mul a b
  unfold fmul
  rcases h with ⟨ha, hb⟩ | ⟨ha, hb⟩ <;> simp [ha, hb, hnan]

theorem fmul_inf {a b : F32} (hna : isNaN a = false) (hnb : isNaN b = false) (hza : isZero a = false)
    (hzb : isZero b = false) (h : isInf a = true ∨ isInf b = true) :
    fmul a b = withSign (fsign a != fsign b) infBits := by
  unfold fmul
  simp [hna, hnb, hza, hzb, h]

/-! ### Quotients -/

theorem fdiv_of_finite {a b : F32} (ha : isFinite a = true) (hb : isFinite b = true) (hz : isZero b = false) :
    fdiv a b = withSign (fsign a != fsign b) (roundMag (fmag a * 2 ^ 149) (fmag b)) := by
  unfold fdiv
  simp [isNaN_eq_false_of_isFinite ha, isNaN_eq_false_of_isFinite hb, isInf_eq_false_of_isFinite ha,
    isInf_eq_false_of_isFinite hb, hz]

theorem fdiv_by_zero {a b : F32} (ha : isFinite a = true) (hb : isZero b = true) :
    fdiv a b = if isZero a then producedNaN .div a b else withSign (fsign a != fsign b) infBits := by
  have hfb := isFinite_of_isZero hb
  unfold fdiv
  simp [isNaN_eq_false_of_isFinite ha, isNaN_eq_false_of_isFinite hfb, isInf_eq_false_of_isFinite ha,
    isInf_eq_false_of_isFinite hfb, hb]

theorem fdiv_inf_left {a b : F32} (ha : isInf a = true) (hb : isFinite b = true) :
    fdiv a b = withSign (fsign a != fsign b) infBits := by
  unfold fdiv
  simp [isNaN_eq_false_of_isInf ha, isNaN_eq_false_of_isFinite hb, ha, isInf_eq_false_of_isFinite hb]

theorem fdiv_inf_right {a b : F32} (ha : isFinite a = true) (hb : isInf b = true) :
    fdiv a b = withSign (fsign a != fsign b) 0 := by
  unfold fdiv
  simp [isNaN_eq_false_of_isFinite ha, isNaN_eq_false_of_isInf hb, isInf_eq_false_of_isFinite ha, hb]

theorem isNaN_fdiv_inf_inf {a b : F32} (ha : isInf a = true) (hb : isInf b = true) : isNaN (fdiv a b) = true := by
  have hnan := isNaN_producedNaN .div a b
  unfold fdiv
  simp [isNaN_eq_false_of_isInf ha, isNaN_eq_false_of_isInf hb, ha, hb, hnan]

/-- The sign of the exact quotient is the sign of the result. -/
theorem fdiv_roundsTo {a b : F32} (ha : isFinite a = true) (hb : isFinite b = true) (hz : isZero b = false) :
    RoundsTo (fdiv a b) (fvalue a * 2 ^ 149 * (fvalue b).sign) (fmag b) := by
  have hpos : (0 : Int) < fmag b := by exact_mod_cast fmag_pos hz
  have hval (v : F32) : fvalue v = if fsign v then -(fmag v : Int) else fmag v := rfl
  have hsign : (fvalue b).sign = if fsign b then -1 else 1 := by
    rw [hval]
    split_ifs
    · exact Int.sign_eq_neg_one_of_neg (by omega)
    · exact Int.sign_eq_one_of_pos hpos
  have hnum : fvalue a * 2 ^ 149 * (fvalue b).sign =
      if (fsign a != fsign b) then -((fmag a * 2 ^ 149 : Nat) : Int) else ((fmag a * 2 ^ 149 : Nat) : Int) := by
    rw [hsign, hval a]
    push_cast
    cases fsign a <;> cases fsign b <;> simp
  rw [fdiv_of_finite ha hb hz, hnum]
  generalize fmag a * 2 ^ 149 = m
  refine withSign_rounds (fmag_pos hz) (by split_ifs <;> simp) fun h => ?_
  cases hs : (fsign a != fsign b) <;> simp only [hs, if_true, Bool.false_eq_true, if_false] at h ⊢
  · symm; rw [decide_eq_false_iff_not]; omega
  · symm; rw [decide_eq_true_eq]; omega

end Sys2Proof.Machine
end

section
/-! PROOFS. The square root of rule R11, and the conversions of rules R11 and R14. -/

set_option Elab.async false

namespace Sys2Proof.Machine

/-! ### The integer square root -/

theorem isqrtFrom_bounds (n : Nat) : ∀ k r : Nat, r * r ≤ n → n < (r + 2 ^ k) * (r + 2 ^ k) →
    isqrtFrom n k r * isqrtFrom n k r ≤ n ∧ n < (isqrtFrom n k r + 1) * (isqrtFrom n k r + 1) := by
  intro k
  induction k with
  | zero => exact fun r h1 h2 => ⟨h1, h2⟩
  | succ k ih =>
    intro r h1 h2
    unfold isqrtFrom
    split_ifs with h
    · exact ih _ h (by rwa [Nat.add_assoc, ← Nat.two_mul, ← Nat.pow_succ'])
    · exact ih _ h1 (Nat.lt_of_not_le h)

/-- `isqrt` is the integer square root. -/
theorem isqrt_bounds (n : Nat) : isqrt n * isqrt n ≤ n ∧ n < (isqrt n + 1) * (isqrt n + 1) := by
  refine isqrtFrom_bounds n _ 0 (Nat.zero_le _) ?_
  rw [Nat.zero_add, ← Nat.pow_add]
  exact lt_of_lt_of_le Nat.lt_log2_self (Nat.pow_le_pow_right (by decide) (by omega))

/-! ### The root with its sticky bit -/

/-- Twice the integer root of `n`, one more where the root is not exact. -/
def rootWithSticky (n : Nat) : Nat := 2 * isqrt n + (if isqrt n * isqrt n = n then 0 else 1)

/-- An even number on one side of the root with its sticky bit is on that side of twice the exact root. -/
theorem rootWithSticky_le {n t : Nat} (h : rootWithSticky n ≤ t) (ht : t % 2 = 0) : 4 * n ≤ t * t := by
  obtain ⟨-, hhi⟩ := isqrt_bounds n
  unfold rootWithSticky at h
  split_ifs at h with he
  · have := Nat.mul_le_mul h h
    nlinarith
  · have := Nat.mul_le_mul (show 2 * (isqrt n + 1) ≤ t by omega) (show 2 * (isqrt n + 1) ≤ t by omega)
    nlinarith

theorem le_rootWithSticky {n t : Nat} (h : t ≤ rootWithSticky n) (ht : t % 2 = 0) : t * t ≤ 4 * n := by
  obtain ⟨hlo, -⟩ := isqrt_bounds n
  have h2 : t ≤ 2 * isqrt n := by unfold rootWithSticky at h; split_ifs at h <;> omega
  have := Nat.mul_le_mul h2 h2
  nlinarith

/-- From `2^24` units on the values of patterns are even. -/
theorem magUnits_even {m : Nat} (h : 2 ^ 24 ≤ m) : magUnits m % 2 = 0 := by
  unfold magUnits
  obtain ⟨e, he⟩ : ∃ e, m / 2 ^ 23 - 1 = e + 1 := ⟨m / 2 ^ 23 - 2, by omega⟩
  rw [if_neg (by omega), he, pow_succ 2 e, ← Nat.mul_assoc, Nat.mul_mod_left]

/-- Where the floor pattern of a root lies: above the places that still hold odd values, and below infinity. -/
theorem floorBits_root {n : Nat} (hlo : 2 ^ 149 ≤ n) (hhi : n < 2 ^ 426) :
    2 ^ 24 ≤ floorBits (rootWithSticky n) 2 ∧ floorBits (rootWithSticky n) 2 + 1 < infBits := by
  obtain ⟨hr1, hr2⟩ := isqrt_bounds n
  obtain ⟨hk1, hk2⟩ := floorBits_bounds (num := rootWithSticky n) (den := 2) (by decide)
  have hlow : 2 ^ 74 < isqrt n + 1 := Nat.mul_self_lt_mul_self_iff.mp (lt_of_le_of_lt (by omega) hr2)
  have hhigh : isqrt n < 2 ^ 213 := Nat.mul_self_lt_mul_self_iff.mp (lt_of_le_of_lt hr1
    (lt_of_lt_of_eq hhi (by rw [← pow_add])))
  have hroot : 2 * isqrt n ≤ rootWithSticky n ∧ rootWithSticky n ≤ 2 * isqrt n + 1 := by
    unfold rootWithSticky; split_ifs <;> omega
  have h24 : magUnits (2 ^ 24) = 2 ^ 24 := by decide +kernel
  have h200 : magUnits (200 * 2 ^ 23) = 2 ^ 222 := by decide +kernel
  have hinfBits : infBits = 2139095040 := rfl
  constructor
  · have := magUnits_strictMono.lt_iff_lt.mp (show magUnits (2 ^ 24) < magUnits (floorBits (rootWithSticky n) 2 + 1) by omega)
    omega
  · have := magUnits_strictMono.lt_iff_lt.mp (show magUnits (floorBits (rootWithSticky n) 2) < magUnits (200 * 2 ^ 23) by omega)
    omega

/-- The rounded root is the floor pattern or the next one, by the side of their midpoint on which the root with its sticky
bit lies. -/
theorem roundMag_root_cases {n : Nat} (hlo : 2 ^ 149 ≤ n) (hhi : n < 2 ^ 426) :
    let M := rootWithSticky n
    let k := floorBits M 2
    (roundMag M 2 = k ∧ M ≤ magUnits k + magUnits (k + 1)) ∨
      (roundMag M 2 = k + 1 ∧ magUnits k + magUnits (k + 1) ≤ M) := by
  obtain ⟨-, hk⟩ := floorBits_root hlo hhi
  have hr := roundMag_eq_floor (rootWithSticky n) 2
  dsimp only at hr ⊢
  rw [hr]
  split_ifs <;> omega

/-- The rounded root is nearest to the exact root: its midpoint with any other value is on the other value's side of the root,
compared by squares. -/
theorem roundMag_root_nearest {n x : Nat} (hlo : 2 ^ 149 ≤ n) (hhi : n < 2 ^ 426)
    (hx : x ≤ magUnits (floorBits (rootWithSticky n) 2) ∨ magUnits (floorBits (rootWithSticky n) 2 + 1) ≤ x) :
    let y := magUnits (roundMag (rootWithSticky n) 2)
    (x < y → (y + x) * (y + x) ≤ 4 * n) ∧ (y < x → 4 * n ≤ (y + x) * (y + x)) := by
  obtain ⟨hk, -⟩ := floorBits_root hlo hhi
  obtain ⟨hf1, hf2⟩ := floorBits_bounds (num := rootWithSticky n) (den := 2) (by decide)
  have hcases := roundMag_root_cases hlo hhi
  dsimp only at hcases ⊢
  generalize floorBits (rootWithSticky n) 2 = k at *
  have he1 := magUnits_even hk
  have he2 : magUnits (k + 1) % 2 = 0 := magUnits_even (Nat.le_succ_of_le hk)
  have below {t z : Nat} (ht : t % 2 = 0) (h1 : t ≤ rootWithSticky n) (h2 : z ≤ t) : z * z ≤ 4 * n :=
    le_trans (Nat.mul_le_mul h2 h2) (le_rootWithSticky h1 ht)
  have above {t z : Nat} (ht : t % 2 = 0) (h1 : rootWithSticky n ≤ t) (h2 : t ≤ z) : 4 * n ≤ z * z :=
    le_trans (rootWithSticky_le h1 ht) (Nat.mul_le_mul h2 h2)
  rcases hcases with ⟨e, hm⟩ | ⟨e, hm⟩
  · rw [e]
    exact ⟨fun h => below (t := magUnits k * 2) (by omega) hf1 (by omega),
      fun h => above (t := magUnits k + magUnits (k + 1)) (by omega) hm (by omega)⟩
  · rw [e]
    exact ⟨fun h => below (t := magUnits k + magUnits (k + 1)) (by omega) hm (by omega),
      fun h => above (t := magUnits (k + 1) * 2) (by omega) hf2.le (by omega)⟩

/-! ### The square root of a finite value -/

/-- The square root of a positive finite value is the rounded root, without a sign. -/
theorem fsqrt_of_pos {v : F32} (hs : fsign v = false) (hf : isFinite v = true) (hz : isZero v = false) :
    fsqrt v = withSign false (roundMag (rootWithSticky (fmag v * 2 ^ 149)) 2) := by
  unfold fsqrt rootWithSticky
  simp [isNaN_eq_false_of_isFinite hf, isInf_eq_false_of_isFinite hf, hs, hz]

theorem fvalue_of_nonneg {v : F32} (hs : fsign v = false) : fvalue v = fmag v := by simp [fvalue, hs]

/-- The square root of a finite value without a sign is finite, without a sign, and nearest to the exact root. -/
theorem fsqrt_nearest {v : F32} (hs : fsign v = false) (hf : isFinite v = true) :
    isFinite (fsqrt v) = true ∧ fsign (fsqrt v) = false ∧ ∀ w : F32, isFinite w = true → fsign w = false →
      (fvalue w < fvalue (fsqrt v) → (fvalue (fsqrt v) + fvalue w) ^ 2 ≤ 4 * (fvalue v * 2 ^ 149)) ∧
      (fvalue (fsqrt v) < fvalue w → 4 * (fvalue v * 2 ^ 149) ≤ (fvalue (fsqrt v) + fvalue w) ^ 2) := by
  cases hz : isZero v
  case true =>
    have hroot : fsqrt v = v := by unfold fsqrt; simp [isNaN_eq_false_of_isFinite hf, hz]
    have hv : fvalue v = 0 := by
      rw [fvalue_of_nonneg hs, fmag_eq_magUnits, of_decide_eq_true hz]; rfl
    rw [hroot, hv]
    refine ⟨hf, hs, fun w _ hw => ⟨fun h => ?_, fun _ => by positivity⟩⟩
    rw [fvalue_of_nonneg hw] at h
    omega
  case false =>
    have hlo : 2 ^ 149 ≤ fmag v * 2 ^ 149 := Nat.le_mul_of_pos_left _ (fmag_pos hz)
    have hhi : fmag v * 2 ^ 149 < 2 ^ 426 := by
      have hinf : magUnits infBits = 2 ^ 277 := by decide +kernel
      have : fmag v < magUnits infBits := by
        rw [fmag_eq_magUnits]; exact magUnits_strictMono (of_decide_eq_true hf)
      calc fmag v * 2 ^ 149 < 2 ^ 277 * 2 ^ 149 := Nat.mul_lt_mul_of_pos_right (hinf ▸ this) (by positivity)
        _ = 2 ^ 426 := by rw [← pow_add]
    have hfin : roundMag (rootWithSticky (fmag v * 2 ^ 149)) 2 < infBits := by
      have := floorBits_root hlo hhi
      rcases roundMag_root_cases hlo hhi with h | h <;> omega
    have hb := lt_trans hfin infBits_lt
    have hs' : fsign (fsqrt v) = false := by rw [fsqrt_of_pos hs hf hz]; exact fsign_withSign _ hb
    have hm' : fmagBits (fsqrt v) = roundMag (rootWithSticky (fmag v * 2 ^ 149)) 2 := by
      rw [fsqrt_of_pos hs hf hz]; exact fmagBits_withSign _ hb
    refine ⟨decide_eq_true (by rw [hm']; exact hfin), hs', fun w _ hw => ?_⟩
    rw [fvalue_of_nonneg hs', fvalue_of_nonneg hw, fvalue_of_nonneg hs, fmag_eq_magUnits (fsqrt v), hm', sq]
    have hout := fvalue_outside w (floorBits (rootWithSticky (fmag v * 2 ^ 149)) 2)
    rw [fvalue_of_nonneg hw] at hout
    have hnear := roundMag_root_nearest hlo hhi (x := fmag w) (by exact_mod_cast hout)
    dsimp only at hnear
    exact_mod_cast hnear

/-! ### Conversions -/

/-- A non-negative finite value is its magnitude, and converts (rule R14). -/
theorem convertible_of_nonneg {v : F32} (hf : isFinite v = true) (h : fle Config.zero v = true) :
    convertible v = true ∧ fvalue v = fmag v := by
  have h0 : 0 ≤ fvalue v := (fvalue_le_iff Config.zero v).mpr (fle_iff.mp h).2.2
  have hm := natAbs_fvalue v
  exact ⟨by simp [convertible, fge, hf, h], by omega⟩

/-- What is a NaN or below zero does not convert (rule R14). -/
theorem convertible_eq_false {v : F32} (h : isNaN v = true ∨ flt v Config.zero = true) : convertible v = false := by
  rcases h with h | h
  · exact convertible_of_isNaN h
  · have hk := (flt_iff.mp h).2.2
    simp only [convertible, fge, Bool.and_eq_false_iff]
    refine .inr (Bool.eq_false_iff.mpr fun hle => ?_)
    have := (fle_iff.mp hle).2.2
    omega

/-- The three conversions of a non-negative finite value: half up, down and up (rule R14). -/
theorem conversions_round {v : F32} (hf : isFinite v = true) (h : fle Config.zero v = true) :
    (f2uRound v * 2 ^ 150 ≤ 2 * fvalue v + 2 ^ 149 ∧ 2 * fvalue v + 2 ^ 149 < (f2uRound v + 1) * 2 ^ 150) ∧
    (f2uFloor v * 2 ^ 149 ≤ fvalue v ∧ fvalue v < (f2uFloor v + 1) * 2 ^ 149) ∧
    ((f2uCeil v - 1 : Int) * 2 ^ 149 < fvalue v ∧ fvalue v ≤ f2uCeil v * 2 ^ 149) := by
  obtain ⟨hc, hv⟩ := convertible_of_nonneg hf h
  unfold f2uRound f2uFloor f2uCeil
  rw [hv, hc]
  simp only [if_true]
  omega

theorem conversions_zero {v : F32} (h : isNaN v = true ∨ flt v Config.zero = true) :
    f2uRound v = 0 ∧ f2uFloor v = 0 ∧ f2uCeil v = 0 := by
  have hc := convertible_eq_false h
  simp [f2uRound, f2uFloor, f2uCeil, hc]

/-- `u2f` is the integer correctly rounded, without a sign (rule R11). -/
theorem u2f_roundsTo (n : Nat) : RoundsTo (u2f n) (n * 2 ^ 149) 1 ∧ fsign (u2f n) = false :=
  ⟨withSign_rounds (by decide) (by rw [Int.natAbs_mul]; rfl) fun _ => (decide_eq_false (not_lt.mpr (by positivity))).symm,
    fsign_withSign_roundMag _ _ _⟩

/-! ### The clauses together -/

/-- Sums, products and quotients of finite values are the exact ones correctly rounded, with the signs of IEEE 754. -/
theorem arithmetic_of_finite {a b : F32} (ha : isFinite a = true) (hb : isFinite b = true) :
    (IsRounded (fadd a b) (fvalue a + fvalue b) 1 ∧
      (fvalue a + fvalue b = 0 → fadd a b = if fsign a = true ∧ fsign b = true then 0x80000000#32 else 0x00000000#32)) ∧
    (IsRounded (fsub a b) (fvalue a - fvalue b) 1 ∧
      (fvalue a - fvalue b = 0 → fsub a b = if fsign a = true ∧ fsign b = false then 0x80000000#32 else 0x00000000#32)) ∧
    (IsRounded (fmul a b) (fvalue a * fvalue b) (2 ^ 149) ∧ fsign (fmul a b) = (fsign a != fsign b)) ∧
    (isZero b = false → IsRounded (fdiv a b) (fvalue a * 2 ^ 149 * (fvalue b).sign) |fvalue b| ∧
      fsign (fdiv a b) = (fsign a != fsign b)) ∧
    (isZero b = true → (isZero a = true → isNaN (fdiv a b) = true) ∧
      (isZero a = false → isInf (fdiv a b) = true ∧ fsign (fdiv a b) = (fsign a != fsign b))) := by
  have hb' : isFinite (fneg b) = true := by simpa using hb
  refine ⟨⟨(fadd_rounds ha hb).isRounded (by decide), fun h => ?_⟩, ⟨(fsub_rounds ha hb).isRounded (by decide), fun h => ?_⟩,
    ⟨(fmul_rounds ha hb).isRounded (by positivity), ?_⟩, fun hz => ⟨?_, ?_⟩, fun hz => ⟨fun hza => ?_, fun hza => ?_⟩⟩
  · unfold fadd
    rw [sumWith_of_zero _ ha hb h]
    cases fsign a <;> cases fsign b <;> rfl
  · unfold fsub
    rw [sumWith_of_zero _ ha hb' (by rw [fvalue_fneg]; exact h), fsign_fneg]
    cases fsign a <;> cases fsign b <;> rfl
  · rw [fmul_of_finite ha hb, fsign_withSign_roundMag]
  · rw [Int.abs_eq_natAbs, natAbs_fvalue]
    exact (fdiv_roundsTo ha hb hz).isRounded (fmag_pos hz)
  · rw [fdiv_of_finite ha hb hz, fsign_withSign_roundMag]
  · rw [fdiv_by_zero ha hz, hza]; exact isNaN_producedNaN _ _ _
  · rw [fdiv_by_zero ha hz, hza]
    exact ⟨isInf_withSign _, fsign_withSign _ infBits_lt⟩

/-- An infinity and a finite value. -/
theorem arithmetic_of_inf_finite {a b : F32} (ha : isInf a = true) (hb : isFinite b = true) :
    fadd a b = a ∧ fadd b a = a ∧ fsub a b = a ∧ fsub b a = fneg a ∧
      (isInf (fdiv a b) = true ∧ fsign (fdiv a b) = (fsign a != fsign b)) ∧
      (isZero (fdiv b a) = true ∧ fsign (fdiv b a) = (fsign b != fsign a)) := by
  have hn := isNaN_eq_false_of_isFinite hb
  have hi := isInf_eq_false_of_isFinite hb
  refine ⟨sumWith_inf_left _ ha hn (by simp [hi]), sumWith_inf_right _ hb ha,
    sumWith_inf_left _ ha (by simpa using hn) (by simp [hi]), sumWith_inf_right _ hb (by simpa using ha), ?_, ?_⟩
  · rw [fdiv_inf_left ha hb]
    exact ⟨isInf_withSign _, fsign_withSign _ infBits_lt⟩
  · rw [fdiv_inf_right hb ha]
    exact ⟨isZero_withSign _, fsign_withSign _ (by decide)⟩

/-- An infinity times a number that is not a zero. -/
theorem fmul_of_inf {a b : F32} (ha : isInf a = true) (hz : isZero b = false) (hn : isNaN b = false) :
    (isInf (fmul a b) = true ∧ isInf (fmul b a) = true) ∧
      fsign (fmul a b) = (fsign a != fsign b) ∧ fsign (fmul b a) = (fsign b != fsign a) := by
  have hna := isNaN_eq_false_of_isInf ha
  have hza := isZero_eq_false_of_isInf ha
  rw [fmul_inf hna hn hza hz (.inl ha), fmul_inf hn hna hz hza (.inr ha)]
  exact ⟨⟨isInf_withSign _, isInf_withSign _⟩, fsign_withSign _ infBits_lt, fsign_withSign _ infBits_lt⟩

/-- Two infinities: no quotient, and a sum or a difference only where they do not cancel. -/
theorem arithmetic_of_inf_inf {a b : F32} (ha : isInf a = true) (hb : isInf b = true) :
    isNaN (fdiv a b) = true ∧ (fsign a = fsign b → fadd a b = a ∧ isNaN (fsub a b) = true) ∧
      (fsign a ≠ fsign b → isNaN (fadd a b) = true ∧ fsub a b = a) := by
  have hb' : isInf (fneg b) = true := by simpa using hb
  refine ⟨isNaN_fdiv_inf_inf ha hb, fun h => ⟨?_, ?_⟩, fun h => ⟨?_, ?_⟩⟩
  · exact sumWith_inf_left _ ha (isNaN_eq_false_of_isInf hb) fun _ => h
  · unfold fsub
    rw [sumWith_opposite_inf _ ha hb' (by simp [h])]
    exact isNaN_producedNaN _ _ _
  · unfold fadd
    rw [sumWith_opposite_inf _ ha hb h]
    exact isNaN_producedNaN _ _ _
  · exact sumWith_inf_left _ ha (isNaN_eq_false_of_isInf hb') fun _ => by
      rw [fsign_fneg]; exact Bool.eq_not_of_ne h

/-- The square root of what is not a positive finite value. -/
theorem fsqrt_special (v : F32) :
    (isZero v = true → fsqrt v = v) ∧ (isNaN v = true → isNaN (fsqrt v) = true) ∧
    (fsign v = true → isZero v = false → isNaN (fsqrt v) = true) ∧
    (fsign v = false → isInf v = true → fsqrt v = v) := by
  have hnan := isNaN_producedNaN .sqrt v v
  unfold fsqrt
  refine ⟨fun hz => ?_, fun hn => ?_, fun hs hz => ?_, fun hs hi => ?_⟩
  · simp [hz, isNaN_eq_false_of_isFinite (isFinite_of_isZero hz)]
  · simp [hn, hnan]
  · cases isNaN v <;> simp [hs, hz, hnan]
  · simp [hs, hi, isNaN_eq_false_of_isInf hi, isZero_eq_false_of_isInf hi]

/-- Settles O48, clause by clause: finite operands, NaN and infinities, the square root, `u2f`, the conversions. -/
theorem arithmeticAndConversions : Obligations.ArithmeticAndConversions := by
  unfold Obligations.ArithmeticAndConversions
  refine ⟨fun a b ha hb => arithmetic_of_finite ha hb, fun a b => ⟨fun h => ?_, arithmetic_of_inf_finite, fun ha hb => ?_,
    fmul_of_inf, arithmetic_of_inf_inf⟩, fun v => ?_, fun n => ?_, fun v => ⟨conversions_round, conversions_zero⟩⟩
  · exact ⟨isNaN_fadd h, isNaN_fsub h, isNaN_fmul h, isNaN_fdiv h⟩
  · exact ⟨isNaN_fmul_inf_zero (.inl ⟨ha, hb⟩), isNaN_fmul_inf_zero (.inr ⟨hb, ha⟩)⟩
  · obtain ⟨hzero, hnan, hneg, hinf⟩ := fsqrt_special v
    exact ⟨hzero, hnan, hneg, hinf, fsqrt_nearest⟩
  · obtain ⟨hr, hs⟩ := u2f_roundsTo n
    exact ⟨hr.isRounded (by decide), hs⟩

end Sys2Proof.Machine
end

section
/-! PROOFS. The LFO phase stays in `[0, TWO_PI)` (rules R34, R204). -/

set_option Elab.async false

namespace Sys2Proof.Machine

/-- Between numbers the strict IEEE order is the order of the values. -/
theorem flt_iff_value {a b : F32} (ha : isNaN a = false) (hb : isNaN b = false) :
    flt a b = true ↔ fvalue a < fvalue b := by
  rw [flt_iff, fvalue_eq_keyValue, fvalue_eq_keyValue, keyValue_strictMono.lt_iff_lt]; simp [ha, hb]

/-- A valid sample rate: its magnitude is at least 8000 Hz. -/
theorem fmag_of_validRate {fs : F32} (h1 : fle Config.srMin fs = true) (h2 : fle fs Config.srMax = true) :
    isFinite fs = true ∧ fsign fs = false ∧ 8000 * 2 ^ 149 ≤ fmag fs := by
  obtain ⟨hf, hlo, -⟩ := finite_of_fle (by decide) (by decide) h1 h2
  rw [show fvalue Config.srMin = 8000 * 2 ^ 149 by decide +kernel] at hlo
  have hs : fsign fs = false := by
    by_contra hs
    have : fvalue fs = -(fmag fs : Int) := by unfold fvalue; rw [if_pos (by simpa using hs)]
    omega
  rw [fvalue_of_nonneg hs] at hlo
  exact ⟨hf, hs, by exact_mod_cast hlo⟩

/-- The increment of a phase is between 0 and 1/32, whatever number the rate register holds (rule R204): at most
`TWO_PI * 20 < 126`, divided by at least 8000. -/
theorem lfoIncrement_range {rate fs : F32} (hr : isNaN rate = false) (h1 : fle Config.srMin fs = true)
    (h2 : fle fs Config.srMax = true) :
    isFinite (lfoIncrement rate fs) = true ∧ 0 ≤ fvalue (lfoIncrement rate fs) ∧
      fvalue (lfoIncrement rate fs) ≤ 2 ^ 144 := by
  obtain ⟨hf, hs, hm⟩ := fmag_of_validRate h1 h2
  obtain ⟨hc1, hc2⟩ := fclamp_in_range hr (show fle Config.zero Config.lfoRateHi = true by decide)
  obtain ⟨hcf, hlo, hhi⟩ := finite_of_fle (by decide) (by decide) hc1 hc2
  have hz : fvalue Config.zero = 0 := by decide
  have htwoPi : 0 ≤ fvalue Config.twoPi := by decide
  have h126 : fvalue (0x42FC0000#32) = 126 * 2 ^ 149 := by decide +kernel
  have hprod : fvalue Config.twoPi * fvalue Config.lfoRateHi ≤ fvalue (0x42FC0000#32) * (2 ^ 149 : Nat) := by decide +kernel
  rw [hz] at hlo
  obtain ⟨hpf, hplo, hphi⟩ := (fmul_rounds (by decide) hcf).between (lo := Config.zero) (hi := 0x42FC0000#32)
    (by positivity) (by decide) (by decide) (by rw [hz, zero_mul]; exact mul_nonneg htwoPi hlo)
    (le_trans (mul_le_mul_of_nonneg_left hhi htwoPi) hprod)
  have h32 : fvalue (0x3D000000#32) = 2 ^ 144 := by decide +kernel
  have hm' : (8000 : Int) * 2 ^ 149 ≤ fmag fs := by exact_mod_cast hm
  rw [hz] at hplo
  obtain ⟨hqf, hqlo, hqhi⟩ := (fdiv_rounds hpf hf hs (by omega)).between (lo := Config.zero) (hi := 0x3D000000#32)
    (by omega) (by decide) (by decide) (by rw [hz, zero_mul]; exact mul_nonneg hplo (by positivity))
    (by rw [h32]; omega)
  rw [hz] at hqlo
  rw [h32] at hqhi
  exact ⟨hqf, hqlo, hqhi⟩

/-- The next phase is in `[0, TWO_PI)` (rule R204). -/
theorem lfoNext_range {rate fs phase : F32} (hr : isNaN rate = false) (h1 : fle Config.srMin fs = true)
    (h2 : fle fs Config.srMax = true) (h3 : fle Config.zero phase = true) (h4 : flt phase Config.twoPi = true) :
    fle Config.zero (lfoNext rate fs phase) = true ∧ flt (lfoNext rate fs phase) Config.twoPi = true := by
  obtain ⟨hif, hilo, hihi⟩ := lfoIncrement_range hr h1 h2
  have hz : fvalue Config.zero = 0 := by decide
  have hnz : isNaN Config.zero = false := by decide
  have hnt : isNaN Config.twoPi = false := by decide
  have hnp := not_isNaN_of_fle_right h3
  have hplo := (fle_iff_value hnz hnp).mp h3
  have hphi := (flt_iff_value hnp hnt).mp h4
  have hpf : isFinite phase = true :=
    (finite_of_fle (by decide) (show isFinite Config.twoPi = true by decide) h3
      ((fle_iff_value hnp hnt).mpr hphi.le)).1
  have h7 : fvalue Config.twoPi + 2 ^ 144 ≤ fvalue (0x40E00000#32) := by decide +kernel
  obtain ⟨hsf, hslo, hshi⟩ := (fadd_rounds hpf hif).between (lo := Config.zero) (hi := 0x40E00000#32) (by decide)
    (by decide) (by decide) (by rw [hz] at hplo ⊢; omega) (by rw [Nat.cast_one, mul_one]; omega)
  have hns := isNaN_eq_false_of_isFinite hsf
  unfold lfoNext
  dsimp only
  split_ifs with hge
  · have hge' := (fle_iff_value hnt hns).mp hge
    have h1v : fvalue (0x40E00000#32) - fvalue Config.twoPi ≤ fvalue Config.one := by decide +kernel
    have h1t : fvalue Config.one < fvalue Config.twoPi := by decide +kernel
    obtain ⟨hdf, hdlo, hdhi⟩ := (fsub_rounds hsf (show isFinite Config.twoPi = true by decide)).between
      (lo := Config.zero) (hi := Config.one) (by decide) (by decide) (by decide) (by rw [hz]; omega)
      (by rw [Nat.cast_one, mul_one]; omega)
    have hnd := isNaN_eq_false_of_isFinite hdf
    exact ⟨(fle_iff_value hnz hnd).mpr hdlo, (flt_iff_value hnd hnt).mpr (lt_of_le_of_lt hdhi h1t)⟩
  · refine ⟨(fle_iff_value hnz hns).mpr hslo, (flt_iff_value hns hnt).mpr (lt_of_not_ge fun h => hge ?_)⟩
    exact (fle_iff_value hnt hns).mpr h

end Sys2Proof.Machine
end

section
/-! PROOFS. What each part of a step keeps of the invariant (rules R21, R23, R31, R34, R66, R129, R310), and that no step of
a state with the invariant stops (rules R66, R92, R340). -/

set_option Elab.async false

namespace Sys2Proof.Machine

/-! ### What the invariant reads of a state -/

/-- What the invariant reads of a state besides the sequencer. -/
def State.guarded (s : State) := (s.sp, s.cells, s.act, s.status.prepared, s.wc, s.dram, s.ph)

/-- What the invariant reads of the sequencer. -/
def State.progress (s : State) := (s.seq, s.passing, s.inFrame, s.popped)

/-- A sequencer that is in order can replace the sequencer's parts of a state. -/
theorem Inv.setSequencer {s t : State} (h : Inv s) (e : t.guarded = s.guarded) (hseq : SeqOk t) : Inv t := by
  simp only [State.guarded, Prod.mk.injEq] at e
  obtain ⟨hsp, hcells, hact, hprep, hwc, hdram, hph⟩ := e
  exact {
    mem := by rw [hdram]; exact h.mem
    targets := by rw [hsp]; exact h.targets
    settled := by rw [hsp]; exact h.settled
    ramps := by rw [hsp, hact]; exact h.ramps
    glides := by rw [hsp, hact]; exact h.glides
    cells := by rw [hcells]; exact h.cells
    active := by rw [hprep, hact]; exact h.active
    ring := fun hp => (h.ring (hprep ▸ hp)).congr hact hwc
    phases := by unfold PhaseOk; rw [hprep, hph]; exact h.phases
    seq := hseq }

/-- The sequencer is in order or not by its own parts, `PREPARED` and the active configuration. -/
theorem SeqOk.congr {s t : State} (h : SeqOk s) (e : t.progress = s.progress)
    (hprep : t.status.prepared = s.status.prepared) (hact : t.act = s.act) : SeqOk t := by
  simp only [State.progress, Prod.mk.injEq] at e
  obtain ⟨hseq, hpass, hframe, hpop⟩ := e
  exact {
    busy_prepared := by rw [hseq, hprep]; exact h.busy_prepared
    block_le := by rw [hseq, hpass, hact]; exact h.block_le
    idle := by rw [hseq, hpass, hframe]; exact h.idle
    boundary := by rw [hpass, hframe]; exact h.boundary
    word := by rw [hpass, hact]; exact h.word
    popped := by rw [hpop, hpass, hframe, hact]; exact h.popped }

/-- The invariant depends on these parts alone. -/
theorem Inv.congr {s t : State} (h : Inv s) (e : t.guarded = s.guarded) (ep : t.progress = s.progress) : Inv t := by
  refine h.setSequencer e (h.seq.congr ep ?_ ?_)
  · exact congrArg (·.2.2.2.1) e
  · exact congrArg (·.2.2.1) e

/-! ### One register -/

/-- What the invariant says of one register. -/
structure RegOk (a : Active) (range : ParamRange) (r : Sp) : Prop where
  target : InRange range r.tgt
  settled : r.cnt = 0#18 → r.cur = r.tgt
  ramp : r.cnt ≤ a.rampSamples
  glide : Glides a range r

theorem Inv.reg {s : State} (h : Inv s) (i : SpIdx) : RegOk s.act (paramRange i) s.sp[i] :=
  ⟨h.targets i, h.settled i, h.ramps i, h.glides i⟩

/-- A register at rest on a value of its range. -/
theorem RegOk.rest {a : Active} {i : SpIdx} {v step : F32} (hv : InRange (paramRange i) v) (hs : isFinite step = true) :
    RegOk a (paramRange i) ⟨v, v, step, 0#18⟩ :=
  ⟨hv, fun _ => rfl, BitVec.le_def.mpr (Nat.zero_le _), .rest hv hs⟩

theorem RegOk.reset (a : Active) (i : SpIdx) : RegOk a (paramRange i) (Sp.reset i) := by
  have hdefault : ∀ i : SpIdx, InRange (paramRange i) (paramRange i).default := by decide +kernel
  exact .rest (hdefault i) (by decide)

theorem RegOk.snap {a b : Active} {i : SpIdx} {r : Sp} (h : RegOk a (paramRange i) r) : RegOk b (paramRange i) (snap r) :=
  .rest h.target (by decide)

theorem RegOk.advance {a : Active} {i : SpIdx} {r : Sp} (h : RegOk a (paramRange i) r) (ha : ActiveOk a) :
    RegOk a (paramRange i) (advance a.rmode a.expAlpha r) where
  target := by rw [advance_tgt]; exact h.target
  settled := fun h0 => by
    rw [advance_tgt]
    by_cases hr : r.cnt = 0#18
    · rw [advance_idle _ _ hr]; exact h.settled hr
    · have hc := advance_cnt a.rmode a.expAlpha r
      have hr' : r.cnt.toNat ≠ 0 := fun e => hr (BitVec.eq_of_toNat_eq e)
      rw [h0, BitVec.toNat_ofNat] at hc
      have h1 : r.cnt.toNat = 1 := by omega
      rw [advance_last _ _ (BitVec.eq_of_toNat_eq h1)]
  ramp := by
    have hc := advance_cnt a.rmode a.expAlpha r
    have hr : r.cnt.toNat ≤ a.rampSamples.toNat := h.ramp
    exact BitVec.le_def.mpr (by omega)
  glide := h.glide.advance h.target ha h.ramp

theorem RegOk.retarget {a : Active} {i : SpIdx} {r : Sp} {p : Bool} {v : F32} (h : RegOk a (paramRange i) r)
    (hv : InRange (paramRange i) v) (ha : p = true → ActiveOk a) :
    RegOk a (paramRange i) (retarget p a.rampSamples v r) := by
  have hg := h.glide.retarget hv ha
  rcases retarget_cases p a.rampSamples v r with ⟨-, e⟩ | ⟨-, -, e⟩ | ⟨-, -, hn, e⟩
  · rw [e]; exact h
  · rw [e]; exact .rest hv (by decide)
  · rw [e] at hg ⊢
    exact ⟨hv, fun h0 => absurd h0 hn, BitVec.le_refl _, hg⟩

/-! ### Updates of the registers, the cells, the memory and the flags -/

/-- Registers that are in order with the latched configuration can replace the registers. -/
theorem Inv.setSp {s : State} (h : Inv s) {v : Vector Sp 26} (hv : ∀ i : SpIdx, RegOk s.act (paramRange i) v[i]) :
    Inv (s.setSp v) where
  mem := h.mem
  targets i := (hv i).target
  settled i := (hv i).settled
  ramps i := (hv i).ramp
  glides i := (hv i).glide
  cells := h.cells
  active := h.active
  ring hp := (h.ring hp).congr rfl rfl
  phases := h.phases
  seq := h.seq.congr rfl rfl rfl

theorem Inv.setCells {s : State} (h : Inv s) {c : Cells} (hc : c.dtype ≠ 3#2) : Inv (s.setCells c) :=
  { h with
    cells := hc
    ring := fun hp => (h.ring hp).congr rfl rfl
    seq := h.seq.congr rfl rfl rfl }

/-- A memory in canonical form and a ring in order can replace the delay RAM and the cursors. -/
theorem Inv.setRing {s t : State} (h : Inv s) {m : Memory} {w : Vector (BitVec 19) 2} (e : t = (s.setDram m).setWc w)
    (hm : Memory.wf t.dram = true) (hr : s.status.prepared = true → RingOk t) : Inv t := by
  subst e
  exact { h with mem := hm, ring := hr, seq := h.seq.congr rfl rfl rfl }

/-! ### SETP -/

/-- What the distortion type converts to is a legal type (rules R24, R272). -/
theorem convert_dtype_le {v : F32} (hv : isNaN v = false) : convert 0x20 v ≤ 2 := by
  obtain ⟨h1, h2⟩ := fclamp_in_range hv (show fle Config.zero Config.two = true by decide)
  obtain ⟨hf, hlo, hhi⟩ := finite_of_fle (by decide) (by decide) h1 h2
  obtain ⟨⟨hround, -⟩, -⟩ := conversions_round hf h1
  rw [show fvalue Config.two = 2 * 2 ^ 149 by decide +kernel] at hhi
  show f2uRound (fclamp v Config.zero Config.two) ≤ 2
  omega

/-- `setCell` keeps the type of the distortion legal. -/
theorem setCell_dtype {s : State} (pid : BitVec 8) {v : F32} (hv : isNaN v = false) (h : s.cells.dtype ≠ 3#2) :
    (setCell s pid (convert pid v)).cells.dtype ≠ 3#2 := by
  by_cases hp : pid = 0x20
  · have hle := convert_dtype_le hv
    subst hp
    show BitVec.ofNat 2 (convert 0x20 v) ≠ 3#2
    generalize convert 0x20 v = n at *
    interval_cases n <;> decide
  · have hp' : pid.toNat ≠ 0x20 := fun e => hp (BitVec.eq_of_toNat_eq e)
    unfold setCell
    split
    case h_1 e => exact absurd e hp'
    all_goals exact h

theorem Inv.setParameter {s : State} (h : Inv s) (pid : BitVec 8) (v : F32) : Inv (setParameter pid v s) := by
  unfold Machine.setParameter
  split_ifs with hskip
  · exact h
  · obtain ⟨-, hv⟩ : recognisedPid pid = true ∧ isNaN v = false := by simpa using hskip
    split
    · next i _ =>
      have hrange : fle (paramRange i).lo (paramRange i).hi = true := by
        have : ∀ i : SpIdx, fle (paramRange i).lo (paramRange i).hi = true := by decide +kernel
        exact this i
      obtain ⟨d, hd⟩ := setSmoothed_eq i v s
      rw [hd]
      refine (h.setSp fun j => ?_).congr rfl rfl
      rw [State.setSp_sp, Vector.get_set_sp]
      split_ifs with hj
      · subst hj
        exact (h.reg j).retarget (fclamp_in_range hv hrange) h.active
      · exact h.reg j
    · have hd := setCell_dtype pid hv h.cells
      obtain ⟨c, hc⟩ := setCell_eq s pid (convert pid v)
      rw [hc] at hd ⊢
      exact h.setCells hd

/-! ### The commands of the control class -/

/-- An answer that is a next state with the invariant. -/
def IsSafe (r : Result) : Prop := ∃ t, r = .next t ∧ Inv t

theorem Inv.isSafe_next {t : State} (h : Inv t) : IsSafe (.next t) := ⟨t, rfl, h⟩

/-- What a command of the control class does: nothing, a SETP, or one answer (rules R94, R97). -/
theorem exec_control_cases {i : Instr} (s : State) (h : i.engineClass = false) :
    exec i s = .next s ∨ (∃ pid v, exec i s = .next (setParameter pid v s)) ∨ ∃ w, exec i s = .next (s.respond w) := by
  cases i
  case nop => exact .inl rfl
  case getp | getc | status | cfgr => exact .inr (.inr ⟨_, rfl⟩)
  case cfgw | prepare | reset | process | rbwr | rbrd | rbclr | clrerr => exact (Bool.false_ne_true h.symm).elim
  all_goals exact .inr (.inl ⟨_, _, rfl⟩)

theorem Inv.respond {s : State} (h : Inv s) (w : Word32) : Inv (s.respond w) := by
  rw [respond_eq]; exact h.congr rfl rfl

theorem Inv.raise {s : State} (h : Inv s) (f : ErrorFlag) : Inv (s.raise f) := h.congr (by cases f <;> rfl) rfl

theorem Inv.exec_control {s : State} (h : Inv s) {i : Instr} (hi : i.engineClass = false) : IsSafe (exec i s) := by
  rcases exec_control_cases s hi with e | ⟨pid, v, e⟩ | ⟨w, e⟩
  · rw [e]; exact h.isSafe_next
  · rw [e]; exact (h.setParameter pid v).isSafe_next
  · rw [e]; exact (h.respond w).isSafe_next

/-! ### The commands of the engine class, which are performed outside a block -/

/-- Outside a block nothing is left over of one (rule R21). -/
theorem SeqOk.idle_popped {s : State} (h : SeqOk s) (hb : s.seq.busy = false) : s.popped = [] := by
  by_contra hp
  have hf := (h.popped hp).1
  rw [(h.idle hb).2.2] at hf
  exact Bool.false_ne_true hf

theorem SeqOk.idle_seq {s : State} (h : SeqOk s) (hb : s.seq.busy = false) : s.seq = ⟨false, 0#16⟩ := by
  have hrem := (h.idle hb).1
  cases hs : s.seq
  rw [hs] at hb hrem
  rw [← hb, ← hrem]

/-- An idle sequencer is in order. -/
theorem seqOk_of_idle {s : State} (h1 : s.seq = ⟨false, 0#16⟩) (h2 : s.passing = none) (h3 : s.inFrame = false)
    (h4 : s.popped = []) : SeqOk s where
  busy_prepared hb := absurd hb (by rw [h1]; decide)
  block_le hb := absurd hb (by rw [h1]; decide)
  idle _ := ⟨by rw [h1], h2, h3⟩
  boundary k _ hk := absurd hk (by rw [h2]; exact (Option.some_ne_none k).symm)
  word k hk := absurd hk (by rw [h2]; exact (Option.some_ne_none k).symm)
  popped hp := absurd h4 hp

/-- A sequencer at the start of a block is in order (rules R250, R251). -/
theorem seqOk_of_start {t : State} {n : BitVec 16} (hseq : t.seq = ⟨true, n⟩) (hn : n ≠ 0#16)
    (hprep : t.status.prepared = true) (hpop : t.popped = [])
    (hpass : t.passing = none ∧ n ≤ t.act.maxBlk ∨ t.passing = some 0 ∧ 0 < t.act.nch.toNat) : SeqOk t where
  busy_prepared _ := ⟨hprep, by rw [hseq]; exact hn⟩
  block_le _ hnone := by
    rw [hnone] at hpass
    rw [hseq]
    simpa using hpass
  idle hb := by simp [hseq] at hb
  boundary k _ hk := by
    rcases hpass with ⟨hp, -⟩ | ⟨hp, -⟩
    · exact (Option.some_ne_none k (hk.symm.trans hp)).elim
    · exact Option.some.inj (hk.symm.trans hp)
  word k hk := by
    rcases hpass with ⟨hp, -⟩ | ⟨hp, hch⟩
    · exact (Option.some_ne_none k (hk.symm.trans hp)).elim
    · rw [Option.some.inj (hk.symm.trans hp)]; exact hch
  popped hne := absurd hpop hne

theorem Inv.process {s : State} (h : Inv s) (hb : s.seq.busy = false) (n : BitVec 16) : IsSafe (execProcess n s) := by
  have hpop := h.seq.idle_popped hb
  unfold execProcess
  split_ifs with hn hp hmax
  · exact h.isSafe_next
  · exact (h.raise _).isSafe_next
  · have hp' : s.status.prepared = true := by simpa using hp
    exact Inv.isSafe_next ((h.raise .blkSize).setSequencer rfl
      (seqOk_of_start rfl hn hp' hpop (.inr ⟨rfl, (h.ring hp').nch_pos⟩)))
  · have hp' : s.status.prepared = true := by simpa using hp
    exact Inv.isSafe_next (h.setSequencer rfl
      (seqOk_of_start rfl hn hp' hpop (.inl ⟨rfl, BitVec.not_lt.mp hmax⟩)))

theorem rbClear_cursor (s : State) : ∀ c : Fin 2, (rbClear s).wc[c] = 0#19 :=
  (by decide : ∀ c : Fin 2, (#v[0#19, 0#19] : Vector (BitVec 19) 2)[c] = 0#19)

theorem clearUnits_phases (s : State) : PhaseOk (clearUnits s) := (by decide : PhaseOk State.reset)

/-- A ring with cursors at 0 is in order. -/
theorem ringOk_of_zero_cursors {s : State} (hn : 1 ≤ s.act.nch.toNat ∧ s.act.nch.toNat ≤ Config.nchMax)
    (hc : 1 ≤ s.act.cap.toNat ∧ s.act.cap.toNat ≤ Config.capMax) (hw : ∀ c : Fin 2, s.wc[c] = 0#19) : RingOk s where
  nch_pos := hn.1
  nch_le := hn.2
  cap_pos := hc.1
  cap_le := hc.2
  cursor c := by rw [hw c]; exact hc.1
  unused c _ := hw c

/-- Clearing the rings, the ramps and the units outside a block restores the invariant, whatever configuration has been latched
(rules R121, R148, R324, R326). -/
theorem Inv.cleared {s : State} {a : Active} (h : Inv s) (hb : s.seq.busy = false) (ha : ActiveOk a)
    (hn : 1 ≤ a.nch.toNat ∧ a.nch.toNat ≤ Config.nchMax) (hc : 1 ≤ a.cap.toNat ∧ a.cap.toNat ≤ Config.capMax) :
    Inv ((clearUnits (spSnap (rbClear (s.setAct a)))).setPrepared true) := by
  have hreg (i : SpIdx) : RegOk a (paramRange i) (spSnap (rbClear (s.setAct a))).sp[i] := by
    rw [spSnap_sp]; exact (h.reg i).snap
  obtain ⟨-, hpass, hframe⟩ := h.seq.idle hb
  exact {
    mem := wf_memClearBelow h.mem _
    targets := fun i => (hreg i).target
    settled := fun i => (hreg i).settled
    ramps := fun i => (hreg i).ramp
    glides := fun i => (hreg i).glide
    cells := h.cells
    active := fun _ => ha
    ring := fun _ => ringOk_of_zero_cursors hn hc (rbClear_cursor (s.setAct a))
    phases := fun _ => clearUnits_phases (spSnap (rbClear (s.setAct a)))
    seq := seqOk_of_idle (by simpa using h.seq.idle_seq hb) (by simpa using hpass) (by simpa using hframe)
      (by simpa using h.seq.idle_popped hb) }

theorem Inv.reset {s : State} (h : Inv s) (hb : s.seq.busy = false) : IsSafe (execReset s) := by
  unfold execReset
  split_ifs with hp
  · exact (h.raise _).isSafe_next
  · have hp' : s.status.prepared = true := by simpa using hp
    have hr := h.ring hp'
    have hc := h.cleared hb (h.active hp') ⟨hr.nch_pos, hr.nch_le⟩ ⟨hr.cap_pos, hr.cap_le⟩
    rw [show s.setAct s.act = s from rfl] at hc
    have hcleared : Inv (clearUnits (spSnap (rbClear s))) :=
      hc.congr (by simp [State.guarded, State.setPrepared, hp']) rfl
    exact hcleared.isSafe_next

/-- A staging that PREPARE accepts is valid, and its delay fits into the delay RAM (rule R323). -/
theorem valid_of_prepareFailures {cfg : Vector Word32 6} (h : prepareFailures cfg = []) :
    ValidRate cfg ∧ ValidSetup cfg ∧ rbLength (cfgMaxDelayMs cfg) (cfgSampleRate cfg) ≤ Config.capMax := by
  have hr : validRate cfg = true := by by_contra hr; simp [prepareFailures, hr] at h
  have hc : validConfig cfg = true := by by_contra hc; simp [prepareFailures, hc] at h
  simp only [validConfig, validCapacity, Bool.and_eq_true] at hc
  obtain ⟨⟨⟨⟨⟨hblock, hch⟩, hdelay⟩, hramp⟩, hmode⟩, hcap⟩ := hc
  rw [hr, hdelay] at hcap
  simp only [validRate, validBlock, validChannels, validMaxDelay, validRampTime, validRampMode, Bool.and_eq_true,
    decide_eq_true_eq, and_assoc] at hr hblock hch hdelay hramp hmode
  exact ⟨hr, ⟨hblock, hch, hdelay, hramp, hmode⟩, by simpa using hcap⟩

theorem Inv.prepare {s : State} (h : Inv s) (hb : s.seq.busy = false) : IsSafe (execPrepare s) := by
  unfold execPrepare
  cases hf : prepareFailures s.cfg with
  | nil =>
    obtain ⟨hr, hs, hcap⟩ := valid_of_prepareFailures hf
    refine (h.cleared hb (activeOf_ok hr hs) ?_ ?_).isSafe_next
    · obtain ⟨h1, h2⟩ := hs.channels
      have hn : (activeOf s.cfg).nch.toNat = s.cfg[2].toNat := by
        show ((s.cfg[2]).extractLsb' 0 2).toNat = _
        rw [BitVec.extractLsb'_toNat]
        omega
      rw [hn]
      exact ⟨h1, h2⟩
    · have hc : (activeOf s.cfg).cap.toNat = max 1 (rbLength (cfgMaxDelayMs s.cfg) (cfgSampleRate s.cfg)) := by
        show (BitVec.ofNat 19 _).toNat = _
        have : Config.capMax = 384000 := rfl
        rw [BitVec.toNat_ofNat]
        omega
      have : 1 ≤ Config.capMax := by decide
      omega
  | cons f fs =>
    obtain ⟨u, hu, hprep, -⟩ := raiseAll_eq s (f :: fs)
    obtain ⟨-, hpass, hframe⟩ := h.seq.idle hb
    dsimp only
    rw [hu]
    exact Inv.isSafe_next { h with
      active := fun hp => (Bool.false_ne_true hp).elim
      ring := fun hp => (Bool.false_ne_true hp).elim
      phases := fun hp => (Bool.false_ne_true hp).elim
      seq := seqOk_of_idle (h.seq.idle_seq hb) hpass hframe (h.seq.idle_popped hb) }

/-! ### The ring commands -/

/-- A write of the ring keeps the canonical form of the delay RAM. -/
theorem rbWrite_wf {c : Fin 2} {v : F32} {s t : State} (h : rbWrite c v s = .ok t) (hm : Memory.wf s.dram = true) :
    Memory.wf t.dram = true := by
  obtain ⟨hlt, rfl⟩ := rbWrite_ok h
  obtain ⟨w, hw⟩ := rbAdvance_eq c (s.setDram (memStore s.dram (rbWaddr c s) v))
  rw [hw]
  exact wf_memStore hm hlt v

theorem channelOperand_lt {s : State} {ch : BitVec 8} {c : Fin 2} (h : channelOperand s ch = some c) :
    c.val < s.act.nch.toNat := by
  unfold channelOperand at h
  split_ifs at h with h1 h2
  rw [← Option.some.inj h]
  exact h1

theorem Inv.rbwr {s : State} (h : Inv s) (ch : BitVec 8) (v : F32) : IsSafe (execRbwr ch v s) := by
  unfold execRbwr
  split_ifs with hp
  · exact (h.raise _).isSafe_next
  · have hr := h.ring (by simpa using hp)
    split
    · exact h.isSafe_next
    · next c hc =>
      have hw := rbWrite_of_ringOk hr (channelOperand_lt hc) v
      obtain ⟨m, w, e⟩ := rbWrite_state hw
      rw [hw]
      exact (h.setRing e (rbWrite_wf hw h.mem) fun _ => hr.write (channelOperand_lt hc) hw).isSafe_next

theorem Inv.rbrd {s : State} (h : Inv s) (ch : BitVec 8) (k : Word32) : IsSafe (execRbrd ch k s) := by
  unfold execRbrd
  split_ifs with hp
  · exact ((h.raise _).respond _).isSafe_next
  · have hp' : s.status.prepared = true := by simpa using hp
    split
    · exact (h.respond _).isSafe_next
    · next c hc =>
      have hlt := channelOperand_lt hc
      dsimp only
      split_ifs
      · rw [rbRead_of_ringOk ((h.raise .rbOff).ring hp') hlt]
        exact ((h.raise _).respond _).isSafe_next
      · rw [rbRead_of_ringOk (h.ring hp') hlt]
        exact (h.respond _).isSafe_next

theorem Inv.rbclr {s : State} (h : Inv s) : IsSafe (execRbclr s) := by
  unfold execRbclr
  split_ifs with hp
  · exact (h.raise _).isSafe_next
  · have hr := h.ring (by simpa using hp)
    exact (h.setRing (rbClear_eq s) (wf_memClearBelow h.mem _) fun _ =>
      ringOk_of_zero_cursors ⟨hr.nch_pos, hr.nch_le⟩ ⟨hr.cap_pos, hr.cap_le⟩ (rbClear_cursor s)).isSafe_next

/-- A command keeps the invariant and does not stop; those of the engine class are performed outside a block only. -/
theorem Inv.exec {s : State} (h : Inv s) {i : Instr} (hb : i.engineClass = true → s.seq.busy = false) :
    IsSafe (exec i s) := by
  cases hi : i.engineClass
  case false => exact h.exec_control hi
  case true =>
    replace hb := hb hi
    cases i
    case cfgw idx data =>
      show IsSafe (execCfgw idx data s)
      unfold execCfgw
      split
      · exact Inv.isSafe_next (h.congr rfl rfl)
      · exact h.isSafe_next
    case prepare => exact h.prepare hb
    case reset => exact h.reset hb
    case process n => exact h.process hb n
    case rbwr ch v => exact h.rbwr ch v
    case rbrd ch k => exact h.rbrd ch k
    case rbclr => exact h.rbclr
    case clrerr => exact (h.congr rfl rfl : Inv s.clearErrors).isSafe_next
    all_goals exact (Bool.false_ne_true hi).elim

end Sys2Proof.Machine
end

section
/-! PROOFS. The engine inside a block, the step, and the run with a host (rules R6, R66, R67, R92, R340, R370). -/

set_option Elab.async false

namespace Sys2Proof.Machine

/-! ### A frame step -/

/-- All that a frame step is: the tick, the distortion, the delay stage, the advance of the phases, the equalizer, the pushes
(rule R252). -/
theorem frameStep_ok {s t : State} (h : frameStep s = .ok t) :
    ∃ d x y u q ws, delayFrame x ((spTick s.popFrame).setDc d) = .ok (y, u) ∧
      t = ((lfoAdvance u).setBq q).pushOutput ws := by
  unfold frameStep at h
  dsimp only at h
  split at h
  · cases h
  · next p hp =>
    obtain ⟨d, hd⟩ := eachChannel_dist_state
      (applyGain (Config.num.fns.db2lin ((spTick s.popFrame).cur inGain)) (inputFrame s) (spTick s.popFrame))
      (spTick s.popFrame)
    obtain ⟨q, hq⟩ := eachChannel_eq_state (panFrame p.1 p.2).1 (panFrame p.1 p.2).2
    rw [hd] at hp
    rw [hq] at h
    exact ⟨d, _, p.1, p.2, q, _, hp, (Except.ok.inj h).symm⟩

/-- The writes of the delay stage keep the canonical form of the delay RAM. -/
theorem writeRings_wf {x d : Frame} {s t : State} (h : writeRings x d s = .ok t) (hm : Memory.wf s.dram = true) :
    Memory.wf t.dram = true := by
  unfold writeRings at h
  generalize s.channels = cs at h
  suffices ∀ u : State, Memory.wf u.dram = true →
      cs.foldlM (fun t (c : Fin 2) => rbWrite c (delayWriteValue s x d c) t) u = .ok t → Memory.wf t.dram = true from
    this s hm h
  clear h
  induction cs with
  | nil => intro u hu h; cases h; exact hu
  | cons c rest ih =>
    intro u hu h
    rw [List.foldlM_cons] at h
    cases hw : rbWrite c (delayWriteValue s x d c) u with
    | error e => rw [hw] at h; cases h
    | ok v => rw [hw] at h; exact ih v (rbWrite_wf hw hu) h

theorem delayFrame_wf {x y : Frame} {s t : State} (h : delayFrame x s = .ok (y, t)) (hm : Memory.wf s.dram = true) :
    Memory.wf t.dram = true := by
  unfold delayFrame at h
  split at h
  · cases h
  · split at h
    · cases h
    · next t' ht => cases h; exact writeRings_wf ht hm

/-- The tick keeps the registers in order (rule R127). -/
theorem Inv.spTick_reg {s : State} (h : Inv s) (hp : s.status.prepared = true) (i : SpIdx) :
    RegOk s.act (paramRange i) (spTick s.popFrame).sp[i] := by
  rw [spTick_sp]; exact (h.reg i).advance (h.active hp)

/-- The advance of the LFO keeps the phases in `[0, TWO_PI)`, at a valid rate and while the rate register holds a number
(rules R34, R204). -/
theorem lfoAdvance_phases {s : State} (hr : isNaN (s.cur lfoRate) = false) (ha : ActiveOk s.act) (hph : PhaseOk s) :
    PhaseOk (lfoAdvance s) := by
  intro l
  have hl : (lfoAdvance s).ph[l] = lfoNext (s.cur lfoRate) s.act.fs s.ph[l] := by simp [lfoAdvance]
  rw [hl]
  exact lfoNext_range hr ha.rate.1 ha.rate.2 (hph l).1 (hph l).2

/-- A frame step of a prepared machine keeps the invariant and the sequencer, and leaves no popped word (rule R252). -/
theorem Inv.frameStep {s t : State} (h : Inv s) (hp : s.status.prepared = true) (hf : frameStep s = .ok t) :
    Inv t ∧ t.seq = s.seq ∧ t.passing = s.passing ∧ t.popped = [] := by
  obtain ⟨t', ht', hring⟩ := frameStep_of_ringOk (h.ring hp)
  obtain rfl : t = t' := Except.ok.inj (hf.symm.trans ht')
  obtain ⟨d, x, y, u, q, ws, hd, rfl⟩ := frameStep_ok hf
  have hmem := delayFrame_wf hd (by simpa using h.mem)
  obtain ⟨m, w, rfl⟩ := delayFrame_state hd
  have hreg := h.spTick_reg hp
  have hph := lfoAdvance_phases (s := (((spTick s.popFrame).setDc d).setDram m).setWc w)
    (isNaN_eq_false_of_isFinite (hreg lfoRate).glide.finite.1) (by simpa using h.active hp)
    (by simpa [PhaseOk] using h.phases hp)
  refine ⟨{
    mem := hmem
    targets := fun i => (hreg i).target
    settled := fun i => (hreg i).settled
    ramps := fun i => by simpa using (hreg i).ramp
    glides := fun i => by simpa using (hreg i).glide
    cells := by simpa using h.cells
    active := by simpa using h.active
    ring := fun _ => hring
    phases := fun _ => hph
    seq := {
      busy_prepared := by simpa using h.seq.busy_prepared
      block_le := by simpa using h.seq.block_le
      idle := by simpa using h.seq.idle
      boundary := by simpa using h.seq.boundary
      word := by simpa using h.seq.word
      popped := fun hne => absurd (by simp) hne } }, by simp, by simp, by simp⟩

/-! ### The sequencer inside a block -/

/-- The end of a block (rule R21). -/
theorem Inv.endBlock {s : State} (h : Inv s) : Inv (endBlock s) :=
  h.setSequencer rfl (seqOk_of_idle rfl rfl rfl rfl)

/-- The end of a frame whose words have all been used (rules R21, R250, R251). -/
theorem Inv.endFrame {s : State} (h : Inv s) (hb : s.seq.busy = true) (hpop : s.popped = [])
    (hpass : ∀ k, s.passing = some k → k = 0) : Inv (endFrame s) := by
  obtain ⟨hp, hrem⟩ := h.seq.busy_prepared hb
  rcases endFrame_cases s with ⟨-, e⟩ | ⟨hne, e⟩
  · rw [e]; exact h.endBlock
  · rw [e]
    refine h.setSequencer rfl ⟨fun _ => ⟨hp, hne⟩, fun _ hnone => ?_, fun hf => (Bool.false_ne_true hf.symm).elim,
      fun k _ hk => hpass k hk, h.seq.word, fun hne => absurd hpop hne⟩
    have hle := h.seq.block_le hb hnone
    show s.seq.rem - 1#16 ≤ s.act.maxBlk
    bv_omega

/-- Entering a frame (rules R72, R73). -/
theorem Inv.enters {s u : State} (h : Inv s) (hb : s.seq.busy = true) (he : Enters s u) : Inv u := by
  obtain ⟨n, rfl⟩ := he.eq
  refine h.setSequencer rfl ⟨h.seq.busy_prepared, h.seq.block_le, fun hf => ?_, fun _ hf => (Bool.false_ne_true hf.symm).elim,
    h.seq.word, fun hne => ⟨rfl, (h.seq.popped hne).2⟩⟩
  exact (Bool.false_ne_true (hf.symm.trans hb)).elim

/-- One word of a pass-through inside a frame (rule R251). -/
theorem Inv.passWord {s : State} (h : Inv s) (hb : s.seq.busy = true) (hin : s.inFrame = true) {k : Nat}
    (hk : s.passing = some k) : Inv (passWord k s) := by
  have hp := (h.seq.busy_prepared hb).1
  have hpop : s.popped = [] := by
    by_contra hne
    exact Option.some_ne_none k (hk.symm.trans (h.seq.popped hne).2.1)
  have move (io : Io) {j : Nat} (hj : j < s.act.nch.toNat) : Inv ((s.setIo io).setPassing (some j)) := by
    refine h.setSequencer rfl ⟨h.seq.busy_prepared, fun _ hnone => (Option.some_ne_none j hnone).elim,
      fun hf => (Bool.false_ne_true (hf.symm.trans hb)).elim, fun _ hf => (Bool.false_ne_true (hf.symm.trans hin)).elim,
      fun i hi => by rw [← Option.some.inj hi]; exact hj, fun hne => absurd hpop hne⟩
  rcases passWord_cases k s with ⟨-, e⟩ | ⟨w, rest, -, hword⟩
  · rw [e]; exact h
  · dsimp only at hword
    rcases hword with ⟨hlt, e⟩ | ⟨-, e⟩
    · rw [frameWords_of_ringOk (h.ring hp)] at hlt
      rw [e]; exact move _ hlt
    · rw [e]
      exact (move _ (h.ring hp).nch_pos).endFrame hb hpop fun i hi => (Option.some.inj hi).symm

/-- The pops that `AIN` can serve, inside a frame that lacks words (rule R69). -/
theorem Inv.popAvailable {s : State} (h : Inv s) (hb : s.seq.busy = true) (hin : s.inFrame = true)
    (hpass : s.passing = none) (hlen : s.frameSupply.length < s.frameWords) : Inv s.popAvailable := by
  rw [frameWords_of_ringOk (h.ring (h.seq.busy_prepared hb).1)] at hlen
  exact h.setSequencer rfl ⟨h.seq.busy_prepared, h.seq.block_le, h.seq.idle, h.seq.boundary, h.seq.word,
    fun _ => ⟨hin, hpass, hlen⟩⟩

/-- The engine inside a frame keeps the invariant, and does not stop (rules R66, R250). -/
theorem Inv.engineStep {s : State} (h : Inv s) (hb : s.seq.busy = true) (hin : s.inFrame = true) :
    IsSafe (engineStep s) := by
  have hp := (h.seq.busy_prepared hb).1
  rcases engineStep_cases s with ⟨-, e⟩ | ⟨k, -, hk, e⟩ | ⟨-, hnone, hlen, e⟩ | ⟨f, -, -, hf, e⟩ | ⟨t, -, hnone, -, hf, e⟩
  · rw [e]; exact h.endBlock.isSafe_next
  · rw [e]; exact (h.passWord hb hin hk).isSafe_next
  · rw [e]; exact (h.popAvailable hb hin hnone hlen).isSafe_next
  · obtain ⟨t, ht, -⟩ := frameStep_of_ringOk (h.ring hp)
    rw [hf] at ht
    cases ht
  · obtain ⟨ht, hseq, hpass, hpop⟩ := h.frameStep hp hf
    rw [e]
    refine (ht.endFrame (by rw [hseq]; exact hb) hpop fun k hk => ?_).isSafe_next
    rw [hpass, hnone] at hk
    exact (Option.some_ne_none k hk.symm).elim

/-! ### The step -/

/-- Taking a word from a queue changes the queues and the counter alone, and an `AQ` word is taken outside a block. -/
theorem Inv.takes {s t : State} {q : Queue} {w : Command} (h : Inv s) (ht : Takes s q w t) :
    Inv t ∧ (q = .audio → t.seq.busy = false) := by
  cases ht with
  | audio _ _ _ hb => exact ⟨h.congr rfl rfl, fun _ => hb⟩
  | audioFirst _ _ _ hb => exact ⟨h.congr rfl rfl, fun _ => hb⟩
  | control => exact ⟨h.congr rfl rfl, nofun⟩
  | controlFirst => exact ⟨h.congr rfl rfl, nofun⟩
  | controlAtBoundary => exact ⟨h.congr rfl rfl, nofun⟩

/-- What may be performed from `CQ` is of the control class (rule R97). -/
theorem audio_of_engineClass {q : Queue} {w : Command} {i : Instr} (h : classify q w = .ok i)
    (hi : i.engineClass = true) : q = .audio := by
  unfold classify at h
  split at h
  · cases h
  · split_ifs at h with hc
    cases h
    cases q
    · simp [hi] at hc
    · rfl

/-- Performing a word keeps the invariant, and does not stop (rules R92, R98, R340). -/
theorem Inv.perform {s : State} {q : Queue} (h : Inv s) (w : Command) (hq : q = .audio → s.seq.busy = false) :
    IsSafe (perform q w s) := by
  rcases perform_cases q w s with ⟨_, -, e⟩ | ⟨i, hi, e⟩
  · rw [e]; exact (h.raise _).isSafe_next
  · rw [e]
    exact (h.congr rfl rfl : Inv (s.setIssuer q)).exec fun hc => hq (audio_of_engineClass hi hc)

/-- The state after reset has the invariant. -/
theorem inv_reset : Inv State.reset where
  mem := rfl
  targets i := by simpa [State.reset] using (RegOk.reset State.reset.act i).target
  settled i := by simpa [State.reset] using (RegOk.reset State.reset.act i).settled
  ramps i := by simpa [State.reset] using (RegOk.reset State.reset.act i).ramp
  glides i := by simpa [State.reset] using (RegOk.reset State.reset.act i).glide
  cells := by decide
  active hp := (Bool.false_ne_true hp).elim
  ring hp := (Bool.false_ne_true hp).elim
  phases hp := (Bool.false_ne_true hp).elim
  seq := seqOk_of_idle rfl rfl rfl rfl

theorem inv_hardwareReset (s : State) : Inv s.hardwareReset := inv_reset.congr rfl rfl

/-- A step keeps the invariant, and does not stop (rules R66, R92, R340). -/
theorem Inv.step {s : State} (h : Inv s) : IsSafe (step s) := by
  rcases step_cases s with ⟨-, e⟩ | ⟨-, -, -, -, e⟩ | ⟨q, w, t, ht, e⟩ | ⟨-, hb, u, hu, e⟩
  · rw [e]; exact (inv_hardwareReset s).isSafe_next
  · rw [e]; exact h.isSafe_next
  · obtain ⟨hinv, hq⟩ := h.takes ht
    rw [e]; exact hinv.perform w hq
  · obtain ⟨n, hn⟩ := hu.eq
    rw [e]
    exact (h.enters hb hu).engineStep (by rw [hn]; exact hb) hu.inFrame_eq

/-! ### The host -/

/-- An action of the host keeps the invariant: it changes the queues, or is the hardware reset (rules R67, R370). -/
theorem Inv.hostAct {s : State} (h : Inv s) (a : HostAction) : Inv (s.hostAct a) := by
  unfold State.hostAct
  dsimp only
  split_ifs
  · exact inv_hardwareReset _
  · exact h.congr rfl rfl

theorem Inv.hostActs {s : State} (h : Inv s) (acts : List HostAction) : Inv (acts.foldl State.hostAct s) := by
  induction acts generalizing s with
  | nil => exact h
  | cons a rest ih => exact ih (h.hostAct a)

/-- A run with a host keeps the invariant, and does not stop. -/
theorem Inv.runWithHost {s : State} (h : Inv s) (acts : List (List HostAction)) : IsSafe (runWithHost acts s) := by
  induction acts generalizing s with
  | nil => exact h.isSafe_next
  | cons a rest ih =>
    obtain ⟨t, ht, hinv⟩ := (h.hostActs a).step
    unfold Machine.runWithHost
    rw [ht]
    exact ih hinv

/-- Settles O16, by induction on the run: the state after reset has the invariant, every action of the host and every step
keeps it, and no step of a state with it stops. -/
theorem runsWithHostNeverStop : Obligations.RunsWithHostNeverStop := by
  unfold Obligations.RunsWithHostNeverStop
  exact fun acts => inv_reset.runWithHost acts

end Sys2Proof.Machine
end

section
/-! PROOFS. The byte-wide transport, and the decoder on the words of the encoder (rules R63, R90 to R97). -/

set_option Elab.async false

namespace Sys2Proof.Laws.EncodeDecode

/-- The decoder reads every well-formed command back from its word, one law per row of the opcode table. -/
theorem decode_encode : ∀ i : Instr, Statement i
  | .nop => nop | .cfgw i d => cfgw i d | .prepare => prepare | .reset => reset | .process n => process n
  | .rbwr c v => rbwr c v | .rbrd c k => rbrd c k | .rbclr => rbclr | .clrerr => clrerr
  | .setpInput v => setpInput v | .setpOutput v => setpOutput v | .setpDrive v => setpDrive v | .setpMix v => setpMix v
  | .setpDistOutput v => setpDistOutput v | .setpDelayTimeLeft v => setpDelayTimeLeft v
  | .setpDelayTimeRight v => setpDelayTimeRight v | .setpFeedback v => setpFeedback v
  | .setpDelayMix v => setpDelayMix v | .setpPan v => setpPan v | .setpLeftPan v => setpLeftPan v
  | .setpRightPan v => setpRightPan v | .setpLfoFreq v => setpLfoFreq v | .setpLfoDepth v => setpLfoDepth v
  | .setpBand0Frequency v => setpBand0Frequency v | .setpBand0Gain v => setpBand0Gain v | .setpBand0Q v => setpBand0Q v
  | .setpBand1Frequency v => setpBand1Frequency v | .setpBand1Gain v => setpBand1Gain v | .setpBand1Q v => setpBand1Q v
  | .setpBand2Frequency v => setpBand2Frequency v | .setpBand2Gain v => setpBand2Gain v | .setpBand2Q v => setpBand2Q v
  | .setpBand3Frequency v => setpBand3Frequency v | .setpBand3Gain v => setpBand3Gain v | .setpBand3Q v => setpBand3Q v
  | .setpDistortiontype v => setpDistortiontype v | .setpDelaytype v => setpDelaytype v
  | .setpLfoEnabled v => setpLfoEnabled v | .setpPanMode v => setpPanMode v | .setpBand0Enabled v => setpBand0Enabled v
  | .setpBand1Enabled v => setpBand1Enabled v | .setpBand2Enabled v => setpBand2Enabled v
  | .setpBand3Enabled v => setpBand3Enabled v | .setp p v => setp p v | .getp p => getp p | .getc p => getc p
  | .status => status | .cfgr i => cfgr i

end Sys2Proof.Laws.EncodeDecode

namespace Sys2Proof

/-! ### Bytes -/

/-- The eight bytes of a word, put together from the most significant one, are the word. -/
theorem bytes_append_eq_command (w : Command) :
    w.extractLsb' 56 8 ++ w.extractLsb' 48 8 ++ w.extractLsb' 40 8 ++ w.extractLsb' 32 8 ++ w.extractLsb' 24 8 ++
      w.extractLsb' 16 8 ++ w.extractLsb' 8 8 ++ w.extractLsb' 0 8 = w := by
  ext i hi
  simp only [BitVec.getElem_append, BitVec.getElem_extractLsb']
  split_ifs <;> simp only [← BitVec.getLsbD_eq_getElem hi] <;> congr 1 <;> omega

/-- The four bytes of a word, put together from the most significant one, are the word. -/
theorem bytes_append_eq_word (w : Word32) :
    w.extractLsb' 24 8 ++ w.extractLsb' 16 8 ++ w.extractLsb' 8 8 ++ w.extractLsb' 0 8 = w := by
  ext i hi
  simp only [BitVec.getElem_append, BitVec.getElem_extractLsb']
  split_ifs <;> simp only [← BitVec.getLsbD_eq_getElem hi] <;> congr 1 <;> omega

theorem takeCommandBytes_commandBytes (w : Command) (rest : List Byte) :
    takeCommandBytes (commandBytes w ++ rest) = some (w, rest) :=
  congrArg (fun v => some (v, rest)) (bytes_append_eq_command w)

theorem takeWordBytes_wordBytes (w : Word32) (rest : List Byte) : takeWordBytes (wordBytes w ++ rest) = some (w, rest) :=
  congrArg (fun v => some (v, rest)) (bytes_append_eq_word w)

/-- Eight bits from place `8 * k` are the byte of weight `256 ^ k`. -/
theorem toNat_byte {n : Nat} (w : BitVec n) (k : Nat) : (w.extractLsb' (8 * k) 8).toNat = w.toNat / 256 ^ k % 256 := by
  rw [BitVec.extractLsb'_toNat, Nat.shiftRight_eq_div_pow, pow_mul, show 2 ^ 8 = 256 from rfl]

theorem commandBytes_getD (w : Command) {k : Nat} (hk : k < 8) : (commandBytes w).getD k 0 = w.extractLsb' (8 * k) 8 := by
  interval_cases k <;> rfl

theorem wordBytes_getD (w : Word32) {k : Nat} (hk : k < 4) : (wordBytes w).getD k 0 = w.extractLsb' (8 * k) 8 := by
  interval_cases k <;> rfl

/-- Settles O5: the bytes of a word put together are the word, and the `k`-th one has the weight `256 ^ k`. -/
theorem bytesLeastSignificantFirst : Obligations.BytesLeastSignificantFirst := by
  unfold Obligations.BytesLeastSignificantFirst
  refine ⟨fun w rest => ⟨takeCommandBytes_commandBytes w rest, fun k hk => ?_⟩,
    fun w rest => ⟨takeWordBytes_wordBytes w rest, fun k hk => ?_⟩⟩
  · rw [commandBytes_getD w hk, toNat_byte]
  · rw [wordBytes_getD w hk, toNat_byte]

/-! ### Decoding what was encoded -/

theorem decodeBytes_commandBytes (w : Command) (rest : List Byte) :
    decodeBytes (commandBytes w ++ rest) = some (decode w, rest) := by
  unfold decodeBytes
  rw [takeCommandBytes_commandBytes, Option.map_some]

/-- What a word that decodes is on a queue: its command, but for an engine-class command on `CQ` (rule R97). -/
theorem classify_of_decode {w : Command} {i : Instr} (h : decode w = .ok i) (q : Queue) :
    classify q w =
      if i.engineClass = true ∧ q = .control then .error (.engineOnControl (opField w)) else .ok i := by
  unfold classify
  rw [h]
  simp only [Bool.and_eq_true, decide_eq_true_eq]

/-- Settles O1: the decoder reads the command back from its word (one law per row), the queue checks only the class, and the
bytes of a word are the word. -/
theorem decodeInvertsEncode : Obligations.DecodeInvertsEncode := by
  unfold Obligations.DecodeInvertsEncode
  intro i hi
  have hd : decode (encode i) = .ok i := Laws.EncodeDecode.decode_encode i hi
  refine ⟨hd, classify_of_decode hd, fun rest => ?_⟩
  rw [decodeBytes_commandBytes, hd]

end Sys2Proof
end

section
/-! PROOFS. The step by its cases: which word is performed, when nothing happens, which queues wait (rules R69 to R76, R92,
R340, R358). -/

set_option Elab.async false

namespace Sys2Proof.Machine

/-! ### The word that is taken -/

/-- A step that takes a word performs it (rules R70, R72, R73). -/
theorem step_of_takes {s t : State} {q : Queue} {w : Command} (h : Takes s q w t) : step s = perform q w t := by
  cases h with
  | audio w rest hr hb ha hc =>
    show step s = perform .audio w (takeAudio rest s)
    simp [step, nextStep, hr, hb, runIdle, ha, hc]
  | audioFirst w rest hr hb ha hc ht =>
    obtain ⟨v, vs, hc⟩ := List.exists_cons_of_ne_nil hc
    show step s = perform .audio w (nextTick (takeAudio rest s))
    simp [step, nextStep, hr, hb, runIdle, ha, hc, controlTurn, ht]
  | control w rest hr hb hc ha =>
    show step s = perform .control w (takeControl rest s)
    simp [step, nextStep, hr, hb, runIdle, ha, hc]
  | controlFirst w rest hr hb hc ha ht =>
    obtain ⟨v, vs, ha⟩ := List.exists_cons_of_ne_nil ha
    show step s = perform .control w (nextTick (takeControl rest s))
    simp [step, nextStep, hr, hb, runIdle, ha, hc, controlTurn, ht]
  | controlAtBoundary w rest hr hb hf hc ht =>
    show step s = perform .control w (nextTick (takeControl rest s))
    simp [step, nextStep, hr, hb, runBlock, hf, hc, controlTurn, ht]

/-- A legal word is executed for its queue (rule R92). -/
theorem perform_of_classify {q : Queue} {w : Command} {i : Instr} (s : State) (h : classify q w = .ok i) :
    perform q w s = exec i (s.setIssuer q) := by
  unfold perform
  rw [h]

/-- Settles O6: the step performs the word it takes, and a legal word is executed for its queue. -/
theorem stepRunsDecodedCommand : Obligations.StepRunsDecodedCommand := by
  unfold Obligations.StepRunsDecodedCommand
  intro s t q w i ht hi
  rw [step_of_takes ht, perform_of_classify t hi]
  rfl

/-! ### Steps that change nothing -/

/-- A core with nothing to do (rule R358). -/
theorem step_of_idle {s : State} (hr : s.io.rst = false) (hb : s.seq.busy = false) (hc : s.io.cq = []) (ha : s.io.aq = []) :
    step s = .next s := by
  simp [step, nextStep, hr, hb, runIdle, hc, ha]

/-- In a running block that does not perform a control command, the step is the engine's (rules R72, R73). -/
theorem step_of_enters {s u : State} (hr : s.io.rst = false) (hb : s.seq.busy = true) (h : Enters s u) :
    step s = engineStep u := by
  unfold step nextStep
  cases h with
  | inside hf => simp [hr, hb, runBlock, hf]
  | noControl hf hc => simp [hr, hb, runBlock, hf, hc]
  | controlWaits hf hc ht =>
    obtain ⟨v, vs, hc⟩ := List.exists_cons_of_ne_nil hc
    simp [hr, hb, runBlock, hf, hc, controlTurn, ht]

/-- The engine in a frame whose words are not all there (rule R69). -/
theorem engineStep_of_short {s : State} (hrem : s.seq.rem ≠ 0#16) (hp : s.passing = none)
    (hlen : s.frameSupply.length < s.frameWords) : engineStep s = .next s.popAvailable := by
  simp [engineStep, hrem, hp, hlen]

/-- The engine in a pass-through (rule R251). -/
theorem engineStep_of_passing {s : State} {k : Nat} (hrem : s.seq.rem ≠ 0#16) (hp : s.passing = some k) :
    engineStep s = .next (passWord k s) := by
  simp [engineStep, hrem, hp]

/-- A pass-through holds while `AIN` is empty (rule R69). -/
theorem passWord_of_empty {s : State} (k : Nat) (h : s.io.ain = []) : passWord k s = s := by
  simp [passWord, h]

theorem length_frameSupply (s : State) : s.frameSupply.length = s.popped.length + s.io.ain.length := List.length_append

/-- Settles O10: an idle step; the engine's pops in a frame that lacks words, which are none when `AIN` is empty; the hold of
a pass-through. -/
theorem idleAndHoldKeepState : Obligations.IdleAndHoldKeepState := by
  unfold Obligations.IdleAndHoldKeepState
  intro s hr
  have pops (hb : s.seq.busy = true) (hf : s.inFrame = true) (hrem : s.seq.rem ≠ 0#16) (hp : s.passing = none)
      (hlen : s.popped.length + s.io.ain.length < s.frameWords) : step s = .next s.popAvailable := by
    rw [step_of_enters hr hb (.inside hf), engineStep_of_short hrem hp (by rwa [length_frameSupply])]
  refine ⟨step_of_idle hr, pops, fun hb hf hrem hp ha hlen => ?_, fun k hb hf hrem hp ha => ?_⟩
  · rw [pops hb hf hrem hp (by simpa [ha] using hlen), popAvailable_of_empty ha]
  · rw [step_of_enters hr hb (.inside hf), engineStep_of_passing hrem hp, passWord_of_empty k ha]

/-- Settles O15, by the lemma that a step of a state with the invariant answers a state with the invariant. -/
theorem stepAlwaysAnswers : Obligations.StepAlwaysAnswers := by
  unfold Obligations.StepAlwaysAnswers
  intro s h
  obtain ⟨t, ht, -⟩ := h.step
  exact ⟨t, ht⟩

/-! ### What the engine leaves alone -/

/-- `t` differs from `s` in the streams `AIN` and `AOUT` alone among the queues, and has the cells and the targets of `s`. -/
structure SameControls (s t : State) : Prop where
  io : t.io = { s.io with ain := t.io.ain, aout := t.io.aout }
  cells : t.cells = s.cells
  targets : ∀ i : SpIdx, t.sp[i].tgt = s.sp[i].tgt

theorem SameControls.trans {s t u : State} (h : SameControls s t) (h' : SameControls t u) : SameControls s u where
  io := by rw [h'.io, h.io]
  cells := h'.cells.trans h.cells
  targets i := (h'.targets i).trans (h.targets i)

theorem SameControls.enters {s u : State} (h : Enters s u) : SameControls s u := by
  obtain ⟨n, rfl⟩ := h.eq
  exact ⟨rfl, rfl, fun _ => rfl⟩

theorem SameControls.endFrame (s : State) : SameControls s (endFrame s) := by
  rcases endFrame_cases s with ⟨-, e⟩ | ⟨-, e⟩ <;> rw [e] <;> exact ⟨rfl, rfl, fun _ => rfl⟩

theorem SameControls.passWord (k : Nat) (s : State) : SameControls s (passWord k s) := by
  rcases passWord_cases k s with ⟨-, e⟩ | ⟨w, rest, -, hword⟩
  · rw [e]; exact ⟨rfl, rfl, fun _ => rfl⟩
  · dsimp only at hword
    rcases hword with ⟨-, e⟩ | ⟨-, e⟩ <;> rw [e]
    · exact ⟨rfl, rfl, fun _ => rfl⟩
    · refine .trans ?_ (.endFrame _)
      exact ⟨rfl, rfl, fun _ => rfl⟩

/-- A frame step ticks the registers, which keeps their targets (rules R127, R252). -/
theorem SameControls.frameStep {s t : State} (h : frameStep s = .ok t) : SameControls s t := by
  obtain ⟨d, m, w, p, q, ws, rfl⟩ := frameStep_state h
  refine ⟨by simp [State.pushOutput], by simp, fun i => ?_⟩
  show (spTick s.popFrame).sp[i].tgt = s.sp[i].tgt
  rw [spTick_sp, advance_tgt, popFrame_sp]

/-- The engine moves words of the streams, and keeps the cells and the targets (rule R72). -/
theorem SameControls.engineStep {s t : State} (h : engineStep s = .next t) : SameControls s t := by
  rcases engineStep_cases s with
    ⟨-, e⟩ | ⟨k, -, -, e⟩ | ⟨-, -, -, e⟩ | ⟨f, -, -, -, e⟩ | ⟨u, -, -, -, hu, e⟩ <;> rw [e] at h <;> cases h
  · exact ⟨rfl, rfl, fun _ => rfl⟩
  · exact .passWord k s
  · exact ⟨rfl, rfl, fun _ => rfl⟩
  · exact (SameControls.frameStep hu).trans (.endFrame u)

/-! ### What a word from `CQ` leaves alone -/

/-- A word taken from `CQ` completes, and of the queues only its response queue changes (rules R70, R97). -/
theorem perform_control_io (w : Command) (s : State) :
    ∃ t, perform .control w s = .next t ∧ t.io = { s.io with rspC := t.io.rspC } := by
  rcases perform_cases .control w s with ⟨_, -, e⟩ | ⟨i, hi, e⟩
  · exact ⟨_, e, rfl⟩
  · have hclass : i.engineClass = false := by
      by_contra hc
      exact Queue.noConfusion (audio_of_engineClass hi (by simpa using hc))
    rcases exec_control_cases (s.setIssuer .control) hclass with e' | ⟨pid, v, e'⟩ | ⟨r, e'⟩
    · exact ⟨_, e.trans e', rfl⟩
    · obtain ⟨sp, cells, dirty, hset⟩ := setParameter_eq pid v (s.setIssuer .control)
      exact ⟨_, e.trans e', by rw [hset]; rfl⟩
    · exact ⟨_, e.trans e', rfl⟩

/-- Inside a block a word is taken from `CQ` alone, at a frame boundary (rules R70, R72). -/
theorem Takes.of_busy {s t : State} {q : Queue} {w : Command} (h : Takes s q w t) (hb : s.seq.busy = true) :
    q = .control ∧ s.inFrame = false ∧ t.io = { s.io with cq := t.io.cq } := by
  cases h with
  | controlAtBoundary w rest _ _ hf => exact ⟨rfl, hf, rfl⟩
  | audio w rest _ hi | audioFirst w rest _ hi | control w rest _ hi | controlFirst w rest _ hi =>
    exact (Bool.false_ne_true (hi.symm.trans hb)).elim

/-- Settles O11: a step inside a block performs a word of `CQ` at a boundary, or is the engine's. -/
theorem queuesWaitInsideBlocks : Obligations.QueuesWaitInsideBlocks := by
  unfold Obligations.QueuesWaitInsideBlocks
  intro s t hr hb ht
  rcases step_cases s with ⟨hr', -⟩ | ⟨-, hb', -⟩ | ⟨q, w, u, hu, e⟩ | ⟨-, -, u, hu, e⟩
  · exact (Bool.false_ne_true (hr.symm.trans hr')).elim
  · exact (Bool.false_ne_true (hb'.symm.trans hb)).elim
  · obtain ⟨rfl, hf, hio⟩ := hu.of_busy hb
    obtain ⟨v, hv, hvio⟩ := perform_control_io w u
    obtain rfl : v = t := Host.Outcome.next.inj ((hv.symm.trans e.symm).trans ht)
    refine ⟨?_, fun hf' => (Bool.false_ne_true (hf.symm.trans hf')).elim⟩
    rw [hvio, hio]
    exact ⟨rfl, rfl⟩
  · obtain ⟨hio, hcells, htargets⟩ := (SameControls.enters hu).trans (SameControls.engineStep (e.symm.trans ht))
    rw [hio]
    exact ⟨⟨rfl, rfl⟩, fun _ => ⟨rfl, rfl, hcells, htargets⟩⟩

end Sys2Proof.Machine
end

section
/-! PROOFS. The ring addresses and the delay stage (rules R66, R142 to R152, R183 to R189). -/

set_option Elab.async false

namespace Sys2Proof.Machine

/-! ### Read addresses -/

/-- The ring index of an offset below the capacity is `(cursor − offset) mod capacity` (rule R146). -/
theorem rbIndex_eq_mod {c : Fin 2} {k : Nat} {s : State} (hw : s.wc[c].toNat < s.act.cap.toNat)
    (hk : k < s.act.cap.toNat) : rbIndex c k s = (s.wc[c].toNat + s.act.cap.toNat - k) % s.act.cap.toNat := by
  unfold rbIndex
  dsimp only
  split
  · rw [Nat.mod_eq_of_lt] <;> omega
  · rw [show s.wc[c].toNat + s.act.cap.toNat - k = s.wc[c].toNat - k + s.act.cap.toNat by omega, Nat.add_mod_right,
      Nat.mod_eq_of_lt] <;> omega

/-- Reflecting at the cursor twice gives back the place: offsets and ring indices are each other's (rule R146). -/
theorem sub_mod_sub_mod {w n k : Nat} (hw : w < n) (hk : k < n) : (w + n - (w + n - k) % n) % n = k := by
  by_cases h : k ≤ w
  · rw [show w + n - k = w - k + n by omega, Nat.add_mod_right, Nat.mod_eq_of_lt (by omega : w - k < n),
      show w + n - (w - k) = k + n by omega, Nat.add_mod_right, Nat.mod_eq_of_lt hk]
  · rw [Nat.mod_eq_of_lt (by omega : w + n - k < n), show w + n - (w + n - k) = k by omega, Nat.mod_eq_of_lt hk]

/-- Settles O40: the ring index of an offset is below the capacity, and the offset of an index is its reflection at the
cursor. -/
theorem readAddressBijection : Obligations.ReadAddressBijection := by
  unfold Obligations.ReadAddressBijection
  intro c s hw
  have hpos : 0 < s.act.cap.toNat := by omega
  have haddr (k : Nat) (hk : k < s.act.cap.toNat) : rbRaddr c k s =
      c.val * s.act.cap.toNat + (s.wc[c].toNat + s.act.cap.toNat - k) % s.act.cap.toNat := by
    unfold rbRaddr
    rw [rbIndex_eq_mod hw hk]
  refine ⟨fun k hk => ?_, fun a hlo hhi => ?_⟩
  · have := Nat.mod_lt (s.wc[c].toNat + s.act.cap.toNat - k) hpos
    rw [haddr k hk]
    omega
  · obtain ⟨i, rfl⟩ := Nat.exists_eq_add_of_le hlo
    have hi : i < s.act.cap.toNat := by omega
    refine ⟨(s.wc[c].toNat + s.act.cap.toNat - i) % s.act.cap.toNat, ⟨Nat.mod_lt _ hpos, ?_⟩, ?_⟩
    · rw [haddr _ (Nat.mod_lt _ hpos), sub_mod_sub_mod hw hi]
    · rintro k ⟨hk, hka⟩
      rw [haddr k hk, Nat.add_left_cancel_iff] at hka
      rw [← hka, sub_mod_sub_mod hw hk]

/-! ### The read offset -/

/-- The read offset of a delay time is below the capacity, whatever the time (rules R183, R192): the clamp keeps a number at
most at `CAP − 1`, which is an F32, and a NaN converts to 0. -/
theorem delayOffset_lt (ms fs : F32) {cap : Nat} (h1 : 1 ≤ cap) (h2 : cap ≤ Config.capMax) :
    delayOffset ms fs cap < cap := by
  have hcap : Config.capMax = 384000 := rfl
  obtain ⟨huf, hus, hum⟩ := u2f_exact (n := cap - 1) (by omega)
  unfold delayOffset
  generalize fdiv (fmul ms fs) Config.thousand = v
  cases hv : isNaN v
  · have hu : fvalue (u2f (cap - 1)) = ((cap - 1 : Nat) : Int) * 2 ^ 149 := by
      rw [fvalue_of_nonneg hus, hum]; push_cast; rfl
    have hz : fvalue Config.zero = 0 := by decide
    have hle : fle Config.zero (u2f (cap - 1)) = true :=
      (fle_iff_value (by decide) (isNaN_eq_false_of_isFinite huf)).mpr (by rw [hz, hu]; positivity)
    obtain ⟨hlo, hhi⟩ := fclamp_in_range hv hle
    obtain ⟨hf, -, hmax⟩ := finite_of_fle (by decide) huf hlo hhi
    obtain ⟨⟨hround, -⟩, -⟩ := conversions_round hf hlo
    rw [hu] at hmax
    omega
  · rw [fclamp_of_isNaN _ _ hv, f2uRound_of_isNaN hv]
    exact h1

theorem RingOk.delaySamples_lt {s : State} (h : RingOk s) (c : Fin 2) : delaySamples c s < s.act.cap.toNat :=
  delayOffset_lt _ _ h.cap_pos h.cap_le

/-- A read of a channel in use at its delay offset gives the word of the ring at that offset (rules R145, R184). -/
theorem RingOk.rbRead_delaySamples {s : State} (h : RingOk s) {c : Fin 2} (hc : c.val < s.act.nch.toNat) :
    rbRead c (delaySamples c s) s = .ok (ringWord s c (delaySamples c s)) := by
  have hk := h.delaySamples_lt c
  rw [rbRead_of_ringOk h hc, rbClamp_of_lt hk]
  unfold rbRaddr ringWord
  rw [rbIndex_eq_mod (h.cursor c) hk]

/-! ### A loop over the channels that writes one entry for each -/

/-- Entries written for each channel of a list: those of the list are written, the others stay. -/
theorem foldl_set_getElem {α : Type} (f : Fin 2 → α) (cs : List (Fin 2)) (v : Vector α 2) (c : Fin 2) :
    (cs.foldl (fun y (d : Fin 2) => y.set d (f d)) v)[c] = if c ∈ cs then f c else v[c] := by
  induction cs generalizing v with
  | nil => simp
  | cons d rest ih =>
    rw [List.foldl_cons, ih, Vector.get_set_two]
    by_cases hd : c = d <;> by_cases hr : c ∈ rest <;> simp [hd, hr]

theorem mem_channels_iff {s : State} (h : RingOk s) {c : Fin 2} : c ∈ s.channels ↔ c.val < s.act.nch.toNat := by
  rcases channels_of_ringOk h with ⟨e, hc⟩ | ⟨e, hc⟩ <;> rw [e, hc] <;> revert c <;> decide

/-- The frame of the words that the ring holds at the delay offsets (rules R183, R184). -/
def ringFrame (s : State) : Frame :=
  s.channels.foldl (fun d (c : Fin 2) => d.set c (ringWord s c (delaySamples c s))) Frame.silent

theorem RingOk.ringFrame_getElem {s : State} (h : RingOk s) {c : Fin 2} (hc : c.val < s.act.nch.toNat) :
    (ringFrame s)[c] = ringWord s c (delaySamples c s) := by
  unfold ringFrame
  rw [foldl_set_getElem, if_pos ((mem_channels_iff h).mpr hc)]

/-- The delayed samples are those of the ring before the frame (rules R184, R185). -/
theorem RingOk.readDelayed {s : State} (h : RingOk s) : readDelayed s = .ok (ringFrame s) := by
  unfold Machine.readDelayed ringFrame
  have hc : ∀ c ∈ s.channels, c.val < s.act.nch.toNat := fun c hc => mem_channels_lt h hc
  revert hc
  generalize s.channels = cs
  generalize Frame.silent = d
  induction cs generalizing d with
  | nil => exact fun _ => rfl
  | cons c rest ih =>
    intro hc
    rw [List.foldlM_cons, List.foldl_cons, h.rbRead_delaySamples (hc c (by simp))]
    exact ih _ fun c' h' => hc c' (by simp [h'])

/-! ### The writes of the delay stage -/

/-- The write addresses of the two channels differ: each lies in its own region (rules R61, R142). -/
theorem RingOk.rbWaddr_ne {s : State} (h : RingOk s) {c d : Fin 2} (hne : c ≠ d) : rbWaddr c s ≠ rbWaddr d s := by
  have h0 := h.cursor 0
  have h1 := h.cursor 1
  unfold rbWaddr
  fin_cases c <;> fin_cases d <;> simp at hne h0 h1 ⊢ <;> omega

/-- A write stores its word at the write address of its channel, and moves no other channel's write address (rule R143). -/
theorem rbWrite_stores {c : Fin 2} {v : F32} {s t : State} (h : rbWrite c v s = .ok t) :
    t.dram = memStore s.dram (rbWaddr c s) v ∧ ∀ d : Fin 2, d ≠ c → rbWaddr d t = rbWaddr d s := by
  obtain ⟨-, rfl⟩ := rbWrite_ok h
  obtain ⟨w, hw⟩ := rbAdvance_eq c (s.setDram (memStore s.dram (rbWaddr c s) v))
  rw [hw]
  refine ⟨rfl, fun d hd => ?_⟩
  simp only [rbWaddr, State.setWc_wc, State.setWc_act, State.setDram_act, State.setDram_wc, Vector.get_set_two, if_neg hd]

/-- Writes to different channels in use put each value at its channel's write address, and leave every other word of the delay
RAM (rules R142, R143). -/
theorem RingOk.writeChannels {s : State} (h : RingOk s) (f : Fin 2 → F32) (cs : List (Fin 2)) (hnd : cs.Nodup)
    (hcs : ∀ c ∈ cs, c.val < s.act.nch.toNat) (hm : Memory.wf s.dram = true) :
    ∃ t, cs.foldlM (fun t (c : Fin 2) => rbWrite c (f c) t) s = .ok t ∧
      (∀ c ∈ cs, memLookup t.dram (rbWaddr c s) = f c) ∧
      ∀ a, (∀ c ∈ cs, a ≠ rbWaddr c s) → memLookup t.dram a = memLookup s.dram a := by
  induction cs generalizing s with
  | nil => exact ⟨s, rfl, by simp, fun _ _ => rfl⟩
  | cons c rest ih =>
    obtain ⟨hnot, hnd⟩ := List.nodup_cons.mp hnd
    have hc : c.val < s.act.nch.toNat := hcs c (by simp)
    obtain ⟨u, hw⟩ : ∃ u, rbWrite c (f c) s = .ok u := ⟨_, rbWrite_of_ringOk h hc (f c)⟩
    obtain ⟨hdram, hwaddr⟩ := rbWrite_stores hw
    have hact : u.act = s.act := by
      obtain ⟨m, w, rfl⟩ := rbWrite_state hw
      rfl
    obtain ⟨t, ht, hin, hout⟩ := ih (h.write hc hw) hnd (fun d hd => hact ▸ hcs d (by simp [hd])) (rbWrite_wf hw hm)
    have hrest (d : Fin 2) (hd : d ∈ rest) : d ≠ c ∧ rbWaddr d u = rbWaddr d s :=
      have hne : d ≠ c := fun e => hnot (e ▸ hd)
      ⟨hne, hwaddr d hne⟩
    refine ⟨t, by rw [List.foldlM_cons, hw]; exact ht, fun d hd => ?_, fun a ha => ?_⟩
    · rcases List.mem_cons.mp hd with rfl | hd
      · rw [hout _ fun e he => (hrest e he).2 ▸ h.rbWaddr_ne (hrest e he).1.symm, hdram]
        exact memLookup_memStore_self hm _ _
      · rw [← (hrest d hd).2]
        exact hin d hd
    · rw [hout a fun e he => (hrest e he).2 ▸ ha e (by simp [he]), hdram]
      exact memLookup_memStore_of_ne _ _ (ha c (by simp))

theorem nodup_channels {s : State} : s.channels.Nodup :=
  ((by decide : [(0 : Fin 2), 1].Nodup)).sublist (List.take_sublist _ _)

/-- The writes of the delay stage, one for each channel in use (rule R189). -/
theorem RingOk.writeRings {s : State} (h : RingOk s) (x d : Frame) (hm : Memory.wf s.dram = true) :
    ∃ t, writeRings x d s = .ok t ∧
      (∀ c : Fin 2, c.val < s.act.nch.toNat → memLookup t.dram (rbWaddr c s) = delayWriteValue s x d c) ∧
      ∀ a, (∀ c : Fin 2, c.val < s.act.nch.toNat → a ≠ rbWaddr c s) → memLookup t.dram a = memLookup s.dram a := by
  simp only [← mem_channels_iff h]
  exact h.writeChannels (delayWriteValue s x d) s.channels nodup_channels (fun c hc => mem_channels_lt h hc) hm

/-- The channel whose delayed sample is fed back is in use (rules R186, R187). -/
theorem feedbackChannel_lt {s : State} {c : Fin 2} (hc : c.val < s.act.nch.toNat) :
    (feedbackChannel s c).val < s.act.nch.toNat := by
  unfold feedbackChannel
  split_ifs with h
  · rw [h.2]; exact (1 - c).isLt
  · exact hc

theorem feedbackSource_eq (s : State) (d : Frame) (c : Fin 2) : feedbackSource s d c = d[feedbackChannel s c] := by
  unfold feedbackSource feedbackChannel
  split_ifs <;> rfl

/-- The delay stage by its reads and its writes (rule R189). -/
theorem delayFrame_of_writeRings {s t : State} (h : RingOk s) {x : Frame} (ht : writeRings x (ringFrame s) s = .ok t) :
    delayFrame x s = .ok
      (s.channels.foldl (fun y (c : Fin 2) => y.set c (delayMixOf (s.cur dlyMix) x[c] (ringFrame s)[c])) x, t) := by
  unfold delayFrame
  rw [h.readDelayed]
  dsimp only
  rw [ht]

/-- Settles O45: the reads give the words of the ring before the frame, the writes put the sums at the write addresses, and the
outputs are set channel by channel. -/
theorem delayStageLaw : Obligations.DelayStageLaw := by
  unfold Obligations.DelayStageLaw
  intro x s h hm
  obtain ⟨t, ht, hstore, -⟩ := h.writeRings x (ringFrame s) hm
  refine ⟨_, t, delayFrame_of_writeRings h ht, fun c hc => ⟨h.delaySamples_lt c, ?_, ?_⟩⟩
  · rw [hstore c hc, delayWriteValue, feedbackSource_eq, h.ringFrame_getElem (feedbackChannel_lt hc)]
    rfl
  · rw [foldl_set_getElem, if_pos ((mem_channels_iff h).mpr hc), h.ringFrame_getElem hc]
    rfl

end Sys2Proof.Machine
end

section
/-! PROOFS. A frame step does not read the sequencer (rule R252): it commutes with `State.within`. -/

set_option Elab.async false

namespace Sys2Proof.Machine

/-- `s` with another sequencer state, inside a frame or not. -/
def State.within (q : Seq) (b : Bool) (s : State) : State := (s.setSeq q).setInFrame b

section
variable (q : Seq) (b : Bool) (s : State)

@[simp] theorem within_cells : (s.within q b).cells = s.cells := rfl
@[simp] theorem within_act : (s.within q b).act = s.act := rfl
@[simp] theorem within_ph : (s.within q b).ph = s.ph := rfl
@[simp] theorem within_cur (i : SpIdx) : (s.within q b).cur i = s.cur i := rfl
@[simp] theorem within_channels : (s.within q b).channels = s.channels := rfl

/-! ### Steps 1 to 5: input, gain, distortion -/

theorem inputFrame_within : inputFrame (s.within q b) = inputFrame s := rfl

theorem spTick_popFrame_within : spTick (s.within q b).popFrame = (spTick s.popFrame).within q b := rfl

theorem applyGain_within (g : F32) (x : Frame) : applyGain g x (s.within q b) = applyGain g x s := rfl

theorem dist_within (c : Fin 2) (x : F32) : dist c x (s.within q b) = Prod.map id (State.within q b) (dist c x s) := by
  simp only [dist, dcBlock, within_cur]
  rfl

/-- A stage whose treatment of each channel does not read the sequencer. -/
theorem eachChannel_within {f : Fin 2 → F32 → State → F32 × State}
    (hf : ∀ s c x, f c x (s.within q b) = Prod.map id (State.within q b) (f c x s)) (x : Frame) :
    eachChannel f x (s.within q b) = Prod.map id (State.within q b) (eachChannel f x s) := by
  unfold eachChannel
  rw [within_channels]
  generalize s.channels = cs
  induction cs generalizing x s with
  | nil => rfl
  | cons c rest ih =>
    rw [List.foldl_cons, List.foldl_cons, ← ih]
    simp only [hf, Prod.map_fst, Prod.map_snd, id]

/-! ### Step 6: the delay stage -/

theorem rbAdvance_within (c : Fin 2) : rbAdvance c (s.within q b) = (rbAdvance c s).within q b := by
  unfold rbAdvance
  exact (apply_ite (State.within q b) (s.wc[c].setWidth 20 + 1#20 = s.act.cap.setWidth 20) (s.setCursor c 0#19)
    (s.setCursor c ((s.wc[c].setWidth 20 + 1#20).extractLsb' 0 19))).symm

theorem rbWrite_within (c : Fin 2) (v : F32) : rbWrite c v (s.within q b) = (rbWrite c v s).map (State.within q b) := by
  unfold rbWrite memWrite
  rw [show rbWaddr c (s.within q b) = rbWaddr c s from rfl]
  by_cases ha : rbWaddr c s < dramWords
  · rw [if_pos ha, if_pos ha]
    exact congrArg Except.ok (rbAdvance_within q b (s.setDram (memStore s.dram (rbWaddr c s) v)) c)
  · rw [if_neg ha, if_neg ha]
    rfl

theorem writeRings_within (x d : Frame) : writeRings x d (s.within q b) = (writeRings x d s).map (State.within q b) := by
  have hvalue (c : Fin 2) : delayWriteValue (s.within q b) x d c = delayWriteValue s x d c := by
    rw [delayWriteValue, delayWriteValue, feedbackSource_eq, feedbackSource_eq]
    rfl
  simp only [writeRings, within_channels, hvalue]
  clear hvalue
  generalize delayWriteValue s x d = v
  generalize s.channels = cs
  induction cs generalizing s with
  | nil => rfl
  | cons c rest ih =>
    rw [List.foldlM_cons, List.foldlM_cons, rbWrite_within]
    cases rbWrite c (v c) s with
    | error e => rfl
    | ok t => exact ih t

theorem delaySamples_within (c : Fin 2) : delaySamples c (s.within q b) = delaySamples c s := by
  simp only [delaySamples, within_cur, within_act]

theorem ringFrame_within : ringFrame (s.within q b) = ringFrame s := by
  have hword (c : Fin 2) (k : Nat) : ringWord (s.within q b) c k = ringWord s c k := rfl
  simp only [ringFrame, hword, delaySamples_within, within_channels]

theorem delayFrame_within {s : State} (h : RingOk s) (x : Frame) :
    delayFrame x (s.within q b) = (delayFrame x s).map (Prod.map id (State.within q b)) := by
  have h' : RingOk (s.within q b) := h.congr rfl rfl
  unfold delayFrame
  rw [h.readDelayed, h'.readDelayed, ringFrame_within]
  dsimp only
  rw [writeRings_within]
  cases writeRings x (ringFrame s) s <;> rfl

/-! ### Steps 7 to 10: panner, equalizer, output -/

theorem panMix_within (x : Frame) : panMix x (s.within q b) = panMix x s := by
  have hpan (l : Fin 2) (v : F32) : finalPan (s.within q b) l v = finalPan s l v := by
    unfold finalPan
    rfl
  unfold panMix
  simp only [hpan, within_cur]
  rfl

theorem lfoAdvance_within : lfoAdvance (s.within q b) = (lfoAdvance s).within q b := by
  simp only [lfoAdvance, within_act, within_ph, within_cur]
  rfl

theorem panFrame_within (x : Frame) : panFrame x (s.within q b) = Prod.map id (State.within q b) (panFrame x s) := by
  unfold panFrame
  rw [panMix_within, lfoAdvance_within]
  rfl

theorem eqSample_within (d : Fin 4) (c : Fin 2) (x : F32) :
    eqSample d c x (s.within q b) = Prod.map id (State.within q b) (eqSample d c x s) := by
  unfold eqSample
  rfl

theorem eqChannel_within (c : Fin 2) (x : F32) :
    eqChannel c x (s.within q b) = Prod.map id (State.within q b) (eqChannel c x s) := by
  unfold eqChannel
  rw [within_cells]
  generalize s.cells.banden = en
  generalize ([0, 1, 2, 3] : List (Fin 4)) = bs
  induction bs generalizing x s with
  | nil => rfl
  | cons d rest ih =>
    rw [List.foldl_cons, List.foldl_cons]
    by_cases hd : en[d] = 1#1
    · rw [if_pos hd, if_pos hd, eqSample_within]
      exact ih (eqSample d c x s).2 (eqSample d c x s).1
    · rw [if_neg hd, if_neg hd]
      exact ih s x

/-- A frame step of a ring in order leaves the sequencer, and does not depend on it (rule R252). -/
theorem frameStep_within {s : State} (h : RingOk s) :
    frameStep (s.within q b) = (frameStep s).map (State.within q b) := by
  unfold frameStep
  dsimp only
  rw [inputFrame_within, spTick_popFrame_within, applyGain_within, within_cur, eachChannel_within _ _ _ (dist_within q b)]
  have h0 : RingOk (spTick s.popFrame) := h.congr (by simp) (by simp)
  generalize spTick s.popFrame = s0 at h0
  generalize applyGain _ (inputFrame s) s0 = x1
  obtain ⟨d, hd⟩ := eachChannel_dist_state x1 s0
  have h2 : RingOk (eachChannel dist x1 s0).2 := by rw [hd]; exact h0.congr rfl rfl
  generalize eachChannel dist x1 s0 = p2 at h2
  rw [Prod.map_fst, Prod.map_snd, id_eq, delayFrame_within q b h2]
  cases delayFrame p2.1 p2.2 with
  | error e => rfl
  | ok p =>
    simp only [Except.map, Prod.map_fst, Prod.map_snd, id, panFrame_within, eachChannel_within q b _ (eqChannel_within q b)]
    rfl

end
end Sys2Proof.Machine
end

section
/-! PROOFS. A running block without control traffic is its frames (rules R70, R250 to R252, R256). -/

set_option Elab.async false

namespace Sys2Proof.Machine

/-! ### What a frame step does to the streams and the sequencer -/

/-- The words a frame step pushes are the output words of some frame (rule R252). -/
theorem frameStep_aout {s t : State} (h : frameStep s = .ok t) : ∃ x, t.io.aout = s.io.aout ++ outputWords x s := by
  unfold frameStep at h
  dsimp only at h
  split at h
  · cases h
  · next p hp =>
    obtain ⟨d, hd⟩ := eachChannel_dist_state
      (applyGain (Config.num.fns.db2lin ((spTick s.popFrame).cur inGain)) (inputFrame s) (spTick s.popFrame))
      (spTick s.popFrame)
    obtain ⟨m, w, hm⟩ := delayFrame_state (y := p.1) (t := p.2) hp
    obtain ⟨q, hq⟩ := eachChannel_eq_state (panFrame p.1 p.2).1 (panFrame p.1 p.2).2
    generalize eachChannel eqChannel (panFrame p.1 p.2).1 (panFrame p.1 p.2).2 = r at h hq
    have haout : r.2.io.aout = s.io.aout := by
      rw [hq, panFrame, hm, hd]
      simp
    have hact : r.2.act = s.act := by
      rw [hq, panFrame, hm, hd]
      simp
    refine ⟨applyGain (Config.num.fns.db2lin (r.2.cur outGain)) r.1 r.2, ?_⟩
    rw [← Except.ok.inj h]
    simp only [State.pushOutput, State.setIo_io, haout, outputWords, State.channels, hact]

/-- A frame step of a ring in order pops `NCH` words and pushes `NCH` words (rules R68, R252). -/
theorem RingOk.frameStep_streams {s t : State} (h : RingOk s) (hf : frameStep s = .ok t) :
    t.io.ain = (s.popped ++ s.io.ain).drop s.act.nch.toNat ∧
      t.io.aout.length = s.io.aout.length + s.act.nch.toNat := by
  constructor
  · obtain ⟨d, m, w, p, q, ws, rfl⟩ := frameStep_state hf
    rw [← frameWords_of_ringOk h]
    simp [State.pushOutput]
  · obtain ⟨x, hx⟩ := frameStep_aout hf
    rw [hx, List.length_append, ← frameWords_of_ringOk h]
    simp [outputWords, State.frameWords]

/-- A frame step leaves the latched configuration and the sequencer, and no popped word (rule R252). -/
theorem frameStep_progress {s t : State} (h : frameStep s = .ok t) :
    t.act = s.act ∧ t.progress = (s.seq, s.passing, s.inFrame, []) := by
  obtain ⟨d, m, w, p, q, ws, rfl⟩ := frameStep_state h
  simp [State.progress]

/-- The engine in a frame whose words are all there (rule R252). -/
theorem engineStep_of_frame {s t : State} (hrem : s.seq.rem ≠ 0#16) (hp : s.passing = none)
    (hlen : s.frameWords ≤ s.frameSupply.length) (hf : frameStep s = .ok t) : engineStep s = .next (endFrame t) := by
  simp [engineStep, hrem, hp, Nat.not_lt.mpr hlen, hf]

/-- The first of `k + 1` steps, on any machine. -/
theorem core_run_succ {M : Host.Core} {s t : M.State} (k : Nat) (h : M.step s = .next t) : M.run (k + 1) s = M.run k t := by
  rw [Host.Core.run, h]

theorem run_succ {s t : State} (k : Nat) (h : step s = .next t) : Host.Core.run core (k + 1) s = Host.Core.run core k t :=
  core_run_succ (M := core) k h

/-! ### An undisturbed block -/

/-- The parts of the sequencer when no block runs (rule R21). -/
def State.Quiet (s : State) : Prop := s.progress = (⟨false, 0#16⟩, none, false, [])

theorem State.Quiet.parts {s : State} (h : s.Quiet) :
    s.seq = ⟨false, 0#16⟩ ∧ s.passing = none ∧ s.inFrame = false ∧ s.popped = [] := by
  simpa [State.Quiet, State.progress] using h

/-- A frame step outside a block leaves the sequencer as it is there. -/
theorem State.Quiet.frameStep {s t : State} (h : s.Quiet) (hf : frameStep s = .ok t) : t.Quiet := by
  obtain ⟨h1, h2, h3, -⟩ := h.parts
  rw [State.Quiet, (frameStep_progress hf).2, h1, h2, h3]

/-- A sequencer in a block of which `m` frames are left. -/
def Seq.busyFor (m : Nat) : Seq := ⟨true, BitVec.ofNat 16 m⟩

/-- `s`, outside a block, made to run a block of which `m` frames are left: none is left over of one with no frames. -/
def State.running (m : Nat) (s : State) : State := if m = 0 then s else s.setSeq (.busyFor m)

/-- The end of a frame of a running block of `m + 1` frames (rules R21, R250). -/
theorem endFrame_running {t : State} {m : Nat} (ht : t.Quiet) (hm : m + 1 < 2 ^ 16) :
    endFrame (t.within (.busyFor (m + 1)) true) = t.running m := by
  have hseq : (t.within (.busyFor (m + 1)) true).seq.rem - 1#16 = BitVec.ofNat 16 m := by
    show BitVec.ofNat 16 (m + 1) - 1#16 = _
    rw [← BitVec.toNat_inj]
    simp only [BitVec.toNat_sub, BitVec.toNat_ofNat]
    omega
  obtain ⟨h1, h2, h3, h4⟩ := ht.parts
  rcases endFrame_cases (t.within (.busyFor (m + 1)) true) with ⟨h0, e⟩ | ⟨h0, e⟩ <;>
    rw [hseq] at h0 <;> rw [e]
  · have hm0 : m = 0 := by simpa [← BitVec.toNat_inj, Nat.mod_eq_of_lt (by omega : m < 65536)] using h0
    rw [State.running, if_pos hm0]
    show { t with seq := ⟨false, 0#16⟩, passing := none, inFrame := false, popped := [] } = t
    rw [← h1, ← h2, ← h3, ← h4]
  · rw [State.running, if_neg fun hm0 => h0 (by rw [hm0]), hseq]
    show { t with seq := ⟨true, BitVec.ofNat 16 m⟩, inFrame := false } = { t with seq := ⟨true, BitVec.ofNat 16 m⟩ }
    rw [← h3]

/-- The step of a running block at a boundary without control traffic: the next frame. -/
theorem step_running {s t : State} {m : Nat} (h : RingOk s) (hq : s.Quiet) (hr : s.io.rst = false) (hc : s.io.cq = [])
    (hm : m + 1 < 2 ^ 16) (hlen : s.act.nch.toNat ≤ s.io.ain.length) (hf : frameStep s = .ok t) :
    step (s.running (m + 1)) = .next (t.running m) := by
  obtain ⟨-, h2, h3, h4⟩ := hq.parts
  have hrem : BitVec.ofNat 16 (m + 1) ≠ 0#16 := fun e => by
    have := congrArg BitVec.toNat e
    simp only [BitVec.toNat_ofNat] at this
    omega
  have hfw : frameStep (s.within (.busyFor (m + 1)) true) = .ok (t.within (.busyFor (m + 1)) true) := by
    rw [frameStep_within _ _ h, hf]
    rfl
  have henters : Enters (s.setSeq (.busyFor (m + 1))) (s.within (.busyFor (m + 1)) true) := .noControl h3 hc
  have hlen' : (s.within (.busyFor (m + 1)) true).frameWords ≤
      (s.within (.busyFor (m + 1)) true).frameSupply.length := by
    show s.frameWords ≤ s.frameSupply.length
    rw [frameWords_of_ringOk h, length_frameSupply, h4]
    simpa using hlen
  calc step (s.running (m + 1))
      = engineStep (s.within (.busyFor (m + 1)) true) := step_of_enters hr rfl henters
    _ = .next (endFrame (t.within (.busyFor (m + 1)) true)) := engineStep_of_frame hrem h2 hlen' hfw
    _ = .next (t.running m) := congrArg _ (endFrame_running (hq.frameStep hf) hm)

/-- A running block without control traffic and with its input is its frames (rule R250). -/
theorem run_running {s : State} {m : Nat} (h : RingOk s) (hq : s.Quiet) (hr : s.io.rst = false) (hc : s.io.cq = [])
    (hm : m < 2 ^ 16) (hlen : m * s.act.nch.toNat ≤ s.io.ain.length) :
    ∃ u, framesOf m s = .ok u ∧ u.seq = ⟨false, 0#16⟩ ∧ u.io.ain = s.io.ain.drop (m * s.act.nch.toNat) ∧
      u.io.aout.length = s.io.aout.length + m * s.act.nch.toNat ∧ Host.Core.run core m (s.running m) = .next u := by
  induction m generalizing s with
  | zero => exact ⟨s, rfl, hq.parts.1, by simp, by simp, rfl⟩
  | succ m ih =>
    obtain ⟨t, hf, ht⟩ := frameStep_of_ringOk h
    obtain ⟨hact, -⟩ := frameStep_progress hf
    obtain ⟨hain, haout⟩ := h.frameStep_streams hf
    obtain ⟨-, -, -, hpop⟩ := hq.parts
    have hio := (SameControls.frameStep hf).io
    rw [hpop, List.nil_append] at hain
    rw [Nat.succ_mul] at hlen ⊢
    obtain ⟨u, hu, hseq, huain, huaout, hrun⟩ := ih ht (hq.frameStep hf) (by rw [hio]; exact hr)
      (by rw [hio]; exact hc) (by omega) (by rw [hact, hain, List.length_drop]; omega)
    refine ⟨u, ?_, hseq, ?_, ?_, ?_⟩
    · rw [framesOf, hf]
      exact hu
    · rw [huain, hact, hain, List.drop_drop, Nat.add_comm]
    · rw [huaout, haout, hact]
      omega
    · rw [run_succ m (step_running h hq hr hc hm (by omega) hf)]
      exact hrun

/-- PROCESS accepts a block that is not oversized (rule R250). -/
theorem execProcess_accepts {s : State} {n : BitVec 16} (hn : n ≠ 0#16) (hp : s.status.prepared = true)
    (hmax : n ≤ s.act.maxBlk) : execProcess n s = .next (blockStart ((s.setSeq ⟨true, n⟩).setPassing none)) := by
  simp [execProcess, hn, hp, hmax]

theorem setPassing_self {s : State} {v : Option Nat} (h : s.passing = v) : s.setPassing v = s := by
  rw [← h]
  rfl

/-- The step that takes an accepted PROCESS from `AQ` starts the block (rules R70, R250). -/
theorem step_of_process {s : State} {n : BitVec 16} {rest : List Command} (hr : s.io.rst = false) (hb : s.seq.busy = false)
    (hc : s.io.cq = []) (ha : s.io.aq = encode (.process n) :: rest) (hn : n ≠ 0#16) (hp : s.status.prepared = true)
    (hmax : n ≤ s.act.maxBlk) (hpass : s.passing = none) :
    step s = .next ((blockStart { s with io := { s.io with aq := rest }, issuer := .audio }).running n.toNat) := by
  have hclass : classify .audio (encode (.process n)) = .ok (.process n) :=
    classify_of_decode (Laws.EncodeDecode.process n rfl) .audio
  have hseq : Seq.busyFor n.toNat = ⟨true, n⟩ := by rw [Seq.busyFor, BitVec.ofNat_toNat, BitVec.setWidth_eq]
  have hn0 : n.toNat ≠ 0 := fun e => hn (BitVec.eq_of_toNat_eq e)
  rw [step_of_takes (.audio _ rest hr hb ha hc), perform_of_classify _ hclass, State.running, if_neg hn0, hseq]
  refine (execProcess_accepts hn (by exact hp) (by exact hmax)).trans ?_
  rw [setPassing_self (by exact hpass)]
  rfl

/-- Settles O46: the step that takes the command accepts the block, and the running block is its frames, by induction on its
size: a frame step neither reads nor moves the sequencer. -/
theorem blockIsItsFrames : Obligations.BlockIsItsFrames := by
  unfold Obligations.BlockIsItsFrames
  intro s n rest h hr hp hb hc ha hn hmax hlen
  obtain ⟨-, hpass, hframe⟩ := h.seq.idle hb
  have hquiet : s.Quiet := by rw [State.Quiet, State.progress, h.seq.idle_seq hb, hpass, hframe, h.seq.idle_popped hb]
  have hring : RingOk s := h.ring hp
  obtain ⟨u, hu, hseq, hain, haout, hrun⟩ :=
    run_running (s := blockStart { s with io := { s.io with aq := rest }, issuer := .audio }) (hring.congr rfl rfl) hquiet hr
      hc n.isLt hlen
  exact ⟨u, hu, hseq, hain, haout, (run_succ _ (step_of_process hr hb hc ha hn hp hmax hpass)).trans hrun⟩

end Sys2Proof.Machine
end

section
/-! PROOFS. A waiting control command is performed after a bounded number of steps (rules R72, R74). -/

set_option Elab.async false

namespace Sys2Proof.Machine

/-! ### The words a running block still needs -/

/-- How many words of `AIN` the running block has not used yet, those popped early included (rules R68, R251). -/
def wordsLeft (s : State) : Nat := s.seq.rem.toNat * s.act.nch.toNat - s.passing.getD 0

/-- The words the running block still needs are there. -/
def Supplied (s : State) : Prop := wordsLeft s ≤ s.io.ain.length + s.popped.length

/-- At the end of a frame the words of the frames behind it are left (rules R21, R250). -/
theorem wordsLeft_endFrame {s : State} (hrem : s.seq.rem ≠ 0#16) (hp : s.passing.getD 0 = 0) :
    wordsLeft (endFrame s) + s.act.nch.toNat = s.seq.rem.toNat * s.act.nch.toNat ∧ (endFrame s).io = s.io := by
  have h0 : s.seq.rem.toNat ≠ 0 := fun e => hrem (BitVec.eq_of_toNat_eq e)
  have hsub : (s.seq.rem - 1#16).toNat + 1 = s.seq.rem.toNat := by
    have := s.seq.rem.isLt
    rw [BitVec.toNat_sub, BitVec.toNat_ofNat]
    omega
  rw [← hsub, Nat.succ_mul]
  rcases endFrame_cases s with ⟨h, e⟩ | ⟨-, e⟩ <;> rw [e]
  · rw [h]
    simp [wordsLeft, endBlock]
  · refine ⟨?_, rfl⟩
    show (s.seq.rem - 1#16).toNat * s.act.nch.toNat - s.passing.getD 0 + s.act.nch.toNat = _
    rw [hp, Nat.sub_zero]

/-- The end of a frame at `u`, of a block that had words of the frame left at `s`: the input of the other frames is there. -/
theorem endFrame_progress {s u : State} (hrem : s.seq.rem ≠ 0#16) (hseq : u.seq = s.seq) (hact : u.act = s.act)
    (hp : u.passing.getD 0 = 0) (hain : s.seq.rem.toNat * s.act.nch.toNat ≤ u.io.ain.length + s.act.nch.toNat)
    (hleft : s.seq.rem.toNat * s.act.nch.toNat < wordsLeft s + s.act.nch.toNat) :
    Supplied (endFrame u) ∧ wordsLeft (endFrame u) < wordsLeft s := by
  obtain ⟨hend, hio⟩ := wordsLeft_endFrame (by rw [hseq]; exact hrem) hp
  rw [hseq, hact] at hend
  rw [Supplied, hio]
  omega

/-- A running block has at least one frame left (rule R21). -/
theorem Inv.frame_left {s : State} (h : Inv s) (hb : s.seq.busy = true) :
    RingOk s ∧ s.seq.rem ≠ 0#16 ∧ s.act.nch.toNat ≤ s.seq.rem.toNat * s.act.nch.toNat := by
  obtain ⟨hprep, hrem⟩ := h.seq.busy_prepared hb
  exact ⟨h.ring hprep, hrem, Nat.le_mul_of_pos_left _ (Nat.pos_of_ne_zero fun e => hrem (BitVec.eq_of_toNat_eq e))⟩

/-- A word of a pass-through, which is there (rule R251). -/
theorem passWord_progress {s : State} {k : Nat} (h : Inv s) (hb : s.seq.busy = true) (hk : s.passing = some k)
    (hs : Supplied s) : Supplied (passWord k s) ∧ wordsLeft (passWord k s) < wordsLeft s := by
  obtain ⟨hring, hrem, hframe⟩ := h.frame_left hb
  have hlt := h.seq.word k hk
  have hleft : wordsLeft s = s.seq.rem.toNat * s.act.nch.toNat - k := by rw [wordsLeft, hk, Option.getD_some]
  have hpop : s.popped = [] := by
    by_contra hne
    exact Option.some_ne_none k (hk.symm.trans (h.seq.popped hne).2.1)
  rw [Supplied, hleft, hpop, List.length_nil, Nat.add_zero] at hs
  rcases passWord_cases k s with ⟨hempty, -⟩ | ⟨w, rest, hain, hword⟩
  · rw [hempty, List.length_nil] at hs
    omega
  · rw [hain, List.length_cons] at hs
    rw [frameWords_of_ringOk hring] at hword
    dsimp only at hword
    rcases hword with ⟨-, e⟩ | ⟨hlast, e⟩
    · rw [e, hleft]
      show s.seq.rem.toNat * s.act.nch.toNat - (k + 1) ≤ rest.length + s.popped.length ∧
        s.seq.rem.toNat * s.act.nch.toNat - (k + 1) < _
      omega
    · obtain ⟨u, e, hseq, hact, hp, hain⟩ : ∃ u, passWord k s = endFrame u ∧ u.seq = s.seq ∧ u.act = s.act ∧
          u.passing.getD 0 = 0 ∧ u.io.ain = rest := ⟨_, e, rfl, rfl, rfl, rfl⟩
      rw [e]
      exact endFrame_progress hrem hseq hact hp (by rw [hain]; omega) (by omega)

/-- The engine uses a word that is there, or a frame of words (rules R250, R251). -/
theorem engineStep_progress {s t : State} (h : Inv s) (hb : s.seq.busy = true) (hs : Supplied s)
    (ht : engineStep s = .next t) : Supplied t ∧ wordsLeft t < wordsLeft s := by
  obtain ⟨hring, hrem, hframe⟩ := h.frame_left hb
  rcases engineStep_cases s with
    ⟨h0, -⟩ | ⟨k, -, hk, e⟩ | ⟨-, hnone, hlen, -⟩ | ⟨f, -, -, -, e⟩ | ⟨u, -, hnone, -, hu, e⟩
  · exact absurd h0 hrem
  · obtain rfl : passWord k s = t := Host.Outcome.next.inj (e.symm.trans ht)
    exact passWord_progress h hb hk hs
  · rw [frameWords_of_ringOk hring, length_frameSupply] at hlen
    rw [Supplied, wordsLeft, hnone, Option.getD_none] at hs
    omega
  · rw [e] at ht
    cases ht
  · obtain rfl : endFrame u = t := Host.Outcome.next.inj (e.symm.trans ht)
    obtain ⟨hact, hprog⟩ := frameStep_progress hu
    simp only [State.progress, Prod.mk.injEq] at hprog
    obtain ⟨hseq, hpass, -, -⟩ := hprog
    obtain ⟨hain, -⟩ := hring.frameStep_streams hu
    have hleft : wordsLeft s = s.seq.rem.toNat * s.act.nch.toNat := by rw [wordsLeft, hnone, Option.getD_none, Nat.sub_zero]
    have hpos := hring.nch_pos
    rw [Supplied, hleft] at hs
    refine endFrame_progress hrem hseq hact (by rw [hpass, hnone, Option.getD_none]) ?_ (by omega)
    rw [hain, List.length_drop, List.length_append]
    omega

/-! ### The waiting command -/

/-- The word `w` waits at the head of `CQ`, in a state with the invariant, with nothing on `AQ` and with the input that the
running block needs. -/
structure Waits (w : Command) (rest : List Command) (s : State) : Prop where
  inv : Inv s
  rst : s.io.rst = false
  cq : s.io.cq = w :: rest
  aq : s.io.aq = []
  supplied : Supplied s

/-- The word that is taken where `AQ` is empty is the head of `CQ`. -/
theorem Takes.head_of_cq {s t : State} {q : Queue} {v w : Command} {rest : List Command} (h : Takes s q v t)
    (hc : s.io.cq = w :: rest) (ha : s.io.aq = []) : q = .control ∧ t.io.cq = rest := by
  cases h with
  | audio v vs _ _ hv | audioFirst v vs _ _ hv => exact (List.cons_ne_nil v vs (hv.symm.trans ha)).elim
  | control v vs _ _ hv | controlFirst v vs _ _ hv | controlAtBoundary v vs _ _ _ hv =>
    exact ⟨rfl, (List.cons.inj (hv.symm.trans hc)).2⟩

/-- A step either performs the waiting command, or leaves it waiting and the block with fewer words to use. -/
theorem Waits.step {w : Command} {rest : List Command} {s : State} (h : Waits w rest s) :
    ∃ t, step s = .next t ∧ (t.io.cq = rest ∨ Waits w rest t ∧ wordsLeft t < wordsLeft s) := by
  obtain ⟨t, ht, hinv⟩ := h.inv.step
  refine ⟨t, ht, ?_⟩
  rcases step_cases s with ⟨hr, -⟩ | ⟨-, -, hc, -⟩ | ⟨q, v, u, hu, e⟩ | ⟨-, hb, u, hu, e⟩
  · exact (Bool.false_ne_true (h.rst.symm.trans hr)).elim
  · exact (List.cons_ne_nil w rest (h.cq.symm.trans hc)).elim
  · obtain ⟨rfl, hcq⟩ := hu.head_of_cq h.cq h.aq
    obtain ⟨t', ht', hio⟩ := perform_control_io v u
    obtain rfl : t' = t := Host.Outcome.next.inj ((ht'.symm.trans e.symm).trans ht)
    rw [hio]
    exact .inl hcq
  · have hengine := e.symm.trans ht
    have hio := ((SameControls.enters hu).trans (.engineStep hengine)).io
    have hinvu := h.inv.enters hb hu
    obtain ⟨n, rfl⟩ := hu.eq
    obtain ⟨hs, hlt⟩ := engineStep_progress hinvu hb h.supplied hengine
    exact .inr ⟨⟨hinv, by rw [hio]; exact h.rst, by rw [hio]; exact h.cq, by rw [hio]; exact h.aq, hs⟩, hlt⟩

/-- A waiting command is performed before the running block has used all its words, by induction on their number. -/
theorem Waits.performed {w : Command} {rest : List Command} {s : State} (h : Waits w rest s) :
    ∃ n t u, n ≤ wordsLeft s ∧ Host.Core.run core n s = .next t ∧ t.io.cq = w :: rest ∧
      Machine.step t = .next u ∧ u.io.cq = rest := by
  induction hm : wordsLeft s using Nat.strong_induction_on generalizing s with
  | _ m ih =>
    obtain ⟨t, ht, hcq | ⟨hwaits, hlt⟩⟩ := h.step
    · exact ⟨0, s, t, Nat.zero_le _, rfl, h.cq, ht, hcq⟩
    · obtain ⟨n, t', u, hn, hrun, hcq, hu, hucq⟩ := ih _ (hm ▸ hlt) hwaits rfl
      exact ⟨n + 1, t', u, by omega, (run_succ n ht).trans hrun, hcq, hu, hucq⟩

/-- A block needs at most two words for each of its frames (rule R68). -/
theorem Inv.wordsLeft_le {s : State} (h : Inv s) : wordsLeft s ≤ 2 * s.seq.rem.toNat := by
  refine (Nat.sub_le _ _).trans ?_
  cases hb : s.seq.busy
  · rw [h.seq.idle_seq hb]
    exact (Nat.zero_mul _).le
  · obtain ⟨hring, -, -⟩ := h.frame_left hb
    rw [Nat.mul_comm]
    exact Nat.mul_le_mul_right _ hring.nch_le

/-- Settles O12, by induction on the words that the running block still needs: every step that does not perform the command
uses one of them, and there are at most two for each frame. -/
theorem controlCommandIsPerformed : Obligations.ControlCommandIsPerformed := by
  unfold Obligations.ControlCommandIsPerformed
  intro s w rest h hr hc ha hlen
  have hsupplied : Supplied s := by unfold Supplied wordsLeft; omega
  obtain ⟨n, t, u, hn, hperformed⟩ := Waits.performed ⟨h, hr, hc, ha, hsupplied⟩
  exact ⟨n, t, u, hn.trans h.wordsLeft_le, hperformed⟩

end Sys2Proof.Machine
end

section
/-! PROOFS. Words and commands: which words are legal, and what a legal word is the word of (rules R90 to R98, R102), and a word
that is not (rule R341). -/

set_option Elab.async false

namespace Sys2Proof

/-! ### The decoder, arm by arm -/

/-- The check of rule R96 passes on zero fields alone. -/
theorem ifZero_eq_ok_iff {op : BitVec 8} {z : Bool} {i j : Instr} : ifZero op z i = .ok j ↔ z = true ∧ i = j := by
  cases z <;> simp [ifZero]

/-- The check of rule R96 fails on a nonzero field alone. -/
theorem ifZero_isError_iff {op : BitVec 8} {z : Bool} {i : Instr} : (∃ e, ifZero op z i = .error e) ↔ z = false := by
  cases z <;> simp [ifZero]

/-- The row of an identifier is a command of the control class with that identifier in `idx` (rules R94, R95). -/
theorem decodeSetp_row (pid : BitVec 8) (v : F32) :
    (decodeSetp pid v).wellFormed = true ∧ encode (decodeSetp pid v) = packFields 0x10 pid 0 v ∧
      (decodeSetp pid v).engineClass = false := by
  unfold decodeSetp
  split
  -- The catch-all: an unrecognised identifier.
  case h_35 =>
    refine ⟨?_, rfl, rfl⟩
    simp only [Instr.wellFormed, recognisedPid, Bool.not_eq_true', Bool.or_eq_false_iff, Bool.and_eq_false_iff,
      decide_eq_false_iff_not]
    simp only [imp_false] at *
    omega
  all_goals next h => exact ⟨rfl, congrArg (packFields 0x10 · 0 v) (BitVec.eq_of_toNat_eq h.symm), rfl⟩

/-- A command read from four fields is well formed, has the word of the fields, and its class is that of the opcode
(rules R90, R94, R97). -/
theorem decodeFields_ok {op idx : BitVec 8} {aux : BitVec 16} {data : Word32} {i : Instr}
    (h : decodeFields op idx aux data = .ok i) :
    i.wellFormed = true ∧ encode i = packFields op idx aux data ∧
      i.engineClass = decide (0x01 ≤ op.toNat ∧ op.toNat ≤ 0x08) := by
  have opcode {n : Nat} (hop : op.toNat = n) : op = BitVec.ofNat 8 n := by simp [← hop]
  unfold decodeFields at h
  split at h
  -- A reserved opcode.
  case h_15 => exact nomatch h
  -- SETP, whose row depends on the identifier.
  case h_10 hop =>
    obtain ⟨hz, rfl⟩ := ifZero_eq_ok_iff.mp h
    obtain rfl := opcode hop
    obtain rfl : aux = 0 := by simpa using hz
    exact decodeSetp_row idx data
  all_goals
    next hop =>
    obtain ⟨hz, rfl⟩ := ifZero_eq_ok_iff.mp h
    obtain rfl := opcode hop
    simp only [Bool.and_eq_true, beq_iff_eq] at hz
    simp only [hz]
    exact ⟨rfl, rfl, rfl⟩

/-- Settles O2: the fields of a word give back the word, and every command read from fields has the word of the fields. -/
theorem encodeInvertsDecode : Obligations.EncodeInvertsDecode := by
  unfold Obligations.EncodeInvertsDecode
  intro w i h
  obtain ⟨hwf, henc, -⟩ := decodeFields_ok h
  exact ⟨hwf, henc.trans (packFields_fields w)⟩

/-! ### Illegal words -/

/-- The fields of a word as parts of its number (rule R90). -/
theorem opField_toNat (w : Command) : (opField w).toNat = w.toNat / 2 ^ 56 := by
  unfold opField
  rw [BitVec.extractLsb'_toNat, Nat.shiftRight_eq_div_pow]
  omega

theorem idxField_toNat (w : Command) : (idxField w).toNat = w.toNat / 2 ^ 48 % 2 ^ 8 := by
  unfold idxField
  rw [BitVec.extractLsb'_toNat, Nat.shiftRight_eq_div_pow]

theorem auxField_toNat (w : Command) : (auxField w).toNat = w.toNat / 2 ^ 32 % 2 ^ 16 := by
  unfold auxField
  rw [BitVec.extractLsb'_toNat, Nat.shiftRight_eq_div_pow]

theorem dataField_toNat (w : Command) : (dataField w).toNat = w.toNat % 2 ^ 32 := by
  unfold dataField
  rw [BitVec.extractLsb'_toNat, Nat.shiftRight_zero]

/-- Four fields, as numbers, that stand for no command: a reserved opcode, or a must-be-zero field of the opcode that is not
zero (rules R94, R96, R98). -/
def NoCommand (op idx aux data : Nat) : Prop :=
  (0x09 ≤ op ∧ op ≤ 0x0F) ∨ 0x15 ≤ op ∨
  ((op = 0x00 ∨ op = 0x02 ∨ op = 0x03 ∨ op = 0x07 ∨ op = 0x08 ∨ op = 0x13) ∧ (idx ≠ 0 ∨ aux ≠ 0 ∨ data ≠ 0)) ∨
  (op = 0x04 ∧ (idx ≠ 0 ∨ data ≠ 0)) ∨
  ((op = 0x01 ∨ op = 0x05 ∨ op = 0x06 ∨ op = 0x10) ∧ aux ≠ 0) ∨
  ((op = 0x11 ∨ op = 0x12 ∨ op = 0x14) ∧ (aux ≠ 0 ∨ data ≠ 0))

/-- The decoder refuses exactly the fields that stand for no command. -/
theorem decodeFields_isError_iff (op idx : BitVec 8) (aux : BitVec 16) (data : Word32) :
    (∃ e, decodeFields op idx aux data = .error e) ↔ NoCommand op.toNat idx.toNat aux.toNat data.toNat := by
  have field_ne {n : Nat} (x : BitVec n) : (x == 0) = false ↔ x.toNat ≠ 0 := by
    rw [beq_eq_false_iff_ne, ne_eq, ← BitVec.toNat_inj]; rfl
  unfold decodeFields NoCommand
  split
  case h_15 =>
    -- A reserved opcode: none of those that the table lists.
    refine iff_of_true ⟨_, rfl⟩ ?_
    simp only [imp_false] at *
    omega
  all_goals
    next hop =>
    rw [ifZero_isError_iff, hop]
    simp only [Bool.and_eq_false_iff, field_ne]
    simp [or_assoc]

/-- A word is illegal on a queue if it stands for no command, or for an engine-class command on `CQ` (rules R97, R98). -/
theorem classify_isError_iff (q : Queue) (w : Command) :
    (∃ e, classify q w = .error e) ↔
      (∃ e, decode w = .error e) ∨ ∃ i, decode w = .ok i ∧ i.engineClass = true ∧ q = .control := by
  cases h : decode w with
  | error e => simp [classify, h]
  | ok i =>
    rw [classify_of_decode h]
    split_ifs with hc <;> simp [hc]

/-- The illegal words by their fields: the class of a command is that of its opcode (rules R94, R97). -/
theorem classify_isError_iff_fields (q : Queue) (w : Command) :
    (∃ e, classify q w = .error e) ↔
      NoCommand (opField w).toNat (idxField w).toNat (auxField w).toNat (dataField w).toNat ∨
        0x01 ≤ (opField w).toNat ∧ (opField w).toNat ≤ 0x08 ∧ q = .control := by
  rw [classify_isError_iff, ← decodeFields_isError_iff]
  show _ ↔ (∃ e, decode w = .error e) ∨ _
  cases h : decode w with
  | error e => exact iff_of_true (.inl ⟨e, rfl⟩) (.inl ⟨e, rfl⟩)
  | ok i =>
    obtain ⟨-, -, hclass⟩ := decodeFields_ok h
    simp [hclass, and_assoc]

/-- Settles O3: the words that stand for no command, and those of the opcodes of the engine class on `CQ`. -/
theorem illegalWords : Obligations.IllegalWords := by
  unfold Obligations.IllegalWords
  intro q w
  have h := classify_isError_iff_fields q w
  rw [opField_toNat, idxField_toNat, auxField_toNat, dataField_toNat] at h
  simpa only [NoCommand, or_assoc] using h

/-! ### The worked encodings -/

/-- The word of a well-formed command is read as that command (rules R90, R95). -/
theorem decode_of_encode {i : Instr} {w : Command} (hi : i.wellFormed = true) (hw : encode i = w) : decode w = .ok i :=
  hw ▸ Laws.EncodeDecode.decode_encode i hi

/-- Settles O4: each line assembles to the word of the command, which the decoder reads back. -/
theorem workedEncodings : Obligations.WorkedEncodings := by
  unfold Obligations.WorkedEncodings
  refine ⟨⟨?_, decode_of_encode rfl rfl⟩, ⟨?_, decode_of_encode rfl rfl⟩, ⟨?_, decode_of_encode rfl rfl⟩,
    ⟨?_, decode_of_encode rfl rfl⟩, ⟨?_, decode_of_encode rfl rfl⟩, ⟨?_, decode_of_encode rfl rfl⟩,
    ⟨?_, decode_of_encode rfl rfl⟩⟩ <;> decide +kernel

end Sys2Proof

namespace Sys2Proof.Machine

/-- An illegal word raises `E_ILLEGAL` and is discarded (rules R98, R341). -/
theorem perform_of_illegal {q : Queue} {w : Command} {e : IllegalWord} (s : State) (h : classify q w = .error e) :
    perform q w s = .next (s.raise .illegal) := by
  unfold perform
  rw [h]

/-- Settles O7: the step performs the word it takes, and performing an illegal word raises the one flag. -/
theorem illegalWordDiscarded : Obligations.IllegalWordDiscarded := by
  unfold Obligations.IllegalWordDiscarded
  intro s t q w e ht he
  rw [step_of_takes ht, perform_of_illegal t he]
  rfl

end Sys2Proof.Machine
end

section
/-! PROOFS. What commands of the control class change, and which commands answer (rules R91, R94, R97, R344, R387). -/

set_option Elab.async false

namespace Sys2Proof.Machine

/-- Settles O19: a command of the control class does nothing, or is a SETP, or answers one word. -/
theorem controlClassLeavesEngineAlone : Obligations.ControlClassLeavesEngineAlone := by
  unfold Obligations.ControlClassLeavesEngineAlone
  intro i s hi
  rcases exec_control_cases s hi with e | ⟨pid, v, e⟩ | ⟨w, e⟩
  · exact ⟨s, e, rfl, rfl, fun _ => rfl, fun _ => rfl⟩
  · obtain ⟨sp, cells, dirty, hset⟩ := setParameter_eq pid v s
    rw [hset] at e
    exact ⟨_, e, rfl, rfl, fun _ => rfl, fun _ => rfl⟩
  · refine ⟨_, e, ?_, ?_, fun hq => ?_, fun hq => ?_⟩
    · rw [respond_eq]; rfl
    · rw [respond_eq]; cases s.issuer <;> rfl
    · rw [respond_eq, hq]; rfl
    · rw [respond_eq, hq]; rfl

/-! ### Commands without an answer -/

theorem setParameter_io (pid : BitVec 8) (v : F32) (s : State) : (setParameter pid v s).io = s.io := by
  obtain ⟨sp, cells, dirty, h⟩ := setParameter_eq pid v s
  rw [h]; rfl

theorem raiseAll_io (fs : List ErrorFlag) (s : State) : (s.raiseAll fs).io = s.io := by
  obtain ⟨u, h, -⟩ := raiseAll_eq s fs
  rw [h]; rfl

/-- If the answer is a next state, the queues in it are as before. -/
def KeepsIo (s : State) (r : Result) : Prop := ∀ t, r = .next t → t.io = s.io

theorem KeepsIo.next {s t : State} (h : t.io = s.io) : KeepsIo s (.next t) := by
  rintro _ ⟨⟩; exact h

theorem execPrepare_keepsIo (s : State) : KeepsIo s (execPrepare s) := by
  unfold execPrepare
  split
  · exact .next (by simp [prepared])
  · exact .next (raiseAll_io _ s)

theorem execReset_keepsIo (s : State) : KeepsIo s (execReset s) := by
  unfold execReset
  split_ifs
  · exact .next rfl
  · exact .next (by simp)

theorem execProcess_keepsIo (n : BitVec 16) (s : State) : KeepsIo s (execProcess n s) := by
  unfold execProcess
  split_ifs <;> exact .next rfl

theorem execRbwr_keepsIo (ch : BitVec 8) (v : F32) (s : State) : KeepsIo s (execRbwr ch v s) := by
  unfold execRbwr
  split_ifs
  · exact .next rfl
  · split
    · exact .next rfl
    · next c _ =>
      cases hw : rbWrite c v s with
      | error f => exact fun _ => nofun
      | ok t =>
        obtain ⟨m, wc, rfl⟩ := rbWrite_state hw
        exact .next rfl

theorem execRbclr_keepsIo (s : State) : KeepsIo s (execRbclr s) := by
  unfold execRbclr
  split_ifs <;> exact .next rfl

theorem execCfgw_keepsIo (idx : BitVec 8) (d : Word32) (s : State) : KeepsIo s (execCfgw idx d s) := by
  unfold execCfgw
  split <;> exact .next rfl

/-- A command that does not respond moves no queue (rules R94, R387). -/
theorem exec_silent {i : Instr} (s : State) (hi : i.responds = false) : KeepsIo s (exec i s) := by
  cases i
  case nop | clrerr => exact .next rfl
  case cfgw idx d => exact execCfgw_keepsIo idx d s
  case prepare => exact execPrepare_keepsIo s
  case reset => exact execReset_keepsIo s
  case process n => exact execProcess_keepsIo n s
  case rbwr ch v => exact execRbwr_keepsIo ch v s
  case rbclr => exact execRbclr_keepsIo s
  case rbrd | getp | getc | status | cfgr => exact (Bool.false_ne_true hi.symm).elim
  all_goals exact .next (setParameter_io _ _ s)

/-! ### Commands with an answer -/

/-- RBRD answers one word, after the flag it may raise (rules R150, R349). -/
theorem execRbrd_responds {ch : BitVec 8} {k : Word32} {s t : State} (h : execRbrd ch k s = .next t) :
    ∃ (u : State) (w : Word32), t = u.respond w ∧ u.io = s.io ∧ u.issuer = s.issuer := by
  unfold execRbrd at h
  split at h
  · exact ⟨s.raise .notPrep, _, (Host.Outcome.next.inj h).symm, rfl, rfl⟩
  · split at h
    · exact ⟨s, _, (Host.Outcome.next.inj h).symm, rfl, rfl⟩
    · dsimp only at h
      split at h
      · exact nomatch h
      · refine ⟨_, _, (Host.Outcome.next.inj h).symm, ?_⟩
        split_ifs <;> exact ⟨rfl, rfl⟩

/-- A command that responds answers one word, and moves no queue before that (rules R94, R387). -/
theorem exec_responds {i : Instr} {s t : State} (hi : i.responds = true) (h : exec i s = .next t) :
    ∃ (u : State) (w : Word32), t = u.respond w ∧ u.io = s.io ∧ u.issuer = s.issuer := by
  cases i
  case rbrd ch k => exact execRbrd_responds h
  case getp | getc | status | cfgr => exact ⟨s, _, (Host.Outcome.next.inj h).symm, rfl, rfl⟩
  all_goals exact (Bool.false_ne_true hi).elim

/-- Settles O38: a command that responds answers one word on the issuing queue, and any other moves no queue. -/
theorem responsePairing : Obligations.ResponsePairing := by
  unfold Obligations.ResponsePairing
  intro i s t h
  have hcount : (match i with | .rbrd _ _ | .getp _ | .getc _ | .status | .cfgr _ => 1 | _ => 0) =
      if i.responds then 1 else 0 := by cases i <;> rfl
  cases hi : i.responds <;> rw [hi] at hcount
  · refine ⟨[], hcount.symm, ?_⟩
    rw [exec_silent s hi t h, List.append_nil, List.append_nil]
    exact ⟨fun _ => rfl, fun _ => rfl⟩
  · obtain ⟨u, w, rfl, hio, hissuer⟩ := exec_responds hi h
    refine ⟨[w], hcount.symm, ?_⟩
    rw [respond_eq, hissuer, ← hio]
    constructor <;> intro hq <;> rw [hq] <;> rfl

end Sys2Proof.Machine
end

section
/-! PROOFS. The smoothed-parameter registers: the advances of a ramp (rules R122 to R124, R128), and SETP of each of the 26
(rules R231, R271, R276 to R301). -/

set_option Elab.async false

namespace Sys2Proof.Machine

/-! ### Advances -/

/-- An advance that is not the last moves the value by the increment or by a part of the gap (rules R123, R124). -/
theorem advance_inner (m : BitVec 1) (α : F32) {r : Sp} (h0 : r.cnt ≠ 0#18) (h1 : r.cnt ≠ 1#18) :
    advance m α r = { r with
      cur := fadd r.cur (if m = 0#1 then r.step else fmul α (fsub r.tgt r.cur))
      cnt := r.cnt - 1#18 } := by
  have h2 : r.cnt - 1#18 ≠ 0#18 := fun e => h1 (by bv_omega)
  unfold advance
  rw [if_neg h0]
  dsimp only
  rw [if_neg h2]
  split_ifs <;> rfl

/-- Settles O43: an idle register, the last advance, and any other advance. -/
theorem advanceLaws : Obligations.AdvanceLaws := by
  unfold Obligations.AdvanceLaws
  intro m α r
  refine ⟨advance_idle m α, fun h0 => ⟨?_, advance_tgt m α r, advance_step m α r, fun h1 => ?_, fun h1 => ⟨?_, ?_⟩⟩⟩
  · have hc := advance_cnt m α r
    have h0' : r.cnt.toNat ≠ 0 := fun e => h0 (BitVec.eq_of_toNat_eq e)
    omega
  · rw [advance_last m α h1]
  · rintro rfl
    rw [advance_inner 0#1 α h0 h1, if_pos rfl]
  · rintro rfl
    rw [advance_inner 1#1 α h0 h1, if_neg (by decide)]

/-- An advance keeps `cnt = 0` implying `cur = tgt` (rule R23). -/
theorem advance_settled (m : BitVec 1) (α : F32) {r : Sp} (h : r.cnt = 0#18 → r.cur = r.tgt) :
    (advance m α r).cnt = 0#18 → (advance m α r).cur = (advance m α r).tgt := by
  intro h0
  by_cases hr : r.cnt = 0#18
  · rw [advance_idle m α hr]; exact h hr
  · have hc := advance_cnt m α r
    rw [h0] at hc
    have h1 : r.cnt = 1#18 := by bv_omega
    rw [advance_last m α h1]

/-- As many advances as are left bring a settled register to rest on its target (rule R128). -/
theorem advanceTimes_lands (m : BitVec 1) (α : F32) {n : Nat} {r : Sp} (hn : r.cnt.toNat = n)
    (h : r.cnt = 0#18 → r.cur = r.tgt) : advanceTimes m α n r = ⟨r.tgt, r.tgt, r.step, 0#18⟩ := by
  induction n generalizing r with
  | zero =>
    have h0 : r.cnt = 0#18 := BitVec.eq_of_toNat_eq hn
    calc r = ⟨r.cur, r.tgt, r.step, r.cnt⟩ := rfl
      _ = ⟨r.tgt, r.tgt, r.step, 0#18⟩ := by rw [h h0, h0]
  | succ k ih =>
    have hc : (advance m α r).cnt.toNat = k := by rw [advance_cnt, hn]; rfl
    calc advanceTimes m α (k + 1) r = advanceTimes m α k (advance m α r) := rfl
      _ = _ := by rw [ih hc (advance_settled m α h), advance_tgt, advance_step]

theorem spSetTarget_sp (i j : SpIdx) (v : F32) (s : State) :
    (spSetTarget i v s).sp[j] = if j = i then retarget s.status.prepared s.act.rampSamples v s.sp[i] else s.sp[j] :=
  Vector.get_set_sp _ _ _ _

/-- A target change of a prepared core leaves `RAMP_SAMPLES` advances to the new target, or is there at once (rule R122). -/
theorem retarget_ramp (n : BitVec 18) {v : F32} {r : Sp} (h : feq v r.tgt = false) :
    (retarget true n v r).tgt = v ∧ (retarget true n v r).cnt = n ∧
      ((retarget true n v r).cnt = 0#18 → (retarget true n v r).cur = (retarget true n v r).tgt) := by
  rcases retarget_cases true n v r with ⟨heq, -⟩ | ⟨-, hn, e⟩ | ⟨-, -, hn, e⟩
  · exact absurd (h.symm.trans heq) Bool.false_ne_true
  · have hn : n = 0#18 := hn.resolve_left (by decide)
    rw [e]
    exact ⟨rfl, hn.symm, fun _ => rfl⟩
  · rw [e]
    exact ⟨rfl, rfl, fun h0 => absurd h0 hn⟩

/-- Settles O42: the register is settled after the target change, and lands with the last advance left. -/
theorem rampLands : Obligations.RampLands := by
  unfold Obligations.RampLands
  intro i v s hp hv
  obtain ⟨htgt, hcnt, hsettled⟩ := retarget_ramp s.act.rampSamples hv
  rw [spSetTarget_sp, if_pos rfl, hp, advanceTimes_lands _ _ (congrArg BitVec.toNat hcnt) hsettled]
  exact ⟨htgt, htgt, rfl⟩

/-! ### SETP -/

/-- SETP of an identifier that names a register (rule R271). -/
theorem setParameter_smoothed {pid : BitVec 8} {i : SpIdx} (h : pid.toNat = i.val) {v : F32} (hv : isNaN v = false)
    (s : State) : setParameter pid v s = setSmoothed i v s := by
  have hi : smoothedOperand pid = some i := by
    unfold smoothedOperand
    rw [dif_pos (h ▸ i.isLt)]
    exact congrArg some (Fin.ext h)
  have hr : recognisedPid pid = true := by
    have := i.isLt
    unfold recognisedPid
    rw [Bool.or_eq_true]
    exact .inl (decide_eq_true (by omega))
  unfold setParameter
  rw [hr, hv, hi]
  rfl

/-- Each of the 26 commands is SETP of the register of its index (rules R270, R276 to R301). -/
theorem exec_smoothedCommand (i : SpIdx) {v : F32} (hv : isNaN v = false) (s : State) :
    exec (smoothedCommand i v) s = .next (setSmoothed i v s) := by
  have hrow : exec (smoothedCommand i v) s = .next (setParameter (BitVec.ofNat 8 i.val) v s) := by
    fin_cases i <;> rfl
  have hid : (BitVec.ofNat 8 i.val).toNat = i.val := by rw [BitVec.toNat_ofNat]; omega
  rw [hrow, setParameter_smoothed hid hv]

theorem setSmoothed_sp (i j : SpIdx) (v : F32) (s : State) :
    (setSmoothed i v s).sp[j] =
      if j = i then retarget s.status.prepared s.act.rampSamples (fclamp v (paramRange i).lo (paramRange i).hi) s.sp[i]
      else s.sp[j] := by
  obtain ⟨d, hd⟩ := setSmoothed_eq i v s
  rw [hd]
  exact Vector.get_set_sp _ _ _ _

/-- The band of an equalizer parameter becomes dirty, and no other band (rule R231). -/
theorem markDirty_dirty (i : SpIdx) (s : State) (b : Fin 4) :
    (markDirty i s).dirty[b] = (s.dirty[b] || decide (14 ≤ i.val ∧ b.val = (i.val - 14) / 3)) := by
  unfold markDirty
  split_ifs with h
  · simp only [State.setDirty_dirty, Fin.getElem_fin, Vector.getElem_set]
    by_cases hb : (i.val - 14) / 3 = b.val
    · simp [h, hb]
    · simp [hb, Ne.symm hb]
  · simp [h]

theorem setSmoothed_dirty (i : SpIdx) (v : F32) (s : State) (b : Fin 4) :
    (setSmoothed i v s).dirty[b] = (s.dirty[b] || decide (14 ≤ i.val ∧ b.val = (i.val - 14) / 3)) :=
  markDirty_dirty i _ b

/-- The rows of rule R22 are ranges. -/
theorem paramRange_ordered (i : SpIdx) : fle (paramRange i).lo (paramRange i).hi = true := by
  have h : ∀ i : SpIdx, fle (paramRange i).lo (paramRange i).hi = true := by decide +kernel
  exact h i

/-- Settles O21: each command is the SETP of its register, which clamps, retargets and marks. -/
theorem setpSmoothed : Obligations.SetpSmoothed := by
  unfold Obligations.SetpSmoothed
  intro i v s hv
  obtain ⟨hlo, hhi⟩ := fclamp_in_range hv (paramRange_ordered i)
  refine ⟨_, exec_smoothedCommand i hv s, ?_, fun j hj => ?_, setSmoothed_dirty i v s, hlo, hhi, fclamp_of_inside, ?_⟩
  · obtain ⟨d, hd⟩ := setSmoothed_eq i v s
    rw [hd]
    rfl
  · rw [setSmoothed_sp, if_neg hj]
  · rw [setSmoothed_sp, if_pos rfl]
    rcases retarget_cases s.status.prepared s.act.rampSamples (fclamp v (paramRange i).lo (paramRange i).hi) s.sp[i] with
      ⟨h, e⟩ | ⟨h, hidle, e⟩ | ⟨h, hp, hn, e⟩
    · rw [e, if_pos h]
    · rw [e, if_neg (ne_true_of_eq_false h), if_pos hidle]
      rfl
    · rw [e, if_neg (ne_true_of_eq_false h), if_neg (by simp [hp, hn])]

end Sys2Proof.Machine
end

section
/-! PROOFS. PREPARE of a valid staging (rules R121, R141, R148, R161, R323, R324). -/

set_option Elab.async false

namespace Sys2Proof.Machine

/-! ### The checks -/

/-- `f2u_ceil` of a number of `[0, n]` is at most `n` (rule R14). -/
theorem f2uCeil_le {v : F32} {n : Nat} (hf : isFinite v = true) (h0 : fle Config.zero v = true)
    (h : fvalue v ≤ n * 2 ^ 149) : f2uCeil v ≤ n := by
  obtain ⟨-, -, hceil, -⟩ := conversions_round hf h0
  have hlt : (f2uCeil v : Int) - 1 < n := lt_of_mul_lt_mul_right (hceil.trans_le h) (by positivity)
  omega

/-- A valid maximum delay is at most two seconds (rule R323, V4). -/
theorem delaySeconds_range {md : F32} (h0 : flt Config.zero md = true) (h1 : fle md Config.maxDelayMsLimit = true) :
    isFinite (fdiv md Config.thousand) = true ∧ 0 ≤ fvalue (fdiv md Config.thousand) ∧
      fvalue (fdiv md Config.thousand) ≤ 2 * 2 ^ 149 := by
  obtain ⟨n0, n1, hk⟩ := flt_iff.mp h0
  obtain ⟨hf, hlo, hhi⟩ := finite_of_fle (by decide) (by decide) (fle_iff.mpr ⟨n0, n1, hk.le⟩) h1
  have hz : fvalue Config.zero = 0 := by decide
  have htwo : fvalue Config.two = 2 * 2 ^ 149 := by decide +kernel
  have hlimit : fvalue Config.maxDelayMsLimit = 2000 * 2 ^ 149 := by decide +kernel
  have hden : fmag Config.thousand = 1000 * 2 ^ 149 := by decide +kernel
  have hround := fdiv_rounds hf (b := Config.thousand) (by decide) (by decide) (by rw [hden]; positivity)
  rw [hden] at hround
  have hbetween := hround.between (lo := Config.zero) (hi := Config.two) (by positivity) (by decide) (by decide)
    (by rw [hz, zero_mul]; exact mul_nonneg (by omega) (by positivity))
    (by rw [htwo]; push_cast; omega)
  rwa [hz, htwo] at hbetween

/-- With V1 and V4 the delay fits into the delay RAM: V7 cannot fail (rules R141, R323). -/
theorem rbLength_le {md fs : F32} (h0 : flt Config.zero md = true) (h1 : fle md Config.maxDelayMsLimit = true)
    (h2 : fle Config.srMin fs = true) (h3 : fle fs Config.srMax = true) : rbLength md fs ≤ Config.capMax := by
  obtain ⟨hd, hd0, hd2⟩ := delaySeconds_range h0 h1
  obtain ⟨hf, hlo, hhi⟩ := finite_of_fle (by decide) (by decide) h2 h3
  have hfs0 : 0 ≤ fvalue fs := le_trans (by decide) hlo
  have hz : fvalue Config.zero = 0 := by decide
  have hmax : fvalue Config.srMax = 192000 * 2 ^ 149 := by decide +kernel
  -- `0x48BB8000` is 384000.0
  have htop : fvalue 0x48BB8000#32 = 384000 * 2 ^ 149 := by decide +kernel
  obtain ⟨hp, hp0, hp1⟩ := (fmul_rounds hd hf).between (lo := Config.zero) (hi := 0x48BB8000#32) (by positivity)
    (by decide) (by decide) (by rw [hz, zero_mul]; exact mul_nonneg hd0 hfs0)
    (by rw [hmax] at hhi
        calc fvalue (fdiv md Config.thousand) * fvalue fs ≤ (2 * 2 ^ 149) * (192000 * 2 ^ 149) :=
              mul_le_mul hd2 hhi hfs0 (by positivity)
          _ = _ := by rw [htop]; rfl)
  have hle : fle Config.zero (fmul (fdiv md Config.thousand) fs) = true :=
    (fle_iff_value (by decide) (isNaN_eq_false_of_isFinite hp)).mpr hp0
  exact f2uCeil_le hp hle (by rw [htop] at hp1; exact hp1)

/-- The capacity of a valid staging (rules R141, R323 V7). -/
theorem rbLength_of_valid {cfg : Vector Word32 6} (h1 : ValidRate cfg) (h2 : ValidSetup cfg) :
    rbLength (cfgMaxDelayMs cfg) (cfgSampleRate cfg) ≤ Config.capMax := by
  obtain ⟨-, hmin, hmax⟩ := h1
  obtain ⟨-, hpos, hlimit⟩ := h2.delay
  exact rbLength_le hpos hlimit hmin hmax

/-- Every check of PREPARE holds of a valid staging (rule R323). -/
theorem prepareFailures_of_valid {cfg : Vector Word32 6} (h1 : ValidRate cfg) (h2 : ValidSetup cfg) :
    prepareFailures cfg = [] := by
  have hrate : validRate cfg = true := by
    obtain ⟨hf, hmin, hmax⟩ := h1
    simp [validRate, cfgSampleRate, hf, hmin, hmax]
  have hblock : validBlock cfg = true := by
    obtain ⟨hb, hb'⟩ := h2.block
    simp [validBlock, cfgMaxBlock, Config.maxBlockLimit, hb, hb']
  have hchannels : validChannels cfg = true := by
    obtain ⟨hc, hc'⟩ := h2.channels
    simp [validChannels, cfgNumCh, Config.nchMax, hc, hc']
  have hdelay : validMaxDelay cfg = true := by
    obtain ⟨hf, hpos, hlimit⟩ := h2.delay
    simp [validMaxDelay, cfgMaxDelayMs, hf, hpos, hlimit]
  have hramp : validRampTime cfg = true := by
    obtain ⟨hf, hpos, hlimit⟩ := h2.ramp
    simp [validRampTime, cfgRampTime, Config.rampTimeLimit, hf, hpos, hlimit]
  have hmode : validRampMode cfg = true := decide_eq_true h2.mode
  have hcap : validCapacity cfg = true := by
    simp [validCapacity, rbLength_of_valid h1 h2]
  simp [prepareFailures, validConfig, hrate, hblock, hchannels, hdelay, hramp, hmode, hcap]

theorem execPrepare_of_valid {s : State} (h1 : ValidRate s.cfg) (h2 : ValidSetup s.cfg) :
    exec .prepare s = .next (prepared s) := by
  show execPrepare s = _
  unfold execPrepare
  rw [prepareFailures_of_valid h1 h2]

/-! ### What is latched -/

/-- A staged word that fits into `k` bits is latched whole (rule R324). -/
theorem extractLsb'_toNat_of_lt {k : Nat} {w : Word32} (h : w.toNat < 2 ^ k) : (w.extractLsb' 0 k).toNat = w.toNat := by
  rw [BitVec.extractLsb'_toNat, Nat.shiftRight_zero, Nat.mod_eq_of_lt h]

/-- The counts and the mode of the active configuration (rules R27, R324). -/
theorem activeOf_counts {cfg : Vector Word32 6} (h : ValidSetup cfg) :
    (activeOf cfg).maxBlk.toNat = cfg[1].toNat ∧ (activeOf cfg).nch.toNat = cfg[2].toNat ∧
      (activeOf cfg).rmode.toNat = cfg[5].toNat := by
  obtain ⟨-, hblock⟩ := h.block
  obtain ⟨-, hchannels⟩ := h.channels
  exact ⟨extractLsb'_toNat_of_lt (Nat.lt_succ_of_le hblock),
    extractLsb'_toNat_of_lt (hchannels.trans_lt (by decide)), extractLsb'_toNat_of_lt (Nat.lt_succ_of_le h.mode)⟩

/-- The capacity of the active configuration (rule R141). -/
theorem activeOf_cap {cfg : Vector Word32 6} (h1 : ValidRate cfg) (h2 : ValidSetup cfg) :
    (activeOf cfg).cap.toNat = max 1 (rbLength (cfgMaxDelayMs cfg) (cfgSampleRate cfg)) ∧
      (activeOf cfg).cap.toNat ≤ 384000 := by
  have hle : rbLength (cfgMaxDelayMs cfg) (cfgSampleRate cfg) ≤ 384000 := rbLength_of_valid h1 h2
  have hcap : (activeOf cfg).cap.toNat = max 1 (rbLength (cfgMaxDelayMs cfg) (cfgSampleRate cfg)) :=
    (BitVec.toNat_ofNat _ _).trans (Nat.mod_eq_of_lt (by omega))
  exact ⟨hcap, by omega⟩

/-- The ramp length of the active configuration (rule R121). -/
theorem activeOf_rampSamples {cfg : Vector Word32 6} (h1 : ValidRate cfg) (h2 : ValidSetup cfg) :
    (activeOf cfg).rampSamples.toNat = rampLength (cfgRampTime cfg) (cfgSampleRate cfg) := by
  obtain ⟨-, hmin, hmax⟩ := h1
  obtain ⟨-, hpos, hlimit⟩ := h2.ramp
  have hle : rampLength (cfgRampTime cfg) (cfgSampleRate cfg) ≤ 192000 := rampLength_le hpos hlimit hmin hmax
  exact (BitVec.toNat_ofNat _ _).trans (Nat.mod_eq_of_lt (by omega))

/-- The coefficient of the exponential ramp is that of the latched ramp length (rule R126). -/
theorem activeOf_expAlpha {cfg : Vector Word32 6} (h1 : ValidRate cfg) (h2 : ValidSetup cfg) :
    (activeOf cfg).expAlpha = expCoefficient (activeOf cfg).rampSamples.toNat := by
  rw [activeOf_rampSamples h1 h2]
  rfl

/-! ### What is cleared -/

/-- `RB_clear` makes the addressed words `+0.0` and leaves the others (rule R148). -/
theorem rbClear_lookup (s : State) (a : Nat) :
    memLookup (rbClear s).dram a = if a < rbWords s then dramDefault else memLookup s.dram a :=
  memLookup_memClearBelow _ _ _

/-- The units are cleared channel by channel, and every band is dirty (rule R324): what `clearUnits` writes does not depend
on the state. -/
theorem clearUnits_cleared (s : State) :
    (∀ c : Fin 2, (clearUnits s).dc[c] = ⟨0x00000000#32, 0x00000000#32⟩ ∧ (clearUnits s).ph[c] = 0x00000000#32 ∧
      ∀ b : Fin 4, (clearUnits s).bq[b][c] = ⟨0x00000000#32, 0x00000000#32⟩) ∧
    ∀ b : Fin 4, (clearUnits s).dirty[b] = true := by
  have hdc : (clearUnits s).dc = (clearUnits State.reset).dc := rfl
  have hph : (clearUnits s).ph = (clearUnits State.reset).ph := rfl
  have hbq : (clearUnits s).bq = (clearUnits State.reset).bq := rfl
  have hdirty : (clearUnits s).dirty = (clearUnits State.reset).dirty := rfl
  rw [hdc, hph, hbq, hdirty]
  decide

/-- Clearing the ring, the ramps and the units changes what they hold, and nothing else (rules R324, R326). -/
theorem cleared_frame (s : State) : ∃ sp wc dram dc ph bq dirty, clearUnits (spSnap (rbClear s)) =
    { s with sp := sp, wc := wc, dram := dram, dc := dc, ph := ph, bq := bq, dirty := dirty } := by
  rw [spSnap_eq, rbClear_eq]
  generalize (spSnap _).sp = sp
  generalize memClearBelow _ _ = dram
  exact ⟨sp, _, dram, _, _, _, _, rfl⟩

/-- What a successful PREPARE leaves as it was (rule R324). -/
theorem prepared_frame (s : State) : prepared s = { s with
    sp := (prepared s).sp, act := (prepared s).act, status := { s.status with prepared := true }, wc := (prepared s).wc,
    dram := (prepared s).dram, dc := (prepared s).dc, ph := (prepared s).ph, dirty := (prepared s).dirty,
    bq := (prepared s).bq } := by
  obtain ⟨_, _, _, _, _, _, _, h⟩ := cleared_frame (s.setAct (activeOf s.cfg))
  unfold prepared
  rw [h]
  rfl

/-- Settles O29: the checks hold, and what is latched and cleared is as stated. -/
theorem prepareSucceeds : Obligations.PrepareSucceeds := by
  unfold Obligations.PrepareSucceeds
  intro s h1 h2
  obtain ⟨hblk, hnch, hmode⟩ := activeOf_counts h2
  obtain ⟨hcap, hcapLe⟩ := activeOf_cap h1 h2
  have halpha := activeOf_expAlpha h1 h2
  obtain ⟨hunits, hdirty⟩ := clearUnits_cleared (spSnap (rbClear (s.setAct (activeOf s.cfg))))
  refine ⟨prepared s, execPrepare_of_valid h1 h2, prepared_frame s, rfl, hblk, hnch, hmode, hcap, hcapLe,
    activeOf_rampSamples h1 h2, (activeOf_ok h1 h2).ramp, fun h => halpha.trans (if_pos h),
    fun h => halpha.trans (if_neg h), rfl, fun i => ?_, fun a ha => ?_, fun a ha => ?_, fun c => ?_, hdirty⟩
  · exact spSnap_sp (rbClear (s.setAct (activeOf s.cfg))) i
  · exact (rbClear_lookup (s.setAct (activeOf s.cfg)) a).trans (if_pos ha)
  · exact (rbClear_lookup (s.setAct (activeOf s.cfg)) a).trans (if_neg (not_lt.mpr ha))
  · exact ⟨rbClear_cursor (s.setAct (activeOf s.cfg)) c, hunits c⟩

end Sys2Proof.Machine
end

section
/-! PROOFS. The ring buffer: its cursor, its commands, and the history that it holds (rules R142 to R152, R326). -/

namespace Sys2Proof.Machine

/-! ### The cursor -/

/-- The comparison of rule R144 is the modulo. -/
theorem rbAdvance_cursor_mod {c : Fin 2} {s : State} (h : s.wc[c].toNat < s.act.cap.toNat) :
    (rbAdvance c s).wc[c].toNat = (s.wc[c].toNat + 1) % s.act.cap.toNat := by
  rw [rbAdvance_cursor h]
  split_ifs with hend
  · rw [hend, Nat.mod_self]
  · rw [Nat.mod_eq_of_lt (by omega)]

/-- Settles O39: the cursor is advanced by the modulo, and `rbAdvance` writes nothing but a cursor. -/
theorem cursorAdvancesModuloCapacity : Obligations.CursorAdvancesModuloCapacity := by
  unfold Obligations.CursorAdvancesModuloCapacity
  intro c s h
  have hadv := rbAdvance_cursor_mod h
  refine ⟨hadv, hadv ▸ Nat.mod_lt _ (by omega), fun d hd => rbAdvance_other hd, ?_⟩
  obtain ⟨w, hw⟩ := rbAdvance_eq c s
  rw [hw]
  rfl

/-! ### One write and one read -/

/-- A write moves the cursor of its channel by one modulo the capacity, and changes neither the configuration nor the other
cursor (rules R143, R144). -/
theorem RingOk.rbWrite_moves {c : Fin 2} {v : F32} {s t : State} (h : RingOk s) (hw : rbWrite c v s = .ok t) :
    t.act = s.act ∧ t.wc[c].toNat = (s.wc[c].toNat + 1) % s.act.cap.toNat ∧ ∀ d : Fin 2, d ≠ c → t.wc[d] = s.wc[d] := by
  have hact : t.act = s.act := by
    obtain ⟨m, w, rfl⟩ := rbWrite_state hw
    rfl
  obtain ⟨-, rfl⟩ := rbWrite_ok hw
  exact ⟨hact, rbAdvance_cursor_mod ((h.setDram _).cursor c), fun d hd => rbAdvance_other hd⟩

/-- A write puts its value at the write address of its channel and leaves every other word (rules R142, R143). -/
theorem rbWrite_lookup {c : Fin 2} {v : F32} {s t : State} (hm : Memory.wf s.dram = true) (hw : rbWrite c v s = .ok t) :
    memLookup t.dram (rbWaddr c s) = v ∧ ∀ a, a ≠ rbWaddr c s → memLookup t.dram a = memLookup s.dram a := by
  obtain ⟨hdram, -⟩ := rbWrite_stores hw
  rw [hdram]
  exact ⟨memLookup_memStore_self hm _ _, fun a ha => memLookup_memStore_of_ne _ _ ha⟩

/-- A read of a channel in use gives the word of the ring at the clamped offset (rules R145 to R147). -/
theorem RingOk.rbRead_eq_ringWord {s : State} (h : RingOk s) {c : Fin 2} (hc : c.val < s.act.nch.toNat) (k : Nat) :
    rbRead c k s = .ok (ringWord s c (rbClamp k s)) := by
  have hk : rbClamp k s < s.act.cap.toNat := by
    have := h.cap_pos
    unfold rbClamp
    omega
  rw [rbRead_of_ringOk h hc]
  unfold rbRaddr ringWord
  rw [rbIndex_eq_mod (h.cursor c) hk]

/-! ### The commands -/

/-- The number of a channel in use selects that channel (rule R149). -/
theorem channelOperand_of_val {s : State} {ch : BitVec 8} {c : Fin 2} (hch : ch.toNat = c.val)
    (hc : c.val < s.act.nch.toNat) : channelOperand s ch = some c := by
  unfold channelOperand
  rw [if_pos (hch ▸ hc), dif_pos (hch ▸ c.isLt)]
  exact congrArg some (Fin.ext hch)

/-- A number from the channel count on selects no channel (rule R149). -/
theorem channelOperand_of_le {s : State} {ch : BitVec 8} (h : s.act.nch.toNat ≤ ch.toNat) : channelOperand s ch = none :=
  if_neg (not_lt.mpr h)

theorem execRbwr_of_channel {s : State} {ch : BitVec 8} {c : Fin 2} (v : F32) (hp : s.status.prepared = true)
    (hc : channelOperand s ch = some c) : execRbwr ch v s = orFault (rbWrite c v s) := by
  simp [execRbwr, hp, hc]

theorem execRbwr_of_no_channel {s : State} {ch : BitVec 8} (v : F32) (hp : s.status.prepared = true)
    (hc : channelOperand s ch = none) : execRbwr ch v s = .next s := by
  simp [execRbwr, hp, hc]

/-- Settles O34: RBWR of a channel in use is one write, and any other channel number is ignored. -/
theorem rbwrWrites : Obligations.RbwrWrites := by
  unfold Obligations.RbwrWrites
  intro ch v s hp h hm
  refine ⟨fun c hch hc => ?_, fun hle => execRbwr_of_no_channel v hp (channelOperand_of_le hle)⟩
  obtain ⟨t, hw⟩ : ∃ t, rbWrite c v s = .ok t := ⟨_, rbWrite_of_ringOk h hc v⟩
  obtain ⟨-, hcursor, hother⟩ := h.rbWrite_moves hw
  obtain ⟨hstored, hkept⟩ := rbWrite_lookup hm hw
  have hexec : exec (.rbwr ch v) s = .next t := by
    show execRbwr ch v s = _
    rw [execRbwr_of_channel v hp (channelOperand_of_val hch hc), hw]
    rfl
  have hframe : t = { s with dram := t.dram, wc := t.wc } := by
    obtain ⟨m, w, rfl⟩ := rbWrite_state hw
    rfl
  exact ⟨t, hexec, hframe, rfl, hstored, hkept, hcursor, hother⟩

/-- `respond` is the answer on the response queue of the issuing queue (rules R10, R91). -/
theorem respond_answers (s : State) (w : Word32) : Answers s w (s.respond w) := by
  refine ⟨fun hq => ?_, fun hq => ?_⟩
  · show _ = s.setIo { s.io with rspC := s.io.rspC ++ [w] }
    rw [respond_eq, hq]
  · show _ = s.setIo { s.io with rspA := s.io.rspA ++ [w] }
    rw [respond_eq, hq]

theorem execRbrd_of_no_channel {s : State} {ch : BitVec 8} (k : Word32) (hp : s.status.prepared = true)
    (hc : channelOperand s ch = none) : execRbrd ch k s = .next (s.respond 0x00000000#32) := by
  simp [execRbrd, hp, hc]

/-- RBRD of a channel in use: an offset beyond the end raises `E_RBOFF`, and then the word at the clamped offset is answered
(rules R147, R150). -/
theorem RingOk.execRbrd_of_channel {s : State} (h : RingOk s) {ch : BitVec 8} {c : Fin 2} (k : Word32)
    (hp : s.status.prepared = true) (hc : channelOperand s ch = some c) :
    execRbrd ch k s = .next ((if s.act.cap.toNat ≤ k.toNat then s.raise .rbOff else s).respond
      (ringWord s c (rbClamp k.toNat s))) := by
  have hread := h.rbRead_eq_ringWord (channelOperand_lt hc) k.toNat
  have hraised : rbRead c k.toNat (s.raise .rbOff) = rbRead c k.toNat s := rfl
  unfold execRbrd
  simp only [hp, Bool.not_true, Bool.false_eq_true, if_false, hc]
  split_ifs
  · rw [hraised, hread]
  · rw [hread]

/-- Settles O35: the read is that of the clamped offset, which is the offset itself or the last of the ring. -/
theorem rbrdReads : Obligations.RbrdReads := by
  unfold Obligations.RbrdReads
  intro ch k s hp h
  refine ⟨fun c hch hc => ⟨_, h.execRbrd_of_channel k hp (channelOperand_of_val hch hc), fun hk => ?_, fun hk => ?_⟩,
    fun hle => ⟨_, execRbrd_of_no_channel k hp (channelOperand_of_le hle), respond_answers _ _⟩⟩
  · rw [if_neg (not_le.mpr hk), rbClamp_of_lt hk]
    exact respond_answers _ _
  · have hclamp : rbClamp k.toNat s = s.act.cap.toNat - 1 := Nat.min_eq_right (by omega)
    rw [if_pos hk, hclamp]
    exact respond_answers (s.raise .rbOff) _

/-- Settles O36: RBCLR of a prepared core is `RB_clear`. -/
theorem rbclrClears : Obligations.RbclrClears := by
  unfold Obligations.RbclrClears
  intro s hp
  have hexec : exec .rbclr s = .next (rbClear s) := by
    show execRbclr s = _
    simp [execRbclr, hp]
  exact ⟨rbClear s, hexec, rfl, rbClear_cursor s, fun a ha => (rbClear_lookup s a).trans (if_pos ha),
    fun a ha => (rbClear_lookup s a).trans (if_neg (not_lt.mpr ha))⟩

/-- Settles O31: RESET of a prepared core clears the ring, the ramps and the units. -/
theorem resetCommand : Obligations.ResetCommand := by
  unfold Obligations.ResetCommand
  intro s hp
  have hexec : exec .reset s = .next (clearUnits (spSnap (rbClear s))) := by
    show execReset s = _
    simp [execReset, hp]
  obtain ⟨hunits, hdirty⟩ := clearUnits_cleared (spSnap (rbClear s))
  refine ⟨_, hexec, ?_, fun i => spSnap_sp (rbClear s) i, fun a ha => (rbClear_lookup s a).trans (if_pos ha),
    fun a ha => (rbClear_lookup s a).trans (if_neg (not_lt.mpr ha)),
    fun c => ⟨rbClear_cursor s c, hunits c⟩, hdirty⟩
  obtain ⟨_, _, _, _, _, _, _, hframe⟩ := cleared_frame s
  rw [hframe]

/-! ### The history of a channel (rule R152) -/

/-- Channel `c` holds the history `past`, the latest value first: the offsets `1 .. CAP` read the `CAP` latest values, and
`+0.0` where the history ends. The offset `CAP` is the slot of offset 0. -/
def RingHolds (s : State) (c : Fin 2) (past : List F32) : Prop :=
  ∀ j < s.act.cap.toNat, ringWord s c (j + 1) = past.getD j 0x00000000#32

/-- The slots of offset 0 and of offset `CAP` are one: the one that the next write fills. -/
theorem ringWord_zero (s : State) (c : Fin 2) : ringWord s c 0 = ringWord s c s.act.cap.toNat := by
  unfold ringWord
  rw [Nat.sub_zero, Nat.add_mod_right, Nat.add_sub_cancel]

/-- After a clear every slot of a channel in use is `+0.0`: it lies among the addressed words (rules R66, R148). -/
theorem RingOk.ringWord_rbClear {s : State} (h : RingOk s) {c : Fin 2} (hc : c.val < s.act.nch.toNat) (k : Nat) :
    ringWord (rbClear s) c k = 0x00000000#32 := by
  have hlt := (h.region_lt hc (Nat.mod_lt ((rbClear s).wc[c].toNat + s.act.cap.toNat - k) h.cap_pos)).1
  exact (rbClear_lookup s _).trans (if_pos hlt)

/-- A cleared ring holds the empty history (rule R148). -/
theorem RingOk.ringHolds_rbClear {s : State} (h : RingOk s) {c : Fin 2} (hc : c.val < s.act.nch.toNat) :
    RingHolds (rbClear s) c [] := fun j _ => h.ringWord_rbClear hc (j + 1)

/-- One place further back from the advanced cursor is the same slot. -/
theorem advanced_sub_mod {w n j : Nat} (hw : w < n) (hj : j < n) :
    ((w + 1) % n + n - (j + 1)) % n = (w + n - j) % n := by
  by_cases hend : w + 1 = n
  · rw [hend, Nat.mod_self, show w + n - j = (0 + n - (j + 1)) + n by omega, Nat.add_mod_right]
  · rw [Nat.mod_eq_of_lt (by omega : w + 1 < n), show w + 1 + n - (j + 1) = w + n - j by omega]

/-- Offsets below the capacity other than 0 do not address the slot of the next write. -/
theorem sub_mod_ne {w n j : Nat} (hw : w < n) (h0 : 0 < j) (hj : j < n) : (w + n - j) % n ≠ w := by
  by_cases h : j ≤ w
  · rw [show w + n - j = w - j + n by omega, Nat.add_mod_right, Nat.mod_eq_of_lt (by omega)]
    omega
  · rw [Nat.mod_eq_of_lt (by omega)]
    omega

/-- A write to a channel becomes the latest value of its history, and the others are one write older. -/
theorem RingOk.ringHolds_rbWrite_self {c : Fin 2} {v : F32} {s t : State} {past : List F32} (h : RingOk s)
    (hm : Memory.wf s.dram = true) (hp : RingHolds s c past) (hw : rbWrite c v s = .ok t) : RingHolds t c (v :: past) := by
  obtain ⟨hact, hcursor, -⟩ := h.rbWrite_moves hw
  obtain ⟨hstored, hkept⟩ := rbWrite_lookup hm hw
  have hwc := h.cursor c
  intro j hj
  rw [hact] at hj
  unfold ringWord
  rw [hact, hcursor, advanced_sub_mod hwc hj]
  cases j with
  | zero =>
    rw [Nat.sub_zero, Nat.add_mod_right, Nat.mod_eq_of_lt hwc]
    exact hstored
  | succ j =>
    rw [hkept _ fun e => sub_mod_ne hwc j.succ_pos hj (Nat.add_left_cancel e)]
    exact hp j (by omega)

/-- Slots of different channels lie in different regions (rule R152, item 5). -/
theorem slot_ne {c d : Fin 2} {n i j : Nat} (hne : d ≠ c) (hi : i < n) (hj : j < n) : d.val * n + i ≠ c.val * n + j := by
  have hregion (e : Fin 2) {k : Nat} (hk : k < n) : (e.val * n + k) / n = e.val := by
    rw [Nat.mul_comm, Nat.mul_add_div (by omega), Nat.div_eq_of_lt hk, Nat.add_zero]
  exact fun e => hne (Fin.ext (by rw [← hregion d hi, e, hregion c hj]))

/-- A write to one channel leaves the history of the other. -/
theorem RingOk.ringHolds_rbWrite_other {c d : Fin 2} {v : F32} {s t : State} {past : List F32} (h : RingOk s)
    (hm : Memory.wf s.dram = true) (hne : d ≠ c) (hp : RingHolds s d past) (hw : rbWrite c v s = .ok t) :
    RingHolds t d past := by
  obtain ⟨hact, -, hother⟩ := h.rbWrite_moves hw
  obtain ⟨-, hkept⟩ := rbWrite_lookup hm hw
  intro j hj
  rw [hact] at hj
  unfold ringWord
  rw [hact, hother d hne, hkept _ (slot_ne hne (Nat.mod_lt _ h.cap_pos) (h.cursor c))]
  exact hp j hj

/-- One write, and the history of every channel after it. -/
theorem RingOk.ringHolds_rbWrite {c : Fin 2} {v : F32} {s t : State} (h : RingOk s) (hm : Memory.wf s.dram = true)
    (hw : rbWrite c v s = .ok t) {d : Fin 2} {past : List F32} (hp : RingHolds s d past) :
    RingHolds t d ((writtenTo d [(c, v)]).reverse ++ past) := by
  by_cases hd : d = c
  · subst hd
    simpa [writtenTo] using h.ringHolds_rbWrite_self hm hp hw
  · simpa [writtenTo, Ne.symm hd] using h.ringHolds_rbWrite_other hm hd hp hw

theorem writtenTo_cons (d : Fin 2) (p : Fin 2 × F32) (ws : List (Fin 2 × F32)) :
    writtenTo d (p :: ws) = writtenTo d [p] ++ writtenTo d ws := by
  unfold writtenTo
  rw [← List.map_append, ← List.filter_append]
  rfl

/-- Writes to channels in use succeed, and each channel's history grows by the values written to it. -/
theorem RingOk.writeAll_ringHolds {s : State} {ws : List (Fin 2 × F32)} (h : RingOk s) (hm : Memory.wf s.dram = true)
    (hws : ∀ p ∈ ws, p.1.val < s.act.nch.toNat) :
    ∃ t, writeAll ws s = .ok t ∧ RingOk t ∧ t.act = s.act ∧
      ∀ d past, RingHolds s d past → RingHolds t d ((writtenTo d ws).reverse ++ past) := by
  induction ws generalizing s with
  | nil => exact ⟨s, rfl, h, rfl, fun d past hp => hp⟩
  | cons p rest ih =>
    obtain ⟨c, v⟩ := p
    have hc : c.val < s.act.nch.toNat := hws (c, v) (by simp)
    obtain ⟨u, hw⟩ : ∃ u, rbWrite c v s = .ok u := ⟨_, rbWrite_of_ringOk h hc v⟩
    obtain ⟨hact, -⟩ := h.rbWrite_moves hw
    obtain ⟨t, ht, hring, hact', hholds⟩ :=
      ih (h.write hc hw) (rbWrite_wf hw hm) fun q hq => hact ▸ hws q (by simp [hq])
    refine ⟨t, by rw [writeAll, hw]; exact ht, hring, hact'.trans hact, fun d past hp => ?_⟩
    rw [writtenTo_cons, List.reverse_append, List.append_assoc]
    exact hholds d _ (h.ringHolds_rbWrite hm hw hp)

/-- What the offsets of a channel with a history read (rule R152, items 2 and 3). -/
theorem RingOk.rbRead_of_ringHolds {s : State} (h : RingOk s) {c : Fin 2} (hc : c.val < s.act.nch.toNat)
    {past : List F32} (hp : RingHolds s c past) {k : Nat} (hk : k < s.act.cap.toNat) :
    rbRead c k s = .ok (past.getD ((if k = 0 then s.act.cap.toNat else k) - 1) 0x00000000#32) := by
  have hcap := h.cap_pos
  rw [h.rbRead_eq_ringWord hc, rbClamp_of_lt hk]
  split_ifs with h0
  · rw [h0, ringWord_zero, ← hp _ (by omega), Nat.sub_add_cancel hcap]
  · rw [← hp _ (by omega), Nat.sub_add_cancel (by omega)]

/-- A cleared ring is in order (rule R148). -/
theorem RingOk.cleared {s : State} (h : RingOk s) : RingOk (rbClear s) :=
  ringOk_of_zero_cursors ⟨h.nch_pos, h.nch_le⟩ ⟨h.cap_pos, h.cap_le⟩ (rbClear_cursor s)

/-- Settles O41: after the clear every channel in use holds the empty history, and the writes append to it. -/
theorem ringHoldsHistory : Obligations.RingHoldsHistory := by
  unfold Obligations.RingHoldsHistory
  intro s ws h hm hws
  obtain ⟨t, ht, hring, hact, hholds⟩ := h.cleared.writeAll_ringHolds (wf_memClearBelow hm (rbWords s)) hws
  refine ⟨t, ht, fun c hc k hk => ?_⟩
  have hpast := hholds c [] (h.ringHolds_rbClear hc)
  rw [List.append_nil] at hpast
  rw [← rbClear_act s, ← hact] at hc hk ⊢
  exact hring.rbRead_of_ringHolds hc hpast hk

end Sys2Proof.Machine
end

section
/-! PROOFS. The distortion stage: the DC blocker, the HardClip, the Saturation at zeros, NaN and `−∞`, and the stage as a whole
(rules R162 to R168, R172). -/

set_option Elab.async false

namespace Sys2Proof.Machine

/-! ### Sums and products with a zero (rule R11) -/

theorem fvalue_of_isZero {z : F32} (h : isZero z = true) : fvalue z = 0 := by
  rw [eq_zero_of_isZero h]
  cases fsign z <;> decide

theorem withSign_of_isZero {z : F32} (h : isZero z = true) : withSign (fsign z) 0 = z := by
  have hmag : fmagBits z = 0 := of_decide_eq_true h
  rw [← hmag, withSign_self]

/-- Adding a zero keeps a number bit for bit; `-0.0` alone can become `+0.0`. -/
theorem sumWith_zero_right (nan : F32) {a z : F32} (hn : isNaN a = false) (ha : a ≠ 0x80000000#32) (hz : isZero z = true) :
    sumWith nan a z = a := by
  have hzf := isFinite_of_isZero hz
  cases hi : isInf a
  case true =>
    exact sumWith_inf_left nan hi (isNaN_eq_false_of_isFinite hzf) fun h => by simp [isInf_eq_false_of_isFinite hzf] at h
  case false =>
    have haf : isFinite a = true := by
      simp only [isNaN, isInf, isFinite, decide_eq_false_iff_not, decide_eq_true_eq] at *; omega
    cases h0 : isZero a
    case true =>
      have hs : fsign a = false := by
        by_contra hs
        exact ha (by simpa [hs] using eq_zero_of_isZero h0)
      rw [sumWith_of_zero nan haf hzf (by rw [fvalue_of_isZero h0, fvalue_of_isZero hz]; rfl), hs, Bool.false_and, ← hs]
      exact withSign_of_isZero h0
    case false =>
      have hkey : orderKey (sumWith nan a z) = orderKey a := by
        rw [(sumWith_rounds nan haf hzf).key, fvalue_of_isZero hz]
        simpa using roundKey_fvalue haf one_pos
      have hmag := natAbs_orderKey a
      simp only [isZero, decide_eq_false_iff_not] at h0
      exact eq_of_orderKey_eq hkey (by omega)

/-- A product of finite values of which one is a zero is the zero of their signs. -/
theorem fmul_of_isZero {a b : F32} (ha : isFinite a = true) (hb : isFinite b = true)
    (h : isZero a = true ∨ isZero b = true) : fmul a b = withSign (fsign a != fsign b) 0 := by
  have hmag {v : F32} (hv : isZero v = true) : fmag v = 0 := by rw [← natAbs_fvalue, fvalue_of_isZero hv]; rfl
  have hprod : fmag a * fmag b = 0 := by
    rcases h with h | h <;> simp [hmag h]
  have hround : roundMag 0 (2 ^ 149) = 0 := by
    simpa [magUnits_zero] using roundMag_exact (m := 0) (by decide) (Nat.two_pow_pos 149)
  rw [fmul_of_finite ha hb, hprod, hround]

/-! ### The DC blocker (rule R162) -/

/-- The DC blocker keeps its input and its output in the registers of its channel, and writes nothing else. -/
theorem dcBlock_registers (c : Fin 2) (x : F32) (s : State) :
    (dcBlock c x s).2.dc[c] = ⟨x, (dcBlock c x s).1⟩ ∧ (∀ d : Fin 2, d ≠ c → (dcBlock c x s).2.dc[d] = s.dc[d]) ∧
      (dcBlock c x s).2 = { s with dc := (dcBlock c x s).2.dc } := by
  have hget (d : Fin 2) : (dcBlock c x s).2.dc[d] = if d = c then ⟨x, (dcBlock c x s).1⟩ else s.dc[d] :=
    Vector.get_set_two _ _ _ _
  exact ⟨by rw [hget, if_pos rfl], fun d hd => by rw [hget, if_neg hd], rfl⟩

/-- From cleared registers the DC blocker answers its input: both of its terms from the past are zeros. -/
theorem dcBlock_of_cleared {c : Fin 2} {x : F32} {s : State} (hdc : s.dc[c] = ⟨0x00000000#32, 0x00000000#32⟩)
    (hr : isFinite s.act.dcbR = true) (hn : isNaN x = false) (hx : x ≠ 0x80000000#32) : (dcBlock c x s).1 = x := by
  have hdiff : fsub x 0x00000000#32 = x := sumWith_zero_right _ hn hx (by decide)
  have hpole : isZero (fmul s.act.dcbR 0x00000000#32) = true := by
    rw [fmul_of_isZero hr (by decide) (.inr (by decide))]
    exact isZero_withSign _
  unfold dcBlock
  rw [hdc]
  dsimp only
  rw [hdiff]
  exact sumWith_zero_right _ hn hx hpole

/-- Settles O49: the input passes, and the registers of the channel take it as input and as output. -/
theorem dcBlockerFirstOutput : Obligations.DcBlockerFirstOutput := by
  unfold Obligations.DcBlockerFirstOutput
  intro c x s hdc hr hn hx
  have hy := dcBlock_of_cleared hdc hr hn hx
  obtain ⟨hself, hother, hframe⟩ := dcBlock_registers c x s
  exact ⟨hy, by rw [hself, hy], hother, hframe⟩

/-! ### HardClip (rules R164, R172) -/

/-- Settles O51: the three laws of `fclamp` at the bounds `-CLIP_LEVEL` and `CLIP_LEVEL`. -/
theorem hardClipBound : Obligations.HardClipBound := by
  unfold Obligations.HardClipBound shape0
  intro g x
  have hlevel : fle (fneg Config.clipLevel) Config.clipLevel = true := by decide
  refine ⟨fun hn => ?_, fun hn => ?_⟩
  · obtain ⟨hlo, hhi⟩ := fclamp_in_range hn hlevel
    exact ⟨hlo, hhi, fclamp_of_inside⟩
  · rw [fclamp_of_isNaN _ _ hn]
    exact hn

/-! ### Saturation (rule R166) -/

/-- A number between zero and a bound has the bound's magnitude at most, and so its absolute value is below the bound. -/
theorem fle_fabs_of_nonneg {v b : F32} (h0 : fle Config.zero v = true) (hb : fle v b = true) (hs : fsign b = false) :
    fle (fabs v) b = true := by
  obtain ⟨-, hn, hk0⟩ := fle_iff.mp h0
  obtain ⟨-, hnb, hkb⟩ := fle_iff.mp hb
  have hmag := natAbs_orderKey v
  have hmagb := natAbs_orderKey b
  rw [show orderKey Config.zero = 0 by decide] at hk0
  exact (fle_fabs_iff hs).mpr ⟨hn, hnb, by omega⟩

theorem fsign_of_flt_zero {v : F32} (h : flt Config.zero v = true) : fsign v = false := by
  obtain ⟨-, -, hk⟩ := flt_iff.mp h
  rw [show orderKey Config.zero = 0 by decide] at hk
  by_contra hs
  rw [orderKey, if_pos (by simpa using hs)] at hk
  omega

/-- The drive of the Saturation in dB: over the range of `DRIVE` it stays between 0 and 12 (rules R22, R166). -/
theorem satDrive_range {drv : F32} (h0 : fle Config.zero drv = true) (h1 : fle drv (paramRange 2).hi = true) :
    isFinite (fadd Config.satLoDb (fmul drv Config.satScale)) = true ∧
      fle (fabs (fadd Config.satLoDb (fmul drv Config.satScale))) 0x42B00000#32 = true := by
  obtain ⟨hf, hlo, hhi⟩ := finite_of_fle (by decide) (by decide) h0 h1
  have hz : fvalue Config.zero = 0 := by decide
  have hhalf : fvalue Config.satScale = 2 ^ 148 := by decide +kernel
  have hprod : fvalue (paramRange 2).hi * 2 ^ 148 = fvalue 0x41400000#32 * (2 ^ 149 : Nat) := by decide +kernel
  rw [hz] at hlo
  obtain ⟨hmf, hmlo, hmhi⟩ := (fmul_rounds hf (show isFinite Config.satScale = true by decide)).between
    (lo := Config.zero) (hi := 0x41400000#32) (by positivity) (by decide) (by decide)
    (by rw [hz, hhalf]; omega) (by rw [hhalf]; omega)
  obtain ⟨haf, halo, hahi⟩ := (fadd_rounds (show isFinite Config.satLoDb = true by decide) hmf).between
    (lo := Config.zero) (hi := 0x41400000#32) one_pos (by decide) (by decide)
    (by rw [show fvalue Config.satLoDb = 0 by decide]; omega) (by rw [show fvalue Config.satLoDb = 0 by decide]; omega)
  have hn := isNaN_eq_false_of_isFinite haf
  have h88 : fvalue 0x41400000#32 ≤ fvalue 0x42B00000#32 := by decide +kernel
  exact ⟨haf, fle_fabs_of_nonneg ((fle_iff_value (by decide) hn).mpr halo)
    ((fle_iff_value hn (by decide)).mpr (hahi.trans h88)) (by decide)⟩

/-- Over the range of `DRIVE` the gain of the Saturation is finite and positive (`P_RANGE` of rule R12). -/
theorem satGain_positive {drv : F32} (h0 : fle Config.zero drv = true) (h1 : fle drv (paramRange 2).hi = true) :
    isFinite (Config.num.fns.db2lin (fadd Config.satLoDb (fmul drv Config.satScale))) = true ∧
      fsign (Config.num.fns.db2lin (fadd Config.satLoDb (fmul drv Config.satScale))) = false := by
  obtain ⟨hf, habs⟩ := satDrive_range h0 h1
  obtain ⟨hgf, hg0⟩ := Config.num.props.range_exp.2.1 _ hf habs
  exact ⟨hgf, fsign_of_flt_zero hg0⟩

/-- A zero passes the Saturation with its sign: both zeros take the branch of `tanh`, which keeps them (`P_EXACT0`). -/
theorem shape2_of_isZero {drv xd : F32} (hz : isZero xd = true) (h0 : fle Config.zero drv = true)
    (h1 : fle drv (paramRange 2).hi = true) : shape2 drv xd = xd := by
  obtain ⟨hgf, hgs⟩ := satGain_positive h0 h1
  have hxf := isFinite_of_isZero hz
  have hge : fge xd Config.zero = true :=
    (fle_iff_value (by decide) (isNaN_eq_false_of_isFinite hxf)).mpr (by rw [fvalue_of_isZero hz]; decide)
  unfold shape2
  dsimp only
  rw [if_pos hge, fmul_of_isZero hxf hgf (.inl hz), hgs, Bool.bne_false, withSign_of_isZero hz]
  exact (Config.num.props.exact0_odd xd hz).2.2.1

/-- A NaN gives a NaN in the Saturation: it takes the branch of `sinh`, where every operation passes it (`P_NAN`). -/
theorem isNaN_shape2 {drv xd : F32} (hn : isNaN xd = true) : isNaN (shape2 drv xd) = true := by
  have hge : ¬ fge xd Config.zero = true := by simp [fge, fle, hn]
  unfold shape2
  dsimp only
  rw [if_neg hge]
  obtain ⟨-, -, -, -, hsinh, -⟩ := Config.num.props.nan _ (isNaN_fmul (.inl hn))
  obtain ⟨-, -, -, htanh, -⟩ := Config.num.props.nan _ hsinh
  exact isNaN_fsub (.inl htanh)

/-! ### The stage (rule R168) -/

/-- `DTYPE` selects the transfer function (rules R163 to R167). -/
theorem shape_eq (dtype : BitVec 2) (drv xd : F32) :
    shape dtype drv xd =
      if dtype = 0#2 then shape0 (Config.num.fns.db2lin drv) xd
      else if dtype = 1#2 then shape1 (Config.num.fns.db2lin drv) xd
      else if dtype = 2#2 then shape2 drv xd
      else xd := by
  have hcases : dtype = 0#2 ∨ dtype = 1#2 ∨ dtype = 2#2 ∨ dtype = 3#2 := by revert dtype; decide
  rcases hcases with rfl | rfl | rfl | rfl <;> rfl

/-- The output of the stage mixes the shaped and the blocked sample, and trims the sum. -/
theorem dist_fst (c : Fin 2) (x : F32) (s : State) :
    (dist c x s).1 = distOutputOf (s.cur distMix) (Config.num.fns.db2lin (s.cur distOut))
      (shape s.cells.dtype (s.cur drive) (dcBlock c x s).1) (dcBlock c x s).1 := rfl

/-- The stage leaves the state that its DC blocker leaves. -/
theorem dist_snd (c : Fin 2) (x : F32) (s : State) : (dist c x s).2 = (dcBlock c x s).2 := rfl

/-- Settles O50: the output by the choice of `DTYPE`, the registers from the DC blocker, the corners from the Saturation. -/
theorem distortionStage : Obligations.DistortionStage := by
  unfold Obligations.DistortionStage
  intro c x s drv m xd driven u saturated wet
  obtain ⟨hself, hother, hframe⟩ := dcBlock_registers c x s
  have hwet : shape s.cells.dtype (s.cur drive) (dcBlock c x s).1 = wet := shape_eq _ _ _
  have hsat : shape2 drv xd = saturated := rfl
  refine ⟨?_, ?_, ?_, ?_, fun hz h0 h1 => ?_, fun hn => ?_, fun hinf => ?_⟩
  · rw [dist_fst, hwet]
    rfl
  · rw [dist_snd]
    exact hframe
  · rw [dist_snd]
    exact hself
  · rw [dist_snd]
    exact hother
  · rw [← hsat]
    exact shape2_of_isZero hz h0 h1
  · rw [← hsat]
    exact isNaN_shape2 hn
  · rw [hinf]
    exact Config.num.props.inf_tanh.2

end Sys2Proof.Machine
end

section
/-! PROOFS. The read offset of a delay time (rules R183, R192). -/

namespace Sys2Proof.Machine

/-- A NaN delay time reads at offset 0: the product, the quotient and the clamp pass the NaN, and it converts to 0. -/
theorem delayOffset_of_isNaN {ms : F32} (fs : F32) (cap : Nat) (h : isNaN ms = true) : delayOffset ms fs cap = 0 := by
  have hsamples : isNaN (fdiv (fmul ms fs) Config.thousand) = true := isNaN_fdiv (.inl (isNaN_fmul (.inl h)))
  unfold delayOffset
  rw [fclamp_of_isNaN _ _ hsamples, f2uRound_of_isNaN hsamples]

/-- Settles O53: the clamp keeps the offset below the capacity, and a NaN time passes every operation up to the
conversion. -/
theorem delayOffsetInRing : Obligations.DelayOffsetInRing := by
  unfold Obligations.DelayOffsetInRing
  intro ms fs cap h1 h2
  exact ⟨Nat.le_sub_one_of_lt (delayOffset_lt ms fs h1 h2), delayOffset_of_isNaN fs cap⟩

end Sys2Proof.Machine
end

section
/-! PROOFS. The panner: the extremes of the pan law, the range of the effective pan, and the forms of the stage
(rules R203 to R209). -/

namespace Sys2Proof.Machine

/-! ### The pan law (rule R206) -/

/-- At the left end the angle is an exact zero, so `P_EXACT0` gives both gains. -/
theorem panGains_minusOne : panGains Config.minusOne = (Config.one, Config.zero) := by
  have hangle : panAngle Config.minusOne = Config.zero := by decide +kernel
  have hzero : isZero Config.zero = true := by decide
  unfold panGains
  rw [hangle, (Config.num.props.exact0_one _ hzero).1, (Config.num.props.exact0_odd _ hzero).1]

/-! ### The effective pan (rules R203, R205) -/

/-- The sine of a finite angle is finite and of magnitude at most one (`P_RANGE` of rule R12). -/
theorem sin_range {x : F32} (h : isFinite x = true) :
    isFinite (Config.num.fns.sin x) = true ∧ |fvalue (Config.num.fns.sin x)| ≤ fvalue Config.one :=
  value_of_fle_fabs (by decide) (by decide) (Config.num.props.range_circular x h).1

/-- A product by a factor of magnitude at most one does not overflow: its exact value lies between the other factor and its
negative. -/
theorem isFinite_fmul_of_le_one {a b : F32} (ha : isFinite a = true) (hb : isFinite b = true)
    (h1 : |fvalue b| ≤ fvalue Config.one) : isFinite (fmul a b) = true := by
  have habs : isFinite (fabs a) = true := by simpa [isFinite, fmagBits_fabs] using ha
  have hval : fvalue (fabs a) = |fvalue a| := by
    rw [fvalue_of_nonneg (fsign_fabs a), Int.abs_eq_natAbs, natAbs_fvalue, fmag_eq_magUnits, fmag_eq_magUnits, fmagBits_fabs]
  have hprod : |fvalue a * fvalue b| ≤ fvalue (fabs a) * (2 ^ 149 : Nat) := by
    rw [abs_mul, hval]
    exact mul_le_mul_of_nonneg_left h1 (abs_nonneg _)
  obtain ⟨hlo, hhi⟩ := abs_le.mp hprod
  exact ((fmul_rounds ha hb).between (lo := fneg (fabs a)) (by positivity) (by simpa using habs) habs
    (by rw [fvalue_fneg, neg_mul]; exact hlo) hhi).1

/-- A number plus a finite value is a number. -/
theorem isNaN_fadd_of_finite {a b : F32} (ha : isNaN a = false) (hb : isFinite b = true) : isNaN (fadd a b) = false := by
  cases hi : isInf a
  case true =>
    unfold fadd
    rwa [sumWith_inf_left _ hi (isNaN_eq_false_of_isFinite hb) fun h => by simp [isInf_eq_false_of_isFinite hb] at h]
  case false =>
    have haf : isFinite a = true := by
      simp only [isNaN, isInf, isFinite, decide_eq_false_iff_not, decide_eq_true_eq] at *; omega
    exact (fadd_rounds haf hb).notNaN

/-- While the LFO is off the effective pan is the clamped base. -/
theorem finalPan_of_lfo_off {s : State} (l : Fin 2) (base : F32) (h : s.cells.lfoen ≠ 1#1) :
    finalPan s l base = fclamp base Config.minusOne Config.one := by
  unfold finalPan
  rw [if_neg h]

/-- While the LFO is on the effective pan is the clamped sum of the base and the scaled sine. -/
theorem finalPan_of_lfo_on {s : State} (l : Fin 2) (base : F32) (h : s.cells.lfoen = 1#1) :
    finalPan s l base =
      fclamp (fadd base (fmul s.sp[13].cur (Config.num.fns.sin s.ph[l]))) Config.minusOne Config.one := by
  unfold finalPan
  rw [if_pos h]
  rfl

/-- The effective pan of a base that is a number is the clamp of a number: a finite depth times a sine is finite, and moves
no base, not even an infinite one, to a NaN. -/
theorem finalPan_eq_fclamp {s : State} {l : Fin 2} {base : F32} (hb : isNaN base = false)
    (hlfo : s.cells.lfoen = 1#1 → isFinite s.sp[13].cur = true ∧ isFinite s.ph[l] = true) :
    ∃ v, isNaN v = false ∧ finalPan s l base = fclamp v Config.minusOne Config.one := by
  by_cases hon : s.cells.lfoen = 1#1
  · obtain ⟨hdepth, hphase⟩ := hlfo hon
    obtain ⟨hsin, hsin1⟩ := sin_range hphase
    exact ⟨_, isNaN_fadd_of_finite hb (isFinite_fmul_of_le_one hdepth hsin hsin1), finalPan_of_lfo_on l base hon⟩
  · exact ⟨base, hb, finalPan_of_lfo_off l base hon⟩

/-- Settles O55: the ends of the pan law by evaluating the angle, the range of the effective pan by its clamp. -/
theorem panLawExtremes : Obligations.PanLawExtremes := by
  unfold Obligations.PanLawExtremes
  refine ⟨panGains_minusOne, by decide +kernel, fun s l base hb hlfo => ?_⟩
  obtain ⟨v, hv, heq⟩ := finalPan_eq_fclamp hb hlfo
  obtain ⟨hlo, hhi⟩ := fclamp_in_range hv (show fle Config.minusOne Config.one = true by decide)
  rw [← heq] at hlo hhi
  refine ⟨hlo, hhi, fun hoff h1 h2 => ?_⟩
  rw [finalPan_of_lfo_off l base (by simp [hoff]), fclamp_of_inside h1 h2]

/-! ### The forms of the stage (rules R204, R207 to R210) -/

/-- The stage answers the mixed samples (rule R210). -/
theorem panFrame_fst (x : Frame) (s : State) : (panFrame x s).1 = panMix x s := rfl

/-- The stage leaves the state with its phases advanced (rule R210). -/
theorem panFrame_snd (x : Frame) (s : State) : (panFrame x s).2 = lfoAdvance s := rfl

/-- Every lane advances by the rate register, whatever the variant and the channel count (rule R204). -/
theorem panFrame_ph (x : Frame) (s : State) (l : Fin 2) :
    (panFrame x s).2.ph[l] = lfoNext s.sp[12].cur s.act.fs s.ph[l] := by
  rw [panFrame_snd]
  simp [lfoAdvance, State.cur, lfoRate]

/-- Mono: the gains of lane 0 at the register `pan` (rule R207). -/
theorem panMix_mono (x : Frame) {s : State} (h : s.cells.panmode = 0#1) :
    panMix x s = #v[fmul x[0] (panGains (finalPan s 0 (s.cur pan))).1,
      if s.act.nch = 2#2 then fmul x[1] (panGains (finalPan s 0 (s.cur pan))).2 else x[1]] := by
  unfold panMix
  rw [if_pos h]

/-- Stereo on two channels: the matrix of the gains of both lanes (rule R208). -/
theorem panMix_stereo (x : Frame) {s : State} (h : s.cells.panmode = 1#1) (hn : s.act.nch = 2#2) :
    panMix x s =
      let gL := panGains (finalPan s 0 (s.cur panL))
      let gR := panGains (finalPan s 1 (s.cur panR))
      #v[fadd (fmul x[0] gL.1) (fmul x[1] gR.1), fadd (fmul x[0] gL.2) (fmul x[1] gR.2)] := by
  unfold panMix
  rw [if_neg (by simp [h]), if_pos hn]

/-- Stereo on one channel: the samples pass (rule R209). -/
theorem panMix_stereo_one (x : Frame) {s : State} (h : s.cells.panmode = 1#1) (hn : s.act.nch = 1#2) : panMix x s = x := by
  unfold panMix
  rw [if_neg (by simp [h]), if_neg (by simp [hn])]

/-- The effective pan from the registers of the state itself. -/
theorem finalPan_eq_lanePan (s : State) (l : Fin 2) (base : F32) :
    finalPan s l base = lanePan s (fun i => s.sp[i].cur) l base := rfl

/-- The gains are those of rule R206, left and right. -/
theorem panGains_eq (v : F32) : panGains v = (leftGain v, rightGain v) := rfl

/-- Settles O56: the phases from the advance, the samples from the two forms that use gains. -/
theorem pannerForms : Obligations.PannerForms := by
  unfold Obligations.PannerForms
  intro x s p y
  have hpan (l : Fin 2) (base : F32) : finalPan s l base = lanePan s p l base := finalPan_eq_lanePan s l base
  refine ⟨rfl, panFrame_ph x s, fun hmono => ?_, fun hstereo hn => ?_⟩
  · have hy : y = _ := (panFrame_fst x s).trans (panMix_mono x hmono)
    rw [hy, hpan, panGains_eq]
    exact ⟨rfl, fun hn => if_pos hn⟩
  · have hy : y = _ := (panFrame_fst x s).trans (panMix_stereo x hstereo hn)
    rw [hy, hpan, hpan, panGains_eq, panGains_eq]
    exact ⟨rfl, rfl⟩

/-- Settles O57: the mix passes the samples, and the advance does not ask for the form. -/
theorem stereoPannerOneChannel : Obligations.StereoPannerOneChannel := by
  unfold Obligations.StereoPannerOneChannel
  intro x s hstereo hn
  exact ⟨by rw [panFrame_fst, panMix_stereo_one x hstereo hn], panFrame_ph x s⟩

end Sys2Proof.Machine
end

section
/-! PROOFS. The start of a block (rules R25, R228, R250, R251). -/

namespace Sys2Proof.Machine

/-- A block that is not empty and exceeds the limit starts as a pass-through (rule R251). -/
theorem execProcess_oversized {s : State} {n : BitVec 16} (hn : n ≠ 0#16) (hp : s.status.prepared = true)
    (hmax : s.act.maxBlk < n) :
    execProcess n s = .next (((s.raise .blkSize).setSeq ⟨true, n⟩).setPassing (some 0)) := by
  simp [execProcess, hn, hp, hmax]

/-- The two ends of the equalizer are shelves, the bands between them peaking (rule R25). -/
theorem bandType_eq (b : Fin 4) :
    bandType b = if b = 0 then .lowShelf else if b = 3 then .highShelf else .peaking := by
  revert b
  decide

theorem blockStart_coef (s : State) (b : Fin 4) : (blockStart s).coef[b] = eqDesign b s := by
  simp [blockStart]

theorem blockStart_dirty (s : State) (b : Fin 4) : (blockStart s).dirty[b] = false :=
  (by decide : ∀ b : Fin 4, (#v[false, false, false, false] : Vector Bool 4)[b] = false) b

/-- A block start writes the coefficients and the dirty bits. -/
theorem blockStart_frame (s : State) :
    blockStart s = { s with coef := (blockStart s).coef, dirty := (blockStart s).dirty } := rfl

/-- Settles O37: PROCESS by its branches for a prepared core, and the block start of an accepted block. -/
theorem processStarts : Obligations.ProcessStarts := by
  unfold Obligations.ProcessStarts
  refine fun s => ⟨rfl, fun n hn hp => ⟨fun hmax => ?_, execProcess_oversized hn hp⟩⟩
  refine ⟨_, execProcess_accepts hn hp hmax, blockStart_frame _, fun b => ⟨blockStart_dirty _ b, ?_⟩⟩
  rw [blockStart_coef, ← bandType_eq]
  rfl

end Sys2Proof.Machine
end

section
/-! PROOFS. The equalizer of a channel: its enabled bands in series (rules R229, R230, R232, R233). -/

namespace Sys2Proof.Machine

/-! ### The registers of the biquads (rules R36, R229) -/

/-- The registers after one band of one channel has written its own. -/
def setBiquad (q : Vector (Vector Biquad 2) 4) (b : Fin 4) (c : Fin 2) (r : Biquad) : Vector (Vector Biquad 2) 4 :=
  q.set b (q[b].set c r)

theorem setBiquad_get (q : Vector (Vector Biquad 2) 4) (b d : Fin 4) (c e : Fin 2) (r : Biquad) :
    (setBiquad q b c r)[d][e] = if d = b ∧ e = c then r else q[d][e] := by
  simp only [setBiquad, Fin.getElem_fin, Vector.getElem_set, Fin.val_inj]
  by_cases hd : b = d
  · subst hd
    by_cases he : c = e
    · simp [he]
    · simp [Fin.val_inj, he, Ne.symm he]
  · simp [hd, Ne.symm hd]

theorem setBiquad_get_of_band_ne (q : Vector (Vector Biquad 2) 4) {b d : Fin 4} (c e : Fin 2) (r : Biquad) (h : d ≠ b) :
    (setBiquad q b c r)[d][e] = q[d][e] := by
  rw [setBiquad_get, if_neg fun hbc => h hbc.1]

/-- Writing what stands there changes nothing. -/
theorem setBiquad_self (q : Vector (Vector Biquad 2) 4) (b : Fin 4) (c : Fin 2) : setBiquad q b c q[b][c] = q := by
  simp [setBiquad]

/-! ### The cascade (rules R229, R230, R233) -/

/-- One band is the biquad step, kept in the band's own registers (rule R229). -/
theorem eqSample_eq (b : Fin 4) (c : Fin 2) (x : F32) (s : State) :
    eqSample b c x s = ((biquadStep s.coef[b] s.bq[b][c] x).1,
      s.setBq (setBiquad s.bq b c (biquadStep s.coef[b] s.bq[b][c] x).2)) := rfl

/-- One turn of the loop of `eqChannel` (rule R230): the biquad step of an enabled band. -/
def eqBand (s : State) (c : Fin 2) (p : F32 × State) (b : Fin 4) : F32 × State :=
  if s.cells.banden[b] = 1#1 then eqSample b c p.1 p.2 else p

/-- The equalizer of a channel goes over the bands in their order (rule R230). -/
theorem eqChannel_eq_foldl (c : Fin 2) (x : F32) (s : State) :
    eqChannel c x s = [(0 : Fin 4), 1, 2, 3].foldl (eqBand s c) (x, s) := rfl

theorem bandStep_of_enabled {s : State} {b : Fin 4} (c : Fin 2) (x : F32) (h : s.cells.banden[b] = 1#1) :
    bandStep s c b x = biquadStep s.coef[b] s.bq[b][c] x := by
  unfold bandStep
  rw [if_pos h]
  rfl

theorem bandStep_of_disabled {s : State} {b : Fin 4} (c : Fin 2) (x : F32) (h : s.cells.banden[b] ≠ 1#1) :
    bandStep s c b x = (x, s.bq[b][c]) := by
  unfold bandStep
  rw [if_neg h]

/-- A band whose registers no earlier band has written answers and leaves behind what its step of the cascade does. -/
theorem eqBand_eq {s : State} {q : Vector (Vector Biquad 2) 4} {b : Fin 4} {c : Fin 2} (x : F32)
    (hq : q[b][c] = s.bq[b][c]) :
    eqBand s c (x, s.setBq q) b = ((bandStep s c b x).1, s.setBq (setBiquad q b c (bandStep s c b x).2)) := by
  unfold eqBand
  by_cases h : s.cells.banden[b] = 1#1
  · rw [if_pos h, eqSample_eq, bandStep_of_enabled c x h, ← hq]
    rfl
  · rw [if_neg h, bandStep_of_disabled c x h, ← hq, setBiquad_self]

theorem cascade_zero (s : State) (c : Fin 2) (x : F32) : (cascade s c x)[0] = bandStep s c 0 x := rfl
theorem cascade_one (s : State) (c : Fin 2) (x : F32) :
    (cascade s c x)[1] = bandStep s c 1 (cascade s c x)[0].1 := rfl
theorem cascade_two (s : State) (c : Fin 2) (x : F32) :
    (cascade s c x)[2] = bandStep s c 2 (cascade s c x)[1].1 := rfl
theorem cascade_three (s : State) (c : Fin 2) (x : F32) :
    (cascade s c x)[3] = bandStep s c 3 (cascade s c x)[2].1 := rfl

/-- The registers a channel's cascade leaves behind, band by band. -/
def cascadeRegisters (s : State) (c : Fin 2) (x : F32) : Vector (Vector Biquad 2) 4 :=
  let e := cascade s c x
  setBiquad (setBiquad (setBiquad (setBiquad s.bq 0 c e[0].2) 1 c e[1].2) 2 c e[2].2) 3 c e[3].2

/-- The equalizer of a channel is the cascade of its bands. -/
theorem eqChannel_eq (c : Fin 2) (x : F32) (s : State) :
    eqChannel c x s = ((cascade s c x)[3].1, s.setBq (cascadeRegisters s c x)) := by
  have hfirst : eqBand s c (x, s) 0 = _ := eqBand_eq (q := s.bq) x rfl
  rw [eqChannel_eq_foldl, List.foldl_cons, List.foldl_cons, List.foldl_cons, List.foldl_cons, List.foldl_nil, hfirst,
    eqBand_eq _ (by simp (disch := decide) only [setBiquad_get_of_band_ne]),
    eqBand_eq _ (by simp (disch := decide) only [setBiquad_get_of_band_ne]),
    eqBand_eq _ (by simp (disch := decide) only [setBiquad_get_of_band_ne]),
    cascadeRegisters, ← cascade_zero, ← cascade_one, ← cascade_two, ← cascade_three]

theorem cascadeRegisters_get (s : State) (c d : Fin 2) (x : F32) (b : Fin 4) :
    (cascadeRegisters s c x)[b][d] = if d = c then (cascade s c x)[b].2 else s.bq[b][d] := by
  simp only [cascadeRegisters, setBiquad_get]
  by_cases h : d = c
  · simp only [h, and_true, if_true]
    fin_cases b <;> rfl
  · simp only [h, and_false, if_false]

/-- A disabled band keeps its registers in the cascade (rule R232). -/
theorem cascade_of_disabled {s : State} {b : Fin 4} (c : Fin 2) (x : F32) (h : s.cells.banden[b] ≠ 1#1) :
    (cascade s c x)[b].2 = s.bq[b][c] := by
  obtain ⟨y, hy⟩ : ∃ y, (cascade s c x)[b] = bandStep s c b y := by
    fin_cases b
    exacts [⟨_, cascade_zero s c x⟩, ⟨_, cascade_one s c x⟩, ⟨_, cascade_two s c x⟩, ⟨_, cascade_three s c x⟩]
  rw [hy, bandStep_of_disabled c y h]

/-- With every band disabled no turn of the loop does anything (rule R233). -/
theorem eqChannel_of_disabled {s : State} (c : Fin 2) (x : F32) (h : ∀ b : Fin 4, s.cells.banden[b] ≠ 1#1) :
    eqChannel c x s = (x, s) := by
  have hband (b : Fin 4) : eqBand s c (x, s) b = (x, s) := if_neg (h b)
  simp only [eqChannel_eq_foldl, List.foldl_cons, List.foldl_nil, hband]

/-- Settles O58: the sample and the registers of one band, then those of the cascade. -/
theorem equalizerCascade : Obligations.EqualizerCascade := by
  unfold Obligations.EqualizerCascade
  intro c x s
  have hoff {b : Fin 4} (h : s.cells.banden[b] = 0#1) : s.cells.banden[b] ≠ 1#1 := by simp [h]
  have hreg (b : Fin 4) (d : Fin 2) : (eqChannel c x s).2.bq[b][d] = _ :=
    (by rw [eqChannel_eq]; rfl : _ = (cascadeRegisters s c x)[b][d]).trans (cascadeRegisters_get s c d x b)
  refine ⟨fun b => ⟨rfl, rfl, ?_, fun d e hne => ?_⟩, by rw [eqChannel_eq], by rw [eqChannel_eq]; rfl,
    fun b => ⟨?_, fun h => ?_, fun d hd => ?_⟩, fun h => eqChannel_of_disabled c x fun b => hoff (h b)⟩
  · rw [eqSample_eq, State.setBq_bq, setBiquad_get, if_pos ⟨rfl, rfl⟩]
    rfl
  · rw [eqSample_eq, State.setBq_bq, setBiquad_get, if_neg (not_and_or.mpr hne)]
  · rw [hreg, if_pos rfl]
  · rw [hreg, if_pos rfl, cascade_of_disabled c x (hoff h)]
  · rw [hreg, if_neg hd]

end Sys2Proof.Machine
end

section
/-! PROOFS. The design of the equalizer's bands: its clamps and its values (rules R222 to R227). -/

namespace Sys2Proof.Machine

/-- At every valid sample rate the bounds of the frequency clamp are in order: 0.49 times a rate of at least 8000 is at
least 20 (rule R222). -/
theorem eqFrequencyBounds_ordered {fs : F32} (h1 : fle Config.srMin fs = true) (h2 : fle fs Config.srMax = true) :
    fle Config.eqFLo (fmul Config.eqFHiRatio fs) = true := by
  obtain ⟨hf, hlo, hhi⟩ := finite_of_fle (by decide) (by decide) h1 h2
  have hpos : 0 ≤ fvalue Config.eqFHiRatio := by decide
  have hmin : fvalue Config.eqFLo * (2 ^ 149 : Nat) ≤ fvalue Config.eqFHiRatio * fvalue Config.srMin := by decide +kernel
  have hmax : fvalue Config.eqFHiRatio * fvalue Config.srMax ≤ fvalue Config.srMax * (2 ^ 149 : Nat) := by decide +kernel
  obtain ⟨htf, htlo, -⟩ := (fmul_rounds (show isFinite Config.eqFHiRatio = true by decide) hf).between
    (lo := Config.eqFLo) (hi := Config.srMax) (by positivity) (by decide) (by decide)
    (hmin.trans (mul_le_mul_of_nonneg_left hlo hpos)) ((mul_le_mul_of_nonneg_left hhi hpos).trans hmax)
  exact (fle_iff_value (by decide) (isNaN_eq_false_of_isFinite htf)).mpr htlo

/-- A number is clamped into ordered bounds, and a number between them passes (rule R11). -/
theorem fclamp_laws {v lo hi : F32} (h : fle lo hi = true) (hv : isNaN v = false) :
    fle lo (fclamp v lo hi) = true ∧ fle (fclamp v lo hi) hi = true ∧
      (fle lo v = true → fle v hi = true → fclamp v lo hi = v) :=
  ⟨(fclamp_in_range hv h).1, (fclamp_in_range hv h).2, fclamp_of_inside⟩

/-- Settles O59: the laws of the three clamps, and the three types of the design. -/
theorem equalizerDesign : Obligations.EqualizerDesign := by
  unfold Obligations.EqualizerDesign
  intro freq gain q fs top f g qc A w0 cw alpha beta up um stored
  refine ⟨fun h1 h2 => ?_, fclamp_laws (by decide), fclamp_laws (by decide), rfl, rfl, rfl⟩
  have htop := eqFrequencyBounds_ordered h1 h2
  exact ⟨htop, fclamp_laws htop⟩

end Sys2Proof.Machine
end

section
/-! PROOFS. The design of the equalizer's bands at 0 dB (rule R234). -/

namespace Sys2Proof.Machine

/-! ### Operations with the constants 0, 1 and 2 (rule R11) -/

/-- A number is finite or an infinity. -/
theorem isFinite_of_number {v : F32} (hn : isNaN v = false) (hi : isInf v = false) : isFinite v = true := by
  simp only [isNaN, isInf, isFinite, decide_eq_false_iff_not, decide_eq_true_eq] at *
  omega

/-- An infinity is its sign and the magnitude of the infinities. -/
theorem withSign_of_isInf {v : F32} (h : isInf v = true) : withSign (fsign v) infBits = v := by
  have hm : fmagBits v = infBits := by simpa [isInf] using h
  rw [← hm, withSign_self]

/-- A sum does not depend on the order of its summands, as long as the pattern of its NaN does not. -/
theorem sumWith_comm (nan a b : F32) : sumWith nan a b = sumWith nan b a := by
  cases ha : isNaN a
  case true => simp [sumWith, ha]
  case false =>
    cases hb : isNaN b
    case true => simp [sumWith, hb]
    case false =>
      cases hia : isInf a <;> cases hib : isInf b
      · simp [sumWith, ha, hb, hia, hib, Int.add_comm, Bool.and_comm]
      · rw [sumWith_inf_right nan (isFinite_of_number ha hia) hib, sumWith_inf_left nan hib ha (by simp [hia])]
      · rw [sumWith_inf_right nan (isFinite_of_number hb hib) hia, sumWith_inf_left nan hia hb (by simp [hib])]
      · by_cases hs : fsign a = fsign b
        · rw [sumWith_inf_left nan hia hb fun _ => hs, sumWith_inf_left nan hib ha fun _ => hs.symm,
            ← withSign_of_isInf hia, ← withSign_of_isInf hib, hs]
        · rw [sumWith_opposite_inf nan hia hib hs, sumWith_opposite_inf nan hib hia (Ne.symm hs)]

/-- A zero plus a number that is no zero is that number. -/
theorem sumWith_zero_left (nan : F32) {z a : F32} (hz : isZero z = true) (hn : isNaN a = false) (ha : isZero a = false) :
    sumWith nan z a = a := by
  rw [sumWith_comm]
  refine sumWith_zero_right nan hn (fun h => ?_) hz
  rw [h] at ha
  exact absurd ha (by decide)

/-- A finite value and a number have a sum. -/
theorem isNaN_sumWith (nan : F32) {a b : F32} (ha : isFinite a = true) (hb : isNaN b = false) :
    isNaN (sumWith nan a b) = false := by
  cases hi : isInf b
  case true => rwa [sumWith_inf_right nan ha hi]
  case false => exact (sumWith_rounds nan ha (isFinite_of_number hb hi)).notNaN

theorem fmul_one_left {v : F32} (h : isNaN v = false) : fmul Config.one v = v := by
  have hsign : fsign Config.one = false := by decide
  cases hi : isInf v
  case true =>
    rw [fmul_inf (by decide) h (by decide) (isZero_eq_false_of_isInf hi) (.inr hi), hsign, Bool.false_bne,
      withSign_of_isInf hi]
  case false =>
    have hf := isFinite_of_number h hi
    have hone : fmag Config.one = 2 ^ 149 := by decide
    rw [fmul_of_finite (by decide) hf, hsign, Bool.false_bne, hone, Nat.mul_comm, roundMag_fmag hf (by positivity),
      withSign_self]

/-- A product by one and a quotient by one are the same rounding. -/
theorem fmul_one_eq_fdiv_one {v : F32} (h : isFinite v = true) : fmul v Config.one = fdiv v Config.one := by
  have hone : fmag Config.one = 2 ^ 149 := by decide
  rw [fmul_of_finite h (by decide), fdiv_of_finite h (by decide) (by decide), hone]

theorem isNaN_fmul_two {v : F32} (h : isNaN v = false) : isNaN (fmul Config.two v) = false := by
  cases hi : isInf v
  case true =>
    rw [fmul_inf (by decide) h (by decide) (isZero_eq_false_of_isInf hi) (.inr hi)]
    exact isNaN_withSign _ le_rfl
  case false => exact (fmul_rounds (by decide) (isFinite_of_number h hi)).notNaN

/-- Doubling does not underflow. -/
theorem isZero_fmul_two {v : F32} (hf : isFinite v = true) (hz : isZero v = false) : isZero (fmul Config.two v) = false := by
  have htwo : fmag Config.two = 2 * 2 ^ 149 := by decide +kernel
  have hbits : fmagBits (fmul Config.two v) = roundMag (fmag Config.two * fmag v) (2 ^ 149) := by
    rw [fmul_of_finite (by decide) hf, fmagBits_withSign _ (lt_of_le_of_lt (roundMag_le _ _) infBits_lt)]
  have hle : fmagBits v ≤ fmagBits (fmul Config.two v) := by
    rw [hbits, ← roundMag_fmag hf (Nat.two_pow_pos 149), htwo]
    exact roundMag_mono _ (by omega)
  simp only [isZero, decide_eq_false_iff_not] at hz ⊢
  omega

/-- A factor of two passes its sign to the other factor. -/
theorem fmul_minusTwo {v : F32} (h : isNaN v = false) : fmul Config.minusTwo v = fmul Config.two (fneg v) := by
  have hneg : Config.minusTwo = fneg Config.two := by decide
  rw [hneg, fmul_fneg_left (isNaN_fmul_two h), fmul_fneg_right (isNaN_fmul_two h)]

/-! ### The shelves with `A = 1` -/

/-- The sums of rules R224 and R225 with `A = 1`: `A - 1` is a zero, so its product by `cw` moves no sum. -/
theorem shelfSums_of_one {cw : F32} (hf : isFinite cw = true) (hz : isZero cw = false) :
    let w := fmul Config.two cw
    fadd Config.two (fmul Config.zero cw) = Config.two ∧ fsub Config.two (fmul Config.zero cw) = Config.two ∧
      fadd Config.zero w = w ∧ fsub Config.zero w = fneg w := by
  have hzero : isZero (fmul Config.zero cw) = true := by
    rw [fmul_of_isZero (by decide) hf (.inl (by decide))]
    exact isZero_withSign _
  have hwn := isNaN_fmul_two (isNaN_eq_false_of_isFinite hf)
  have hwz := isZero_fmul_two hf hz
  exact ⟨sumWith_zero_right _ (by decide) (by decide) hzero,
    sumWith_zero_right _ (by decide) (by decide) ((isZero_fneg _).trans hzero),
    sumWith_zero_left _ (by decide) hwn hwz,
    sumWith_zero_left _ (by decide) ((isNaN_fneg _).trans hwn) ((isZero_fneg _).trans hwz)⟩

/-- The values of both shelves with `A = 1`: with `A - 1` a zero they differ neither from each other nor between numerator
and denominator. -/
def unityShelf (cw alpha : F32) : Design :=
  let beta := fmul Config.two alpha
  let b1 := fmul Config.minusTwo (fmul Config.two cw)
  { b0 := fadd Config.two beta, b1 := b1, b2 := fsub Config.two beta
    a0 := fadd Config.two beta, a1 := b1, a2 := fsub Config.two beta }

section
variable {cw alpha : F32} (hf : isFinite cw = true) (hz : isZero cw = false) (ha : isFinite alpha = true)
include hf hz ha

/-- Where a shelf's `b1` or `a1` multiplies `0 - 2 cw` by two, that is `0 + 2 cw` by minus two. -/
theorem designShelves_one :
    designLowShelf Config.one cw alpha = unityShelf cw alpha ∧
      designHighShelf Config.one cw alpha = unityShelf cw alpha := by
  have hsqrt : fsqrt Config.one = Config.one := by decide +kernel
  have hup : fadd Config.one Config.one = Config.two := by decide +kernel
  have hum : fsub Config.one Config.one = Config.zero := by decide +kernel
  have htwo : fmul Config.two Config.one = Config.two := by decide +kernel
  have hminus : fmul Config.minusTwo Config.one = Config.minusTwo := by decide +kernel
  obtain ⟨hadd, hsub, hw, hnegw⟩ := shelfSums_of_one hf hz
  have hbeta : isNaN (fmul Config.two alpha) = false := isNaN_fmul_two (isNaN_eq_false_of_isFinite ha)
  have h0 : fmul Config.one (fadd Config.two (fmul Config.two alpha)) = _ :=
    fmul_one_left (isNaN_sumWith _ (by decide) hbeta)
  have h2 : fmul Config.one (fsub Config.two (fmul Config.two alpha)) = _ :=
    fmul_one_left (isNaN_sumWith _ (by decide) ((isNaN_fneg _).trans hbeta))
  have h1 := fmul_minusTwo (isNaN_fmul_two (isNaN_eq_false_of_isFinite hf))
  simp only [designLowShelf, designHighShelf, unityShelf, hsqrt, hup, hum, htwo, hminus, hadd, hsub, hw, hnegw, h0, h1, h2,
    and_self]

end

/-- Settles O60: at 0 dB `A` is one (`P_EXACT0`), where the peaking band multiplies and divides by one and both shelves
have the values of `unityShelf`. -/
theorem zeroDecibelDesign : Obligations.ZeroDecibelDesign := by
  unfold Obligations.ZeroDecibelDesign
  intro g cw alpha hg hf hz ha d hd
  obtain ⟨-, -, -, hA⟩ := Config.num.props.exact0_one g hg
  obtain ⟨hlow, hhigh⟩ := designShelves_one hf hz ha
  rw [hA, hlow, hhigh] at hd
  simp only [List.mem_cons, List.not_mem_nil, or_false, or_self] at hd
  rcases hd with rfl | rfl
  · simp only [designPeaking, fmul_one_eq_fdiv_one ha, and_self]
  · exact ⟨rfl, rfl, rfl⟩

end Sys2Proof.Machine
end

section
/-! PROOFS. The pass-through of an oversized block (rules R251, R345). -/

namespace Sys2Proof.Machine

/-! ### What a pass-through has moved -/

/-- `s` with the first `k` words of `AIN` moved to `AOUT` (rule R251). -/
def State.moveWords (k : Nat) (s : State) : State :=
  s.setIo { s.io with ain := s.io.ain.drop k, aout := s.io.aout ++ s.io.ain.take k }

theorem moveWords_zero (s : State) : s.moveWords 0 = s := by
  simp [State.moveWords, State.setIo]

theorem moveWords_one {s : State} {w : Word32} {ws : List Word32} (h : s.io.ain = w :: ws) :
    s.moveWords 1 = s.setIo { s.io with ain := ws, aout := s.io.aout ++ [w] } := by
  simp [State.moveWords, h]

theorem moveWords_add (j k : Nat) (s : State) : (s.moveWords j).moveWords k = s.moveWords (j + k) := by
  simp [State.moveWords, State.setIo, List.take_add]

/-- `s`, outside a block, made to run a pass-through of which `m` frames are left and `j` words of the current one are moved:
the engine is inside the frame once a word of it is moved, and none is left over of a block with no frames. -/
def State.passingThrough (m j : Nat) (s : State) : State :=
  if m = 0 then s else (s.within (.busyFor m) (decide (j ≠ 0))).setPassing (some j)

theorem passingThrough_zero (j : Nat) (s : State) : s.passingThrough 0 j = s := if_pos rfl

theorem passingThrough_succ (m j : Nat) (s : State) :
    s.passingThrough (m + 1) j = (s.within (.busyFor (m + 1)) (decide (j ≠ 0))).setPassing (some j) :=
  if_neg m.succ_ne_zero

/-- A state that is inside a frame or not already, with another sequencer state. -/
theorem within_of_inFrame {s : State} {b : Bool} (q : Seq) (h : s.inFrame = b) : s.within q b = s.setSeq q := by
  rw [← h]
  rfl

/-! ### One word of a pass-through -/

theorem busyFor_rem_ne_zero {m : Nat} (hm : m + 1 < 2 ^ 16) : (Seq.busyFor (m + 1)).rem ≠ 0#16 := by
  simp only [Seq.busyFor, ne_eq, ← BitVec.toNat_inj, BitVec.toNat_ofNat]
  omega

theorem busyFor_rem_pred (m : Nat) : (Seq.busyFor (m + 1)).rem - 1#16 = (Seq.busyFor m).rem := by
  simp [Seq.busyFor, BitVec.ofNat_add]

/-- The end of a frame of a pass-through of `m + 1` frames (rules R21, R251). -/
theorem endFrame_passing {t : State} {m : Nat} (ht : t.Quiet) (hm : m + 1 < 2 ^ 16) :
    endFrame ((t.within (.busyFor (m + 1)) true).setPassing (some 0)) = t.passingThrough m 0 := by
  obtain ⟨hseq, hpass, hframe, hpop⟩ := ht.parts
  have hrem : ((t.within (.busyFor (m + 1)) true).setPassing (some 0)).seq.rem - 1#16 = (Seq.busyFor m).rem :=
    busyFor_rem_pred m
  cases m with
  | zero =>
    rw [endFrame, hrem, if_pos (by rfl), passingThrough_zero]
    show { t with seq := ⟨false, 0#16⟩, passing := none, inFrame := false, popped := [] } = t
    rw [← hseq, ← hpass, ← hframe, ← hpop]
  | succ m =>
    rw [endFrame, hrem, if_neg (busyFor_rem_ne_zero (by omega)), passingThrough_succ]
    rfl

/-- The engine moves one word, and ends the frame with the last word of it (rule R251). -/
theorem passWord_moves {s : State} {m j : Nat} (h : RingOk s) (hq : s.Quiet) (hm : m + 1 < 2 ^ 16) (hain : s.io.ain ≠ []) :
    passWord j ((s.within (.busyFor (m + 1)) true).setPassing (some j)) =
      if j + 1 < s.act.nch.toNat then (s.moveWords 1).passingThrough (m + 1) (j + 1)
      else (s.moveWords 1).passingThrough m 0 := by
  obtain ⟨w, ws, hw⟩ := List.exists_cons_of_ne_nil hain
  have hain' : ((s.within (.busyFor (m + 1)) true).setPassing (some j)).io.ain = w :: ws := hw
  have hwords : ((s.within (.busyFor (m + 1)) true).setPassing (some j)).frameWords = s.act.nch.toNat :=
    frameWords_of_ringOk (h.congr rfl rfl)
  rw [passWord, hain']
  dsimp only
  rw [hwords]
  split_ifs
  · rw [passingThrough_succ, moveWords_one hw]
    rfl
  · rw [← endFrame_passing (t := s.moveWords 1) hq hm, moveWords_one hw]
    rfl

/-- The step of a pass-through without control traffic: its next word (rules R72, R251). -/
theorem step_passingThrough {s : State} {m j : Nat} (h : RingOk s) (hq : s.Quiet) (hr : s.io.rst = false)
    (hc : s.io.cq = []) (hm : m + 1 < 2 ^ 16) (hain : s.io.ain ≠ []) :
    step (s.passingThrough (m + 1) j) = .next (if j + 1 < s.act.nch.toNat then (s.moveWords 1).passingThrough (m + 1) (j + 1)
      else (s.moveWords 1).passingThrough m 0) := by
  have henters : Enters (s.passingThrough (m + 1) j) ((s.within (.busyFor (m + 1)) true).setPassing (some j)) := by
    rw [passingThrough_succ]
    cases j with
    | zero => exact .noControl rfl hc
    | succ j => exact .inside rfl
  have hbusy : (s.passingThrough (m + 1) j).seq.busy = true := by rw [passingThrough_succ]; rfl
  have hrst : (s.passingThrough (m + 1) j).io.rst = false := by rw [passingThrough_succ]; exact hr
  rw [step_of_enters hrst hbusy henters, engineStep_of_passing (busyFor_rem_ne_zero hm) rfl, passWord_moves h hq hm hain]

/-! ### The whole pass-through -/

/-- A pass-through without control traffic and with its input moves the words that are left of it, by induction on their
number `k` (rule R251). -/
theorem run_passingThrough {s : State} {m j k : Nat} (h : RingOk s) (hq : s.Quiet) (hr : s.io.rst = false)
    (hc : s.io.cq = []) (hm : m < 2 ^ 16) (hj : j < s.act.nch.toNat) (hk : j + k = m * s.act.nch.toNat)
    (hlen : k ≤ s.io.ain.length) : Host.Core.run core k (s.passingThrough m j) = .next (s.moveWords k) := by
  induction k generalizing s m j with
  | zero =>
    have hm0 : m = 0 := Nat.eq_zero_of_not_pos fun hpos => by
      have := Nat.le_mul_of_pos_left s.act.nch.toNat hpos
      omega
    rw [hm0, passingThrough_zero, moveWords_zero]
    rfl
  | succ k ih =>
    cases m with
    | zero => omega
    | succ m =>
      rw [Nat.succ_mul] at hk
      have hain : s.io.ain ≠ [] := List.ne_nil_of_length_pos (by omega)
      have hlen' : k ≤ (s.moveWords 1).io.ain.length := by
        show k ≤ (s.io.ain.drop 1).length
        rw [List.length_drop]
        omega
      have rest {m' j' : Nat} (hm' : m' < 2 ^ 16) (hj' : j' < s.act.nch.toNat) (hk' : j' + k = m' * s.act.nch.toNat) :
          Host.Core.run core k ((s.moveWords 1).passingThrough m' j') = .next (s.moveWords (k + 1)) := by
        rw [ih (s := s.moveWords 1) (h.congr rfl rfl) hq hr hc hm' hj' hk' hlen', moveWords_add, Nat.add_comm]
      rw [run_succ k (step_passingThrough h hq hr hc hm hain)]
      split_ifs with hlast
      · exact rest hm hlast (by rw [Nat.succ_mul]; omega)
      · exact rest (by omega) h.nch_pos (by omega)

/-- The step that takes a PROCESS of an oversized block from `AQ` raises `E_BLKSIZE` and starts the pass-through (rules R70,
R251, R345). -/
theorem step_of_oversized {s : State} {n : BitVec 16} {rest : List Command} (hr : s.io.rst = false)
    (hb : s.seq.busy = false) (hc : s.io.cq = []) (ha : s.io.aq = encode (.process n) :: rest)
    (hp : s.status.prepared = true) (hmax : s.act.maxBlk < n) (hframe : s.inFrame = false) :
    step s = .next (({ s with io := { s.io with aq := rest }, issuer := .audio }.raise .blkSize).passingThrough n.toNat 0) := by
  have hclass : classify .audio (encode (.process n)) = .ok (.process n) :=
    classify_of_decode (Laws.EncodeDecode.process n rfl) .audio
  have hn0 : n.toNat ≠ 0 := Nat.ne_zero_of_lt hmax
  have hn : n ≠ 0#16 := fun e => hn0 (congrArg BitVec.toNat e)
  have hseq : Seq.busyFor n.toNat = ⟨true, n⟩ := by rw [Seq.busyFor, BitVec.ofNat_toNat, BitVec.setWidth_eq]
  rw [step_of_takes (.audio _ rest hr hb ha hc), perform_of_classify _ hclass, State.passingThrough, if_neg hn0, hseq]
  refine (execProcess_oversized hn (by exact hp) (by exact hmax)).trans ?_
  rw [within_of_inFrame _ (by exact hframe)]
  rfl

/-- Settles O47: the step that takes the command raises the flag, and the pass-through moves its words, by induction on their
number. -/
theorem oversizedBlockPassesThrough : Obligations.OversizedBlockPassesThrough := by
  unfold Obligations.OversizedBlockPassesThrough
  intro s n rest h hr hp hb hc ha hmax hlen
  obtain ⟨-, hpass, hframe⟩ := h.seq.idle hb
  have hquiet : s.Quiet := by rw [State.Quiet, State.progress, h.seq.idle_seq hb, hpass, hframe, h.seq.idle_popped hb]
  have hring : RingOk s := h.ring hp
  rw [run_succ _ (step_of_oversized hr hb hc ha hp hmax hframe)]
  exact run_passingThrough (hring.congr rfl rfl) hquiet hr hc n.isLt hring.nch_pos (Nat.zero_add _) hlen

end Sys2Proof.Machine
end

section
/-! PROOFS. The commands of a core that is not prepared (rules R251, R344, R349). -/

namespace Sys2Proof.Machine

section
variable {s : State} (hp : s.status.prepared = false)
include hp

theorem execReset_of_not_prepared : execReset s = .next (s.raise .notPrep) := by
  simp [execReset, hp]

theorem execRbclr_of_not_prepared : execRbclr s = .next (s.raise .notPrep) := by
  simp [execRbclr, hp]

theorem execRbwr_of_not_prepared (ch : BitVec 8) (v : F32) : execRbwr ch v s = .next (s.raise .notPrep) := by
  simp [execRbwr, hp]

theorem execProcess_of_not_prepared {n : BitVec 16} (hn : n ≠ 0#16) : execProcess n s = .next (s.raise .notPrep) := by
  simp [execProcess, hn, hp]

/-- RBRD is the one that also answers: the neutral word, before its operands are looked at (rule R349). -/
theorem execRbrd_of_not_prepared (ch : BitVec 8) (k : Word32) :
    execRbrd ch k s = .next ((s.raise .notPrep).respond 0x00000000#32) := by
  simp [execRbrd, hp]

end

/-- Settles O33: the check of PREPARED comes first in each of the five commands, whatever the operands. -/
theorem notPrepared : Obligations.NotPrepared := by
  unfold Obligations.NotPrepared
  intro s hp
  exact ⟨execReset_of_not_prepared hp, execRbclr_of_not_prepared hp, execRbwr_of_not_prepared hp,
    fun _ hn => execProcess_of_not_prepared hp hn,
    fun ch k => ⟨_, execRbrd_of_not_prepared hp ch k, respond_answers (s.raise .notPrep) _⟩⟩

end Sys2Proof.Machine
end

section
/-! PROOFS. SETP that is ignored, GETP and GETC (rules R270 to R275). -/

set_option Elab.async false

namespace Sys2Proof.Machine

/-! ### Identifiers -/

/-- An identifier that names neither a register nor a cell (rules R270, R273). -/
abbrev Unrecognised (pid : BitVec 8) : Prop := (0x1A ≤ pid.toNat ∧ pid.toNat ≤ 0x1F) ∨ 0x28 ≤ pid.toNat

theorem recognisedPid_of_unrecognised {pid : BitVec 8} (h : Unrecognised pid) : recognisedPid pid = false := by
  simp only [recognisedPid, Bool.or_eq_false_iff, Bool.and_eq_false_iff, decide_eq_false_iff_not]
  omega

theorem smoothedOperand_of_val {pid : BitVec 8} {i : SpIdx} (h : pid.toNat = i.val) : smoothedOperand pid = some i := by
  unfold smoothedOperand
  rw [dif_pos (h ▸ i.isLt)]
  exact congrArg some (Fin.ext h)

/-- From 0x1A on no identifier names a register (rule R270). -/
theorem smoothedOperand_of_le {pid : BitVec 8} (h : 0x1A ≤ pid.toNat) : smoothedOperand pid = none :=
  dif_neg (not_lt.mpr h)

/-- The identifiers of the cells run from 0x20 on (rules R24, R270). -/
theorem cellValue_of_val {pid : BitVec 8} {k : Fin 8} (h : pid.toNat = 0x20 + k.val) (s : State) :
    cellValue s pid = some (cellNat s k) := by
  unfold cellValue
  rw [h]
  fin_cases k <;> rfl

theorem cellValue_of_unrecognised {pid : BitVec 8} (h : Unrecognised pid) (s : State) : cellValue s pid = none := by
  unfold cellValue
  split
  case h_9 => rfl
  all_goals omega

/-! ### SETP that changes nothing -/

/-- The 26 commands are SETP of the identifiers 0x00 to 0x19, whatever the value (rules R270, R276 to R301). -/
theorem exec_smoothedCommand_eq_setParameter (i : SpIdx) (v : F32) (s : State) :
    exec (smoothedCommand i v) s = .next (setParameter (BitVec.ofNat 8 i.val) v s) := by
  fin_cases i <;> rfl

/-- The 8 commands are SETP of the identifiers 0x20 to 0x27, whatever the value (rules R270, R302 to R309). -/
theorem exec_cellCommand_eq_setParameter (k : Fin 8) (v : F32) (s : State) :
    exec (cellCommand k v) s = .next (setParameter (BitVec.ofNat 8 (0x20 + k.val)) v s) := by
  fin_cases k <;> rfl

theorem setParameter_of_isNaN {v : F32} (h : isNaN v = true) (pid : BitVec 8) (s : State) : setParameter pid v s = s := by
  simp [setParameter, h]

theorem setParameter_of_unrecognised {pid : BitVec 8} (h : Unrecognised pid) (v : F32) (s : State) :
    setParameter pid v s = s := by
  simp [setParameter, recognisedPid_of_unrecognised h]

/-- Settles O23: every row is the one `SETP(pid, data)`, which both checks leave at once. -/
theorem setpIgnored : Obligations.SetpIgnored := by
  unfold Obligations.SetpIgnored
  refine fun v s => ⟨fun hv => ⟨fun i => ?_, fun k => ?_⟩, fun pid hpid => ?_⟩
  · rw [exec_smoothedCommand_eq_setParameter, setParameter_of_isNaN hv]
  · rw [exec_cellCommand_eq_setParameter, setParameter_of_isNaN hv]
  · exact congrArg Host.Outcome.next (setParameter_of_unrecognised hpid v s)

/-! ### What a read answers -/

theorem parameterWord_of_register (reg : Sp → F32) {pid : BitVec 8} {i : SpIdx} (h : pid.toNat = i.val) (s : State) :
    parameterWord reg pid s = reg s.sp[i] := by
  unfold parameterWord
  rw [smoothedOperand_of_val h]

theorem parameterWord_of_cell (reg : Sp → F32) {pid : BitVec 8} {k : Fin 8} (h : pid.toNat = 0x20 + k.val) (s : State) :
    parameterWord reg pid s = u2f (cellNat s k) := by
  unfold parameterWord
  rw [smoothedOperand_of_le (by omega), cellValue_of_val h]

theorem parameterWord_of_unrecognised (reg : Sp → F32) {pid : BitVec 8} (h : Unrecognised pid) (s : State) :
    parameterWord reg pid s = 0x00000000#32 := by
  unfold parameterWord
  rw [smoothedOperand_of_le (by omega), cellValue_of_unrecognised h]

/-- The values of the cells as F32 (rules R24, R274). -/
theorem u2f_cell_values : u2f 0 = 0x00000000#32 ∧ u2f 1 = 0x3F800000#32 ∧ u2f 2 = 0x40000000#32 := by
  decide +kernel

/-- Settles O24: both answer `parameterWord`, of the target and of the current value, which differ for registers only. -/
theorem getpAndGetc : Obligations.GetpAndGetc := by
  unfold Obligations.GetpAndGetc
  obtain ⟨h0, h1, h2⟩ := u2f_cell_values
  refine fun pid s => ⟨_, _, parameterWord Sp.tgt pid s, parameterWord Sp.cur pid s, rfl, rfl, respond_answers _ _,
    respond_answers _ _, fun i hi => ?_, fun k hk => ?_, fun hpid => ?_⟩
  · exact ⟨parameterWord_of_register Sp.tgt hi s, parameterWord_of_register Sp.cur hi s⟩
  · rw [parameterWord_of_cell Sp.tgt hk, parameterWord_of_cell Sp.cur hk]
    exact ⟨rfl, fun h => by rw [h, h0], fun h => by rw [h, h1], fun h => by rw [h, h2]⟩
  · exact ⟨parameterWord_of_unrecognised Sp.tgt hpid s, parameterWord_of_unrecognised Sp.cur hpid s⟩

end Sys2Proof.Machine
end

section
/-! PROOFS. PREPARE of an invalid staging, and RESET as the PREPARE of the latched one (rules R323 to R326, R342, R343). -/

set_option Elab.async false

namespace Sys2Proof.Machine

/-! ### The checks as propositions -/

/-- V1 (rule R323). -/
theorem validRate_iff {cfg : Vector Word32 6} : validRate cfg = true ↔ ValidRate cfg := by
  simp only [validRate, cfgSampleRate, ValidRate, Bool.and_eq_true, and_assoc]

/-- V7 never fails: it is asked only with V1 and V4, which bound the delay (rule R323). -/
theorem validCapacity_holds (cfg : Vector Word32 6) : validCapacity cfg = true := by
  unfold validCapacity
  rw [Bool.or_eq_true, Bool.not_eq_true', ← Bool.not_eq_true, ← imp_iff_not_or, decide_eq_true_eq]
  simp only [validRate, validMaxDelay, Bool.and_eq_true]
  rintro ⟨⟨⟨-, hmin⟩, hmax⟩, ⟨-, hpos⟩, hlimit⟩
  exact rbLength_le hpos hlimit hmin hmax

/-- V2 to V7 are what `ValidSetup` asks (rule R323). -/
theorem validConfig_iff {cfg : Vector Word32 6} : validConfig cfg = true ↔ ValidSetup cfg := by
  simp only [validConfig, validCapacity_holds, validBlock, validChannels, validMaxDelay, validRampTime, validRampMode,
    Bool.and_eq_true, decide_eq_true_eq, and_assoc, and_true]
  constructor
  · rintro ⟨hb, hb', hc, hc', hd, hd', hd'', hr, hr', hr'', hm⟩
    exact ⟨⟨hb, hb'⟩, ⟨hc, hc'⟩, ⟨hd, hd', hd''⟩, ⟨hr, hr', hr''⟩, hm⟩
  · rintro ⟨⟨hb, hb'⟩, ⟨hc, hc'⟩, ⟨hd, hd', hd''⟩, ⟨hr, hr', hr''⟩, hm⟩
    exact ⟨hb, hb', hc, hc', hd, hd', hd'', hr, hr', hr'', hm⟩

/-- The flags PREPARE raises: `E_BADRATE` for V1, `E_BADCFG` for the others (rules R323, R342, R343). -/
theorem mem_prepareFailures_iff {cfg : Vector Word32 6} {f : ErrorFlag} :
    f ∈ prepareFailures cfg ↔ f = .badRate ∧ ¬ ValidRate cfg ∨ f = .badCfg ∧ ¬ ValidSetup cfg := by
  unfold prepareFailures
  rw [List.mem_append, ← validRate_iff, ← validConfig_iff]
  split_ifs with hr hc hc <;> simp [hr, hc]

/-! ### PREPARE of an invalid staging -/

/-- A failed check leads to the flags and to the unprepared core (rules R323, R325). -/
theorem execPrepare_of_failures {s : State} (h : prepareFailures s.cfg ≠ []) :
    execPrepare s = .next ((s.raiseAll (prepareFailures s.cfg)).setPrepared false) := by
  unfold execPrepare
  cases hf : prepareFailures s.cfg with
  | nil => exact absurd hf h
  | cons f fs => rfl

/-- Settles O30: the flags of the failed checks are raised, and of the status only `PREPARED` is written besides. -/
theorem prepareFails : Obligations.PrepareFails := by
  unfold Obligations.PrepareFails
  intro s hinvalid
  have hne : prepareFailures s.cfg ≠ [] := by
    intro h
    obtain ⟨hr, hs, -⟩ := valid_of_prepareFailures h
    exact hinvalid ⟨hr, hs⟩
  obtain ⟨u, hu, -, hflag⟩ := raiseAll_eq s (prepareFailures s.cfg)
  have hmem (f : ErrorFlag) : u.flag f = true ↔ s.status.flag f = true ∨ f ∈ prepareFailures s.cfg := by
    rw [hflag, Bool.or_eq_true, decide_eq_true_eq, or_comm]
  refine ⟨(s.setStatus u).setPrepared false, hu ▸ execPrepare_of_failures hne, rfl, rfl, ?_, ?_, fun f hr hc => ?_⟩
  · exact (hmem .badRate).trans (or_congr_right (by simp [mem_prepareFailures_iff]))
  · exact (hmem .badCfg).trans (or_congr_right (by simp [mem_prepareFailures_iff]))
  · have hkept : u.flag f = s.status.flag f := by
      rw [Bool.eq_iff_iff, hmem, mem_prepareFailures_iff]
      simp [hr, hc]
    cases f <;> exact hkept

/-! ### RESET and PREPARE -/

theorem execReset_of_prepared {s : State} (hp : s.status.prepared = true) :
    execReset s = .next (clearUnits (spSnap (rbClear s))) := by
  simp [execReset, hp]

theorem setPrepared_of_prepared {s : State} (hp : s.status.prepared = true) : s.setPrepared true = s := by
  unfold State.setPrepared
  rw [← hp]
  rfl

/-- Clearing keeps the status. -/
theorem cleared_status (s : State) : (clearUnits (spSnap (rbClear s))).status = s.status := by
  obtain ⟨_, _, _, _, _, _, _, h⟩ := cleared_frame s
  rw [h]

/-- Settles O32: PREPARE latches what is latched already and sets `PREPARED`, which is set already; the rest of it is RESET. -/
theorem resetIsPrepare : Obligations.ResetIsPrepare := by
  unfold Obligations.ResetIsPrepare
  intro s hrate hsetup hp hact
  have hlatch : s.setAct (activeOf s.cfg) = s := by rw [← hact]; rfl
  have hcleared : (clearUnits (spSnap (rbClear s))).status.prepared = true := by rw [cleared_status, hp]
  calc exec .reset s = .next (clearUnits (spSnap (rbClear s))) := execReset_of_prepared hp
    _ = .next (prepared s) := by unfold prepared; rw [hlatch, setPrepared_of_prepared hcleared]
    _ = exec .prepare s := (execPrepare_of_valid hrate hsetup).symm

end Sys2Proof.Machine
end

section
/-! PROOFS. NOP and CLRERR (rules R29, R320, R327). -/

set_option Elab.async false

namespace Sys2Proof

/-- A well-formed command is read from its own word, and from no other (rules R92, R94). -/
theorem decode_eq_ok_iff {i : Instr} (hi : i.wellFormed = true) (w : Command) : decode w = .ok i ↔ w = encode i := by
  constructor
  · intro h
    obtain ⟨-, hw⟩ := encodeInvertsDecode w i h
    exact hw.symm
  · exact fun h => decode_of_encode hi h.symm

end Sys2Proof

namespace Sys2Proof.Machine

/-! ### The bits of the status word -/

theorem bitIf_getLsbD {b : Bool} {j k : Nat} (hj : j < 32) : (bitIf b j).getLsbD k = true ↔ k = j ∧ b = true := by
  cases b
  · simp [bitIf]
  · simp only [bitIf, if_true, BitVec.getLsbD_shiftLeft, BitVec.getLsbD_one, and_true, Bool.and_eq_true,
      Bool.not_eq_true', decide_eq_true_eq, decide_eq_false_iff_not]
    omega

/-- The set bits of the status word: `PREPARED`, `BUSY`, and the error flags at their places (rule R29). -/
theorem statusWord_getLsbD_iff (s : State) (k : Nat) :
    (statusWord s).getLsbD k = true ↔
      (k = 0 ∧ s.status.prepared = true) ∨ (k = 1 ∧ s.seq.busy = true) ∨
        ∃ f : ErrorFlag, k = f.bit ∧ s.status.flag f = true := by
  simp only [statusWord, BitVec.getLsbD_or, Bool.or_eq_true, bitIf_getLsbD, Nat.reduceLT, or_assoc]
  refine or_congr_right (or_congr_right ⟨?_, ?_⟩)
  · rintro (h | h | h | h | h | h)
    exacts [⟨.illegal, h⟩, ⟨.badRate, h⟩, ⟨.badCfg, h⟩, ⟨.notPrep, h⟩, ⟨.blkSize, h⟩, ⟨.rbOff, h⟩]
  · rintro ⟨f, h⟩
    cases f
    exacts [.inl h, .inr (.inl h), .inr (.inr (.inl h)), .inr (.inr (.inr (.inl h))),
      .inr (.inr (.inr (.inr (.inl h)))), .inr (.inr (.inr (.inr (.inr h))))]

/-- The error flags are bits 13:8 of the status word (rule R29). -/
theorem ErrorFlag.bit_range (f : ErrorFlag) : 8 ≤ f.bit ∧ f.bit ≤ 13 := by
  cases f <;> decide

theorem clearErrors_flag (s : State) (f : ErrorFlag) : s.clearErrors.status.flag f = false := by
  obtain ⟨u, hu, -, hflag⟩ := clearErrors_eq s
  rw [hu]
  exact hflag f

/-- CLRERR clears bits 13:8 of the status word, and no other (rule R327). -/
theorem statusWord_clearErrors (s : State) (k : Nat) :
    (statusWord s.clearErrors).getLsbD k = ((statusWord s).getLsbD k && !decide (8 ≤ k ∧ k ≤ 13)) := by
  rw [Bool.eq_iff_iff, Bool.and_eq_true, Bool.not_eq_true', decide_eq_false_iff_not, statusWord_getLsbD_iff,
    statusWord_getLsbD_iff]
  constructor
  · rintro (⟨rfl, h⟩ | ⟨rfl, h⟩ | ⟨f, -, h⟩)
    · exact ⟨.inl ⟨rfl, h⟩, by decide⟩
    · exact ⟨.inr (.inl ⟨rfl, h⟩), by decide⟩
    · exact absurd ((clearErrors_flag s f).symm.trans h) Bool.false_ne_true
  · rintro ⟨h | h | ⟨f, rfl, -⟩, hk⟩
    · exact .inl h
    · exact .inr (.inl h)
    · exact absurd f.bit_range hk

/-- Settles O28: the two words are those of the commands, the queue checks the class only, and CLRERR is `clearErrors`. -/
theorem nopAndClrerr : Obligations.NopAndClrerr := by
  unfold Obligations.NopAndClrerr
  have hnop (w : Command) : decode w = .ok .nop ↔ w = 0x0000000000000000 := decode_eq_ok_iff rfl w
  have hclrerr (w : Command) : decode w = .ok .clrerr ↔ w = 0x0800000000000000 := decode_eq_ok_iff rfl w
  have hclass (q : Queue) := classify_of_decode ((hclrerr _).mpr rfl) q
  refine ⟨fun w => ⟨hnop w, hclrerr w⟩, fun q => classify_of_decode ((hnop _).mpr rfl) q, hclass .audio, fun i h => ?_,
    fun s => ⟨rfl, ?_⟩⟩
  · rw [hclass .control] at h
    exact nomatch h
  · exact ⟨s.clearErrors, rfl, rfl, rfl, clearErrors_flag s, statusWord_clearErrors s⟩

end Sys2Proof.Machine
end

section
/-! PROOFS. The invariant at reset and along a step, hardware reset, and the range of the LFO phase (rules R21 to R38, R204,
R310, R370). -/

set_option Elab.async false

namespace Sys2Proof.Machine

/-- Settles O13, by the lemma that the state after reset has the invariant. -/
theorem resetHasInvariant : Obligations.ResetHasInvariant := inv_reset

/-- A step of a state with the invariant has one answer, and that answer has the invariant. -/
theorem Inv.of_step {s t : State} (h : Inv s) (ht : Machine.step s = .next t) : Inv t := by
  obtain ⟨u, hu, hinv⟩ := h.step
  obtain rfl : u = t := Host.Outcome.next.inj (hu.symm.trans ht)
  exact hinv

/-- Settles O14: the step is a hardware reset, a pause, the performance of a word or a piece of the running block, and each
of these keeps the invariant (`Inv.step`). -/
theorem stepKeepsInvariant : Obligations.StepKeepsInvariant := by
  unfold Obligations.StepKeepsInvariant
  exact fun _ _ h ht => h.of_step ht

/-- Settles O54, by the range of the increment: the sum of a phase and an increment is below `2 * TWO_PI`. -/
theorem phaseStaysInRange : Obligations.PhaseStaysInRange := by
  unfold Obligations.PhaseStaysInRange
  exact fun _ _ _ => lfoNext_range

/-! ### Hardware reset -/

theorem reset_register (i : SpIdx) : State.reset.sp[i] = Sp.reset i := by
  simp [State.reset]

theorem reset_cell (k : Fin 8) : cellNat State.reset k = if 4 ≤ k.val then 1 else 0 := by
  revert k
  decide

/-- While `RST` is asserted the step is the hardware reset, whatever else the state holds (rule R370). -/
theorem step_of_rst {s : State} (h : s.io.rst = true) : step s = .next s.hardwareReset := by
  simp [step, nextStep, h]

/-- Hardware reset gives the reset values and empty queues; the pin and the counter of the schedule stay (rule R370). -/
theorem hardwareReset_eq (s : State) :
    s.hardwareReset = { State.reset with io := ⟨[], [], [], [], [], [], s.io.rst⟩, tick := s.tick } := rfl

/-- Settles O8: the reset values by evaluation, the step by the one branch that `RST` selects. -/
theorem hardwareReset : Obligations.HardwareReset := by
  unfold Obligations.HardwareReset
  refine ⟨⟨rfl, by decide, rfl, reset_register, reset_cell, by decide, rfl⟩, fun s h => ?_⟩
  rw [step_of_rst h, hardwareReset_eq, h]

end Sys2Proof.Machine
end

section
/-! PROOFS. STATUS, CFGR and CFGW (rules R26, R27, R29, R321, R322, R328). -/

set_option Elab.async false

namespace Sys2Proof.Machine

/-! ### STATUS -/

/-- The bit of a flag in the status word (rule R29). -/
theorem statusWord_flag (s : State) (f : ErrorFlag) : (statusWord s).getLsbD f.bit = s.status.flag f := by
  have hrange := f.bit_range
  rw [Bool.eq_iff_iff, statusWord_getLsbD_iff]
  constructor
  · rintro (⟨h, -⟩ | ⟨h, -⟩ | ⟨g, hg, h⟩)
    · omega
    · omega
    · obtain rfl : f = g := by revert hg; cases f <;> cases g <;> decide
      exact h
  · exact fun h => .inr (.inr ⟨f, rfl, h⟩)

/-- Bits 0 and 1 of the status word are `PREPARED` and `BUSY` (rule R29). -/
theorem statusWord_low (s : State) :
    (statusWord s).getLsbD 0 = s.status.prepared ∧ (statusWord s).getLsbD 1 = s.seq.busy := by
  have hflag (k : Nat) (hk : k < 8) : ¬ ∃ f : ErrorFlag, k = f.bit ∧ s.status.flag f = true := by
    rintro ⟨f, rfl, -⟩
    exact absurd f.bit_range.1 (not_le.mpr hk)
  constructor <;> rw [Bool.eq_iff_iff, statusWord_getLsbD_iff]
  · simp [hflag 0 (by decide)]
  · simp [hflag 1 (by decide)]

/-- The reserved bits of the status word read 0 (rule R29). -/
theorem statusWord_reserved (s : State) {k : Nat} (hk : (2 ≤ k ∧ k ≤ 7) ∨ 14 ≤ k) : (statusWord s).getLsbD k = false := by
  rw [Bool.eq_false_iff, ne_eq, statusWord_getLsbD_iff]
  rintro (⟨rfl, -⟩ | ⟨rfl, -⟩ | ⟨f, rfl, -⟩)
  · omega
  · omega
  · have := f.bit_range
    omega

/-- Settles O25: STATUS answers `statusWord`, whose bits are the two low ones, the flags and zeros. -/
theorem statusAnswers : Obligations.StatusAnswers := by
  unfold Obligations.StatusAnswers
  intro s
  have hflag := statusWord_flag s
  exact ⟨_, statusWord s, rfl, respond_answers s _, (statusWord_low s).1, (statusWord_low s).2, hflag .illegal,
    hflag .badRate, hflag .badCfg, hflag .notPrep, hflag .blkSize, hflag .rbOff, fun _ => statusWord_reserved s⟩

/-! ### The staging registers -/

theorem stagingOperand_of_val {idx : BitVec 8} {i : Fin 6} (h : idx.toNat = i.val) : stagingOperand idx = some i := by
  unfold stagingOperand
  rw [dif_pos (h ▸ i.isLt)]
  exact congrArg some (Fin.ext h)

/-- From 6 on no index names a staging register (rule R26). -/
theorem stagingOperand_of_le {idx : BitVec 8} (h : 6 ≤ idx.toNat) : stagingOperand idx = none :=
  dif_neg (not_lt.mpr h)

/-- The staging registers after one was written. -/
theorem cfg_set_get (cfg : Vector Word32 6) (i j : Fin 6) (w : Word32) :
    (cfg.set i w)[j] = if i.val = j.val then w else cfg[j] := by
  simp only [Fin.getElem_fin, Vector.getElem_set]

/-- Settles O27: the index selects one staging register or none. -/
theorem cfgwStages : Obligations.CfgwStages := by
  unfold Obligations.CfgwStages
  intro idx data s
  have hexec : exec (.cfgw idx data) s = execCfgw idx data s := rfl
  rw [hexec, execCfgw]
  by_cases hidx : idx.toNat < 6
  · have hop : stagingOperand idx = some ⟨idx.toNat, hidx⟩ := stagingOperand_of_val rfl
    rw [hop]
    exact ⟨_, rfl, rfl, fun i => cfg_set_get s.cfg ⟨idx.toNat, hidx⟩ i data⟩
  · rw [stagingOperand_of_le (not_lt.mp hidx)]
    exact ⟨s, rfl, rfl, fun i => (if_neg (by omega)).symm⟩

/-! ### CFGR -/

theorem cfgrWord_of_staging {idx : BitVec 8} {i : Fin 6} (h : idx.toNat = i.val) (s : State) : cfgrWord idx s = s.cfg[i] := by
  unfold cfgrWord
  rw [stagingOperand_of_val h]

/-- Behind the staging registers CFGR answers the active configuration, and 0 while not prepared (rule R322). -/
theorem cfgrWord_of_le {idx : BitVec 8} (h : 6 ≤ idx.toNat) (s : State) :
    cfgrWord idx s = if s.status.prepared = true then (activeWord s idx).getD 0x00000000#32 else 0x00000000#32 := by
  unfold cfgrWord
  rw [stagingOperand_of_le h]

/-- The indices of the active configuration are 0x10 to 0x17 (rule R27). -/
theorem activeWord_of_outside {idx : BitVec 8} (h : idx.toNat ≤ 0x0F ∨ 0x18 ≤ idx.toNat) (s : State) :
    activeWord s idx = none := by
  unfold activeWord
  split
  case h_9 => rfl
  all_goals omega

theorem cfgrWord_of_outside {idx : BitVec 8} (h : (6 ≤ idx.toNat ∧ idx.toNat ≤ 0x0F) ∨ 0x18 ≤ idx.toNat) (s : State) :
    cfgrWord idx s = 0x00000000#32 := by
  rw [cfgrWord_of_le (by omega), activeWord_of_outside (by omega)]
  exact ite_self _

/-- While prepared CFGR answers the words of the active configuration (rule R322). -/
theorem cfgrWord_of_active {idx : BitVec 8} {s : State} {w : Word32} (hp : s.status.prepared = true) (h : 6 ≤ idx.toNat)
    (hw : activeWord s idx = some w) : cfgrWord idx s = w := by
  rw [cfgrWord_of_le h, if_pos hp, hw]
  rfl

/-- Settles O26: the index is that of a staging register, of a word of the active configuration, or of nothing. -/
theorem cfgrAnswers : Obligations.CfgrAnswers := by
  unfold Obligations.CfgrAnswers
  intro idx s
  have hwiden {n : Nat} (v : BitVec n) (hn : n ≤ 32) : (v.setWidth 32).toNat = v.toNat := by
    rw [BitVec.toNat_setWidth, Nat.mod_eq_of_lt (v.isLt.trans_le (Nat.pow_le_pow_right (by decide) hn))]
  refine ⟨_, cfgrWord idx s, rfl, respond_answers s _, fun i hi => cfgrWord_of_staging hi s, fun hidx hp => ?_,
    fun hidx => cfgrWord_of_outside hidx s, fun hp => ?_⟩
  · rw [cfgrWord_of_le hidx, hp]
    rfl
  · have hactive {w : Word32} (h : 6 ≤ idx.toNat) (hw : activeWord s idx = some w) := cfgrWord_of_active hp h hw
    refine ⟨?_, ?_, ?_, ?_, ?_, ?_, ?_, ?_⟩ <;> rintro rfl <;> rw [hactive (by decide) rfl]
    all_goals exact hwiden _ (by decide)

end Sys2Proof.Machine
end

section
/-! PROOFS. SETP of a discrete cell (rules R24, R271, R272, R302 to R309). -/

set_option Elab.async false

namespace Sys2Proof.Machine

/-! ### The value at which each integer begins -/

/-- The value of a clamped number is the clamped value (rule R11). -/
theorem fvalue_fclamp {v lo hi : F32} (hv : isNaN v = false) (hl : isNaN lo = false) (hh : isNaN hi = false) :
    fvalue (fclamp v lo hi) = min (max (fvalue v) (fvalue lo)) (fvalue hi) := by
  have hmax : isNaN (fmaxBound v lo) = false ∧ fvalue (fmaxBound v lo) = max (fvalue v) (fvalue lo) := by
    unfold fmaxBound
    split_ifs with h <;> rw [flt_iff_value hv hl] at h
    · exact ⟨hl, by omega⟩
    · exact ⟨hv, by omega⟩
  unfold fclamp fminBound
  split_ifs with h <;> rw [flt_iff_value hh hmax.1] at h <;> omega

/-- The distortion type rounds half up: 1 begins at 0.5 and 2 at 1.5 (rule R272). -/
theorem convert_dtype {v : F32} (hv : isNaN v = false) :
    convert 0x20 v = if fge v 0x3FC00000#32 = true then 2 else if fge v 0x3F000000#32 = true then 1 else 0 := by
  have hz : fvalue Config.zero = 0 := by decide
  have h2 : fvalue Config.two = 2 * 2 ^ 149 := by decide +kernel
  have hhalf : fvalue 0x3F000000#32 = 2 ^ 148 := by decide +kernel
  have h15 : fvalue 0x3FC00000#32 = 3 * 2 ^ 148 := by decide +kernel
  have hclamp := fvalue_fclamp hv (show isNaN Config.zero = false by decide) (show isNaN Config.two = false by decide)
  obtain ⟨hlo, hhi⟩ := fclamp_in_range hv (show fle Config.zero Config.two = true by decide)
  obtain ⟨hf, -, -⟩ := finite_of_fle (by decide) (by decide) hlo hhi
  obtain ⟨hround, -⟩ := conversions_round hf hlo
  have hconvert : convert 0x20 v = f2uRound (fclamp v Config.zero Config.two) := rfl
  rw [hclamp, hz, h2] at hround
  simp only [hconvert, fge, fle_iff_value (show isNaN 0x3FC00000#32 = false by decide) hv,
    fle_iff_value (show isNaN 0x3F000000#32 = false by decide) hv, hhalf, h15]
  split_ifs <;> omega

/-- The other cells are switches: 1 begins at 0.5 (rule R272). -/
theorem convert_switch {pid : BitVec 8} (h : pid ≠ 0x20) (v : F32) :
    convert pid v = if fge v 0x3F000000#32 = true then 1 else 0 := if_neg h

/-! ### The cell that is written -/

/-- The identifier of a cell, by its place among the eight (rule R270). -/
def cellPid (k : Fin 8) : BitVec 8 := BitVec.ofNat 8 (0x20 + k.val)

/-- How many values a cell can hold: the distortion type has two bits, every other cell one (rule R24). -/
def cellModulus (k : Fin 8) : Nat := if k = 0 then 4 else 2

/-- `setCell` writes the cell of its identifier, and no other: its eight arms against the eight entries of `cellNat`
(rule R24). -/
theorem cellNat_setCell (s : State) (k j : Fin 8) (n : Nat) :
    cellNat (setCell s (cellPid k) n) j = if j = k then n % cellModulus k else cellNat s j := by
  fin_cases k <;> fin_cases j <;> simp [cellNat, setCell, cellPid, cellModulus]

/-- SETP of a cell with a number writes the converted value (rule R271). -/
theorem setParameter_cellPid (k : Fin 8) {v : F32} (hv : isNaN v = false) (s : State) :
    setParameter (cellPid k) v s = setCell s (cellPid k) (convert (cellPid k) v) := by
  have hrecognised : recognisedPid (cellPid k) = true := by revert k; decide
  have hop : smoothedOperand (cellPid k) = none := by revert k; decide
  simp [setParameter, hrecognised, hv, hop]

/-- What a number converts to for each cell fits into the cell (rules R24, R272). -/
theorem convert_cellPid (k : Fin 8) {v : F32} (hv : isNaN v = false) :
    convert (cellPid k) v % cellModulus k =
      if k = 0 ∧ fge v 0x3FC00000#32 = true then 2 else if fge v 0x3F000000#32 = true then 1 else 0 := by
  by_cases hk : k = 0
  · subst hk
    rw [show cellPid 0 = 0x20 from rfl, convert_dtype hv, show cellModulus 0 = 4 from rfl]
    simp only [true_and]
    split_ifs <;> rfl
  · have hpid : cellPid k ≠ 0x20 := by revert k; decide
    rw [convert_switch hpid, cellModulus, if_neg hk]
    simp only [hk, false_and, if_false]
    split_ifs <;> rfl

/-- Settles O22: the command is SETP of the cell's identifier, which writes the converted value into that cell alone. -/
theorem setpCell : Obligations.SetpCell := by
  unfold Obligations.SetpCell
  intro k v s hv
  have hexec : exec (cellCommand k v) s = .next (setCell s (cellPid k) (convert (cellPid k) v)) := by
    rw [exec_cellCommand_eq_setParameter, ← setParameter_cellPid k hv]
    rfl
  have hframe : setCell s (cellPid k) (convert (cellPid k) v) =
      { s with cells := (setCell s (cellPid k) (convert (cellPid k) v)).cells } := by
    obtain ⟨c, hc⟩ := setCell_eq s (cellPid k) (convert (cellPid k) v)
    rw [hc]
    rfl
  refine ⟨_, hexec, hframe, fun j hj => ?_, ?_⟩
  · rw [cellNat_setCell, if_neg hj]
  · rw [cellNat_setCell, if_pos rfl, convert_cellPid k hv]

end Sys2Proof.Machine
end

section
/-! PROOFS. Which commands clear an error flag, latch a configuration or move `PREPARED` (rules R27, R29, R153, R327). -/

set_option Elab.async false

namespace Sys2Proof.Machine

/-- `t` has the active configuration and the `PREPARED` of `s`, and every error flag that is set in `s`. -/
structure KeepsStatus (s t : State) : Prop where
  act : t.act = s.act
  prepared : t.status.prepared = s.status.prepared
  flags : ∀ f : ErrorFlag, s.status.flag f = true → t.status.flag f = true

theorem KeepsStatus.of_eq {s t : State} (ha : t.act = s.act) (hs : t.status = s.status) : KeepsStatus s t :=
  ⟨ha, by rw [hs], fun f h => by rw [hs]; exact h⟩

theorem KeepsStatus.trans {s t u : State} (h : KeepsStatus s t) (h' : KeepsStatus t u) : KeepsStatus s u :=
  ⟨h'.act.trans h.act, h'.prepared.trans h.prepared, fun f hf => h'.flags f (h.flags f hf)⟩

theorem KeepsStatus.raise (s : State) (f : ErrorFlag) : KeepsStatus s (s.raise f) :=
  ⟨rfl, raise_prepared s f, fun g hg => by rw [raise_flag, hg, Bool.or_true]⟩

theorem KeepsStatus.respond (s : State) (w : Word32) : KeepsStatus s (s.respond w) :=
  .of_eq (respond_act s w) (respond_status s w)

theorem KeepsStatus.setParameter (pid : BitVec 8) (v : F32) (s : State) : KeepsStatus s (setParameter pid v s) := by
  obtain ⟨sp, cells, dirty, h⟩ := setParameter_eq pid v s
  rw [h]
  exact .of_eq rfl rfl

/-! ### Commands -/

theorem KeepsStatus.cleared (s : State) : KeepsStatus s (clearUnits (spSnap (rbClear s))) :=
  .of_eq (by simp) (by simp)

theorem KeepsStatus.execReset {s t : State} (h : execReset s = .next t) : KeepsStatus s t := by
  unfold Machine.execReset at h
  split_ifs at h <;> cases h
  · exact .raise s _
  · exact .cleared s

theorem KeepsStatus.execProcess {n : BitVec 16} {s t : State} (h : execProcess n s = .next t) : KeepsStatus s t := by
  unfold Machine.execProcess at h
  split_ifs at h <;> cases h
  · exact .of_eq rfl rfl
  · exact .raise s _
  · exact (KeepsStatus.raise s .blkSize).trans (.of_eq rfl rfl)
  · exact .of_eq rfl rfl

theorem KeepsStatus.execRbwr {ch : BitVec 8} {v : F32} {s t : State} (h : execRbwr ch v s = .next t) :
    KeepsStatus s t := by
  unfold Machine.execRbwr at h
  split_ifs at h
  · cases h
    exact .raise s _
  · split at h
    · cases h
      exact .of_eq rfl rfl
    · next c _ =>
      cases hw : rbWrite c v s with
      | error f => rw [hw] at h; cases h
      | ok u =>
        rw [hw] at h
        cases h
        obtain ⟨m, wc, rfl⟩ := rbWrite_state hw
        exact .of_eq rfl rfl

theorem KeepsStatus.execRbrd {ch : BitVec 8} {k : Word32} {s t : State} (h : execRbrd ch k s = .next t) :
    KeepsStatus s t := by
  unfold Machine.execRbrd at h
  split at h
  · cases h
    exact (KeepsStatus.raise s _).trans (.respond _ _)
  · split at h
    · cases h
      exact .respond s _
    · dsimp only at h
      split at h
      · cases h
      · cases h
        refine .trans ?_ (.respond _ _)
        split_ifs
        · exact .raise s _
        · exact .of_eq rfl rfl

theorem KeepsStatus.execRbclr {s t : State} (h : execRbclr s = .next t) : KeepsStatus s t := by
  unfold Machine.execRbclr at h
  split_ifs at h <;> cases h
  · exact .raise s _
  · exact .of_eq rfl rfl

theorem KeepsStatus.execCfgw {idx : BitVec 8} {d : Word32} {s t : State} (h : execCfgw idx d s = .next t) :
    KeepsStatus s t := by
  unfold Machine.execCfgw at h
  split at h <;> cases h <;> exact .of_eq rfl rfl

/-- Every command but PREPARE and CLRERR keeps the active configuration, `PREPARED` and the flags that are set
(rules R27, R29). -/
theorem KeepsStatus.exec {i : Instr} {s t : State} (h : exec i s = .next t) (hp : i ≠ .prepare) (hc : i ≠ .clrerr) :
    KeepsStatus s t := by
  cases hi : i.engineClass
  case false =>
    rcases exec_control_cases s hi with e | ⟨pid, v, e⟩ | ⟨w, e⟩ <;> rw [e] at h <;> cases h
    · exact .of_eq rfl rfl
    · exact .setParameter pid v s
    · exact .respond s w
  case true =>
    cases i
    case cfgw => exact .execCfgw h
    case prepare => exact absurd rfl hp
    case reset => exact .execReset h
    case process => exact .execProcess h
    case rbwr => exact .execRbwr h
    case rbrd => exact .execRbrd h
    case rbclr => exact .execRbclr h
    case clrerr => exact absurd rfl hc
    all_goals exact (Bool.false_ne_true hi).elim

/-- PREPARE clears no flag, and where it fails it keeps the active configuration (rules R324, R325). -/
theorem execPrepare_keeps {s t : State} (h : execPrepare s = .next t) :
    (∀ f : ErrorFlag, s.status.flag f = true → t.status.flag f = true) ∧ (t.act ≠ s.act → t.status.prepared = true) := by
  unfold execPrepare at h
  split at h <;> cases h
  · refine ⟨fun f hf => ?_, fun _ => rfl⟩
    rw [prepared_frame]
    cases f <;> exact hf
  · next fs _ =>
    obtain ⟨u, hu, -, hflag⟩ := raiseAll_eq s (prepareFailures s.cfg)
    rw [hu]
    refine ⟨fun f hf => ?_, fun hact => absurd rfl hact⟩
    have hkept : u.flag f = true := by rw [hflag, hf, Bool.or_true]
    cases f <;> exact hkept

/-- CLRERR keeps the active configuration and `PREPARED` (rule R327). -/
theorem clearErrors_keeps (s : State) : s.clearErrors.act = s.act ∧ s.clearErrors.status.prepared = s.status.prepared :=
  ⟨rfl, rfl⟩

/-! ### The step -/

theorem KeepsStatus.takes {s t : State} {q : Queue} {w : Command} (h : Takes s q w t) : KeepsStatus s t := by
  cases h <;> exact .of_eq rfl rfl

theorem KeepsStatus.enters {s u : State} (h : Enters s u) : KeepsStatus s u := by
  obtain ⟨n, rfl⟩ := h.eq
  exact .of_eq rfl rfl

theorem KeepsStatus.endFrame (s : State) : KeepsStatus s (endFrame s) := by
  rcases endFrame_cases s with ⟨-, e⟩ | ⟨-, e⟩ <;> rw [e] <;> exact .of_eq rfl rfl

theorem KeepsStatus.passWord (k : Nat) (s : State) : KeepsStatus s (passWord k s) := by
  rcases passWord_cases k s with ⟨-, e⟩ | ⟨w, rest, -, hword⟩
  · rw [e]
    exact .of_eq rfl rfl
  · dsimp only at hword
    rcases hword with ⟨-, e⟩ | ⟨-, e⟩ <;> rw [e]
    · exact .of_eq rfl rfl
    · refine .trans ?_ (.endFrame _)
      exact .of_eq rfl rfl

/-- A piece of a running block changes neither the configuration nor a flag (rules R30, R250 to R252). -/
theorem KeepsStatus.engineStep {s t : State} (h : engineStep s = .next t) : KeepsStatus s t := by
  rcases engineStep_cases s with
    ⟨-, e⟩ | ⟨k, -, -, e⟩ | ⟨-, -, -, e⟩ | ⟨f, -, -, -, e⟩ | ⟨u, -, -, -, hu, e⟩ <;> rw [e] at h <;> cases h
  · exact .of_eq rfl rfl
  · exact .passWord k s
  · exact .of_eq rfl rfl
  · obtain ⟨d, m, w, p, q, ws, rfl⟩ := frameStep_state hu
    refine .trans ?_ (.endFrame _)
    exact .of_eq (by simp) (by simp)

/-- An `AQ` word is taken outside a block, and it is the first of its queue (rule R70). -/
theorem Takes.of_audio {s t : State} {w : Command} (h : Takes s .audio w t) :
    s.seq.busy = false ∧ ∃ rest, s.io.aq = w :: rest := by
  cases h with
  | audio w rest _ hb ha | audioFirst w rest _ hb ha => exact ⟨hb, rest, ha⟩

theorem decode_of_classify {q : Queue} {w : Command} {i : Instr} (h : classify q w = .ok i) : decode w = .ok i := by
  unfold classify at h
  cases hd : decode w with
  | error e => rw [hd] at h; cases h
  | ok j =>
    rw [hd] at h
    dsimp only at h
    split_ifs at h
    cases h
    rfl

/-- A step, while `RST` is not asserted, keeps the active configuration, `PREPARED` and the flags that are set, unless it
executes a PREPARE or a CLRERR from `AQ`, outside a block (rules R29, R153). -/
theorem step_keepsStatus_or {s t : State} (hr : s.io.rst = false) (h : step s = .next t) :
    KeepsStatus s t ∨ s.seq.busy = false ∧ ∃ w rest i u, s.io.aq = w :: rest ∧ decode w = .ok i ∧
      (i = .prepare ∨ i = .clrerr) ∧ KeepsStatus s u ∧ exec i u = .next t := by
  rcases step_cases s with ⟨hr', -⟩ | ⟨-, -, -, -, e⟩ | ⟨q, w, u, hu, e⟩ | ⟨-, -, u, hu, e⟩
  · exact (Bool.false_ne_true (hr.symm.trans hr')).elim
  · rw [e] at h
    cases h
    exact .inl (.of_eq rfl rfl)
  · rw [e] at h
    have htaken : KeepsStatus s u := .takes hu
    rcases perform_cases q w u with ⟨_, -, e'⟩ | ⟨i, hi, e'⟩ <;> rw [e'] at h
    · cases h
      exact .inl (htaken.trans (.raise u _))
    · by_cases hpc : i = .prepare ∨ i = .clrerr
      · have hengine : i.engineClass = true := by rcases hpc with rfl | rfl <;> rfl
        obtain rfl := audio_of_engineClass hi hengine
        obtain ⟨hb, rest, ha⟩ := hu.of_audio
        exact .inr ⟨hb, w, rest, i, u.setIssuer .audio, ha, decode_of_classify hi, hpc,
          htaken.trans (.of_eq rfl rfl), h⟩
      · rw [not_or] at hpc
        have hset : KeepsStatus u (u.setIssuer q) := .of_eq rfl rfl
        exact .inl (htaken.trans (hset.trans (.exec h hpc.1 hpc.2)))
  · rw [e] at h
    exact .inl ((KeepsStatus.enters hu).trans (.engineStep h))

/-- Settles O17: of the two commands that a step may execute and that move the status, PREPARE clears no flag. -/
theorem errorFlagsAreSticky : Obligations.ErrorFlagsAreSticky := by
  unfold Obligations.ErrorFlagsAreSticky
  intro s t f hr ht hs hcleared
  rcases step_keepsStatus_or hr ht with hkeeps | ⟨hb, w, rest, i, u, ha, hd, hi, hu, hexec⟩
  · exact (Bool.false_ne_true (hcleared.symm.trans (hkeeps.flags f hs))).elim
  · rcases hi with rfl | rfl
    · have hset := (execPrepare_keeps hexec).1 f (hu.flags f hs)
      exact (Bool.false_ne_true (hcleared.symm.trans hset)).elim
    · exact ⟨hb, w, rest, ha, hd⟩

/-- Settles O18: of the two commands that a step may execute and that move the status, CLRERR keeps the configuration and
`PREPARED`. -/
theorem onlyPrepareConfigures : Obligations.OnlyPrepareConfigures := by
  unfold Obligations.OnlyPrepareConfigures
  intro s t hr ht
  rcases step_keepsStatus_or hr ht with hkeeps | ⟨hb, w, rest, i, u, ha, hd, hi, hu, hexec⟩
  · refine ⟨fun h => ?_, fun h => absurd hkeeps.act h⟩
    exact (h.elim (absurd hkeeps.act) (absurd hkeeps.prepared))
  · rcases hi with rfl | rfl
    · refine ⟨fun _ => ⟨hb, w, rest, ha, hd⟩, fun hact => (execPrepare_keeps hexec).2 ?_⟩
      rwa [hu.act]
    · obtain rfl : u.clearErrors = t := Host.Outcome.next.inj hexec
      obtain ⟨hact, hprep⟩ := clearErrors_keeps u
      rw [hu.act] at hact
      rw [hu.prepared] at hprep
      exact ⟨fun h => h.elim (absurd hact) (absurd hprep), absurd hact⟩

end Sys2Proof.Machine
end

section
/-! PROOFS. A frame step, stage after stage (rules R252 to R255). -/

set_option Elab.async false

namespace Sys2Proof.Machine

/-! ### A stage that treats each channel by itself -/

/-- The treatment of a channel neither reads nor writes the registers `ρ` of another channel. -/
structure ChannelLocal {α : Type} (f : Fin 2 → F32 → State → F32 × State) (ρ : State → Fin 2 → α) : Prop where
  answer : ∀ {c d : Fin 2} (x y : F32) (s : State), d ≠ c → (f d y (f c x s).2).1 = (f d y s).1
  own : ∀ {c d : Fin 2} (x y : F32) (s : State), d ≠ c → ρ (f d y (f c x s).2).2 d = ρ (f d y s).2 d
  other : ∀ {c d : Fin 2} (x : F32) (s : State), d ≠ c → ρ (f c x s).2 d = ρ s d

/-- One turn of the loop of `eachChannel`. -/
def channelTurn (f : Fin 2 → F32 → State → F32 × State) (p : Frame × State) (c : Fin 2) : Frame × State :=
  (p.1.set c (f c p.1[c] p.2).1, (f c p.1[c] p.2).2)

theorem eachChannel_eq_foldl (f : Fin 2 → F32 → State → F32 × State) (x : Frame) (s : State) :
    eachChannel f x s = s.channels.foldl (channelTurn f) (x, s) := rfl

section
variable {α : Type} {f : Fin 2 → F32 → State → F32 × State} {ρ : State → Fin 2 → α} (hf : ChannelLocal f ρ)
include hf

/-- A channel that the loop does not go over keeps its sample and its registers. -/
theorem ChannelLocal.foldl_of_notMem {cs : List (Fin 2)} {c : Fin 2} (hc : c ∉ cs) (p : Frame × State) :
    (cs.foldl (channelTurn f) p).1[c] = p.1[c] ∧ ρ (cs.foldl (channelTurn f) p).2 c = ρ p.2 c := by
  induction cs generalizing p with
  | nil => exact ⟨rfl, rfl⟩
  | cons d rest ih =>
    obtain ⟨hne, hrest⟩ : c ≠ d ∧ c ∉ rest := by simpa using hc
    obtain ⟨h1, h2⟩ := ih hrest (channelTurn f p d)
    rw [List.foldl_cons, h1, h2]
    exact ⟨by rw [channelTurn, Vector.get_set_two, if_neg hne], hf.other _ _ hne⟩

/-- A channel that the loop goes over once is treated as if it were the only one. -/
theorem ChannelLocal.foldl_of_mem {cs : List (Fin 2)} (hnd : cs.Nodup) {c : Fin 2} (hc : c ∈ cs) (p : Frame × State) :
    (cs.foldl (channelTurn f) p).1[c] = (f c p.1[c] p.2).1 ∧
      ρ (cs.foldl (channelTurn f) p).2 c = ρ (f c p.1[c] p.2).2 c := by
  induction cs generalizing p with
  | nil => exact absurd hc List.not_mem_nil
  | cons d rest ih =>
    obtain ⟨hnot, hnd⟩ := List.nodup_cons.mp hnd
    rw [List.foldl_cons]
    by_cases hcd : c = d
    · subst hcd
      obtain ⟨h1, h2⟩ := hf.foldl_of_notMem hnot (channelTurn f p c)
      rw [h1, h2]
      exact ⟨by rw [channelTurn, Vector.get_set_two, if_pos rfl], rfl⟩
    · have hrest : c ∈ rest := (List.mem_cons.mp hc).resolve_left hcd
      have hsample : (channelTurn f p d).1[c] = p.1[c] := by rw [channelTurn, Vector.get_set_two, if_neg hcd]
      obtain ⟨h1, h2⟩ := ih hnd hrest (channelTurn f p d)
      rw [h1, h2, hsample]
      exact ⟨hf.answer _ _ _ hcd, hf.own _ _ _ hcd⟩

/-- A stage over the channels of a ring in order: every channel in use is treated, no other is touched. -/
theorem ChannelLocal.eachChannel {s : State} (h : RingOk s) (x : Frame) (c : Fin 2) :
    (c.val < s.act.nch.toNat → (eachChannel f x s).1[c] = (f c x[c] s).1 ∧
      ρ (eachChannel f x s).2 c = ρ (f c x[c] s).2 c) ∧
    (s.act.nch.toNat ≤ c.val → ρ (eachChannel f x s).2 c = ρ s c) := by
  rw [eachChannel_eq_foldl]
  constructor <;> intro hc
  · exact hf.foldl_of_mem nodup_channels ((mem_channels_iff h).mpr hc) (x, s)
  · exact (hf.foldl_of_notMem (fun hmem => absurd ((mem_channels_iff h).mp hmem) (not_lt.mpr hc)) (x, s)).2

end

/-- The distortion reads and writes the DC-blocker registers of its own channel (rule R162). -/
theorem dist_channelLocal : ChannelLocal dist fun s c => s.dc[c] := by
  have hget (c d : Fin 2) (x : F32) (s : State) :
      (dist c x s).2.dc[d] = if d = c then ⟨x, (dcBlock c x s).1⟩ else s.dc[d] := Vector.get_set_two _ _ _ _
  have hother (c d : Fin 2) (x : F32) (s : State) (h : d ≠ c) : (dist c x s).2.dc[d] = s.dc[d] := by rw [hget, if_neg h]
  have hblock (c d : Fin 2) (x y : F32) (s : State) (h : d ≠ c) :
      (dcBlock d y (dist c x s).2).1 = (dcBlock d y s).1 := by
    show fadd (fsub y (dist c x s).2.dc[d].x1) (fmul s.act.dcbR (dist c x s).2.dc[d].y1) = _
    rw [hother c d x s h]
    rfl
  exact {
    answer := fun {c d} x y s h => by
      rw [dist_fst, dist_fst, hblock c d x y s h]
      rfl
    own := fun {c d} x y s h => by rw [hget d d, hget d d, hblock c d x y s h, if_pos rfl, if_pos rfl]
    other := fun {c d} x s h => hother c d x s h }

/-- The cascade of a channel depends on the cells, the coefficients and the channel's own registers (rule R229). -/
theorem cascade_congr {s t : State} {c : Fin 2} (hcells : t.cells = s.cells) (hcoef : t.coef = s.coef)
    (hbq : ∀ b : Fin 4, t.bq[b][c] = s.bq[b][c]) (x : F32) : cascade t c x = cascade s c x := by
  have hband (b : Fin 4) (y : F32) : bandStep t c b y = bandStep s c b y := by
    unfold bandStep
    rw [hcells, hcoef, hbq]
  unfold cascade
  simp only [hband]

/-- The equalizer reads and writes the biquad registers of its own channel (rule R229). -/
theorem eqChannel_channelLocal : ChannelLocal eqChannel fun s c => fun b : Fin 4 => s.bq[b][c] := by
  have hget (c d : Fin 2) (x : F32) (s : State) (b : Fin 4) :
      (eqChannel c x s).2.bq[b][d] = if d = c then (cascade s c x)[b].2 else s.bq[b][d] := by
    rw [eqChannel_eq]
    exact cascadeRegisters_get s c d x b
  have hcascade (c d : Fin 2) (x y : F32) (s : State) (h : d ≠ c) :
      cascade (eqChannel c x s).2 d y = cascade s d y := by
    obtain ⟨q, hq⟩ := eqChannel_state c x s
    refine cascade_congr (by rw [hq]; rfl) (by rw [hq]; rfl) (fun b => ?_) y
    rw [hget, if_neg h]
  exact {
    answer := fun {c d} x y s h => by rw [eqChannel_eq d, eqChannel_eq d, hcascade c d x y s h]
    own := fun {c d} x y s h => funext fun b => by rw [hget d d, hget d d, hcascade c d x y s h, if_pos rfl, if_pos rfl]
    other := fun {c d} x s h => funext fun b => by rw [hget, if_neg h] }

/-! ### Steps 1 to 5: tick, input, gain, distortion -/

/-- The current values after the tick of a frame (rule R127). -/
def tickedCur (s : State) (i : SpIdx) : F32 := (spTick s.popFrame).sp[i].cur

/-- The tick, with the words of the frame popped, changes neither the configuration nor the cursors. -/
theorem RingOk.ticked {s : State} (h : RingOk s) : RingOk (spTick s.popFrame) := h.congr (by simp) (by simp)

/-- A gain multiplies the samples of the channels in use (rules R253, R254). -/
theorem applyGain_get (g : F32) (x : Frame) (s : State) (c : Fin 2) :
    (applyGain g x s)[c] = if c ∈ s.channels then fmul x[c] g else x[c] := foldl_set_getElem (fun c => fmul x[c] g) _ _ _

/-- The words of a frame, channel 0 first (rule R252). -/
theorem inputFrame_get {s : State} {c : Fin 2} (hc : c ∈ s.channels) :
    (inputFrame s)[c] = s.frameSupply.getD c.val Config.zero :=
  (foldl_set_getElem (fun c : Fin 2 => s.frameSupply.getD c.val Config.zero) _ _ _).trans (if_pos hc)

/-- Steps 1 and 4: the frame behind the input gain. -/
def gainedFrame (s : State) : Frame :=
  applyGain (Config.num.fns.db2lin (tickedCur s inGain)) (inputFrame s) (spTick s.popFrame)

theorem gainedFrame_get {s : State} (h : RingOk s) {c : Fin 2} (hc : c.val < s.act.nch.toNat) :
    (gainedFrame s)[c] = gainedSample s (tickedCur s) c := by
  have hmem : c ∈ s.channels := (mem_channels_iff h).mpr hc
  have hchannels : (spTick s.popFrame).channels = s.channels := by simp [State.channels]
  rw [gainedFrame, applyGain_get, hchannels, if_pos hmem, inputFrame_get hmem]
  rfl

/-- Steps 1 to 5: the frame behind the distortion, and the state with its DC-blocker registers. -/
def distStage (s : State) : Frame × State := eachChannel dist (gainedFrame s) (spTick s.popFrame)

theorem distStage_state (s : State) : ∃ d, (distStage s).2 = (spTick s.popFrame).setDc d :=
  eachChannel_dist_state _ _

/-- The stage answers the distorted sample of a channel in use, and leaves the input and the output of its DC blocker in the
channel's registers (rules R162, R168). -/
theorem distStage_used {s : State} (h : RingOk s) {c : Fin 2} (hc : c.val < s.act.nch.toNat) :
    (distStage s).1[c] = distortedSample s (tickedCur s) c ∧
      (distStage s).2.dc[c] = ⟨gainedSample s (tickedCur s) c, blockedSample s (tickedCur s) c⟩ := by
  have hact : (spTick s.popFrame).act = s.act := by simp
  have hblock : (dcBlock c (gainedSample s (tickedCur s) c) (spTick s.popFrame)).1 = blockedSample s (tickedCur s) c := by
    simp only [dcBlock, hact, spTick_dc, popFrame_dc]
    rfl
  obtain ⟨hanswer, hreg⟩ := (dist_channelLocal.eachChannel h.ticked (gainedFrame s) c).1 (by rw [hact]; exact hc)
  rw [gainedFrame_get h hc] at hanswer hreg
  rw [dist_fst, hblock, spTick_cells, popFrame_cells] at hanswer
  rw [dist_snd, (dcBlock_registers c _ _).1, hblock] at hreg
  exact ⟨hanswer, hreg⟩

theorem distStage_unused {s : State} (h : RingOk s) {c : Fin 2} (hc : s.act.nch.toNat ≤ c.val) :
    (distStage s).2.dc[c] = s.dc[c] := by
  have hact : (spTick s.popFrame).act = s.act := by simp
  have hkept := (dist_channelLocal.eachChannel h.ticked (gainedFrame s) c).2 (by rw [hact]; exact hc)
  rw [spTick_dc, popFrame_dc] at hkept
  exact hkept

/-! ### Step 6: the delay stage -/

/-- The writes of the delay stage move the cursor of every channel in use by one, and no other cursor (rules R144, R189). -/
theorem RingOk.writeChannels_cursors {s t : State} (h : RingOk s) {f : Fin 2 → F32} {cs : List (Fin 2)} (hnd : cs.Nodup)
    (hcs : ∀ c ∈ cs, c.val < s.act.nch.toNat) (ht : cs.foldlM (fun t (c : Fin 2) => rbWrite c (f c) t) s = .ok t)
    (c : Fin 2) :
    (c ∈ cs → t.wc[c].toNat = (s.wc[c].toNat + 1) % s.act.cap.toNat) ∧ (c ∉ cs → t.wc[c] = s.wc[c]) := by
  induction cs generalizing s with
  | nil =>
    cases ht
    exact ⟨fun hc => absurd hc List.not_mem_nil, fun _ => rfl⟩
  | cons d rest ih =>
    obtain ⟨hnot, hnd⟩ := List.nodup_cons.mp hnd
    have hd : d.val < s.act.nch.toNat := hcs d (by simp)
    obtain ⟨u, hw⟩ : ∃ u, rbWrite d (f d) s = .ok u := ⟨_, rbWrite_of_ringOk h hd (f d)⟩
    rw [List.foldlM_cons, hw] at ht
    obtain ⟨hact, hmoved, hkept⟩ := h.rbWrite_moves hw
    obtain ⟨hin, hout⟩ := ih (h.write hd hw) hnd (fun e he => by rw [hact]; exact hcs e (by simp [he])) ht
    rw [hact] at hin
    by_cases hcd : c = d
    · subst hcd
      exact ⟨fun _ => by rw [hout hnot, hmoved], fun hc => absurd (by simp) hc⟩
    · rw [hkept c hcd] at hin hout
      simpa [hcd] using ⟨hin, hout⟩

/-- The delay stage answers from the ring before the frame, stores a word and advances the cursor for every channel in use, and
leaves every other word and cursor (rules R144, R184 to R189). -/
structure DelayEffect (x y : Frame) (s t : State) : Prop where
  frame : ∃ m w, t = (s.setDram m).setWc w
  mixed : ∀ c : Fin 2, c.val < s.act.nch.toNat →
    y[c] = delayMixOf (s.cur dlyMix) x[c] (ringWord s c (delaySamples c s))
  stored : ∀ c : Fin 2, c.val < s.act.nch.toNat → memLookup t.dram (rbWaddr c s) =
    fadd x[c] (fmul (ringWord s (feedbackChannel s c) (delaySamples (feedbackChannel s c) s)) (s.cur feedback))
  kept : ∀ a, (∀ c : Fin 2, c.val < s.act.nch.toNat → a ≠ rbWaddr c s) → memLookup t.dram a = memLookup s.dram a
  advanced : ∀ c : Fin 2, c.val < s.act.nch.toNat → t.wc[c].toNat = (s.wc[c].toNat + 1) % s.act.cap.toNat
  unused : ∀ c : Fin 2, s.act.nch.toNat ≤ c.val → t.wc[c] = s.wc[c]

theorem RingOk.delayFrame_effect {s : State} (h : RingOk s) (hm : Memory.wf s.dram = true) (x : Frame) :
    ∃ y t, delayFrame x s = .ok (y, t) ∧ DelayEffect x y s t := by
  obtain ⟨t, ht, hstore, hkept⟩ := h.writeRings x (ringFrame s) hm
  have hcursor (c : Fin 2) := h.writeChannels_cursors nodup_channels (fun d hd => mem_channels_lt h hd) ht c
  refine ⟨_, t, delayFrame_of_writeRings h ht, writeRings_state ht, fun c hc => ?_, fun c hc => ?_, hkept,
    fun c hc => (hcursor c).1 ((mem_channels_iff h).mpr hc), fun c hc => (hcursor c).2 fun hmem => ?_⟩
  · rw [foldl_set_getElem, if_pos ((mem_channels_iff h).mpr hc), h.ringFrame_getElem hc]
  · rw [hstore c hc, delayWriteValue, feedbackSource_eq, h.ringFrame_getElem (feedbackChannel_lt hc)]
  · exact absurd ((mem_channels_iff h).mp hmem) (not_lt.mpr hc)

/-- What the stages up to the distortion leave for the delay stage: the ring, the cells and the units behind it as before the
frame, and the ticked registers. -/
theorem distStage_parts (s : State) : (distStage s).2.sp = (spTick s.popFrame).sp ∧ (distStage s).2.cells = s.cells ∧
    (distStage s).2.act = s.act ∧ (distStage s).2.wc = s.wc ∧ (distStage s).2.dram = s.dram ∧
    (distStage s).2.ph = s.ph ∧ (distStage s).2.coef = s.coef ∧ (distStage s).2.bq = s.bq ∧
    (distStage s).2.io.aout = s.io.aout := by
  obtain ⟨d, hd⟩ := distStage_state s
  rw [hd]
  simp

/-- The word of the ring at an offset depends on the configuration, the cursors and the delay RAM. -/
theorem ringWord_congr {s t : State} (hact : t.act = s.act) (hwc : t.wc = s.wc) (hdram : t.dram = s.dram) (c : Fin 2)
    (k : Nat) : ringWord t c k = ringWord s c k := by
  unfold ringWord
  rw [hact, hwc, hdram]

/-- The delay stage of a frame reads the delayed samples of the ring before the frame (rules R183, R184). -/
theorem distStage_delayed (s : State) (c : Fin 2) :
    ringWord (distStage s).2 c (delaySamples c (distStage s).2) = delayedSample s (tickedCur s) c := by
  obtain ⟨hsp, -, hact, hwc, hdram, -⟩ := distStage_parts s
  rw [ringWord_congr hact hwc hdram, delaySamples, State.cur, hsp, hact]
  rfl

/-- What the stages up to the delay leave for the panner: cells, configuration, phases, coefficients and biquads as before
the frame, the ticked registers, the DC blockers behind the distortion, and a ring in order. -/
structure BehindDelay (s u : State) : Prop where
  sp : u.sp = (spTick s.popFrame).sp
  cells : u.cells = s.cells
  act : u.act = s.act
  ph : u.ph = s.ph
  coef : u.coef = s.coef
  bq : u.bq = s.bq
  dc : u.dc = (distStage s).2.dc
  aout : u.io.aout = s.io.aout
  ring : RingOk u

theorem BehindDelay.cur {s u : State} (h : BehindDelay s u) (i : SpIdx) : u.cur i = tickedCur s i := by
  rw [State.cur, h.sp, tickedCur]

theorem behindDelay_of_delayFrame {s u : State} (h : RingOk s) {y : Frame}
    (hd : delayFrame (distStage s).1 (distStage s).2 = .ok (y, u)) : BehindDelay s u := by
  obtain ⟨hsp, hcells, hact, hwc, -, hph, hcoef, hbq, haout⟩ := distStage_parts s
  obtain ⟨y', u', hd', hring⟩ := delayFrame_of_ringOk (h.congr hact hwc) (distStage s).1
  obtain ⟨rfl, rfl⟩ := Prod.mk.inj (Except.ok.inj (hd.symm.trans hd'))
  obtain ⟨m, w, rfl⟩ := delayFrame_state hd
  exact ⟨hsp, hcells, hact, hph, hcoef, hbq, rfl, haout, hring⟩

/-- The delay stage of a frame: its samples, its writes and its cursors, by the state before the frame (rules R144, R188,
R189). -/
theorem RingOk.frame_delay {s : State} (h : RingOk s) (hm : Memory.wf s.dram = true) :
    ∃ y u, delayFrame (distStage s).1 (distStage s).2 = .ok (y, u) ∧
      (∀ c : Fin 2, c.val < s.act.nch.toNat → y[c] = mixedSample s (tickedCur s) c) ∧
      (∀ c : Fin 2, c.val < s.act.nch.toNat → u.wc[c].toNat = (s.wc[c].toNat + 1) % s.act.cap.toNat ∧
        memLookup u.dram (rbWaddr c s) = storedSample s (tickedCur s) c) ∧
      (∀ c : Fin 2, s.act.nch.toNat ≤ c.val → u.wc[c] = s.wc[c]) ∧
      ∀ a, (∀ c : Fin 2, c.val < s.act.nch.toNat → a ≠ rbWaddr c s) → memLookup u.dram a = memLookup s.dram a := by
  obtain ⟨hsp, hcells, hact, hwc, hdram, -⟩ := distStage_parts s
  have hcur (i : SpIdx) : (distStage s).2.cur i = tickedCur s i := by rw [State.cur, hsp, tickedCur]
  have hwaddr (c : Fin 2) : rbWaddr c (distStage s).2 = rbWaddr c s := by unfold rbWaddr; rw [hact, hwc]
  have hsource (c : Fin 2) : feedbackChannel (distStage s).2 c = feedbackChannel s c := by
    unfold feedbackChannel
    rw [hcells, hact]
  obtain ⟨y, u, hd, he⟩ := (h.congr hact hwc).delayFrame_effect (by rw [hdram]; exact hm) (distStage s).1
  obtain ⟨-, hmixed, hstored, hkept, hadvanced, hunused⟩ := he
  simp only [hact, hwaddr, hwc, hdram, hcur, hsource, distStage_delayed] at hmixed hstored hkept hadvanced hunused
  refine ⟨y, u, hd, fun c hc => ?_, fun c hc => ⟨hadvanced c hc, ?_⟩, hunused, hkept⟩
  · rw [hmixed c hc, (distStage_used h hc).1]
    rfl
  · rw [hstored c hc, (distStage_used h hc).1]
    rfl

/-! ### Step 7: the panner -/

/-- The panner of the channels in use, sample by sample (rules R207 to R209). -/
theorem panMix_get {s : State} (h : RingOk s) (x : Frame) {c : Fin 2} (hc : c.val < s.act.nch.toNat) :
    (panMix x s)[c] = panned s (fun i => s.sp[i].cur) (fun d => x[d]) c := by
  have hnch : c = 1 → s.act.nch = 2#2 := by
    rintro rfl
    rcases channels_of_ringOk h with ⟨e, -⟩ | ⟨e, -⟩
    · rw [e] at hc
      exact absurd hc (by decide)
    · exact e
  simp only [panMix, panned, finalPan_eq_lanePan, panGains_eq]
  fin_cases c
  · simp only [Fin.zero_eta, if_true]
    split_ifs <;> rfl
  · simp only [Fin.mk_one, hnch rfl, if_true, one_ne_zero, if_false]
    split_ifs <;> rfl

/-- The panner depends on the cells, the channel count, the phases, the registers and the samples of the channels in use. -/
theorem panned_congr {s t : State} {p : SpIdx → F32} {x y : Fin 2 → F32} (hcells : t.cells = s.cells)
    (hact : t.act = s.act) (hph : t.ph = s.ph) (hxy : ∀ c : Fin 2, c.val < s.act.nch.toNat → x c = y c)
    {c : Fin 2} (hc : c.val < s.act.nch.toNat) : panned t p x c = panned s p y c := by
  have hpan (l : Fin 2) (base : F32) : lanePan t p l base = lanePan s p l base := by
    unfold lanePan
    rw [hcells, hph]
  unfold panned
  simp only [hpan, hcells, hact, hxy c hc]
  by_cases hn : s.act.nch = 2#2
  · rw [hxy 0 (by rw [hn]; decide), hxy 1 (by rw [hn]; decide)]
  · simp only [hn, if_false]

/-! ### Steps 7 to 10: panner, equalizer, output gain, output -/

/-- Steps 7 and 8 on the frame and the state behind the delay stage. -/
def equalizedStage (y : Frame) (u : State) : Frame × State := eachChannel eqChannel (panMix y u) (lfoAdvance u)

/-- The state at the end of the frame. -/
def frameEnd (y : Frame) (u : State) : State :=
  (equalizedStage y u).2.pushOutput (outputWords
    (applyGain (Config.num.fns.db2lin ((equalizedStage y u).2.cur outGain)) (equalizedStage y u).1 (equalizedStage y u).2)
    (equalizedStage y u).2)

/-- A frame step is its stages: up to the distortion, the delay, and the rest (rule R252). -/
theorem frameStep_of_delayFrame {s u : State} {y : Frame} (h : delayFrame (distStage s).1 (distStage s).2 = .ok (y, u)) :
    frameStep s = .ok (frameEnd y u) := by
  have hgain : gainedFrame s = applyGain (Config.num.fns.db2lin ((spTick s.popFrame).cur inGain)) (inputFrame s)
    (spTick s.popFrame) := rfl
  unfold distStage at h
  rw [hgain] at h
  unfold frameStep
  dsimp only
  rw [h]
  rfl

/-- The panned sample is equalized by the cascade of the channel's registers, and the phases advance; the registers of an
unused channel stay (rules R204, R229, R230). -/
theorem equalizedStage_effect {u : State} (h : RingOk u) (y : Frame) :
    (∃ q, (equalizedStage y u).2 = (lfoAdvance u).setBq q) ∧
    ∀ c : Fin 2,
      (c.val < u.act.nch.toNat → (equalizedStage y u).1[c] = (cascade u c (panMix y u)[c])[3].1 ∧
        ∀ b : Fin 4, (equalizedStage y u).2.bq[b][c] = (cascade u c (panMix y u)[c])[b].2) ∧
      (u.act.nch.toNat ≤ c.val → ∀ b : Fin 4, (equalizedStage y u).2.bq[b][c] = u.bq[b][c]) := by
  have hring : RingOk (lfoAdvance u) := h.congr (by simp) (by simp)
  refine ⟨eachChannel_eq_state _ _, fun c => ⟨fun hc => ?_, fun hc b => ?_⟩⟩
  · obtain ⟨hanswer, hreg⟩ := (eqChannel_channelLocal.eachChannel hring (panMix y u) c).1 hc
    have hcascade : cascade (lfoAdvance u) c (panMix y u)[c] = cascade u c (panMix y u)[c] :=
      cascade_congr (by simp) (by simp) (by simp) _
    rw [eqChannel_eq, hcascade] at hanswer
    refine ⟨hanswer, fun b => (congrFun hreg b).trans ?_⟩
    rw [eqChannel_eq, ← hcascade]
    exact (cascadeRegisters_get _ c c _ b).trans (if_pos rfl)
  · exact congrFun ((eqChannel_channelLocal.eachChannel hring (panMix y u) c).2 hc) b

/-- The words put on `AOUT`: the samples of the channels in use times the output gain (rule R254). -/
theorem outputWords_applyGain (g : F32) (x : Frame) (s : State) :
    outputWords (applyGain g x s) s = s.channels.map fun (c : Fin 2) => fmul x[c] g := by
  unfold outputWords
  exact List.map_congr_left fun c hc => by rw [applyGain_get, if_pos hc]

/-! ### The whole frame step -/

/-- A frame step changes the registers of the parameters and of the units, the ring, the streams and the popped words, and
nothing else (rule R30). -/
theorem frameStep_frame {s t : State} (h : frameStep s = .ok t) :
    t = { s with sp := t.sp, wc := t.wc, dram := t.dram, dc := t.dc, ph := t.ph, bq := t.bq, io := t.io, popped := [] } := by
  obtain ⟨d, m, w, p, q, ws, rfl⟩ := frameStep_state h
  rw [spTick_eq]
  generalize (spTick s.popFrame).sp = sp
  simp only [State.pushOutput, State.setBq, State.setPh, State.setWc, State.setDram, State.setDc, State.setSp, State.setIo,
    State.popFrame, State.setPopped]

/-- What the end of a frame keeps of the state behind the delay stage, and what it puts on `AOUT` (rules R204, R254). -/
theorem frameEnd_parts (y : Frame) (u : State) : (frameEnd y u).sp = u.sp ∧ (frameEnd y u).wc = u.wc ∧
    (frameEnd y u).dram = u.dram ∧ (frameEnd y u).dc = u.dc ∧ (frameEnd y u).bq = (equalizedStage y u).2.bq ∧
    (∀ l : Fin 2, (frameEnd y u).ph[l] = lfoNext (u.cur lfoRate) u.act.fs u.ph[l]) ∧
    (frameEnd y u).io.aout = u.io.aout ++ u.channels.map fun (c : Fin 2) =>
      fmul (equalizedStage y u).1[c] (Config.num.fns.db2lin (u.cur outGain)) := by
  obtain ⟨q, hq⟩ : ∃ q, (equalizedStage y u).2 = (lfoAdvance u).setBq q := eachChannel_eq_state _ _
  unfold frameEnd
  rw [outputWords_applyGain, hq]
  refine ⟨rfl, rfl, rfl, rfl, rfl, fun l => ?_, rfl⟩
  simp [lfoAdvance]

/-- Behind the delay stage the channels in use are panned and equalized by the registers before the frame, and the biquads of
an unused channel stay (rules R207 to R209, R229, R230). -/
theorem BehindDelay.equalized {s u : State} (h : BehindDelay s u) {y : Frame}
    (hy : ∀ c : Fin 2, c.val < s.act.nch.toNat → y[c] = mixedSample s (tickedCur s) c) (c : Fin 2) :
    (c.val < s.act.nch.toNat →
      (equalizedStage y u).1[c] = (cascade s c (pannedSample s (tickedCur s) c))[3].1 ∧
      ∀ b : Fin 4, (equalizedStage y u).2.bq[b][c] = (cascade s c (pannedSample s (tickedCur s) c))[b].2) ∧
    (s.act.nch.toNat ≤ c.val → ∀ b : Fin 4, (equalizedStage y u).2.bq[b][c] = s.bq[b][c]) := by
  have hcur : (fun i : SpIdx => u.sp[i].cur) = tickedCur s := funext h.cur
  have hcascade (x : F32) : cascade u c x = cascade s c x := cascade_congr h.cells h.coef (fun b => by rw [h.bq]) x
  obtain ⟨-, heq⟩ := equalizedStage_effect h.ring y
  obtain ⟨hused, hunused⟩ := heq c
  rw [h.act] at hused hunused
  refine ⟨fun hc => ?_, fun hc b => by rw [hunused hc, h.bq]⟩
  have hpan : (panMix y u)[c] = pannedSample s (tickedCur s) c := by
    rw [panMix_get h.ring y (by rw [h.act]; exact hc), hcur]
    exact panned_congr h.cells h.act h.ph hy hc
  rw [hpan, hcascade] at hused
  exact hused hc

/-- Settles O44: the stages in order, each by its own effect on the state that the stages before it leave. -/
theorem frameStepEffect : Obligations.FrameStepEffect := by
  unfold Obligations.FrameStepEffect
  intro s h hm _
  obtain ⟨y, u, hd, hmixed, hused, hunused, hkept⟩ := h.frame_delay hm
  have hu := behindDelay_of_delayFrame h hd
  have hf := frameStep_of_delayFrame hd
  obtain ⟨hsp, hwc, hdram, hdc, hbq, hph, haout⟩ := frameEnd_parts y u
  have hout : (frameEnd y u).io.aout = s.io.aout ++ ([0, 1].take s.act.nch.toNat).map (outputSample s (tickedCur s)) := by
    have hchannels : u.channels = s.channels := by unfold State.channels; rw [hu.act]
    rw [haout, hu.aout, hchannels, hu.cur]
    refine congrArg (s.io.aout ++ ·) (List.map_congr_left fun c hc => ?_)
    rw [((hu.equalized hmixed c).1 ((mem_channels_iff h).mp hc)).1]
    rfl
  have hbiquad {c : Fin 2} (hc : c.val < s.act.nch.toNat) (b : Fin 4) : (frameEnd y u).bq[b][c] = _ :=
    (by rw [hbq] : _ = (equalizedStage y u).2.bq[b][c]).trans (((hu.equalized hmixed c).1 hc).2 b)
  have hbiquad' {c : Fin 2} (hc : s.act.nch.toNat ≤ c.val) (b : Fin 4) : (frameEnd y u).bq[b][c] = s.bq[b][c] :=
    (by rw [hbq] : _ = (equalizedStage y u).2.bq[b][c]).trans ((hu.equalized hmixed c).2 hc b)
  refine ⟨frameEnd y u, hf, frameStep_frame hf, ?_⟩
  intro p
  have hp : p = tickedCur s := funext fun i => by show (frameEnd y u).sp[i].cur = _; rw [hsp]; exact hu.cur i
  rw [hp]
  refine ⟨fun i => ?_, fun l => ?_, ?_, fun c hc => ?_, fun c hc => ?_, fun b c hoff => ?_, fun a ha => ?_⟩
  · rw [hsp, hu.sp, spTick_sp]
    rfl
  · rw [hph, hu.cur, hu.act, hu.ph]
    rfl
  · rw [(SameControls.frameStep hf).io, (h.frameStep_streams hf).1, hout]
  · exact ⟨by rw [hwc]; exact (hused c hc).1, by rw [hdram]; exact (hused c hc).2,
      by rw [hdc, hu.dc]; exact (distStage_used h hc).2, hbiquad hc⟩
  · exact ⟨by rw [hwc]; exact hunused c hc, by rw [hdc, hu.dc]; exact distStage_unused h hc, hbiquad' hc⟩
  · rcases lt_or_ge c.val s.act.nch.toNat with hc | hc
    · rw [hbiquad hc, cascade_of_disabled c _ (by simp [hoff])]
    · exact hbiquad' hc b
  · rw [hdram]
    exact hkept a ha

end Sys2Proof.Machine
end

section
/-! PROOFS. No step shows what is unspecified until PREPARE succeeds (rules R38, R371, R375). -/

set_option Elab.async false

namespace Sys2Proof.Machine

/-! ### States that differ in the unspecified parts -/

/-- The parts of a state that the spec leaves unspecified until PREPARE succeeds (rules R38, R371). -/
def State.hidden (s : State) := (s.act, s.wc, s.dram, s.dc, s.ph, s.coef, s.bq)

/-- `s` with the unspecified parts of `u`. -/
def State.withHidden (s u : State) : State :=
  { s with act := u.act, wc := u.wc, dram := u.dram, dc := u.dc, ph := u.ph, coef := u.coef, bq := u.bq }

/-- States that agree on the specified parts are one state with two choices of the others. -/
theorem AgreeSpecified.eq_withHidden {s t : State} (h : AgreeSpecified s t) : s.withHidden t = t := by
  obtain ⟨h1, h2, h3, h4, h5, h6, h7, h8, h9, h10, h11, h12⟩ := h
  unfold State.withHidden
  rw [h1, h2, h3, h4, h5, h6, h7, h8, h9, h10, h11, h12]

theorem agreeSpecified_withHidden (s u : State) : AgreeSpecified s (s.withHidden u) :=
  ⟨rfl, rfl, rfl, rfl, rfl, rfl, rfl, rfl, rfl, rfl, rfl, rfl⟩

theorem Agree.refl (s : State) : Agree s s where
  toAgreeSpecified := ⟨rfl, rfl, rfl, rfl, rfl, rfl, rfl, rfl, rfl, rfl, rfl, rfl⟩
  act _ := rfl
  wc _ := rfl
  dram _ _ _ := rfl
  dc _ := rfl
  ph _ := rfl
  bq _ := rfl
  coef _ _ := rfl

/-- A change that keeps the unspecified parts, makes no machine prepared and starts no processed block, and that the
unspecified parts do not influence, keeps the agreement. -/
theorem Agree.map {f : State → State} {s t : State} (h : Agree s t) (hf : f (s.withHidden t) = (f s).withHidden t)
    (hhidden : (f s).hidden = s.hidden) (hprep : (f s).status.prepared = true → s.status.prepared = true)
    (hblock : (f s).seq.busy = true → (f s).passing = none → s.seq.busy = true ∧ s.passing = none) :
    Agree (f s) (f t) := by
  rw [h.eq_withHidden] at hf
  simp only [State.hidden, Prod.mk.injEq] at hhidden
  obtain ⟨hact, hwc, hdram, hdc, hph, hcoef, hbq⟩ := hhidden
  have hwords : rbWords (f s) = rbWords s := by unfold rbWords; rw [hact]
  rw [hf]
  exact {
    toAgreeSpecified := agreeSpecified_withHidden _ _
    act := fun hp => hact.trans (h.act (hprep hp))
    wc := fun hp => hwc.trans (h.wc (hprep hp))
    dram := fun hp a ha => by rw [hdram]; exact h.dram (hprep hp) a (hwords ▸ ha)
    dc := fun hp => hdc.trans (h.dc (hprep hp))
    ph := fun hp => hph.trans (h.ph (hprep hp))
    bq := fun hp => hbq.trans (h.bq (hprep hp))
    coef := fun hb hn => hcoef.trans (h.coef (hblock hb hn).1 (hblock hb hn).2) }

/-- Words that agree can replace the delay RAMs of agreeing states. -/
theorem Agree.setDram {s t : State} (h : Agree s t) {m n : Memory}
    (hm : s.status.prepared = true → ∀ a, a < rbWords s → memLookup m a = memLookup n a) :
    Agree (s.setDram m) (t.setDram n) :=
  { h with
    toAgreeSpecified := { h.toAgreeSpecified with }
    dram := hm }

/-- Cursors that agree can replace those of agreeing states. -/
theorem Agree.setWc {s t : State} (h : Agree s t) {w v : Vector (BitVec 19) 2} (hw : s.status.prepared = true → w = v) :
    Agree (s.setWc w) (t.setWc v) :=
  { h with
    toAgreeSpecified := { h.toAgreeSpecified with }
    wc := hw }

/-- Two answers that are next states which agree. -/
def AgreeNext (r r' : Result) : Prop := ∃ s' t', r = .next s' ∧ r' = .next t' ∧ Agree s' t'

theorem Agree.next {s t : State} (h : Agree s t) : AgreeNext (.next s) (.next t) := ⟨s, t, rfl, rfl, h⟩

/-! ### Commands of the control class -/

theorem Agree.raise {s t : State} (h : Agree s t) (f : ErrorFlag) : Agree (s.raise f) (t.raise f) :=
  h.map (f := (State.raise · f)) rfl rfl (by rw [raise_prepared]; exact id) fun hb hn => ⟨hb, hn⟩

theorem Agree.respond {s t : State} (h : Agree s t) (w : Word32) : Agree (s.respond w) (t.respond w) := by
  refine h.map (f := (State.respond · w)) ?_ ?_ (by simp) (by simpa using And.intro)
  · unfold State.respond
    show (match s.issuer with | .control => _ | .audio => _) = _
    cases s.issuer <;> rfl
  · simp [State.hidden]

/-- A target change of a core that is not prepared does not read the ramp length (rule R122). -/
theorem retarget_congr {p : Bool} {m n : BitVec 18} (h : p = true → m = n) (v : F32) (r : Sp) :
    retarget p m v r = retarget p n v r := by
  cases p
  · simp [retarget]
  · rw [h rfl]

theorem setParameter_withHidden (pid : BitVec 8) (v : F32) {s u : State} (h : s.status.prepared = true → s.act = u.act) :
    setParameter pid v (s.withHidden u) = (setParameter pid v s).withHidden u := by
  unfold setParameter
  split_ifs
  · rfl
  · cases smoothedOperand pid with
    | none =>
      show setCell _ _ _ = (setCell _ _ _).withHidden u
      unfold setCell
      split <;> rfl
    | some i =>
      show markDirty _ _ = (markDirty _ _).withHidden u
      have hretarget (x : F32) : retarget s.status.prepared u.act.rampSamples x s.sp[i] =
          retarget s.status.prepared s.act.rampSamples x s.sp[i] := retarget_congr (fun hp => by rw [h hp]) x _
      have htarget (x : F32) : spSetTarget i x (s.withHidden u) = (spSetTarget i x s).withHidden u := by
        show (s.withHidden u).setReg i (retarget s.status.prepared u.act.rampSamples x s.sp[i]) = _
        rw [hretarget]
        rfl
      rw [htarget]
      unfold markDirty
      split <;> rfl

theorem Agree.setParameter {s t : State} (h : Agree s t) (pid : BitVec 8) (v : F32) :
    Agree (setParameter pid v s) (setParameter pid v t) := by
  obtain ⟨sp, cells, dirty, hset⟩ := setParameter_eq pid v s
  exact h.map (f := Machine.setParameter pid v) (setParameter_withHidden pid v h.act) (by rw [hset]; rfl)
    (by rw [hset]; exact id) (by rw [hset]; exact fun hb hn => ⟨hb, hn⟩)

theorem AgreeSpecified.parameterWord {s t : State} (h : AgreeSpecified s t) (reg : Sp → F32) (pid : BitVec 8) :
    parameterWord reg pid s = parameterWord reg pid t := by
  unfold Machine.parameterWord cellValue
  rw [h.sp, h.cells]

theorem AgreeSpecified.statusWord {s t : State} (h : AgreeSpecified s t) : statusWord s = statusWord t := by
  unfold Machine.statusWord
  rw [h.status, h.seq]

/-- CFGR shows the active configuration while prepared alone (rule R322). -/
theorem Agree.cfgrWord {s t : State} (h : Agree s t) (idx : BitVec 8) : cfgrWord idx s = cfgrWord idx t := by
  unfold Machine.cfgrWord
  rw [h.cfg, ← h.status]
  by_cases hp : s.status.prepared = true
  · unfold activeWord
    rw [h.act hp, h.wc hp]
  · simp only [hp]
    rfl

theorem Agree.exec_control {s t : State} (h : Agree s t) {i : Instr} (hi : i.engineClass = false) :
    AgreeNext (exec i s) (exec i t) := by
  cases i
  case nop => exact h.next
  case getp pid | getc pid =>
    show AgreeNext (.next (s.respond _)) (.next (t.respond _))
    rw [h.parameterWord]
    exact (h.respond _).next
  case status =>
    show AgreeNext (.next (s.respond _)) (.next (t.respond _))
    rw [h.toAgreeSpecified.statusWord]
    exact (h.respond _).next
  case cfgr idx =>
    show AgreeNext (.next (s.respond _)) (.next (t.respond _))
    rw [h.cfgrWord]
    exact (h.respond _).next
  case cfgw | prepare | reset | process | rbwr | rbrd | rbclr | clrerr => exact (Bool.false_ne_true hi.symm).elim
  all_goals exact (h.setParameter _ _).next

/-! ### Commands of the engine class -/

/-- Outside a block the clearing of the ring, the ramps and the units leaves nothing unspecified of states with one active
configuration (rules R148, R324, R326). -/
theorem AgreeSpecified.cleared {s t : State} (h : AgreeSpecified s t) (hact : s.act = t.act) (hb : s.seq.busy = false) :
    Agree ((clearUnits (spSnap (rbClear s))).setPrepared true) ((clearUnits (spSnap (rbClear t))).setPrepared true) where
  seq := by simp [h.seq]
  sp := by simp [spSnap, h.sp]
  cells := by simp [h.cells]
  cfg := by simp [h.cfg]
  status := by simp [State.setPrepared, h.status]
  dirty := rfl
  io := by simp [h.io]
  issuer := by simp [h.issuer]
  passing := by simp [h.passing]
  inFrame := by simp [h.inFrame]
  popped := by simp [h.popped]
  tick := by simp [h.tick]
  act _ := by simp [hact]
  wc _ := by simp [rbClear]
  dram _ a ha := by
    have hs : rbWords s = rbWords t := by unfold rbWords; rw [hact]
    have ha' : a < rbWords s := by simpa [rbWords] using ha
    simp only [setPrepared_dram, clearUnits_dram, spSnap_dram, rbClear_lookup]
    rw [if_pos ha', if_pos (hs ▸ ha')]
  dc _ := rfl
  ph _ := rfl
  bq _ := rfl
  coef hbusy := by simp [hb] at hbusy

theorem Agree.execReset {s t : State} (h : Agree s t) (hb : s.seq.busy = false) :
    AgreeNext (execReset s) (execReset t) := by
  have hprep := congrArg Status.prepared h.status
  cases hp : s.status.prepared
  · rw [execReset_of_not_prepared hp, execReset_of_not_prepared (hprep ▸ hp)]
    exact (h.raise _).next
  · have hp' : t.status.prepared = true := hprep ▸ hp
    have hcleared := h.toAgreeSpecified.cleared (h.act hp) hb
    rw [setPrepared_of_prepared (by rw [cleared_status, hp]), setPrepared_of_prepared (by rw [cleared_status, hp'])]
      at hcleared
    rw [execReset_of_prepared hp, execReset_of_prepared hp']
    exact hcleared.next

theorem raiseAll_withHidden (fs : List ErrorFlag) (s u : State) :
    (s.withHidden u).raiseAll fs = (s.raiseAll fs).withHidden u := by
  unfold State.raiseAll
  induction fs generalizing s with
  | nil => rfl
  | cons f rest ih => exact ih (s.raise f)

theorem Agree.execPrepare {s t : State} (h : Agree s t) (hb : s.seq.busy = false) :
    AgreeNext (execPrepare s) (execPrepare t) := by
  by_cases hf : prepareFailures s.cfg = []
  · have hprepared (u : State) (hu : prepareFailures u.cfg = []) : Machine.execPrepare u = .next (prepared u) := by
      obtain ⟨hr, hv, -⟩ := valid_of_prepareFailures hu
      exact execPrepare_of_valid hr hv
    rw [hprepared s hf, hprepared t (h.cfg ▸ hf)]
    have hspec : AgreeSpecified (s.setAct (activeOf s.cfg)) (t.setAct (activeOf t.cfg)) := { h.toAgreeSpecified with }
    exact (hspec.cleared (by rw [State.setAct_act, State.setAct_act, h.cfg]) hb).next
  · obtain ⟨u, hu, -⟩ := raiseAll_eq s (prepareFailures s.cfg)
    rw [execPrepare_of_failures hf, execPrepare_of_failures (h.cfg ▸ hf), ← h.cfg]
    refine Agree.next (h.map (f := fun u => (u.raiseAll (prepareFailures s.cfg)).setPrepared false) ?_ ?_
      (fun hp => (Bool.false_ne_true hp).elim) ?_)
    · exact congrArg (State.setPrepared · false) (raiseAll_withHidden _ s t)
    · rw [hu]
      rfl
    · rw [hu]
      exact And.intro

theorem Agree.prepared {s t : State} (h : Agree s t) : t.status.prepared = s.status.prepared := by rw [h.status]

/-- The design of a band depends on the registers and the configuration (rule R226). -/
theorem eqDesign_congr {s t : State} (hsp : s.sp = t.sp) (hact : s.act = t.act) (b : Fin 4) :
    eqDesign b s = eqDesign b t := by
  unfold eqDesign State.cur
  rw [hsp, hact]

/-- A block start designs the same coefficients from the same registers and rate (rule R228). -/
theorem blockStart_coef_congr {s t : State} (hsp : s.sp = t.sp) (hact : s.act = t.act) :
    (blockStart s).coef = (blockStart t).coef := by
  refine Vector.ext fun i hi => ?_
  have hband := blockStart_coef s ⟨i, hi⟩
  rw [eqDesign_congr hsp hact, ← blockStart_coef t] at hband
  exact hband

/-- The states in which the frames of an accepted block begin (rules R228, R250). -/
theorem Agree.startBlock {s t : State} (h : Agree s t) (hp : s.status.prepared = true) (n : BitVec 16) :
    Agree (blockStart ((s.setSeq ⟨true, n⟩).setPassing none)) (blockStart ((t.setSeq ⟨true, n⟩).setPassing none)) where
  seq := by simp
  sp := by simp [h.sp]
  cells := by simp [h.cells]
  cfg := by simp [h.cfg]
  status := by simp [h.status]
  dirty := by simp [blockStart]
  io := by simp [h.io]
  issuer := by simp [h.issuer]
  passing := by simp
  inFrame := by simp [h.inFrame]
  popped := by simp [h.popped]
  tick := by simp [h.tick]
  act _ := by simp [h.act hp]
  wc _ := by simp [h.wc hp]
  dram _ a ha := by simpa using h.dram hp a (by simpa [rbWords] using ha)
  dc _ := by simp [h.dc hp]
  ph _ := by simp [h.ph hp]
  bq _ := by simp [h.bq hp]
  coef _ _ := blockStart_coef_congr (by simp [h.sp]) (by simp [h.act hp])

theorem Agree.execProcess {s t : State} (h : Agree s t) (n : BitVec 16) :
    AgreeNext (execProcess n s) (execProcess n t) := by
  by_cases hn : n = 0#16
  · subst hn
    exact h.next
  cases hp : s.status.prepared
  · rw [execProcess_of_not_prepared hp hn, execProcess_of_not_prepared (h.prepared.trans hp) hn]
    exact (h.raise _).next
  by_cases hmax : n ≤ s.act.maxBlk
  · rw [execProcess_accepts hn hp hmax, execProcess_accepts hn (h.prepared.trans hp) (h.act hp ▸ hmax)]
    exact (h.startBlock hp n).next
  · have hmax : s.act.maxBlk < n := BitVec.not_le.mp hmax
    rw [execProcess_oversized hn hp hmax, execProcess_oversized hn (h.prepared.trans hp) (h.act hp ▸ hmax)]
    exact ((h.raise .blkSize).map (f := fun u => (u.setSeq ⟨true, n⟩).setPassing (some 0)) rfl rfl id
      fun _ hnone => (Option.some_ne_none 0 hnone).elim).next

/-! ### The ring commands -/

/-- The words of the ring of a channel in use agree (rules R66, R371). -/
theorem Agree.ringWord {s t : State} (h : Agree s t) (hp : s.status.prepared = true) (hr : RingOk s) {c : Fin 2}
    (hc : c.val < s.act.nch.toNat) (k : Nat) : ringWord s c k = ringWord t c k := by
  have haddr := (hr.region_lt hc (Nat.mod_lt (s.wc[c].toNat + s.act.cap.toNat - k) hr.cap_pos)).1
  unfold Machine.ringWord
  rw [← h.act hp, ← h.wc hp]
  exact h.dram hp _ haddr

/-- A store at an address keeps the words at the addressed places in agreement. -/
theorem memLookup_memStore_congr {m n : Memory} (hm : Memory.wf m = true) (hn : Memory.wf n = true) {a b : Nat} (v : Word32)
    (h : memLookup m b = memLookup n b) : memLookup (memStore m a v) b = memLookup (memStore n a v) b := by
  by_cases hb : b = a
  · subst hb
    rw [memLookup_memStore_self hm, memLookup_memStore_self hn]
  · rw [memLookup_memStore_of_ne _ _ hb, memLookup_memStore_of_ne _ _ hb, h]

theorem Agree.channelOperand {s t : State} (h : Agree s t) (hp : s.status.prepared = true) (ch : BitVec 8) :
    channelOperand t ch = channelOperand s ch := by
  unfold Machine.channelOperand
  rw [h.act hp]

/-- The cursor advances alike where configuration and cursors agree (rule R144). -/
theorem Agree.rbAdvance {s t : State} (h : Agree s t) (c : Fin 2) : Agree (rbAdvance c s) (rbAdvance c t) := by
  have hadvanced (hp : s.status.prepared = true) : (Machine.rbAdvance c s).wc = (Machine.rbAdvance c t).wc := by
    unfold Machine.rbAdvance State.setCursor
    rw [h.act hp, h.wc hp]
    dsimp only
    split_ifs <;> simp
  obtain ⟨v, hv⟩ := rbAdvance_eq c s
  obtain ⟨w, hw⟩ := rbAdvance_eq c t
  rw [hv, hw] at hadvanced ⊢
  exact h.setWc hadvanced

theorem Agree.execRbwr {s t : State} (h : Agree s t) (hs : Inv s) (ht : Inv t) (ch : BitVec 8) (v : F32) :
    AgreeNext (execRbwr ch v s) (execRbwr ch v t) := by
  cases hp : s.status.prepared
  · rw [execRbwr_of_not_prepared hp, execRbwr_of_not_prepared (h.prepared.trans hp)]
    exact (h.raise _).next
  have hp' := h.prepared.trans hp
  cases hc : Machine.channelOperand s ch with
  | none =>
    rw [execRbwr_of_no_channel v hp hc, execRbwr_of_no_channel v hp' (by rw [h.channelOperand hp, hc])]
    exact h.next
  | some c =>
    have hlt := channelOperand_lt hc
    have hwaddr : rbWaddr c t = rbWaddr c s := by unfold rbWaddr; rw [h.act hp, h.wc hp]
    rw [execRbwr_of_channel v hp hc, execRbwr_of_channel v hp' (by rw [h.channelOperand hp, hc]),
      rbWrite_of_ringOk (hs.ring hp) hlt, rbWrite_of_ringOk (ht.ring hp') (h.act hp ▸ hlt), hwaddr]
    have hstored := h.setDram (m := memStore s.dram (rbWaddr c s) v) (n := memStore t.dram (rbWaddr c s) v)
      fun _ a ha => memLookup_memStore_congr hs.mem ht.mem v (h.dram hp a ha)
    exact (hstored.rbAdvance c).next

/-- RBRD shows words of the ring of a channel in use alone, and of a prepared core (rules R150, R349). -/
theorem Agree.execRbrd {s t : State} (h : Agree s t) (hs : Inv s) (ht : Inv t) (ch : BitVec 8) (k : Word32) :
    AgreeNext (execRbrd ch k s) (execRbrd ch k t) := by
  cases hp : s.status.prepared
  · rw [execRbrd_of_not_prepared hp, execRbrd_of_not_prepared (h.prepared.trans hp)]
    exact ((h.raise _).respond _).next
  have hp' := h.prepared.trans hp
  cases hc : Machine.channelOperand s ch with
  | none =>
    rw [execRbrd_of_no_channel k hp hc, execRbrd_of_no_channel k hp' (by rw [h.channelOperand hp, hc])]
    exact (h.respond _).next
  | some c =>
    have hclamp : rbClamp k.toNat t = rbClamp k.toNat s := by unfold rbClamp; rw [h.act hp]
    rw [(hs.ring hp).execRbrd_of_channel k hp hc,
      (ht.ring hp').execRbrd_of_channel k hp' (by rw [h.channelOperand hp, hc]), hclamp,
      ← h.ringWord hp (hs.ring hp) (channelOperand_lt hc), ← h.act hp]
    split_ifs
    · exact ((h.raise _).respond _).next
    · exact (h.respond _).next

theorem Agree.execRbclr {s t : State} (h : Agree s t) : AgreeNext (execRbclr s) (execRbclr t) := by
  cases hp : s.status.prepared
  · rw [execRbclr_of_not_prepared hp, execRbclr_of_not_prepared (h.prepared.trans hp)]
    exact (h.raise _).next
  · have hexec (u : State) (hu : u.status.prepared = true) : Machine.execRbclr u = .next (rbClear u) := by
      simp [Machine.execRbclr, hu]
    rw [hexec s hp, hexec t (h.prepared.trans hp), rbClear_eq, rbClear_eq]
    have hwords : rbWords t = rbWords s := by unfold rbWords; rw [h.act hp]
    refine ((h.setDram fun _ a ha => ?_).setWc fun _ => rfl).next
    rw [memLookup_memClearBelow, memLookup_memClearBelow, hwords, h.dram hp a ha]

theorem Agree.execCfgw {s t : State} (h : Agree s t) (idx : BitVec 8) (d : Word32) :
    AgreeNext (execCfgw idx d s) (execCfgw idx d t) := by
  unfold Machine.execCfgw
  cases stagingOperand idx with
  | none => exact h.next
  | some i =>
    dsimp only
    rw [← h.cfg]
    exact (h.map (f := (State.setCfg · (s.cfg.set i d))) rfl rfl id And.intro).next

/-- A command of agreeing states leads to agreeing states; those of the engine class are performed outside a block only. -/
theorem Agree.exec {s t : State} (h : Agree s t) (hs : Inv s) (ht : Inv t) {i : Instr}
    (hb : i.engineClass = true → s.seq.busy = false) : AgreeNext (exec i s) (exec i t) := by
  cases hi : i.engineClass
  case false => exact h.exec_control hi
  case true =>
    replace hb := hb hi
    cases i
    case cfgw idx d => exact h.execCfgw idx d
    case prepare => exact h.execPrepare hb
    case reset => exact h.execReset hb
    case process n => exact h.execProcess n
    case rbwr ch v => exact h.execRbwr hs ht ch v
    case rbrd ch k => exact h.execRbrd hs ht ch k
    case rbclr => exact h.execRbclr
    case clrerr => exact (h.map (f := State.clearErrors) rfl rfl id And.intro).next
    all_goals exact (Bool.false_ne_true hi).elim

/-! ### Performing a word -/

theorem Agree.perform {s t : State} {q : Queue} (h : Agree s t) (hs : Inv s) (ht : Inv t) (w : Command)
    (hq : q = .audio → s.seq.busy = false) : AgreeNext (perform q w s) (perform q w t) := by
  unfold Machine.perform
  cases hi : classify q w with
  | error e => exact (h.raise _).next
  | ok i =>
    have hissued := h.map (f := (State.setIssuer · q)) rfl rfl id And.intro
    exact hissued.exec (hs.congr rfl rfl) (ht.congr rfl rfl) fun hc => hq (audio_of_engineClass hi hc)

/-- Taking a word moves the queues and the counter of the schedule, and does not look at the unspecified parts. -/
theorem Takes.withHidden {s u : State} {q : Queue} {w : Command} (h : Takes s q w u) : ∃ io n,
    u = (s.setIo io).setTick n ∧ ∀ v : State, Takes (s.withHidden v) q w (((s.withHidden v).setIo io).setTick n) := by
  cases h with
  | audio _ rest hr hb ha hc =>
    exact ⟨{ s.io with aq := rest }, s.tick, rfl, fun v => .audio w rest hr hb ha hc⟩
  | audioFirst _ rest hr hb ha hc hturn =>
    exact ⟨{ s.io with aq := rest }, s.tick + 1, rfl, fun v => .audioFirst w rest hr hb ha hc hturn⟩
  | control _ rest hr hb hc ha =>
    exact ⟨{ s.io with cq := rest }, s.tick, rfl, fun v => .control w rest hr hb hc ha⟩
  | controlFirst _ rest hr hb hc ha hturn =>
    exact ⟨{ s.io with cq := rest }, s.tick + 1, rfl, fun v => .controlFirst w rest hr hb hc ha hturn⟩
  | controlAtBoundary _ rest hr hb hf hc hturn =>
    exact ⟨{ s.io with cq := rest }, s.tick + 1, rfl, fun v => .controlAtBoundary w rest hr hb hf hc hturn⟩

theorem Agree.takes {s t u : State} {q : Queue} {w : Command} (h : Agree s t) (hu : Takes s q w u) :
    ∃ v, Takes t q w v ∧ Agree u v := by
  obtain ⟨io, n, rfl, htakes⟩ := hu.withHidden
  have htakes := htakes t
  rw [h.eq_withHidden] at htakes
  exact ⟨_, htakes, h.map (f := fun s => (s.setIo io).setTick n) rfl rfl id And.intro⟩

/-- Entering a frame does not look at the unspecified parts. -/
theorem Enters.withHidden {s u : State} (h : Enters s u) : ∃ n, u = (s.setTick n).setInFrame true ∧
    ∀ v : State, Enters (s.withHidden v) (((s.withHidden v).setTick n).setInFrame true) := by
  cases h with
  | inside hf =>
    have hsame (s : State) (hf : s.inFrame = true) : (s.setTick s.tick).setInFrame true = s := by rw [← hf]; rfl
    refine ⟨s.tick, (hsame s hf).symm, fun v => ?_⟩
    have hinside : (s.withHidden v).inFrame = true := hf
    have hkept : ((s.withHidden v).setTick s.tick).setInFrame true = s.withHidden v := hsame _ hinside
    rw [hkept]
    exact .inside hinside
  | noControl hf hc => exact ⟨s.tick, rfl, fun v => .noControl hf hc⟩
  | controlWaits hf hc hturn => exact ⟨_, rfl, fun v => .controlWaits hf hc hturn⟩

theorem Agree.enters {s t u : State} (h : Agree s t) (hu : Enters s u) : ∃ v, Enters t v ∧ Agree u v := by
  obtain ⟨n, rfl, henters⟩ := hu.withHidden
  have henters := henters t
  rw [h.eq_withHidden] at henters
  exact ⟨_, henters, h.map (f := fun s => (s.setTick n).setInFrame true) rfl rfl id And.intro⟩

/-! ### A frame step does not look beyond the addressed words -/

theorem distortedSample_setDram (s : State) (m : Memory) (p : SpIdx → F32) (c : Fin 2) :
    distortedSample (s.setDram m) p c = distortedSample s p c := rfl

/-- The delayed samples of the channels in use are addressed words (rules R66, R183). -/
theorem delayedSample_setDram {s : State} {m : Memory} (hr : RingOk s)
    (hm : ∀ a, a < rbWords s → memLookup s.dram a = memLookup m a) (p : SpIdx → F32) {c : Fin 2}
    (hc : c.val < s.act.nch.toNat) : delayedSample (s.setDram m) p c = delayedSample s p c :=
  (hm _ (hr.region_lt hc (Nat.mod_lt _ hr.cap_pos)).1).symm

theorem storedSample_setDram {s : State} {m : Memory} (hr : RingOk s)
    (hm : ∀ a, a < rbWords s → memLookup s.dram a = memLookup m a) (p : SpIdx → F32) {c : Fin 2}
    (hc : c.val < s.act.nch.toNat) : storedSample (s.setDram m) p c = storedSample s p c := by
  have hsource : feedbackChannel (s.setDram m) c = feedbackChannel s c := rfl
  unfold storedSample
  rw [distortedSample_setDram, hsource, delayedSample_setDram hr hm p (feedbackChannel_lt hc)]

theorem mixedSample_setDram {s : State} {m : Memory} (hr : RingOk s)
    (hm : ∀ a, a < rbWords s → memLookup s.dram a = memLookup m a) (p : SpIdx → F32) {c : Fin 2}
    (hc : c.val < s.act.nch.toNat) : mixedSample (s.setDram m) p c = mixedSample s p c := by
  unfold mixedSample
  rw [distortedSample_setDram, delayedSample_setDram hr hm p hc]

/-- The cascade behind the panner, for a channel in use (rules R207 to R209, R230). -/
theorem cascade_setDram {s : State} {m : Memory} (hr : RingOk s)
    (hm : ∀ a, a < rbWords s → memLookup s.dram a = memLookup m a) (p : SpIdx → F32) {c : Fin 2}
    (hc : c.val < s.act.nch.toNat) :
    cascade (s.setDram m) c (pannedSample (s.setDram m) p c) = cascade s c (pannedSample s p c) := by
  have hpanned : pannedSample (s.setDram m) p c = pannedSample s p c :=
    panned_congr (t := s.setDram m) (State.setDram_cells ..) (State.setDram_act ..) (State.setDram_ph ..)
      (fun d hd => mixedSample_setDram hr hm p hd) hc
  rw [hpanned]
  exact cascade_congr (State.setDram_cells ..) (State.setDram_coef ..) (fun b => by rw [State.setDram_bq]) _

theorem outputSample_setDram {s : State} {m : Memory} (hr : RingOk s)
    (hm : ∀ a, a < rbWords s → memLookup s.dram a = memLookup m a) (p : SpIdx → F32) {c : Fin 2}
    (hc : c.val < s.act.nch.toNat) : outputSample (s.setDram m) p c = outputSample s p c := by
  unfold outputSample
  rw [cascade_setDram hr hm p hc]

/-- Frame steps that see the same words in the ring take the same course and store the same words (rules R66, R252). -/
theorem frameStep_setDram {s : State} {m : Memory} (hr : RingOk s) (hwf : Memory.wf s.dram = true)
    (hwf' : Memory.wf m = true) (hlen : s.act.nch.toNat ≤ s.frameSupply.length)
    (hm : ∀ a, a < rbWords s → memLookup s.dram a = memLookup m a) :
    ∃ u n, frameStep s = .ok u ∧ frameStep (s.setDram m) = .ok (u.setDram n) ∧
      ∀ a, a < rbWords s → memLookup u.dram a = memLookup n a := by
  obtain ⟨u, hu, hframe, hsp, hph, hio, hused, hunused, -, hkept⟩ := frameStepEffect s hr hwf hlen
  obtain ⟨v, hv, hframe', hsp', hph', hio', hused', hunused', -, hkept'⟩ :=
    frameStepEffect (s.setDram m) (hr.setDram m) hwf' hlen
  have esp : v.sp = u.sp := Vector.ext fun i hi => (hsp' ⟨i, hi⟩).trans (hsp ⟨i, hi⟩).symm
  have hwaddr (c : Fin 2) : rbWaddr c (s.setDram m) = rbWaddr c s := rfl
  simp only [esp, State.setDram_act, State.setDram_ph, State.setDram_wc, State.setDram_dc, State.setDram_bq,
    State.setDram_io, State.setDram_popped, State.setDram_dram, hwaddr] at hph' hio' hused' hunused' hkept'
  have eph : v.ph = u.ph := Vector.ext fun l hl => (hph' ⟨l, hl⟩).trans (hph ⟨l, hl⟩).symm
  have hunits (c : Fin 2) : v.wc[c] = u.wc[c] ∧ v.dc[c] = u.dc[c] ∧ ∀ b : Fin 4, v.bq[b][c] = u.bq[b][c] := by
    rcases lt_or_ge c.val s.act.nch.toNat with hc | hc
    · obtain ⟨hwc, -, hdc, hbq⟩ := hused c hc
      obtain ⟨hwc', -, hdc', hbq'⟩ := hused' c hc
      refine ⟨BitVec.eq_of_toNat_eq (hwc'.trans hwc.symm), hdc'.trans hdc.symm, fun b => (hbq' b).trans ?_⟩
      rw [hbq]
      exact congrArg (fun k : Vector (F32 × Biquad) 4 => k[b].2) (cascade_setDram hr hm _ hc)
    · obtain ⟨hwc, hdc, hbq⟩ := hunused c hc
      obtain ⟨hwc', hdc', hbq'⟩ := hunused' c hc
      exact ⟨hwc'.trans hwc.symm, hdc'.trans hdc.symm, fun b => (hbq' b).trans (hbq b).symm⟩
  have ewc : v.wc = u.wc := Vector.ext fun c hc => (hunits ⟨c, hc⟩).1
  have edc : v.dc = u.dc := Vector.ext fun c hc => (hunits ⟨c, hc⟩).2.1
  have ebq : v.bq = u.bq := Vector.ext fun b hb => Vector.ext fun c hc => (hunits ⟨c, hc⟩).2.2 ⟨b, hb⟩
  have eio : v.io = u.io := by
    rw [hio, hio']
    have hout : ([0, 1].take s.act.nch.toNat).map (outputSample (s.setDram m) fun i => u.sp[i].cur) =
        ([0, 1].take s.act.nch.toNat).map (outputSample s fun i => u.sp[i].cur) :=
      List.map_congr_left fun c hc => outputSample_setDram hr hm _ ((mem_channels_iff hr).mp hc)
    rw [hout]
  refine ⟨u, v.dram, hu, ?_, fun a ha => ?_⟩
  · have hsame : v = u.setDram v.dram := by
      rw [hframe', esp, eph, eio, ewc, edc, ebq]
      conv_rhs => rw [hframe]
      rfl
    rw [hv, ← hsame]
  · by_cases hstored : ∃ c : Fin 2, c.val < s.act.nch.toNat ∧ a = rbWaddr c s
    · obtain ⟨c, hc, rfl⟩ := hstored
      obtain ⟨-, hword, -⟩ := hused c hc
      obtain ⟨-, hword', -⟩ := hused' c hc
      rw [hword, hword', storedSample_setDram hr hm _ hc]
    · have hother (c : Fin 2) (hc : c.val < s.act.nch.toNat) : a ≠ rbWaddr c s := fun e => hstored ⟨c, hc, e⟩
      rw [hkept a hother, hkept' a hother, hm a ha]

/-! ### The engine inside a frame, and the step -/

/-- States of a processed block that agree are one state with two delay RAMs. -/
theorem Agree.eq_setDram {s t : State} (h : Agree s t) (hp : s.status.prepared = true) (hb : s.seq.busy = true)
    (hnone : s.passing = none) : t = s.setDram t.dram := by
  have hsame := h.eq_withHidden
  unfold State.withHidden at hsame
  rw [← h.act hp, ← h.wc hp, ← h.dc hp, ← h.ph hp, ← h.bq hp, ← h.coef hb hnone] at hsame
  exact hsame.symm

/-- A frame step of states that agree, on a frame whose words are there (rules R66, R252). -/
theorem Agree.frameStep {s t : State} (h : Agree s t) (hs : Inv s) (ht : Inv t) (hb : s.seq.busy = true)
    (hnone : s.passing = none) (hlen : s.frameWords ≤ s.frameSupply.length) :
    ∃ u v, frameStep s = .ok u ∧ frameStep t = .ok v ∧ Agree u v ∧ u.seq = s.seq := by
  have hp := (hs.seq.busy_prepared hb).1
  rw [frameWords_of_ringOk (hs.ring hp)] at hlen
  obtain ⟨u, n, hu, hv, hwords⟩ := frameStep_setDram (hs.ring hp) hs.mem ht.mem hlen (h.dram hp)
  rw [← h.eq_setDram hp hb hnone] at hv
  have hact : rbWords u = rbWords s := by
    rw [frameStep_frame hu]
    rfl
  obtain ⟨-, hseq, -⟩ := hs.frameStep hp hu
  exact ⟨u, _, hu, hv, (Agree.refl u).setDram fun _ a ha => hwords a (hact ▸ ha), hseq⟩

theorem Agree.endFrame {s t : State} (h : Agree s t) (hb : s.seq.busy = true) : Agree (endFrame s) (endFrame t) := by
  unfold Machine.endFrame
  rw [← h.seq]
  dsimp only
  split_ifs
  · exact h.map (f := endBlock) rfl rfl id fun hbusy => (Bool.false_ne_true hbusy).elim
  · exact h.map (f := fun s' => (s'.setSeq ⟨true, s.seq.rem - 1#16⟩).setInFrame false) rfl rfl id fun _ hnone => ⟨hb, hnone⟩

theorem Agree.frameWords {s t : State} (h : Agree s t) (hp : s.status.prepared = true) : t.frameWords = s.frameWords := by
  unfold State.frameWords State.channels
  rw [h.act hp]

/-- One word of a pass-through, which is no processed block (rules R251, R371). -/
theorem Agree.passWord {s t : State} (h : Agree s t) (hp : s.status.prepared = true) (hb : s.seq.busy = true) (k : Nat) :
    Agree (passWord k s) (passWord k t) := by
  have moved (io : Io) (j : Nat) : Agree ((s.setIo io).setPassing (some j)) ((t.setIo io).setPassing (some j)) :=
    h.map (f := fun s => (s.setIo io).setPassing (some j)) rfl rfl id fun _ hnone => (Option.some_ne_none j hnone).elim
  unfold Machine.passWord
  rw [← h.io, h.frameWords hp]
  split
  · exact h
  · dsimp only
    split_ifs
    · exact moved _ _
    · exact (moved _ 0).endFrame hb

/-- The engine of agreeing states inside a frame (rules R250, R251). -/
theorem Agree.engineStep {s t : State} (h : Agree s t) (hs : Inv s) (ht : Inv t) (hb : s.seq.busy = true) :
    AgreeNext (engineStep s) (engineStep t) := by
  obtain ⟨hp, hrem⟩ := hs.seq.busy_prepared hb
  have hrem' : t.seq.rem ≠ 0#16 := h.seq ▸ hrem
  have hsupply : t.frameSupply = s.frameSupply := by
    unfold State.frameSupply
    rw [h.popped, h.io]
  cases hpass : s.passing with
  | some k =>
    rw [engineStep_of_passing hrem hpass, engineStep_of_passing hrem' (h.passing ▸ hpass)]
    exact (h.passWord hp hb k).next
  | none =>
    have hpass' : t.passing = none := h.passing ▸ hpass
    rcases lt_or_ge s.frameSupply.length s.frameWords with hlen | hlen
    · rw [engineStep_of_short hrem hpass hlen, engineStep_of_short hrem' hpass' (by rwa [h.frameWords hp, hsupply])]
      exact (h.map (f := State.popAvailable) rfl rfl id And.intro).next
    · obtain ⟨u, v, hu, hv, huv, hseq⟩ := h.frameStep hs ht hb hpass hlen
      rw [engineStep_of_frame hrem hpass hlen hu, engineStep_of_frame hrem' hpass' (by rwa [h.frameWords hp, hsupply]) hv]
      exact (huv.endFrame (by rw [hseq]; exact hb)).next

/-- Hardware reset leaves of two states that agree one state (rules R370, R371). -/
theorem Agree.hardwareReset {s t : State} (h : Agree s t) : t.hardwareReset = s.hardwareReset := by
  rw [hardwareReset_eq, hardwareReset_eq, h.io, h.tick]

theorem Agree.step {s t : State} (h : Agree s t) (hs : Inv s) (ht : Inv t) : AgreeNext (step s) (step t) := by
  rcases step_cases s with ⟨hr, e⟩ | ⟨hr, hb, hc, ha, e⟩ | ⟨q, w, u, hu, e⟩ | ⟨hr, hb, u, hu, e⟩ <;> rw [e]
  · rw [step_of_rst (h.io ▸ hr), h.hardwareReset]
    exact (Agree.refl _).next
  · rw [step_of_idle (h.io ▸ hr) (h.seq ▸ hb) (h.io ▸ hc) (h.io ▸ ha)]
    exact h.next
  · obtain ⟨v, hv, huv⟩ := h.takes hu
    obtain ⟨hu', hq⟩ := hs.takes hu
    obtain ⟨hv', -⟩ := ht.takes hv
    rw [step_of_takes hv]
    exact huv.perform hu' hv' w hq
  · obtain ⟨v, hv, huv⟩ := h.enters hu
    have hbusy : u.seq.busy = true := by
      obtain ⟨n, rfl⟩ := hu.eq
      exact hb
    rw [step_of_enters (h.io ▸ hr) (h.seq ▸ hb) hv]
    exact huv.engineStep (hs.enters hb hu) (ht.enters (h.seq ▸ hb) hv) hbusy

/-- Settles O20: the four cases of a step, and for a processed frame the effect of the frame step (O44). -/
theorem stepIsBlindToUnspecifiedState : Obligations.StepIsBlindToUnspecifiedState := by
  unfold Obligations.StepIsBlindToUnspecifiedState
  intro s t s' hs ht h hstep
  obtain ⟨u, t', hu, ht', huv⟩ := h.step hs ht
  obtain rfl := Host.Outcome.next.inj (hu.symm.trans hstep)
  exact ⟨t', ht', huv⟩

end Sys2Proof.Machine
end
